-- ==== Sys2Proof/Word.lean ====
section
/-! DEFINITION. The words of the part and the numbers of its like pieces (spec/00_scope.md, Conventions). -/

namespace Sys2Proof

/-- One byte of a memory image, a window or a pool. -/
abbrev Byte := BitVec 8

/-- One register of the register window (R202). -/
abbrev Word := BitVec 32

/-- A 64-bit host address (R222). -/
abbrev HostAddr := BitVec 64

/-- A job slot number, 0 to 31 (R115). -/
abbrev SlotNo := Fin 32

/-- A formatting unit number, FU0 to FU3 (R142). -/
abbrev FuNo := Fin 4

/-- A submission queue number, 0 to 7 (R174). -/
abbrev SqNo := Fin 8

/-- A completion queue number, 0 to 7 (R175). -/
abbrev CqNo := Fin 8

/-- One of the 32 read tags (R212). -/
abbrev ReadTag := Fin 32

/-- A layout id, 0 to 127 (R1). -/
abbrev LayoutNo := Fin 128

/-- A code table id, 0 to 15 (R87). -/
abbrev TableNo := Fin 16

/-- A totals group number, 0 to 7 (R163). -/
abbrev GroupNo := Fin 8

/-- An accumulator number, 0 to 15 (R163). -/
abbrev AccNo := Fin 16

end Sys2Proof
end

