-- ==== Sys2Proof/Config.lean ====
section
/-! DEFINITION. The part's fixed sizes, and the free values: constants without a body for what the manual leaves open. -/

namespace Sys2Proof.Config

/-- Handed writes the write queue holds (R214). -/
def writeQueueSize : Nat := 64

/-- Host address boundary at which link reads and link writes are divided (R212, R214). -/
def linkSpan : Nat := 512

/-- Bytes of a source window and of an output staging window (R143). -/
def windowSize : Nat := 4096

/-- Source bytes of a TRANSLATE chunk and offsets of a COMPARE chunk (R97, R101). -/
def chunkSize : Nat := 256

/-- Locations of the directive pool (R4). -/
def directivePoolSize : Nat := 8192

/-- Locations of the literal pool (R4). -/
def literalPoolSize : Nat := 32768

/-- Bytes of one directive's encoding (R226). -/
def directiveBytes : Nat := 8

/-- Bytes of a picture record (R226). -/
def pictureBytes : Nat := 24

/-- Bytes of a layout image header (R226). -/
def headerBytes : Nat := 16

/-- Bytes of the longest layout image (R226). -/
def maxImageBytes : Nat := 2568

/-- Bytes of a code table image (R227). -/
def codesImageBytes : Nat := 1024

/-- Bytes of a totals snapshot record (R227). -/
def snapshotBytes : Nat := 24

/-- Largest magnitude of an accumulator (R163). -/
def accumulatorLimit : Nat := 10 ^ 31 - 1

/-- Largest add count (R163). -/
def addCountLimit : Nat := 4294967295

/-- Largest source length, destination capacity and compare offset of a request (R120). -/
def lengthLimit : Nat := 16777215

/-- What a byte of an on-chip RAM reads as when nothing has written it. DESIGN CHOICE, unsafe (log 3): the manual
gives none, and no rule lets such a byte be read. -/
def unlistedByte : Byte := 0

/-- How many consequences one event may bring about inside the part before the next command is taken. DESIGN
CHOICE, unsafe (log 8): the consequences of an event end by themselves long before. -/
def quiesceFuel : Nat := 1024

/-- FREE VALUE (log 4): the host address at a distance from a base when the sum is no 64-bit number. The manual
states no result there. -/
opaque addressBeyond : HostAddr → Nat → HostAddr

/-- FREE VALUE (log 5): the choice the part makes where the manual says that several may come in any order. The
argument counts the choices made so far. -/
opaque freeOrder : Nat → Nat

/-- FREE VALUE (log 27): whether a record or chunk handed after the engine has become HALTED raises the counts of its
job's slot, as R28 and R161 say, or leaves every field of the slot as it stands, as R140 says. -/
opaque haltedCountsRise : Bool

/-- FREE VALUE (log 28): the NOTIFY bit of a queue event's record, which R190 does not give. -/
opaque eventNotify : Bool

/-- FREE VALUE (log 25): whether a TRANSLATE whose chunk read faults ends with the detail READ, as R130, R153 and R213 say,
or with none, as the table of R99 says. -/
opaque translateFaultIsRead : Bool

end Sys2Proof.Config
end

