-- ==== Sys2Proof/Syntax.lean ====
section
/-! DEFINITION. The commands and events of spec/opcode_table.json, one constructor per row. -/

namespace Sys2Proof

/-- Width of a host write to the register region. A write narrower than 32 bits is ignored (R202). -/
inductive AccessWidth where
  | byte | half | word
  deriving DecidableEq, Repr

/-- Storage cells whose parity an event finds no longer to match: job slots (R115), directive pool locations and
literal pool locations (R4). The manual gives no cause for a parity error, so the event itself says where one has
struck (log 9). -/
structure Upset where
  slots : List SlotNo := []
  directives : List Nat := []
  literals : List Nat := []
  deriving DecidableEq, Repr

/-- The owner that a handed write carries (R214). -/
inductive Owner where
  /-- A write of a job: its slot, the job's take order, the record index and the destination offset. -/
  | job (slot : SlotNo) (takeOrder record offset : Nat)
  /-- A completion record or a queue event, by its CQ. -/
  | completion (cq : CqNo)
  /-- A head field of the progress block. -/
  | progressHead (sq : SqNo)
  /-- A tail field of the progress block. -/
  | progressTail (cq : CqNo)
  /-- The zeroing of the progress block at setup. -/
  | progressBlock
  /-- A message interrupt. -/
  | message (cq : CqNo)
  deriving DecidableEq, Repr

/-- One command of the host, or one event that reaches the part. -/
inductive Instr where
  -- The register window (R202 to R211).
  | start
  | pause
  | resume
  | reset
  | clear
  | ackProtocol
  /-- A write of `w` to CTRL that R203 marks P, or any other word written to CTRL. -/
  | ctrlInvalidCommand (w : Word)
  /-- A write of `w` to POST. -/
  | post (w : Word)
  /-- A write of `w` to RETIRE. -/
  | retire (w : Word)
  /-- A write of `value`, `width` wide, at an offset of the 4096-byte register region. -/
  | registerWrite (offset : BitVec 12) (width : AccessWidth) (value : Word)
  | linkReset
  | powerOn
  -- The link (R212 to R217).
  /-- The head of the read queue is issued under the read tag named. -/
  | linkReadIssue (tag : ReadTag)
  /-- A data answer to the link read issued as number `stamp` under `tag`. -/
  | linkReadAnswer (tag : ReadTag) (stamp : Nat) (data : List Byte) (u : Upset)
  /-- An error answer to the link read issued as number `stamp` under `tag`. -/
  | linkReadError (tag : ReadTag) (stamp : Nat) (u : Upset)
  /-- 64 µs have passed since the link read number `stamp` was issued under `tag`. -/
  | linkReadTimeout (tag : ReadTag) (stamp : Nat) (u : Upset)
  /-- The head of the write queue is issued: all its link writes, or only the next `k` of them. -/
  | writeIssue (limit : Option Nat) (u : Upset)
  | writeFaultReport (owner : Owner) (u : Upset)
  | holdTimerExpiry (cq : CqNo)
  -- Formatting units (chapters 2 to 5 and 7).
  | directiveBoundary (fu : FuNo) (u : Upset)
  | copy (fu : FuNo) (u : Upset)
  | copyUntil (fu : FuNo) (u : Upset)
  | skip (fu : FuNo) (u : Upset)
  | literal (fu : FuNo) (u : Upset)
  | fill (fu : FuNo) (u : Upset)
  | padTo (fu : FuNo) (u : Upset)
  | check (fu : FuNo) (u : Upset)
  | number (fu : FuNo) (u : Upset)
  | addTotal (fu : FuNo) (u : Upset)
  | repeatGroup (fu : FuNo) (u : Upset)
  -- Totals (chapter 8).
  | recordBatch (fu : FuNo)
  | batchAnswer (fu : FuNo) (u : Upset)
  deriving DecidableEq, Repr

end Sys2Proof
end

