-- ==== Sys2Proof/Decode.lean ====
section
/-! DEFINITION. The commands as words of the table's bits. No row of spec/opcode_table.json gives bits, so no word
spells a command (log 2). -/

namespace Sys2Proof

/-- The command that `nbits` bits `w` spell by the table's bits: none, since no row gives any. -/
def decodeTableWord (_nbits _w : Nat) : Option Instr := none

end Sys2Proof
end

