-- ==== Sys2Proof/Machine/State.lean ====
section
/-! DEFINITION. State: every piece of state the manual gives the part, grouped by its eight blocks, and the state after
power-on. INVENTORY.md lists each field with its rule. -/

namespace Sys2Proof.Machine

/-- An addressed on-chip RAM: addresses strictly rising, no entry equal to what an unlisted address reads as. -/
abbrev Cells := List Host.Cell

/-! ## Names -/

/-- Engine states (R203). -/
inductive EngineState where
  | off | setup | running | pausing | paused | halted
  deriving DecidableEq, Repr

/-- Setup results of STAT (R202, R206). -/
inductive SetupResult where
  | none | success | badCount | badSize | badAlign | badBinding | badLimit | readFault
  deriving DecidableEq, Repr

/-- Fatal fault codes of FAULT (R202, R218). -/
inductive FatalCode where
  | none | completionWrite | progressWrite | slotParity
  deriving DecidableEq, Repr

/-- Queue types of FAULT (R202). -/
inductive QueueType where
  | none | sq | cq | block
  deriving DecidableEq, Repr

/-- The eleven request kinds (R223). -/
inductive ReqKind where
  | format | parse | translate | compare | loadLayout | dropLayout | loadCodes | dropCodes
  | readTotals | clearTotals | abort
  deriving DecidableEq, Repr

/-- Completion statuses (R224). -/
inductive Status where
  | success | fieldStop | aborted | chainBroken | badRequest | duplicateTag | noLayout | wrongDirection
  | layoutDamaged | layoutBusy | noCodes | codesBusy | noSpace | badImage | destFull | hostAccess | engineFault
  | abortDone | abortLate | abortNoTarget | abortPending | abortRefused
  deriving DecidableEq, Repr

/-- The eight field fault kinds (chapter 5). -/
inductive FieldFault where
  | digit | sign | size | trunc | unsigned | total | delim | cls
  deriving DecidableEq, Repr

/-- Detail codes (R224). -/
inductive Detail where
  | none
  | kind | reserved | recordCount | layoutId | codeTableId | totalsGroup | stopMask | source | destination | kindWord
  | sourceShort | totalsMissing
  | imageLength | direction | sourceLength | directiveCount | literalCount | terminator | directiveKind | operand
  | literalRef | picture | numberDigits | repeatNest | repeatSpan | sourceReach | outputMax
  | classSet | digitPresence | digitValue
  | directivePool | literalPool
  | field (f : FieldFault)
  | stopFound | sourceEnd
  | read | write | settle
  | parity | damaged
  | fetchFault | indexError
  deriving DecidableEq, Repr

/-- Results of a COMPARE (R100, R224). -/
inductive CompareResult where
  | absent | less | equal | greater
  deriving DecidableEq, Repr

/-- Service classes of an SQ and of its jobs (R174). -/
inductive QueueClass where
  | urgent | normal
  deriving DecidableEq, Repr

/-- Job slot states (R116). -/
inductive JobState where
  | free | fetched | waitChain | waitLayout | ready | running | suspended | service | draining | posting
  deriving DecidableEq, Repr

/-- References a job holds (R115). -/
inductive Refs where
  | none | layout | both | codes
  deriving DecidableEq, Repr

/-- Chain state of one SQ (R123). -/
inductive ChainState where
  | none
  | isOpen (last : SlotNo)
  | brokenPending
  deriving DecidableEq, Repr

/-- Layout directions (R1). -/
inductive Direction where
  | outward | inward
  deriving DecidableEq, Repr

/-- Layout slot states (R2). -/
inductive LayoutState where
  | empty | ready | replacing | dropping | damaged
  deriving DecidableEq, Repr

/-- The last-value state of a record (R44). -/
inductive LastState where
  | none | negative | zero | positive
  deriving DecidableEq, Repr

/-- Formatting unit states (R142). -/
inductive UnitState where
  | idle | busy | stopped
  deriving DecidableEq, Repr

/-- The eight character classes of a class set (R86). -/
inductive CharClass where
  | delim | digit | space | plus | minus | overPos | overNeg | stop
  deriving DecidableEq, Repr

/-! ## Host link unit -/

/-- The FAULT record (R202, R218). -/
structure FaultRecord where
  code : FatalCode := .none
  queueType : QueueType := .none
  queue : Fin 8 := 0
  slot : SlotNo := 0
  deriving DecidableEq, Repr

/-- Who asked for a read (R212). -/
inductive Requester where
  | setup
  | fetch (sq : SqNo)
  | unit (fu : FuNo)
  | layoutLoad
  | codesLoad
  | settle (slot : SlotNo)
  deriving DecidableEq, Repr

/-- One link read (R212): its requester, which of the requester's reads it belongs to (a COMPARE chunk has two), its
address and length, where its data goes in the requester's window or buffer, and whether its data is still wanted. -/
structure LinkRead where
  requester : Requester
  part : Nat
  addr : HostAddr
  len : Nat
  place : Nat
  live : Bool
  deriving DecidableEq, Repr

/-- A link read issued under a read tag; `stamp` numbers the issues, so that an answer to an earlier read of the
same tag is told apart (R213, R221). -/
structure InFlight where
  read : LinkRead
  stamp : Nat
  deriving DecidableEq, Repr

/-- Who hands a write (R214). -/
inductive Writer where
  | unit (fu : FuNo)
  | totals
  | queueManager
  | linkUnit
  deriving DecidableEq, Repr

/-- A handed write or message (R214, R217). `serial` names it, in place of its position in the queue; `issued` counts
the link writes of it already issued (R219). -/
structure HandedWrite where
  serial : Nat
  writer : Writer
  owner : Owner
  addr : HostAddr
  data : List Byte
  vector : Option (Fin 32)
  issued : Nat
  deriving DecidableEq, Repr

/-- Settle tracking of one job slot (R216). -/
structure Settle where
  handed : Bool := false
  lastWrite : Option Nat := none
  refused : Option (Nat × Nat) := none
  reading : Bool := false
  deriving DecidableEq, Repr

/-- What the part puts on the link. -/
inductive LinkOp where
  | read (tag : ReadTag) (addr : HostAddr) (len : Nat)
  | write (addr : HostAddr) (data : List Byte) (owner : Owner)
  | message (vector : Fin 32) (owner : Owner)
  deriving DecidableEq, Repr

/-- State of the Host Link Unit (chapter 10). `out` is its link port: what the last issuing command put there. -/
structure Hlu where
  engine : EngineState
  setupLo : Word
  setupHi : Word
  protocol : Bool
  setupResult : SetupResult
  fault : FaultRecord
  latched : Option HostAddr
  setupBuf : Cells
  readQueue : List LinkRead
  tags : Vector (Option InFlight) 32
  writeQueue : List HandedWrite
  waiting : List HandedWrite
  writeSerial : Nat
  settle : Vector Settle 32
  out : List LinkOp
  deriving DecidableEq, Repr

/-! ## Queue manager -/

/-- A submission queue descriptor (R174). `fetchBuf` holds the request record while its read is in flight. -/
structure Sq where
  configured : Bool := false
  base : HostAddr := 0
  size : Nat := 0
  boundCq : CqNo := 0
  cls : QueueClass := .normal
  maxOutstanding : Nat := 0
  head : Nat := 0
  tail : Nat := 0
  broken : Bool := false
  outstanding : Nat := 0
  fetchInFlight : Bool := false
  eventUsed : Bool := false
  fetchBuf : Cells := []
  deriving DecidableEq, Repr

/-- A completion queue descriptor (R175). The hold timer holds the time in µs after which it expires. -/
structure Cq where
  configured : Bool := false
  base : HostAddr := 0
  size : Nat := 0
  interruptEnable : Bool := false
  vector : Fin 32 := 0
  threshold : Nat := 0
  holdTime : Nat := 0
  tail : Nat := 0
  retireIndex : Nat := 0
  postedUnretired : Nat := 0
  reservations : Nat := 0
  eventReserves : Nat := 0
  unsignalled : Nat := 0
  holdTimer : Option Nat := none
  deriving DecidableEq, Repr

/-- First-fault record of a job (R105). -/
structure FirstFault where
  record : Nat
  directive : Nat
  kind : FieldFault
  deriving DecidableEq, Repr

/-- A completion record or queue event, less the SQ head that the QM fills in when it writes it (R138, R190). -/
structure CompletionRecord where
  event : Bool := false
  sq : SqNo := 0
  tag : BitVec 16 := 0
  status : Option Status := none
  detail : Detail := .none
  detailArg : Byte := 0
  faults : Byte := 0
  anyFault : Bool := false
  first : Option FirstFault := none
  recordsDone : Nat := 0
  bytesWritten : Nat := 0
  compareOffset : Nat := 0
  version : Byte := 0
  compareResult : CompareResult := .absent
  notify : Bool := false
  deriving DecidableEq, Repr

/-- An entry of the posting queue (R191); a queue event has no slot. -/
structure PostEntry where
  slot : Option SlotNo
  record : CompletionRecord
  deriving DecidableEq, Repr

/-- State of the Queue Manager (chapter 9). `inPosting` names the two writes of the posting in progress at the head of
the posting queue (R192). -/
structure Qm where
  sqs : Vector Sq 8
  cqs : Vector Cq 8
  posting : List PostEntry
  inPosting : Option (Nat × Nat)
  lastUrgent : Option SqNo
  lastNormal : Option SqNo
  progressBase : HostAddr
  deriving DecidableEq, Repr

/-! ## Job table -/

/-- The request fields of a slot (R223). `kind` is none for a code that names no kind; `reservedSet` says that a
reserved byte or flag bit of the record was not zero. -/
structure Request where
  kind : Option ReqKind := none
  chain : Bool := false
  notify : Bool := false
  tag : BitVec 16 := 0
  stopMask : Byte := 0
  layoutId : Byte := 0
  codeTableId : Byte := 0
  totalsGroup : Byte := 0
  srcAddr : HostAddr := 0
  srcLen : Nat := 0
  dstCap : Nat := 0
  dstAddr : HostAddr := 0
  recordCount : Nat := 0
  kindWord : Word := 0
  reservedSet : Bool := false
  deriving DecidableEq, Repr

/-- One accumulator (R163). -/
structure Accumulator where
  value : Int := 0
  count : Nat := 0
  deriving DecidableEq, Repr

/-- A job slot (R115). `abortOutcome` is the outcome an ABORT was resolved with while it waits; `endedAborted` says that
the job was decided ABORTED before DRAINING (R134); `snapshot` is the snapshot of a READ_TOTALS (R168). -/
structure Job where
  state : JobState := .free
  sq : SqNo := 0
  cls : QueueClass := .normal
  takeOrder : Nat := 0
  req : Request := {}
  tagCarried : Bool := false
  pred : Option SlotNo := none
  boundLayout : Option (LayoutNo × Byte) := none
  boundCodes : Option TableNo := none
  refs : Refs := .none
  abortPending : Bool := false
  abortTarget : Option SlotNo := none
  abortOutcome : Option Status := none
  endedAborted : Bool := false
  suspension : Option Nat := none
  faults : Byte := 0
  anyFault : Bool := false
  first : Option FirstFault := none
  recordsDone : Nat := 0
  bytesWritten : Nat := 0
  status : Option Status := none
  detail : Detail := .none
  detailArg : Byte := 0
  version : Byte := 0
  compareResult : CompareResult := .absent
  compareOffset : Nat := 0
  snapshot : List Accumulator := []
  deriving DecidableEq, Repr

/-- State of the Job Table (chapter 6). `badParity` lists the slots whose stored parity no longer matches (R140). -/
structure Jt where
  slots : Vector Job 32
  chains : Vector ChainState 8
  nextTake : Nat
  badParity : List SlotNo
  deriving DecidableEq, Repr

/-! ## Scheduler and formatting units -/

/-- An entry of the ready order (R145). -/
structure ReadyEntry where
  slot : SlotNo
  cls : QueueClass
  takeOrder : Nat
  suspended : Bool
  deriving DecidableEq, Repr

/-- State of the Scheduler (chapter 7). -/
structure Sch where
  ready : List ReadyEntry
  nextStamp : Nat
  deriving DecidableEq, Repr

/-- An installed or staged layout image: its header and derived values and its two extents (R1). -/
structure LayoutImage where
  direction : Direction := .outward
  srcLen : Nat := 0
  maxOut : Nat := 0
  totalsUse : Bool := false
  terminator : List Byte := []
  faultFill : Byte := 0
  directiveCount : Nat := 0
  literalCount : Nat := 0
  directiveStart : Nat := 0
  literalStart : Option Nat := none
  deriving DecidableEq, Repr

/-- The repeat state of a record (R46). -/
structure RepeatState where
  first : Nat
  last : Nat
  remaining : Nat
  deriving DecidableEq, Repr

/-- What a unit does once a write it hands has joined the write queue (R97, R51). -/
inductive AfterHand where
  | onward
  | ending (status : Status) (detail : Detail)
  deriving DecidableEq, Repr

/-- Where a BUSY unit stands in its record or chunk (R28, R31, R49, R214). -/
inductive Phase where
  | readWait
  | boundary
  | directive
  | batchSubmitted
  | batchAnswered (applied : Bool)
  | writeWait (next : AfterHand)
  | finalBoundary
  deriving DecidableEq, Repr

/-- The context of a BUSY unit (R143) and, held beside it, the header values of the bound layout, the bound code table and
the request fields. -/
structure Context where
  slot : SlotNo
  kind : ReqKind
  stamp : Nat
  recordIndex : Nat
  chunkIndex : Nat
  directiveIndex : Nat
  rep : Option RepeatState
  srcCursor : Nat
  dstCursor : Nat
  lastState : LastState
  lastValue : Option Int
  batch : List (AccNo × Int)
  phase : Phase
  layout : LayoutNo
  image : LayoutImage
  table : TableNo
  req : Request
  deriving DecidableEq, Repr

/-- A formatting unit (R142, R143). -/
structure Fu where
  state : UnitState := .idle
  ctx : Option Context := none
  suspendRequested : Bool := false
  srcWindow : Cells := []
  stgWindow : Cells := []
  deriving DecidableEq, Repr

/-! ## Stores and totals -/

/-- A run of consecutive pool locations (R4). -/
structure Extent where
  start : Nat
  len : Nat
  deriving DecidableEq, Repr

/-- A layout slot (R1). -/
structure LayoutSlot where
  state : LayoutState := .empty
  version : Byte := 0
  everInstalled : Bool := false
  image : LayoutImage := {}
  refCount : Nat := 0
  damaged : Bool := false
  staged : Option LayoutImage := none
  service : Option SlotNo := none
  deriving DecidableEq, Repr

/-- State of the Layout Store (chapter 1): slots, pools with their free lists and parity, load queue, image buffer. -/
structure Ls where
  slots : Vector LayoutSlot 128
  dirFree : List Extent
  litFree : List Extent
  dirPool : Cells
  litPool : Cells
  dirBad : List Nat
  litBad : List Nat
  queue : List SlotNo
  bufferHeld : Bool
  buffer : Cells
  deriving DecidableEq, Repr

/-- An entry of a code table (R86). -/
structure CodeEntry where
  target : Byte := 0
  classes : Byte := 0
  digit : Option Nat := none
  deriving DecidableEq, Repr

/-- A code table (R87). -/
structure CodeTable where
  ready : Bool := false
  entries : List CodeEntry := []
  refCount : Nat := 0
  service : Option SlotNo := none
  deriving DecidableEq, Repr

/-- State of the Code Table Store (chapter 4). -/
structure Cts where
  tables : Vector CodeTable 16
  queue : List SlotNo
  bufferHeld : Bool
  buffer : Cells
  deriving DecidableEq, Repr

/-- State of the Totals Unit (chapter 8): 8 groups of 16 accumulators. -/
structure Tu where
  groups : Vector (Vector Accumulator 16) 8
  deriving DecidableEq, Repr

/-! ## The whole part -/

/-- The state of the part: its eight blocks, and three fields of the model's own: the commands that wait, the number of
link reads issued so far, and the number of free choices made so far (log 1, log 5, log 10). -/
structure State where
  hlu : Hlu
  qm : Qm
  jt : Jt
  sch : Sch
  fus : Vector Fu 4
  ls : Ls
  cts : Cts
  tu : Tu
  pending : List Instr
  readStamp : Nat
  choices : Nat
  deriving DecidableEq, Repr

/-- Why a command ends in a fault. -/
inductive Fault where
  /-- Raised by a directive event whose unit would read a directive or literal pool location that does not exist (R4).
  The image checks keep every reference inside (R10), so no run meets it. Safe. -/
  | poolRange
  /-- Raised by a unit event that would reach outside a 4096-byte window (R143). The static measures keep every record
  inside (R33, R34), so no run meets it. Safe. -/
  | windowRange
  /-- Raised by a NUMBER whose picture record does not decode. The image checks admit no such image (R7), so no run
  meets it. Safe. -/
  | uncheckedImage
  deriving DecidableEq, Repr

/-- Why a command is refused. -/
inductive Refusal where
  /-- The command has no meaning yet. Safe. -/
  | notModelled (mnemonic : String)
  /-- Raised by an event that cannot happen in the state: nothing stands at the point the event names, as for a directive
  at a unit that has none to execute, a link read to issue from an empty queue, or the expiry of a stopped timer. Safe:
  the manual gives no such event. -/
  | eventNotDue
  /-- Raised by a data answer whose length is not the length of its link read: the link answers a read with the data
  asked for (R212). Safe. -/
  | answerLength
  deriving DecidableEq, Repr

/-- The part right after power-on, with no command waiting (R25, R95, R141, R162, R173, R201, R220). -/
def State.reset : State where
  hlu :=
    { engine := .off, setupLo := 0, setupHi := 0, protocol := false, setupResult := .none, fault := {},
      latched := none, setupBuf := [], readQueue := [], tags := Vector.replicate 32 none, writeQueue := [],
      waiting := [], writeSerial := 0, settle := Vector.replicate 32 {}, out := [] }
  qm :=
    { sqs := Vector.replicate 8 {}, cqs := Vector.replicate 8 {}, posting := [], inPosting := none,
      lastUrgent := none, lastNormal := none, progressBase := 0 }
  jt := { slots := Vector.replicate 32 {}, chains := Vector.replicate 8 .none, nextTake := 0, badParity := [] }
  sch := { ready := [], nextStamp := 0 }
  fus := Vector.replicate 4 {}
  ls :=
    { slots := Vector.replicate 128 {}, dirFree := [⟨0, Config.directivePoolSize⟩],
      litFree := [⟨0, Config.literalPoolSize⟩], dirPool := [], litPool := [], dirBad := [], litBad := [],
      queue := [], bufferHeld := false, buffer := [] }
  cts := { tables := Vector.replicate 16 {}, queue := [], bufferHeld := false, buffer := [] }
  tu := { groups := Vector.replicate 8 (Vector.replicate 16 {}) }
  pending := []
  readStamp := 0
  choices := 0

end Sys2Proof.Machine
end

