-- ==== Sys2Proof/Machine/Ops.lean ====
section
/-! DEFINITION. Operations over the addressed RAMs and the state's accessors: one home for every read and write of a
slot, a unit, a descriptor or a store entry. -/

namespace Sys2Proof.Machine

/-! ## Addressed RAM -/

/-- The byte at an address. -/
def readByte : Cells → Nat → Byte
  | [], _ => Config.unlistedByte
  | (k, b) :: m, a => if k = a then b else readByte m a

/-- Write one byte, keeping the canonical form. -/
def writeByte : Cells → Nat → Byte → Cells
  | [], a, b => if b = Config.unlistedByte then [] else [(a, b)]
  | (k, v) :: m, a, b =>
    if a < k then (if b = Config.unlistedByte then (k, v) :: m else (a, b) :: (k, v) :: m)
    else if a = k then (if b = Config.unlistedByte then m else (a, b) :: m)
    else (k, v) :: writeByte m a b

/-- The `n` bytes from an address on, lowest address first. -/
def readBytes (m : Cells) (a : Nat) : Nat → List Byte
  | 0 => []
  | n + 1 => readByte m a :: readBytes m (a + 1) n

/-- Write bytes from an address on, the first at the lowest address. -/
def writeBytes (m : Cells) (a : Nat) : List Byte → Cells
  | [] => m
  | b :: bs => writeBytes (writeByte m a b) (a + 1) bs

/-- No entry lies at or below `lo`, addresses rise strictly, and no entry equals what an unlisted address reads as. -/
def cellsAbove : Nat → Cells → Bool
  | _, [] => true
  | lo, (k, b) :: m => lo ≤ k && b != Config.unlistedByte && cellsAbove (k + 1) m

/-- The canonical form of an addressed RAM. -/
def Memory.wf (m : Cells) : Bool := cellsAbove 0 m

/-! ## Vectors -/

/-- Change one entry of a vector. -/
def modifyAt {α : Type} {n : Nat} (v : Vector α n) (i : Fin n) (f : α → α) : Vector α n := v.set i (f v[i])

/-- Change every entry of a vector. -/
def mapAll {α β : Type} {n : Nat} (f : α → β) (v : Vector α n) : Vector β n :=
  ⟨⟨v.toList.map f⟩, by simp⟩

/-! ## Accessors -/

namespace State

/-- The job slot `j`. -/
def job (s : State) (j : SlotNo) : Job := s.jt.slots[j]

/-- Change the job slot `j`. -/
def modJob (s : State) (j : SlotNo) (f : Job → Job) : State :=
  { s with jt := { s.jt with slots := modifyAt s.jt.slots j f } }

/-- The unit `k`. -/
def fu (s : State) (k : FuNo) : Fu := s.fus[k]

/-- Change the unit `k`. -/
def modFu (s : State) (k : FuNo) (f : Fu → Fu) : State := { s with fus := modifyAt s.fus k f }

/-- Change the context of the unit `k`, if it has one. -/
def modCtx (s : State) (k : FuNo) (f : Context → Context) : State :=
  s.modFu k fun x => { x with ctx := x.ctx.map f }

/-- The SQ descriptor `q`. -/
def sq (s : State) (q : SqNo) : Sq := s.qm.sqs[q]

/-- Change the SQ descriptor `q`. -/
def modSq (s : State) (q : SqNo) (f : Sq → Sq) : State := { s with qm := { s.qm with sqs := modifyAt s.qm.sqs q f } }

/-- The CQ descriptor `q`. -/
def cq (s : State) (q : CqNo) : Cq := s.qm.cqs[q]

/-- Change the CQ descriptor `q`. -/
def modCq (s : State) (q : CqNo) (f : Cq → Cq) : State := { s with qm := { s.qm with cqs := modifyAt s.qm.cqs q f } }

/-- The chain state of the SQ `q`. -/
def chain (s : State) (q : SqNo) : ChainState := s.jt.chains[q]

/-- Set the chain state of the SQ `q`. -/
def setChain (s : State) (q : SqNo) (c : ChainState) : State :=
  { s with jt := { s.jt with chains := modifyAt s.jt.chains q fun _ => c } }

/-- The layout slot `l`. -/
def layout (s : State) (l : LayoutNo) : LayoutSlot := s.ls.slots[l]

/-- Change the layout slot `l`. -/
def modLayout (s : State) (l : LayoutNo) (f : LayoutSlot → LayoutSlot) : State :=
  { s with ls := { s.ls with slots := modifyAt s.ls.slots l f } }

/-- The code table `t`. -/
def table (s : State) (t : TableNo) : CodeTable := s.cts.tables[t]

/-- Change the code table `t`. -/
def modTable (s : State) (t : TableNo) (f : CodeTable → CodeTable) : State :=
  { s with cts := { s.cts with tables := modifyAt s.cts.tables t f } }

/-- The totals group `g`. -/
def group (s : State) (g : GroupNo) : Vector Accumulator 16 := s.tu.groups[g]

/-- Set the totals group `g`. -/
def setGroup (s : State) (g : GroupNo) (v : Vector Accumulator 16) : State :=
  { s with tu := { s.tu with groups := modifyAt s.tu.groups g fun _ => v } }

/-- The settle tracking of the slot `j`. -/
def settle (s : State) (j : SlotNo) : Settle := s.hlu.settle[j]

/-- Change the settle tracking of the slot `j`. -/
def modSettle (s : State) (j : SlotNo) (f : Settle → Settle) : State :=
  { s with hlu := { s.hlu with settle := modifyAt s.hlu.settle j f } }

/-- The link read under the read tag `t`. -/
def tag (s : State) (t : ReadTag) : Option InFlight := s.hlu.tags[t]

/-- Set what stands under the read tag `t`. -/
def setTag (s : State) (t : ReadTag) (x : Option InFlight) : State :=
  { s with hlu := { s.hlu with tags := modifyAt s.hlu.tags t fun _ => x } }

/-- Set the PROTOCOL flag (R211). -/
def setProtocol (s : State) : State := { s with hlu := { s.hlu with protocol := true } }

/-- Move the engine state (R203). -/
def setEngine (s : State) (e : EngineState) : State := { s with hlu := { s.hlu with engine := e } }

/-- The engine is RUNNING, PAUSING or PAUSED: jobs live and writes are issued. -/
def live (s : State) : Bool :=
  match s.hlu.engine with
  | .running | .pausing | .paused => true
  | .off | .setup | .halted => false

/-- The engine is HALTED. -/
def halted (s : State) : Bool := s.hlu.engine == .halted

/-- The first job slot with a property, in slot order. -/
def findSlot (s : State) (p : SlotNo → Job → Bool) : Option SlotNo :=
  (List.finRange 32).find? fun j => p j (s.job j)

/-- The job slots with a property, in slot order. -/
def slotsWhere (s : State) (p : SlotNo → Job → Bool) : List SlotNo :=
  (List.finRange 32).filter fun j => p j (s.job j)

/-- The units with a property, in unit order. -/
def unitsWhere (s : State) (p : Fu → Bool) : List FuNo := (List.finRange 4).filter fun k => p (s.fu k)

/-- Slots that are not FREE, as STAT shows them (R116). -/
def slotsInUse (s : State) : Nat := (s.slotsWhere fun _ x => x.state != .free).length

/-- BUSY units, as STAT shows them (R142). -/
def busyUnits (s : State) : Nat := (s.unitsWhere fun x => x.state == .busy).length

/-- One of `n` things that may come in any order: the only one, or a free choice (log 5). Answers its index and the
state that counts the choice. -/
def choose (s : State) (n : Nat) : Nat × State :=
  if n ≤ 1 then (0, s) else (Config.freeOrder s.choices % n, { s with choices := s.choices + 1 })

/-- One of the job slots with a property: the only one, or a free choice (log 5). Answers the slot, if there is one, and
the state that counts the choice. -/
def pickSlot (s : State) (p : SlotNo → Job → Bool) : Option SlotNo × State :=
  let js := s.slotsWhere p
  let (i, s) := s.choose js.length
  (js[i]?, s)

/-- The storage upsets of an event strike (log 9). -/
def strike (s : State) (u : Upset) : State :=
  { s with
    jt := { s.jt with badParity := u.slots ++ s.jt.badParity }
    ls := { s.ls with dirBad := u.directives ++ s.ls.dirBad, litBad := u.literals ++ s.ls.litBad } }

end State

/-! ## Host addresses -/

/-- The host address `n` bytes above `a`; a free value when the sum is no 64-bit number (log 4). -/
def hostAddr (a : HostAddr) (n : Nat) : HostAddr :=
  if a.toNat + n < 2 ^ 64 then BitVec.ofNat 64 (a.toNat + n) else Config.addressBeyond a n

/-- Offsets and lengths of the link reads or link writes of `len` bytes from `a`: they end at multiples of 512, and a
length of 0 is one that carries no data (R212, R214). -/
def linkPieces (a : HostAddr) (len : Nat) : List (Nat × Nat) :=
  let m := a.toNat % Config.linkSpan
  if len = 0 then [(0, 0)]
  else
    (List.range ((m + len + (Config.linkSpan - 1)) / Config.linkSpan)).map fun i =>
      (Config.linkSpan * i - m, min len (Config.linkSpan * (i + 1) - m) - (Config.linkSpan * i - m))

end Sys2Proof.Machine
end

