-- ==== Sys2Proof/Machine/Operands.lean ====
section
/-! DEFINITION. Every operand form: the fields of register words and of the memory images the part reads and writes
(chapter 11), with the codes of their enumerated fields. -/

namespace Sys2Proof.Machine

/-! ## Little-endian fields (R222) -/

/-- The number that bytes give, the first being the least significant. -/
def leNat : List Byte → Nat
  | [] => 0
  | b :: bs => b.toNat + 256 * leNat bs

/-- The number that bytes give, the first being the most significant. -/
def beNat (bs : List Byte) : Nat := leNat bs.reverse

/-- `n` bytes of a number, the least significant first. -/
def leBytes : Nat → Nat → List Byte
  | 0, _ => []
  | n + 1, v => BitVec.ofNat 8 v :: leBytes n (v / 256)

/-- The byte at an offset of an image. -/
def byteAt (bs : List Byte) (off : Nat) : Byte := bs.getD off 0

/-- The bytes of a field of an image. -/
def slice (bs : List Byte) (off n : Nat) : List Byte := (bs.drop off).take n

/-- A numeric field of `n` bytes at an offset of an image. -/
def fieldAt (bs : List Byte) (off n : Nat) : Nat := leNat (slice bs off n)

/-- Every byte of a field of an image is zero. -/
def zeroAt (bs : List Byte) (off n : Nat) : Bool := (slice bs off n).all (· == 0)

/-! ## Register words (R202) -/

/-- The queue number of a POST or RETIRE word. -/
def wordQueue (w : Word) : Fin 8 := ⟨w.toNat % 8, Nat.mod_lt _ (by decide)⟩

/-- The index of a POST or RETIRE word. -/
def wordIndex (w : Word) : Nat := w.toNat / 65536 % 2048

/-- A reserved bit of a POST or RETIRE word is set: a bit other than 2 to 0 and 26 to 16. -/
def wordReserved (w : Word) : Bool := w &&& 0xF800FFF8#32 != 0#32

/-! ## Codes -/

def EngineState.code : EngineState → Nat
  | .off => 0 | .setup => 1 | .running => 2 | .pausing => 3 | .paused => 4 | .halted => 5

def SetupResult.code : SetupResult → Nat
  | .none => 0 | .success => 1 | .badCount => 2 | .badSize => 3 | .badAlign => 4 | .badBinding => 5
  | .badLimit => 6 | .readFault => 7

def FatalCode.code : FatalCode → Nat
  | .none => 0 | .completionWrite => 1 | .progressWrite => 2 | .slotParity => 3

def QueueType.code : QueueType → Nat
  | .none => 0 | .sq => 1 | .cq => 2 | .block => 3

/-- The request kind of a code (R223). -/
def ReqKind.ofCode (b : Byte) : Option ReqKind :=
  match b.toNat with
  | 1 => some .format | 2 => some .parse | 3 => some .translate | 4 => some .compare | 5 => some .loadLayout
  | 6 => some .dropLayout | 7 => some .loadCodes | 8 => some .dropCodes | 9 => some .readTotals
  | 10 => some .clearTotals | 11 => some .abort | _ => none

/-- A management kind: it is served, not run on a unit. -/
def ReqKind.management : ReqKind → Bool
  | .format | .parse | .translate | .compare => false
  | .loadLayout | .dropLayout | .loadCodes | .dropCodes | .readTotals | .clearTotals | .abort => true

/-- Bit numbers of the fault kinds (R222). -/
def FieldFault.bit : FieldFault → Nat
  | .digit => 0 | .sign => 1 | .size => 2 | .trunc => 3 | .unsigned => 4 | .total => 5 | .delim => 6 | .cls => 7

/-- Bit numbers of the character classes (R222). -/
def CharClass.bit : CharClass → Nat
  | .delim => 0 | .digit => 1 | .space => 2 | .plus => 3 | .minus => 4 | .overPos => 5 | .overNeg => 6 | .stop => 7

/-- Status codes (R224). -/
def Status.code : Status → Nat
  | .success => 0x01 | .fieldStop => 0x02 | .aborted => 0x03 | .chainBroken => 0x04 | .badRequest => 0x05
  | .duplicateTag => 0x06 | .noLayout => 0x07 | .wrongDirection => 0x08 | .layoutDamaged => 0x09
  | .layoutBusy => 0x0A | .noCodes => 0x0B | .codesBusy => 0x0C | .noSpace => 0x0D | .badImage => 0x0E
  | .destFull => 0x0F | .hostAccess => 0x10 | .engineFault => 0x11 | .abortDone => 0x12 | .abortLate => 0x13
  | .abortNoTarget => 0x14 | .abortPending => 0x15 | .abortRefused => 0x16

/-- Detail codes (R224). -/
def Detail.code : Detail → Nat
  | .none => 0x00
  | .kind => 0x01 | .reserved => 0x02 | .recordCount => 0x03 | .layoutId => 0x04 | .codeTableId => 0x05
  | .totalsGroup => 0x06 | .stopMask => 0x07 | .source => 0x08 | .destination => 0x09 | .kindWord => 0x0A
  | .sourceShort => 0x0B | .totalsMissing => 0x0C
  | .imageLength => 0x10 | .direction => 0x11 | .sourceLength => 0x12 | .directiveCount => 0x13
  | .literalCount => 0x14 | .terminator => 0x15 | .directiveKind => 0x16 | .operand => 0x17 | .literalRef => 0x18
  | .picture => 0x19 | .numberDigits => 0x1A | .repeatNest => 0x1B | .repeatSpan => 0x1C | .sourceReach => 0x1D
  | .outputMax => 0x1E
  | .classSet => 0x1F | .digitPresence => 0x20 | .digitValue => 0x21
  | .directivePool => 0x28 | .literalPool => 0x29
  | .field f => 0x30 + f.bit
  | .stopFound => 0x40 | .sourceEnd => 0x41
  | .read => 0x48 | .write => 0x49 | .settle => 0x4A
  | .parity => 0x50 | .damaged => 0x51
  | .fetchFault => 0x58 | .indexError => 0x59

/-- Compare result codes (R224). -/
def CompareResult.code : CompareResult → Nat
  | .absent => 0 | .less => 1 | .equal => 2 | .greater => 3

/-! ## Request record (R223) -/

/-- The request fields of a 64-byte request record. -/
def Request.parse (bs : List Byte) : Request where
  kind := ReqKind.ofCode (byteAt bs 0x00)
  chain := (byteAt bs 0x01).getLsbD 0
  notify := (byteAt bs 0x01).getLsbD 1
  tag := BitVec.ofNat 16 (fieldAt bs 0x02 2)
  stopMask := byteAt bs 0x04
  layoutId := byteAt bs 0x05
  codeTableId := byteAt bs 0x06
  totalsGroup := byteAt bs 0x07
  srcAddr := BitVec.ofNat 64 (fieldAt bs 0x08 8)
  srcLen := fieldAt bs 0x10 4
  dstCap := fieldAt bs 0x14 4
  dstAddr := BitVec.ofNat 64 (fieldAt bs 0x18 8)
  recordCount := fieldAt bs 0x20 2
  kindWord := BitVec.ofNat 32 (fieldAt bs 0x24 4)
  reservedSet := byteAt bs 0x01 &&& 0xFC#8 != 0#8 || !zeroAt bs 0x22 2 || !zeroAt bs 0x28 24

/-- The totals group a request names, if its field is not the absent encoding. -/
def Request.group? (r : Request) : Option GroupNo :=
  if h : r.totalsGroup.toNat < 8 then some ⟨r.totalsGroup.toNat, h⟩ else none

/-- The layout id of a request that passed its checks. -/
def Request.layoutNo (r : Request) : LayoutNo := ⟨r.layoutId.toNat % 128, Nat.mod_lt _ (by decide)⟩

/-- The code table id of a request that passed its checks. -/
def Request.tableNo (r : Request) : TableNo := ⟨r.codeTableId.toNat % 16, Nat.mod_lt _ (by decide)⟩

/-- The target SQ of an ABORT that passed its checks. -/
def Request.targetSq (r : Request) : SqNo := ⟨r.kindWord.toNat % 8, Nat.mod_lt _ (by decide)⟩

/-- The target tag of an ABORT. -/
def Request.targetTag (r : Request) : BitVec 16 := r.kindWord.extractLsb' 16 16

/-- The include-stop flag of a TRANSLATE, and the CLEAR option of a READ_TOTALS. -/
def Request.kindFlag (r : Request) : Bool := r.kindWord.getLsbD 0

/-- The pad byte of a COMPARE. -/
def Request.padByte (r : Request) : Byte := r.kindWord.extractLsb' 0 8

/-! ## Completion record (R224) -/

/-- The fault summary field: the eight kinds and ANY as bit 8. -/
def faultSummary (faults : Byte) (any : Bool) : Nat := faults.toNat + (if any then 256 else 0)

/-- The 32 bytes of a completion record or queue event, with the SQ head at posting. -/
def CompletionRecord.encode (r : CompletionRecord) (head : Nat) : List Byte :=
  leBytes 1 (if r.event then 2 else 1) ++ leBytes 1 r.sq.val ++ leBytes 2 r.tag.toNat
    ++ leBytes 1 ((r.status.map Status.code).getD 0) ++ leBytes 1 r.detail.code ++ [r.detailArg, 0]
    ++ leBytes 2 (faultSummary r.faults r.anyFault)
    ++ leBytes 2 ((r.first.map FirstFault.record).getD 0)
    ++ leBytes 1 ((r.first.map FirstFault.directive).getD 0)
    ++ leBytes 1 ((r.first.map fun f => f.kind.bit + 1 + 128).getD 0)
    ++ leBytes 2 r.recordsDone ++ leBytes 4 r.bytesWritten ++ leBytes 4 r.compareOffset
    ++ leBytes 2 head ++ [r.version] ++ leBytes 1 r.compareResult.code
    ++ leBytes 1 (if r.notify then 1 else 0) ++ [0, 0, 0]

/-! ## Configuration block (R225) -/

/-- One SQ entry of the configuration block. -/
structure SqEntry where
  base : Nat
  size : Nat
  boundCq : Nat
  cls : Nat
  maxOutstanding : Nat
  deriving DecidableEq, Repr

/-- One CQ entry of the configuration block. -/
structure CqEntry where
  base : Nat
  size : Nat
  interruptEnable : Nat
  vector : Nat
  threshold : Nat
  holdTime : Nat
  deriving DecidableEq, Repr

/-- The SQ entry for SQ `q`. -/
def sqEntry (bs : List Byte) (q : Nat) : SqEntry :=
  let o := 0x040 + 16 * q
  { base := fieldAt bs o 8, size := fieldAt bs (o + 0x08) 2, boundCq := fieldAt bs (o + 0x0A) 1,
    cls := fieldAt bs (o + 0x0B) 1, maxOutstanding := fieldAt bs (o + 0x0C) 1 }

/-- The CQ entry for CQ `q`. -/
def cqEntry (bs : List Byte) (q : Nat) : CqEntry :=
  let o := 0x0C0 + 16 * q
  { base := fieldAt bs o 8, size := fieldAt bs (o + 0x08) 2, interruptEnable := fieldAt bs (o + 0x0A) 1,
    vector := fieldAt bs (o + 0x0B) 1, threshold := fieldAt bs (o + 0x0C) 1, holdTime := fieldAt bs (o + 0x0D) 1 }

/-- SQ count and CQ count of the configuration block. -/
def sqCount (bs : List Byte) : Nat := fieldAt bs 0x000 1
def cqCount (bs : List Byte) : Nat := fieldAt bs 0x001 1

/-- The progress block address. -/
def progressField (bs : List Byte) : Nat := fieldAt bs 0x008 8

/-! ## Directives (R226) -/

/-- Conditions of a LITERAL (R39). -/
inductive LitCondition where
  | always | ifNegative | ifNotNegative | ifZero
  deriving DecidableEq, Repr

/-- One directive with its operands (R9). -/
inductive Directive where
  | copy (n : Nat)
  | copyUntil (n : Nat)
  | skip (n : Nat)
  | literal (cond : LitCondition) (offset len : Nat)
  | fill (byte : Byte) (n : Nat)
  | padTo (byte : Byte) (column : Nat)
  | number (picture : Nat)
  | check (classes : Byte) (n : Nat)
  | addTotal (acc : AccNo)
  | repeatGroup (count span : Nat)
  deriving DecidableEq, Repr

/-- The condition of a code. -/
def LitCondition.ofCode (b : Byte) : Option LitCondition :=
  match b.toNat with
  | 0 => some .always | 1 => some .ifNegative | 2 => some .ifNotNegative | 3 => some .ifZero | _ => none

/-- The value of a range check that passes. -/
def inRange (lo hi n : Nat) : Bool := lo ≤ n && n ≤ hi

/-- The directive of an 8-byte encoding, if its kind is one of the ten, its operands are in range and its reserved bytes
are zero (R9). -/
def Directive.parse (bs : List Byte) : Option Directive :=
  let b1 := byteAt bs 1
  let w := fieldAt bs 2 2
  match (byteAt bs 0).toNat with
  | 0x01 => if inRange 1 4096 w && b1 == 0 && zeroAt bs 4 4 then some (.copy w) else none
  | 0x02 => if inRange 1 4096 w && b1 == 0 && zeroAt bs 4 4 then some (.copyUntil w) else none
  | 0x03 => if inRange 1 4096 w && b1 == 0 && zeroAt bs 4 4 then some (.skip w) else none
  | 0x04 =>
    let len := fieldAt bs 4 1
    if w ≤ 511 && inRange 1 64 len && zeroAt bs 5 3 then (LitCondition.ofCode b1).map fun c => .literal c w len else none
  | 0x05 => if inRange 1 4096 w && zeroAt bs 4 4 then some (.fill b1 w) else none
  | 0x06 => if inRange 1 4096 w && zeroAt bs 4 4 then some (.padTo b1 w) else none
  | 0x07 => if w ≤ 511 && b1 == 0 && zeroAt bs 4 4 then some (.number w) else none
  | 0x08 => if inRange 1 4096 w && b1 != 0 && zeroAt bs 4 4 then some (.check b1 w) else none
  | 0x09 => if h : b1.toNat < 16 then (if zeroAt bs 2 6 then some (.addTotal ⟨b1.toNat, h⟩) else none) else none
  | 0x0A =>
    let span := fieldAt bs 2 1
    if inRange 1 255 b1.toNat && inRange 1 32 span && zeroAt bs 3 5 then some (.repeatGroup b1.toNat span) else none
  | _ => none

/-- A kind byte that names one of the ten kinds (check 8 of R7). -/
def directiveKindKnown (bs : List Byte) : Bool := inRange 1 10 (byteAt bs 0).toNat

/-! ## Picture records (R54, R226) -/

inductive PicFormat where
  | packed | zoned | binary
  deriving DecidableEq, Repr

inductive ZonedSign where
  | none | trailOver | leadOver | trailSep | leadSep
  deriving DecidableEq, Repr

inductive SignStyle where
  | none | leadMinus | leadBoth | trailMinus | trailBoth | trailPair | overpunch
  deriving DecidableEq, Repr

/-- A picture record (R54). Its absent bytes are none. -/
structure Picture where
  format : PicFormat := .packed
  len : Nat := 1
  packedSigned : Bool := true
  zonedSign : ZonedSign := .none
  binarySigned : Bool := true
  bigEndian : Bool := true
  scale : Nat := 0
  width : Nat := 1
  intDigits : Nat := 0
  fracDigits : Nat := 0
  minInt : Nat := 0
  base : Byte := 0
  point : Option Byte := none
  group : Option Byte := none
  float : Option Byte := none
  fill : Byte := 0
  plus : Byte := 0
  minus : Byte := 0
  style : SignStyle := .none
  halfUp : Bool := false
  pair : Option Nat := none
  blankZero : Bool := false
  deriving DecidableEq, Repr

def PicFormat.ofCode (b : Byte) : Option PicFormat :=
  match b.toNat with
  | 1 => some .packed | 2 => some .zoned | 3 => some .binary | _ => none

def ZonedSign.ofCode (b : Byte) : Option ZonedSign :=
  match b.toNat with
  | 0 => some .none | 1 => some .trailOver | 2 => some .leadOver | 3 => some .trailSep | 4 => some .leadSep
  | _ => none

def SignStyle.ofCode (b : Byte) : Option SignStyle :=
  match b.toNat with
  | 0 => some .none | 1 => some .leadMinus | 2 => some .leadBoth | 3 => some .trailMinus | 4 => some .trailBoth
  | 5 => some .trailPair | 6 => some .overpunch | _ => none

/-- A field of two codes, 00h giving the first value. -/
def twoCode (b : Byte) : Option Bool :=
  match b.toNat with
  | 0 => some true | 1 => some false | _ => none

/-- An optional byte: none when its presence flag is clear, and then the byte must be zero. The outer option is none
where it is not. -/
def optionalByte (present : Bool) (b : Byte) : Option (Option Byte) :=
  if present then some (some b) else if b == 0 then some none else none

/-- The pair-marker offset with its presence flag. -/
def optionalOffset (present : Bool) (n : Nat) : Option (Option Nat) :=
  if present then some (some n) else if n == 0 then some none else none

/-- The picture of a 24-byte picture record: none when a code is not listed, a reserved byte or bit is set, or an absent
field is not zero (R226). -/
def Picture.parse (bs : List Byte) : Option Picture := do
  let format ← PicFormat.ofCode (byteAt bs 0x00)
  let packedSigned ← twoCode (byteAt bs 0x02)
  let zonedSign ← ZonedSign.ofCode (byteAt bs 0x03)
  let binarySigned ← twoCode (byteAt bs 0x04)
  let bigEndian ← twoCode (byteAt bs 0x05)
  let style ← SignStyle.ofCode (byteAt bs 0x12)
  let truncate ← twoCode (byteAt bs 0x13)
  let flags := byteAt bs 0x14
  let point ← optionalByte (flags.getLsbD 0) (byteAt bs 0x0C)
  let group ← optionalByte (flags.getLsbD 1) (byteAt bs 0x0D)
  let float ← optionalByte (flags.getLsbD 2) (byteAt bs 0x0E)
  let pair ← optionalOffset (flags.getLsbD 3) (fieldAt bs 0x16 2)
  if flags &&& 0xE0#8 == 0#8 && byteAt bs 0x15 == 0 then
    some
      { format, len := fieldAt bs 0x01 1, packedSigned, zonedSign, binarySigned, bigEndian,
        scale := fieldAt bs 0x06 1, width := fieldAt bs 0x07 1, intDigits := fieldAt bs 0x08 1,
        fracDigits := fieldAt bs 0x09 1, minInt := fieldAt bs 0x0A 1, base := byteAt bs 0x0B,
        point, group, float, fill := byteAt bs 0x0F, plus := byteAt bs 0x10, minus := byteAt bs 0x11,
        style, halfUp := !truncate, pair, blankZero := flags.getLsbD 4 }
  else none

/-! ## Code table entries (R227) -/

/-- The entry of a 4-byte entry image that passed its checks. -/
def CodeEntry.parse (bs : List Byte) : CodeEntry where
  target := byteAt bs 0
  classes := byteAt bs 1
  digit := if byteAt bs 2 == 0xFF#8 then none else some (byteAt bs 2).toNat

/-- A class set contains a class. -/
def CodeEntry.has (e : CodeEntry) (c : CharClass) : Bool := e.classes.getLsbD c.bit

/-! ## Snapshot records (R227) -/

/-- The `n` decimal digits of a number, most significant first. -/
def decimalDigits (n m : Nat) : List Nat := (List.range n).reverse.map fun i => m / 10 ^ i % 10

/-- Half-bytes paired into bytes, the first half-byte of a pair being the high one. -/
def packNibbles : List Nat → List Byte
  | hi :: lo :: rest => BitVec.ofNat 8 (16 * hi + lo) :: packNibbles rest
  | _ => []

/-- The 24-byte snapshot record of one accumulator. -/
def snapshotRecord (g : GroupNo) (k : Nat) (a : Accumulator) : List Byte :=
  leBytes 1 g.val ++ leBytes 1 k ++ [0, 0] ++ leBytes 4 a.count
    ++ packNibbles (decimalDigits 31 a.value.natAbs ++ [if a.value < 0 then 0xD else 0xC])

end Sys2Proof.Machine
end

