-- ==== Sys2Proof/Machine/Flags.lean ====
section
/-! DEFINITION. Every flag computation: fault summary, first fault and stop mask (chapter 5), STAT and FAULT, and the
reads of the register window (R202). -/

namespace Sys2Proof.Machine

/-! ## Field faults -/

/-- A set of fault kinds holds a kind (R222). -/
def faultSet (mask : Byte) (f : FieldFault) : Bool := mask.getLsbD f.bit

/-- A set of fault kinds with one more kind. -/
def addFault (mask : Byte) (f : FieldFault) : Byte := mask ||| BitVec.ofNat 8 (2 ^ f.bit)

/-- A fault report taken into a slot: its flag and ANY are set, and the first-fault record is filled when absent
(R104, R105). -/
def Job.report (x : Job) (f : FieldFault) (record directive : Nat) : Job :=
  { x with
    faults := addFault x.faults f
    anyFault := true
    first := match x.first with
      | none => some ⟨record, directive, f⟩
      | some y => some y }

/-- The reports of one point, in raise order (R103). -/
def Job.reports (x : Job) (fs : List FieldFault) (record directive : Nat) : Job :=
  fs.foldl (fun y f => y.report f record directive) x

/-- The stopping kind of one point: the first of its faults, in raise order, whose kind is in the stop mask (R107). -/
def stoppingKind (mask : Byte) (fs : List FieldFault) : Option FieldFault := fs.find? (faultSet mask)

/-- A value kind: it ends a conversion (chapter 5, Note 1). -/
def FieldFault.isValueKind : FieldFault → Bool
  | .digit | .sign | .size | .unsigned => true
  | .trunc | .total | .delim | .cls => false

/-! ## Last-value state -/

/-- The last-value state a result gives (R44). -/
def lastStateOf (v : Int) : LastState := if v < 0 then .negative else if v = 0 then .zero else .positive

/-- A LITERAL condition is met by a last-value state (R39). -/
def LitCondition.met : LitCondition → LastState → Bool
  | .always, _ => true
  | .ifNegative, .negative => true
  | .ifNotNegative, .zero => true
  | .ifNotNegative, .positive => true
  | .ifZero, .zero => true
  | _, _ => false

/-! ## Registers read by the host -/

/-- STAT: engine state, setup result, PROTOCOL, FU busy count and job slots in use (R202). -/
def statWord (s : State) : Word :=
  BitVec.ofNat 32
    (s.hlu.engine.code + 2 ^ 4 * s.hlu.setupResult.code + 2 ^ 8 * (if s.hlu.protocol then 1 else 0)
      + 2 ^ 9 * s.busyUnits + 2 ^ 16 * s.slotsInUse)

/-- FAULT: code, queue type, queue number and slot number (R202). -/
def faultWord (f : FaultRecord) : Word :=
  BitVec.ofNat 32 (f.code.code + 2 ^ 4 * f.queueType.code + 2 ^ 8 * f.queue.val + 2 ^ 16 * f.slot.val)

/-- The register at an aligned offset: write-only registers and offsets without a register read 0 (R202). -/
def registerAt (s : State) (offset : Nat) : Word :=
  match offset with
  | 0x04 => statWord s
  | 0x08 => s.hlu.setupLo
  | 0x0C => s.hlu.setupHi
  | 0x18 => faultWord s.hlu.fault
  | _ => 0

/-- Bytes an access covers. -/
def widthBytes : AccessWidth → Nat
  | .byte => 1 | .half => 2 | .word => 4

/-- What a host read of the register region answers: one register, or the addressed bytes of one; a read that does not lie
within one aligned word answers 0, as a read of no register does (R202). -/
def readRegister (s : State) (offset : BitVec 12) (width : AccessWidth) : Word :=
  let n := widthBytes width
  let at4 := offset.toNat % 4
  if at4 + n ≤ 4 then
    (registerAt s (offset.toNat - at4) >>> (8 * at4)) &&& BitVec.ofNat 32 (2 ^ (8 * n) - 1)
  else 0

end Sys2Proof.Machine
end

