-- ==== Sys2Proof/Machine/Numeric.lean ====
section
/-! DEFINITION. The NUMBER conversion (chapter 3), as functions of the picture, the bound code table, the source bytes and
the literal bytes: no state of the part is read or written here. -/

namespace Sys2Proof.Machine

/-- A value inside a conversion: sign and exact magnitude; its scale is the stage's (R58). -/
structure Value where
  neg : Bool
  mag : Nat
  deriving DecidableEq, Repr

/-- A magnitude of zero has sign plus (R58). -/
def Value.make (neg : Bool) (mag : Nat) : Value := ⟨neg && mag != 0, mag⟩

/-- The whole number a value stands for. -/
def Value.toInt (v : Value) : Int := if v.neg then -(v.mag : Int) else (v.mag : Int)

/-- The number written by decimal digits, most significant first. -/
def digitsValue (ds : List Nat) : Nat := ds.foldl (fun acc d => 10 * acc + d) 0

/-- What a code table answers for a byte value. -/
abbrev Lookup := Byte → CodeEntry

/-- What one conversion brings about: its faults in raise order, its result with the bytes to stage when no value kind was
raised, and the literal offset of the pair marker it read (R59, R60, R72). -/
structure Conversion where
  faults : List FieldFault
  result : Option (Int × List Byte)
  marker : Option Nat := none
  deriving DecidableEq, Repr

/-! ## Sizes (R57) -/

/-- A ZONED field with a separate sign byte. -/
def ZonedSign.separate : ZonedSign → Bool
  | .trailSep | .leadSep => true
  | .none | .trailOver | .leadOver => false

/-- Bytes of the packed, zoned or binary field of a picture. -/
def Picture.fieldBytes (p : Picture) : Nat :=
  match p.format with
  | .zoned => if p.zonedSign.separate then p.len + 1 else p.len
  | .packed | .binary => p.len

/-- Source size of a NUMBER. -/
def Picture.sourceSize (p : Picture) : Direction → Nat
  | .outward => p.fieldBytes
  | .inward => p.width

/-- Output size of a NUMBER. -/
def Picture.outputSize (p : Picture) : Direction → Nat
  | .outward => p.width
  | .inward => p.fieldBytes

/-! ## Outward sources (R61 to R64) -/

/-- The half-bytes of bytes, high half-byte first. -/
def nibbles (bs : List Byte) : List Nat := bs.flatMap fun b => [b.toNat / 16, b.toNat % 16]

/-- The sign of a PACKED source (R61): none where SIGN is raised. -/
def packedSign (signed : Bool) (n : Nat) : Option Bool :=
  if signed then
    (if n = 0xA || n = 0xC || n = 0xE || n = 0xF then some false
     else if n = 0xB || n = 0xD then some true else none)
  else if n = 0xF then some false else none

/-- Decode a PACKED source (R61). -/
def decodePacked (signed : Bool) (bs : List Byte) : Except FieldFault Value :=
  let ns := nibbles bs
  let digits := ns.take (2 * bs.length - 1)
  if digits.all (· ≤ 9) then
    match packedSign signed (ns.getD (2 * bs.length - 1) 0) with
    | some neg => .ok (Value.make neg (digitsValue digits))
    | none => .error .sign
  else .error .digit

/-- Digit values of ZONED digit bytes that carry no sign: none where one is of no DIGIT class (R62). -/
def zonedDigits (look : Lookup) (bs : List Byte) : Option (List Nat) :=
  bs.mapM fun b => if (look b).has .digit then (look b).digit else none

/-- An overpunched sign byte: its sign and digit value (R63). -/
def overpunched (look : Lookup) (b : Byte) : Option (Bool × Nat) :=
  let e := look b
  if e.has .overNeg then e.digit.map (true, ·)
  else if e.has .overPos || e.has .digit then e.digit.map (false, ·)
  else none

/-- A separate sign byte: its sign (R63). -/
def separateSign (look : Lookup) (b : Byte) : Option Bool :=
  if (look b).has .minus then some true else if (look b).has .plus then some false else none

/-- Decode a ZONED source of `n` digit bytes, with its separate sign byte if it has one (R62, R63). -/
def decodeZoned (look : Lookup) (pos : ZonedSign) (n : Nat) (bs : List Byte) : Except FieldFault Value :=
  match pos with
  | .none =>
    match zonedDigits look bs with
    | some ds => .ok (Value.make false (digitsValue ds))
    | none => .error .digit
  | .trailOver =>
    match zonedDigits look (bs.take (n - 1)) with
    | none => .error .digit
    | some ds =>
      match overpunched look (byteAt bs (n - 1)) with
      | some (neg, d) => .ok (Value.make neg (digitsValue (ds ++ [d])))
      | none => .error .sign
  | .leadOver =>
    match zonedDigits look (bs.drop 1) with
    | none => .error .digit
    | some ds =>
      match overpunched look (byteAt bs 0) with
      | some (neg, d) => .ok (Value.make neg (digitsValue (d :: ds)))
      | none => .error .sign
  | .trailSep =>
    match zonedDigits look (bs.take n) with
    | none => .error .digit
    | some ds =>
      match separateSign look (byteAt bs n) with
      | some neg => .ok (Value.make neg (digitsValue ds))
      | none => .error .sign
  | .leadSep =>
    match zonedDigits look (bs.drop 1) with
    | none => .error .digit
    | some ds =>
      match separateSign look (byteAt bs 0) with
      | some neg => .ok (Value.make neg (digitsValue ds))
      | none => .error .sign

/-- Decode a BINARY source (R64). -/
def decodeBinary (signed big : Bool) (bs : List Byte) : Value :=
  let raw := if big then beNat bs else leNat bs
  if signed && 2 ^ (8 * bs.length - 1) ≤ raw then Value.make true (2 ^ (8 * bs.length) - raw)
  else Value.make false raw

/-- Decode the source field of an OUTWARD NUMBER. -/
def decodeSource (p : Picture) (look : Lookup) (bs : List Byte) : Except FieldFault Value :=
  match p.format with
  | .packed => decodePacked p.packedSigned bs
  | .zoned => decodeZoned look p.zonedSign p.len bs
  | .binary => .ok (decodeBinary p.binarySigned p.bigEndian bs)

/-! ## Scaling and size tests (R65, R66) -/

/-- Rescale from scale `s` to scale `f`; the flag says that TRUNC is raised (R65). -/
def rescale (s f : Nat) (halfUp : Bool) (v : Value) : Bool × Value :=
  if s ≤ f then (false, Value.make v.neg (v.mag * 10 ^ (f - s)))
  else
    let kept := v.mag / 10 ^ (s - f)
    let dropped := v.mag % 10 ^ (s - f)
    let up := halfUp && 5 ≤ dropped / 10 ^ (s - f - 1)
    (dropped != 0, Value.make v.neg (if up then kept + 1 else kept))

/-- Digits of a number, not counting leading zeros: 0 for zero (R66). -/
def digitCount (n : Nat) : Nat := (Nat.digits 10 n).length

/-! ## Rendering (R67 to R74) -/

/-- The shown integer digits: the larger of the integer digit count and K (R68). -/
def shownInteger (p : Picture) (int : Nat) : List Nat := decimalDigits (max (digitCount int) p.minInt) int

/-- The byte of a rendered digit (R68). -/
def digitByte (base : Byte) (d : Nat) : Byte := base + BitVec.ofNat 8 d

/-- Shown integer digits with their group bytes: one stands right of every digit at position 4, 7, 10 and so on from the
point (R69). -/
def groupDigits (grp : Option Byte) : List Byte → List Byte
  | [] => []
  | d :: rest =>
    match grp with
    | some g => if rest.length ≠ 0 && rest.length % 3 = 0 then d :: g :: groupDigits grp rest else d :: groupDigits grp rest
    | none => d :: groupDigits grp rest

/-- The lowest byte value that carries a digit and a sign in a code table (R73). -/
def overpunchByte (look : Lookup) (neg : Bool) (d : Nat) : Option Byte :=
  ((List.range 256).map (BitVec.ofNat 8)).find? fun b =>
    (look b).digit == some d && (look b).has (if neg then .overNeg else .overPos)

/-- Shown integer and fraction digit bytes, the last shown digit replaced by its overpunched byte where the style asks
for it: none where no entry gives that byte (R68, R73). -/
def shownDigits (p : Picture) (look : Lookup) (neg : Bool) (ints fracs : List Nat) : Option (List Byte × List Byte) :=
  let bytes := List.map (digitByte p.base)
  match p.style with
  | .overpunch =>
    match fracs.getLast? with
    | some d => (overpunchByte look neg d).map fun b => (bytes ints, bytes fracs.dropLast ++ [b])
    | none => (overpunchByte look neg (ints.getLastD 0)).map fun b => (bytes ints.dropLast ++ [b], [])
  | _ => some (bytes ints, bytes fracs)

/-- The leading sign of a style (R71). -/
def leadSign (p : Picture) (neg : Bool) : List Byte :=
  match p.style with
  | .leadMinus => if neg then [p.minus] else []
  | .leadBoth => [if neg then p.minus else p.plus]
  | .none | .trailMinus | .trailBoth | .trailPair | .overpunch => []

/-- Literal offset of the pair marker that applies (R72). -/
def markerOffset (p : Picture) (neg : Bool) : Option Nat :=
  match p.style with
  | .trailPair => p.pair.map fun o => if neg then o else o + 2
  | .none | .leadMinus | .leadBoth | .trailMinus | .trailBoth | .overpunch => none

/-- The trailing sign of a style; `lit` reads the literal part (R71, R72). -/
def trailSign (p : Picture) (lit : Nat → Byte) (neg : Bool) : List Byte :=
  match p.style with
  | .trailMinus => [if neg then p.minus else p.fill]
  | .trailBoth => [if neg then p.minus else p.plus]
  | .trailPair =>
    match markerOffset p neg with
    | some o => [lit o, lit (o + 1)]
    | none => []
  | .none | .leadMinus | .leadBoth | .overpunch => []

/-- The shown characters of a value at scale F: none where OVERPUNCH finds no byte (R67 to R73). -/
def shownCharacters (p : Picture) (look : Lookup) (lit : Nat → Byte) (v : Value) : Option (List Byte) :=
  let ints := shownInteger p (v.mag / 10 ^ p.fracDigits)
  let fracs := decimalDigits p.fracDigits (v.mag % 10 ^ p.fracDigits)
  (shownDigits p look v.neg ints fracs).map fun (ib, fb) =>
    leadSign p v.neg ++ p.float.toList ++ groupDigits p.group ib
      ++ (if p.fracDigits = 0 then [] else p.point.toList ++ fb) ++ trailSign p lit v.neg

/-- Render a value that passed the size and sign tests (R67, R74). -/
def render (p : Picture) (look : Lookup) (lit : Nat → Byte) (v : Value) : Except FieldFault (List Byte) :=
  if p.blankZero && v.mag == 0 then .ok (List.replicate p.width p.fill)
  else
    match shownCharacters p look lit v with
    | none => .error .sign
    | some cs =>
      if p.width < cs.length then .error .size
      else .ok (List.replicate (p.width - cs.length) p.fill ++ cs)

/-- The pair marker that rendering a value reads: none under blank when zero (R67, R72). -/
def renderMarker (p : Picture) (v : Value) : Option Nat :=
  if p.blankZero && v.mag == 0 then none else markerOffset p v.neg

/-- The faults of a conversion that raised TRUNC or not before the rest. -/
def withTrunc (trunc : Bool) (rest : List FieldFault) : List FieldFault := if trunc then .trunc :: rest else rest

/-- An OUTWARD conversion (R59). -/
def convertOutward (p : Picture) (look : Lookup) (lit : Nat → Byte) (bs : List Byte) : Conversion :=
  match decodeSource p look bs with
  | .error f => { faults := [f], result := none }
  | .ok d =>
    let (trunc, v) := rescale p.scale p.fracDigits p.halfUp d
    if p.intDigits < digitCount (v.mag / 10 ^ p.fracDigits) then { faults := withTrunc trunc [.size], result := none }
    else if v.neg && p.style == .none then { faults := withTrunc trunc [.unsigned], result := none }
    else
      match render p look lit v with
      | .error f => { faults := withTrunc trunc [f], result := none, marker := renderMarker p v }
      | .ok out => { faults := withTrunc trunc [], result := some (v.toInt, out), marker := renderMarker p v }

/-! ## Inward parsing (R75 to R81) -/

/-- What the scan of a text field has gathered so far (R76 to R79). Without a point byte in the picture, every digit
gathers in `ints` and is divided afterwards. -/
structure Scan where
  neg : Bool := false
  ints : List Nat := []
  fracs : List Nat := []
  sawDigit : Bool := false
  sawPoint : Bool := false
  sawFloat : Bool := false
  deriving DecidableEq, Repr

/-- A sign is accepted at the body position `i` of `n` (R77). -/
def signAccepted (style : SignStyle) (i n : Nat) : Bool :=
  match style with
  | .leadMinus | .leadBoth => i == 0
  | .trailMinus | .trailBoth => i + 1 == n
  | .none | .trailPair | .overpunch => false

/-- One body byte, classified by the first test it meets (R76), with its treatment (R77, R78). -/
def scanByte (p : Picture) (look : Lookup) (n i : Nat) (b : Byte) (sc : Scan) : Except FieldFault Scan :=
  if p.point = some b then (if sc.sawPoint then .error .digit else .ok { sc with sawPoint := true })
  else if p.group = some b then .ok sc
  else if p.float = some b then
    (if sc.sawDigit || sc.sawPoint || sc.sawFloat then .error .digit else .ok { sc with sawFloat := true })
  else if (look b).has .digit then
    let d := (look b).digit.getD 0
    .ok (if sc.sawPoint then { sc with fracs := sc.fracs ++ [d], sawDigit := true }
         else { sc with ints := sc.ints ++ [d], sawDigit := true })
  else if (look b).has .minus then
    (if signAccepted p.style i n then .ok { sc with neg := true } else .error .sign)
  else if (look b).has .plus then
    (if signAccepted p.style i n then .ok sc else .error .sign)
  else .error .digit

/-- Scan the body from its byte `i` on; the first fault ends the scan (R76). -/
def scanBody (p : Picture) (look : Lookup) (n : Nat) : Nat → List Byte → Scan → Except FieldFault Scan
  | _, [], sc => .ok sc
  | i, b :: bs, sc =>
    match scanByte p look n i b sc with
    | .ok sc' => scanBody p look n (i + 1) bs sc'
    | .error f => .error f

/-- The body of a text field: its bytes less the leading and trailing ones of class SPACE (R75). -/
def fieldBody (look : Lookup) (bs : List Byte) : List Byte :=
  let lead := bs.dropWhile fun b => (look b).has .space
  (lead.reverse.dropWhile fun b => (look b).has .space).reverse

/-- Integer and fraction digits of a scan (R79). -/
def divideDigits (p : Picture) (sc : Scan) : List Nat × List Nat :=
  match p.point with
  | some _ => (sc.ints, sc.fracs)
  | none =>
    let n := sc.ints.length
    if n < p.fracDigits then ([], List.replicate (p.fracDigits - n) 0 ++ sc.ints)
    else (sc.ints.take (n - p.fracDigits), sc.ints.drop (n - p.fracDigits))

/-- Form the value at F fraction digits: TRUNC flag, and the value or SIZE (R80). -/
def formValue (p : Picture) (neg : Bool) (ints fracs : List Nat) : Bool × Except FieldFault Value :=
  let kept := fracs.take p.fracDigits
  let trunc := (fracs.drop p.fracDigits).any (· != 0)
  let frac := digitsValue kept * 10 ^ (p.fracDigits - kept.length)
  let int := digitsValue ints
  (trunc, if p.intDigits < digitCount int then .error .size
          else .ok (Value.make neg (int * 10 ^ p.fracDigits + frac)))

/-- The destination of a picture holds no sign (R81). -/
def Picture.unsignedDestination (p : Picture) : Bool :=
  match p.format with
  | .packed => !p.packedSigned
  | .zoned => p.zonedSign == .none
  | .binary => !p.binarySigned

/-! ## Destination formats (R82 to R84) -/

/-- Encode a PACKED destination (R82). -/
def encodePacked (signed : Bool) (n : Nat) (v : Value) : List Byte :=
  packNibbles (decimalDigits (2 * n - 1) v.mag ++ [if signed then (if v.neg then 0xD else 0xC) else 0xF])

/-- Encode a ZONED destination (R83). -/
def encodeZoned (p : Picture) (v : Value) : List Byte :=
  (decimalDigits p.len v.mag).map (digitByte p.base)
    ++ (if p.zonedSign.separate then [if v.neg then p.minus else p.plus] else [])

/-- Encode a BINARY destination: none where the number lies outside its range (R84). -/
def encodeBinary (signed big : Bool) (n : Nat) (v : Value) : Option (List Byte) :=
  let fits := if signed then (if v.neg then v.mag ≤ 2 ^ (8 * n - 1) else v.mag < 2 ^ (8 * n - 1)) else v.mag < 2 ^ (8 * n)
  let raw := if v.neg then 2 ^ (8 * n) - v.mag else v.mag
  if fits then some (if big then (leBytes n raw).reverse else leBytes n raw) else none

/-- Encode a value into its destination field: none where BINARY raises SIZE. -/
def encodeDestination (p : Picture) (v : Value) : Option (List Byte) :=
  match p.format with
  | .packed => some (encodePacked p.packedSigned p.len v)
  | .zoned => some (encodeZoned p v)
  | .binary => encodeBinary p.binarySigned p.bigEndian p.len v

/-- An INWARD conversion (R59, R85). -/
def convertInward (p : Picture) (look : Lookup) (bs : List Byte) : Conversion :=
  let body := fieldBody look bs
  match scanBody p look body.length 0 body {} with
  | .error f => { faults := [f], result := none }
  | .ok sc =>
    let (ints, fracs) := divideDigits p sc
    let (trunc, formed) := formValue p sc.neg ints fracs
    match formed with
    | .error f => { faults := withTrunc trunc [f], result := none }
    | .ok v =>
      if v.neg && p.unsignedDestination then { faults := withTrunc trunc [.unsigned], result := none }
      else
        match encodeDestination p v with
        | none => { faults := withTrunc trunc [.size], result := none }
        | some out => { faults := withTrunc trunc [], result := some (v.toInt, out) }

/-- The conversion of a NUMBER in a layout of a direction. -/
def convert (dir : Direction) (p : Picture) (look : Lookup) (lit : Nat → Byte) (bs : List Byte) : Conversion :=
  match dir with
  | .outward => convertOutward p look lit bs
  | .inward => convertInward p look bs

end Sys2Proof.Machine
end

