-- ==== Sys2Proof/Machine/Layouts.lean ====
section
/-! DEFINITION. The Layout Store (chapter 1): image checks, the two pools, versions, staging and install. -/

namespace Sys2Proof.Machine

/-! ## Pool space (R4 to R6) -/

/-- First fit: the lowest free extent long enough gives its lowest part; answers where, and the free list left (R5). -/
def allocFirst (n : Nat) : List Extent → Option (Nat × List Extent)
  | [] => none
  | e :: es =>
    if n ≤ e.len then some (e.start, if e.len = n then es else ⟨e.start + n, e.len - n⟩ :: es)
    else (allocFirst n es).map fun (a, rest) => (a, e :: rest)

/-- Put an extent before a free list, joined with the first extent where they touch. -/
def joinFront (x : Extent) : List Extent → List Extent
  | [] => [x]
  | e :: es => if x.start + x.len = e.start then ⟨x.start, x.len + e.len⟩ :: es else x :: e :: es

/-- Return an extent to a free list, joined with its neighbours (R6). -/
def giveBack (x : Extent) : List Extent → List Extent
  | [] => [x]
  | e :: es =>
    if x.start < e.start then joinFront x (e :: es)
    else if e.start + e.len = x.start then joinFront ⟨e.start, e.len + x.len⟩ es
    else e :: giveBack x es

/-- A free list is ordered by location, holds no empty extent and no two extents that touch, and lies within `size`
locations from `lo` on (R4). -/
def freeListFrom (size : Nat) : Nat → List Extent → Bool
  | _, [] => true
  | lo, e :: es => lo ≤ e.start && 0 < e.len && e.start + e.len ≤ size && freeListFrom size (e.start + e.len + 1) es

/-- Free locations of a free list. -/
def freeTotal (es : List Extent) : Nat := (es.map Extent.len).sum

/-- The extents of an image return to the free lists (R6). -/
def Ls.giveBackImage (ls : Ls) (im : LayoutImage) : Ls :=
  { ls with
    dirFree := giveBack ⟨im.directiveStart, im.directiveCount⟩ ls.dirFree
    litFree := match im.literalStart with
      | some a => giveBack ⟨a, im.literalCount⟩ ls.litFree
      | none => ls.litFree }

/-- What taking pool space answers (R5). -/
inductive SpaceAnswer where
  | taken (directiveStart : Nat) (literalStart : Option Nat) (dirFree litFree : List Extent)
  | noDirectives
  | noLiterals
  deriving DecidableEq, Repr

/-- Take space for an image from both pools together (R5). -/
def takeSpace (dirFree litFree : List Extent) (directives literals : Nat) : SpaceAnswer :=
  match allocFirst directives dirFree with
  | none => .noDirectives
  | some (d, df) =>
    if literals = 0 then .taken d none df litFree
    else
      match allocFirst literals litFree with
      | none => .noLiterals
      | some (l, lf) => .taken d (some l) df lf

/-! ## Image checks (R7 to R13) -/

/-- The 8 bytes of directive `i` of an image (R226). -/
def imageDirective (img : List Byte) (i : Nat) : List Byte :=
  slice img (Config.headerBytes + Config.directiveBytes * i) Config.directiveBytes

/-- Directive count and literal count of an image header (R226). -/
def imageDirectiveCount (img : List Byte) : Nat := fieldAt img 0x09 1
def imageLiteralCount (img : List Byte) : Nat := fieldAt img 0x0A 2

/-- The literal part of an image. -/
def imageLiterals (img : List Byte) : List Byte :=
  slice img (Config.headerBytes + Config.directiveBytes * imageDirectiveCount img) (imageLiteralCount img)

/-- The length an image's header implies (R8). -/
def impliedLength (img : List Byte) : Nat :=
  Config.headerBytes + Config.directiveBytes * imageDirectiveCount img + imageLiteralCount img

/-- The direction of an image header's code. -/
def Direction.ofCode (b : Byte) : Option Direction :=
  match b.toNat with
  | 1 => some .outward | 2 => some .inward | _ => none

/-- The 24 bytes of a picture record in a literal part. -/
def pictureRecord (lits : List Byte) (off : Nat) : List Byte := slice lits off Config.pictureBytes

/-- Literal and picture references of a directive lie inside the literal part (R10). -/
def refsInside (lits : List Byte) : Directive → Bool
  | .literal _ off len => off + len ≤ lits.length
  | .number off =>
    off + Config.pictureBytes ≤ lits.length &&
      (let rec24 := pictureRecord lits off
       !(byteAt rec24 0x14).getLsbD 3 || fieldAt rec24 0x16 2 + 4 ≤ lits.length)
  | .copy _ | .copyUntil _ | .skip _ | .fill _ _ | .padTo _ _ | .check _ _ | .addTotal _ | .repeatGroup _ _ => true

/-- A BINARY field length (R55, R56). -/
def binaryLength (n : Nat) : Bool := n == 1 || n == 2 || n == 4 || n == 8

/-- Two optional bytes are not the same byte. -/
def differ (a b : Option Byte) : Bool := a.isNone || b.isNone || a != b

/-- An OUTWARD picture is valid (R55). -/
def Picture.validOutward (p : Picture) : Bool :=
  1 ≤ p.len && (p.format != .binary || binaryLength p.len)
    && p.scale ≤ 31 && inRange 1 40 p.width && p.intDigits ≤ 31 && p.fracDigits ≤ 31
    && inRange 1 31 (p.intDigits + p.fracDigits) && p.minInt ≤ p.intDigits && p.base.toNat ≤ 0xF6
    && (p.pair.isSome == (p.style == .trailPair))
    && (p.style != .overpunch || 1 ≤ p.fracDigits || 1 ≤ p.minInt)

/-- An INWARD picture is valid (R56). -/
def Picture.validInward (p : Picture) : Bool :=
  (match p.format with
    | .packed => inRange 1 16 p.len && p.intDigits + p.fracDigits ≤ 2 * p.len - 1
    | .zoned => inRange 1 31 p.len && p.intDigits + p.fracDigits ≤ p.len
    | .binary => binaryLength p.len)
    && (p.zonedSign == .none || p.zonedSign == .trailSep)
    && inRange 1 40 p.width && p.intDigits ≤ 31 && p.fracDigits ≤ 31 && 1 ≤ p.intDigits + p.fracDigits
    && p.base.toNat ≤ 0xF6 && p.style != .trailPair && p.style != .overpunch
    && p.scale == 0 && p.fill == 0 && p.minInt == 0 && p.pair.isNone && !p.halfUp && !p.blankZero
    && differ p.point p.group && differ p.point p.float && differ p.group p.float

/-- A picture is valid for a direction (check 11 of R7). -/
def Picture.valid (p : Picture) : Direction → Bool
  | .outward => p.validOutward
  | .inward => p.validInward

/-- Digits that a NUMBER's source carries (check 12 of R7, Note 1). -/
def Picture.sourceDigits (p : Picture) : Direction → Nat
  | .inward => p.intDigits + p.fracDigits
  | .outward =>
    match p.format with
    | .packed => 2 * p.len - 1
    | .zoned => p.len
    | .binary => 20

/-- The picture of a NUMBER's offset in a literal part. -/
def pictureAt (lits : List Byte) (off : Nat) : Option Picture := Picture.parse (pictureRecord lits off)

/-- The picture record of a directive is valid for the direction. -/
def pictureValid (dir : Direction) (lits : List Byte) : Directive → Bool
  | .number off => (pictureAt lits off).any fun p => p.valid dir
  | _ => true

/-- The source digits of a directive are at most 31. -/
def numberDigitsOk (dir : Direction) (lits : List Byte) : Directive → Bool
  | .number off => (pictureAt lits off).all fun p => p.sourceDigits dir ≤ 31
  | _ => true

/-- The span of a REPEAT, 0 for any other directive. -/
def Directive.span : Directive → Nat
  | .repeatGroup _ span => span
  | _ => 0

/-- The span of directive `i` holds no REPEAT (check 13 of R7). -/
def nestFree (ds : List Directive) (i : Nat) (d : Directive) : Bool :=
  ((ds.drop (i + 1)).take d.span).all fun e => e.span == 0

/-- Source advance and source extent of a directive (R11, R57). -/
def Directive.sourceMove (dir : Direction) (lits : List Byte) : Directive → Nat × Nat
  | .copy n | .skip n | .copyUntil n => (n, n)
  | .check _ n => (0, n)
  | .number off =>
    let n := ((pictureAt lits off).map fun p => p.sourceSize dir).getD 0
    (n, n)
  | .literal _ _ _ | .fill _ _ | .padTo _ _ | .addTotal _ | .repeatGroup _ _ => (0, 0)

/-- The static output length after a directive (R13). -/
def Directive.outputMove (dir : Direction) (lits : List Byte) (out : Nat) : Directive → Nat
  | .copy n | .copyUntil n | .fill _ n => out + n
  | .literal _ _ len => out + len
  | .number off => out + ((pictureAt lits off).map fun p => p.outputSize dir).getD 0
  | .padTo _ c => max out c
  | .skip _ | .check _ _ | .addTotal _ | .repeatGroup _ _ => out

/-- Run a list of numbered directives `k` times in a row. -/
def timesOver {α : Type} : Nat → List α → List α
  | 0, _ => []
  | k + 1, l => l ++ timesOver k l

/-- The written-out directive list: every REPEAT group repeated count times (R12). `skip` counts the directives of a
group already written out. -/
def writtenOut : Nat → List (Nat × Directive) → List (Nat × Directive)
  | _, [] => []
  | skip + 1, _ :: rest => writtenOut skip rest
  | 0, (i, d) :: rest =>
    match d with
    | .repeatGroup count span => (i, d) :: (timesOver count (rest.take span) ++ writtenOut span rest)
    | _ => (i, d) :: writtenOut 0 rest

/-- Directives with their indices. -/
def numbered (ds : List Directive) : List (Nat × Directive) := ds.zipIdx.map fun (d, i) => (i, d)

/-- The largest value formed by the static source walk, and the directives at which a value above `limit` is formed
(R12). -/
def reachWalk (dir : Direction) (lits : List Byte) (limit : Nat) : Nat → List (Nat × Directive) → Nat × List Nat
  | _, [] => (0, [])
  | cur, (i, d) :: rest =>
    let (adv, ext) := d.sourceMove dir lits
    let (top, beyond) := reachWalk dir lits limit (cur + adv) rest
    (max (cur + ext) top, if limit < cur + ext then i :: beyond else beyond)

/-- The static output maximum of a written-out list with a terminator length (R13). -/
def outputMaximum (dir : Direction) (lits : List Byte) (ds : List (Nat × Directive)) (term : Nat) : Nat :=
  ds.foldl (fun out x => x.2.outputMove dir lits out) 0 + term

/-- The smallest number of a list. -/
def leastOf : List Nat → Option Nat
  | [] => none
  | n :: ns => some (ns.foldl min n)

/-- The first directive, in list order, that fails a test. -/
def firstBad {α : Type} (test : Nat → α → Bool) (xs : List α) : Option Nat :=
  (xs.zipIdx.find? fun (x, i) => !test i x).map Prod.snd

/-- A failed image check: its detail code and the directive index reported with it (R7, R224). -/
abbrev ImageFault := Detail × Nat

/-- Fail with a detail and the first directive in fault, if there is one. -/
def failAt (d : Detail) : Option Nat → Except ImageFault Unit
  | some i => .error (d, i)
  | none => .ok ()

/-- Fail with a detail and no directive unless a test holds. -/
def failUnless (test : Bool) (d : Detail) : Except ImageFault Unit := if test then .ok () else .error (d, 0)

/-- The image checks in their order (R7). `len` is the length read. An accepted image answers its header and derived
values, its extents still to be placed. -/
def checkImage (len : Nat) (img : List Byte) : Except ImageFault LayoutImage := do
  failUnless (len == impliedLength img) .imageLength
  failUnless (zeroAt img 0x0C 4) .reserved
  let dir ← match Direction.ofCode (byteAt img 0x00) with
    | some d => Except.ok d
    | none => Except.error (Detail.direction, 0)
  let srcLen := fieldAt img 0x02 2
  failUnless (inRange 1 4096 srcLen) .sourceLength
  let count := imageDirectiveCount img
  failUnless (inRange 1 255 count) .directiveCount
  failUnless (imageLiteralCount img ≤ 512) .literalCount
  let termLen := fieldAt img 0x01 1
  failUnless (termLen ≤ 4) .terminator
  let raw := (List.range count).map (imageDirective img)
  failAt .directiveKind (firstBad (fun _ d => directiveKindKnown d) raw)
  failAt .operand (firstBad (fun _ d => (Directive.parse d).isSome) raw)
  let ds := raw.filterMap Directive.parse
  let lits := imageLiterals img
  failAt .literalRef (firstBad (fun _ d => refsInside lits d) ds)
  failAt .picture (firstBad (fun _ d => pictureValid dir lits d) ds)
  failAt .numberDigits (firstBad (fun _ d => numberDigitsOk dir lits d) ds)
  failAt .repeatNest (firstBad (nestFree ds) ds)
  failAt .repeatSpan (firstBad (fun i d => i + d.span < count) ds)
  let walk := writtenOut 0 (numbered ds)
  failAt .sourceReach (leastOf (reachWalk dir lits srcLen 0 walk).2)
  let maxOut := outputMaximum dir lits walk termLen
  failUnless (maxOut ≤ 4096) .outputMax
  pure
    { direction := dir, srcLen, maxOut,
      totalsUse := ds.any fun d => match d with | .addTotal _ => true | _ => false
      terminator := slice img 0x04 termLen, faultFill := byteAt img 0x08,
      directiveCount := count, literalCount := imageLiteralCount img }

/-! ## Placing, installing and removing images -/

/-- Pool bytes of one directive location start here. -/
def directiveByte (loc : Nat) : Nat := Config.directiveBytes * loc

/-- Write an accepted image into its extents, with new parity (R4, R16). -/
def Ls.place (ls : Ls) (im : LayoutImage) (img : List Byte) : Ls :=
  let dirBytes := slice img Config.headerBytes (Config.directiveBytes * im.directiveCount)
  let inDir := fun a => im.directiveStart ≤ a && a < im.directiveStart + im.directiveCount
  let ls := { ls with
    dirPool := writeBytes ls.dirPool (directiveByte im.directiveStart) dirBytes
    dirBad := ls.dirBad.filter fun a => !inDir a }
  match im.literalStart with
  | none => ls
  | some l =>
    { ls with
      litPool := writeBytes ls.litPool l (imageLiterals img)
      litBad := ls.litBad.filter fun a => !(l ≤ a && a < l + im.literalCount) }

/-- The version a new install gives (R3). -/
def LayoutSlot.nextVersion (x : LayoutSlot) : Byte := if x.everInstalled then x.version + 1 else 0

/-- A slot holds an installed image. -/
def LayoutSlot.holdsImage (x : LayoutSlot) : Bool := x.state != .empty

/-- A slot after an install (R17). -/
def LayoutSlot.install (x : LayoutSlot) (im : LayoutImage) : LayoutSlot :=
  { x with
    state := .ready, version := x.nextVersion, everInstalled := true, image := im, damaged := false
    staged := none, service := none }

/-- A slot after its image has left it (R19, R20). -/
def LayoutSlot.emptied (x : LayoutSlot) : LayoutSlot :=
  { x with state := .empty, image := {}, damaged := false, service := none }

/-- Install an image in a slot, freeing the extents of the one it replaces (R17). -/
def installImage (l : LayoutNo) (im : LayoutImage) (s : State) : State :=
  let x := s.layout l
  let s := if x.holdsImage then { s with ls := s.ls.giveBackImage x.image } else s
  s.modLayout l fun y => y.install im

/-- Remove the image of a slot (R19, R20). -/
def emptyLayout (l : LayoutNo) (s : State) : State :=
  let s := { s with ls := s.ls.giveBackImage (s.layout l).image }
  s.modLayout l LayoutSlot.emptied

/-- A parity report sets the damage mark (R22). -/
def LayoutSlot.markDamaged (x : LayoutSlot) : LayoutSlot :=
  { x with damaged := true, state := if x.state = .ready then .damaged else x.state }

/-- What the store answers to a layout claim (R21, R127). -/
inductive LayoutAnswer where
  | bound (version : Byte)
  | waits
  | failed (status : Status) (detail : Detail)
  deriving DecidableEq, Repr

/-- The layout-dependent checks of a READY slot, in their order (R127). -/
def layoutChecks (im : LayoutImage) (req : Request) (version : Byte) : LayoutAnswer :=
  if (req.kind == some .format) != (im.direction == .outward) then .failed .wrongDirection .none
  else if req.srcLen < req.recordCount * im.srcLen then .failed .badRequest .sourceShort
  else if im.totalsUse && req.group?.isNone then .failed .badRequest .totalsMissing
  else .bound version

/-- The answer to a bind claim for a slot (R2, R21). -/
def LayoutSlot.claim (x : LayoutSlot) (req : Request) : LayoutAnswer :=
  match x.state with
  | .empty | .dropping => .failed .noLayout .none
  | .damaged => .failed .layoutDamaged .none
  | .replacing => .waits
  | .ready => layoutChecks x.image req x.version

/-- RESET of a slot (R24). -/
def LayoutSlot.afterReset (x : LayoutSlot) : LayoutSlot :=
  { x with
    state := match x.state with
      | .replacing | .dropping => if x.damaged then .damaged else .ready
      | .empty => .empty
      | .ready => .ready
      | .damaged => .damaged
    staged := none, service := none, refCount := 0 }

/-- RESET of the store: staged extents are freed, load queue and buffer emptied (R24). -/
def Ls.afterReset (ls : Ls) : Ls :=
  let freed := (ls.slots.toList.filterMap LayoutSlot.staged).foldl Ls.giveBackImage ls
  { freed with slots := mapAll LayoutSlot.afterReset ls.slots, queue := [], bufferHeld := false, buffer := [] }

/-- CLEAR of the store (R25). The pools' bytes are not altered (R6). -/
def Ls.afterClear (ls : Ls) : Ls :=
  { State.reset.ls with dirPool := ls.dirPool, litPool := ls.litPool, dirBad := ls.dirBad, litBad := ls.litBad }

end Sys2Proof.Machine
end

