-- ==== Sys2Proof/Machine/Codes.lean ====
section
/-! DEFINITION. The Code Table Store (chapter 4): image checks, claims, and the byte work of TRANSLATE and COMPARE. -/

namespace Sys2Proof.Machine

/-! ## Image checks (R91) -/

/-- The 4 bytes of the entry image of byte value `v` (R227). -/
def entryImage (img : List Byte) (v : Nat) : List Byte := slice img (4 * v) 4

/-- The class set of an entry image holds a class of digits. -/
def needsDigit (e : List Byte) : Bool := byteAt e 1 &&& 0x62#8 != 0#8

/-- The first check that one entry image fails (R91). The class set byte uses all its bits (R227). -/
def entryFault (e : List Byte) : Option Detail :=
  if byteAt e 3 != 0 then some .classSet
  else if needsDigit e == (byteAt e 2 == 0xFF#8) then some .digitPresence
  else if byteAt e 2 != 0xFF#8 && 9 < (byteAt e 2).toNat then some .digitValue
  else none

/-- The checks of a code table image: its entries, or the first failing byte value with its detail (R91). -/
def checkCodes (img : List Byte) : Except ImageFault (List CodeEntry) :=
  let es := (List.range 256).map (entryImage img)
  match firstBad (fun _ e => (entryFault e).isNone) es with
  | some v => .error ((entryFault (entryImage img v)).getD .classSet, v)
  | none => .ok (es.map CodeEntry.parse)

/-! ## Tables -/

/-- The entry of a byte value. -/
def CodeTable.entry (t : CodeTable) (b : Byte) : CodeEntry := t.entries.getD b.toNat {}

/-- The lookup that a unit makes in its bound table (R88). -/
def State.lookup (s : State) (t : TableNo) : Lookup := (s.table t).entry

/-- RESET of a table: contents kept (R95). -/
def CodeTable.afterReset (t : CodeTable) : CodeTable := { t with refCount := 0, service := none }

/-- RESET of the store (R95). -/
def Cts.afterReset (c : Cts) : Cts :=
  { tables := mapAll CodeTable.afterReset c.tables, queue := [], bufferHeld := false, buffer := [] }

/-! ## TRANSLATE (R96) -/

/-- Translate source bytes up to the end or to a STOP byte: the bytes to stage, and whether a STOP byte ended it. -/
def translateBytes (look : Lookup) (includeStop : Bool) : List Byte → List Byte × Bool
  | [] => ([], false)
  | b :: bs =>
    if (look b).has .stop then (if includeStop then [(look b).target] else [], true)
    else
      let (out, stopped) := translateBytes look includeStop bs
      ((look b).target :: out, stopped)

/-- How a translated chunk goes on (R97 to R99). `last` says that the chunk holds the last source byte. -/
def translateNext (staged room : Nat) (stopped last : Bool) : AfterHand :=
  if room < staged then .ending .destFull .none
  else if stopped then .ending .success .stopFound
  else if last then .ending .success .sourceEnd
  else .onward

/-! ## COMPARE (R100) -/

/-- The compared byte of a string's part of a chunk at an offset of the chunk: a target byte within the part, the pad
byte beyond it. -/
def comparedByte (look : Lookup) (pad : Byte) (part : List Byte) (i : Nat) : Byte :=
  match part[i]? with
  | some b => (look b).target
  | none => pad

/-- The first offset of a chunk at which the strings differ, with the result. -/
def compareChunk (look : Lookup) (pad : Byte) (a b : List Byte) (n : Nat) : Option (Nat × CompareResult) :=
  ((List.range n).find? fun i => comparedByte look pad a i != comparedByte look pad b i).map fun i =>
    (i, if (comparedByte look pad a i).toNat < (comparedByte look pad b i).toNat then .less else .greater)

/-- Bytes of a string of `len` bytes that lie in chunk `k`. -/
def chunkBytes (len k : Nat) : Nat := min Config.chunkSize (len - Config.chunkSize * k)

/-- The compare length of a request (R100). -/
def Request.compareLength (r : Request) : Nat := max r.srcLen r.dstCap

end Sys2Proof.Machine
end

