-- ==== Sys2Proof/Machine/Totals.lean ====
section
/-! DEFINITION. The Totals Unit (chapter 8): record batches, snapshots and zeroing. -/

namespace Sys2Proof.Machine

/-- A sum lies inside the accumulator range (R165). -/
def sumFits (v : Int) : Bool := v.natAbs ≤ Config.accumulatorLimit

/-- The sum a pair forms with its accumulator (R165). -/
def pairSum (g : Vector Accumulator 16) (p : AccNo × Int) : Int := g[p.1].value + p.2

/-- An accumulator after a pair is applied: the add count stays at its limit (R163, R165). -/
def Accumulator.add (a : Accumulator) (v : Int) : Accumulator :=
  { value := a.value + v, count := min (a.count + 1) Config.addCountLimit }

/-- A group after a batch is applied (R165). -/
def applyBatch (g : Vector Accumulator 16) (batch : List (AccNo × Int)) : Vector Accumulator 16 :=
  batch.foldl (fun h p => modifyAt h p.1 fun a => a.add p.2) g

/-- Take a record batch whole: the group after it, and whether it was applied (R165). -/
def takeBatch (g : Vector Accumulator 16) (batch : List (AccNo × Int)) : Vector Accumulator 16 × Bool :=
  if batch.all fun p => sumFits (pairSum g p) then (applyBatch g batch, true) else (g, false)

/-- A zeroed group (R168, R171). -/
def zeroGroup : Vector Accumulator 16 := Vector.replicate 16 {}

/-- ADD_TOTAL into a pending batch: a value joins the pair of its accumulator, or a new pair joins at the end (R45). -/
def addPair (acc : AccNo) (v : Int) : List (AccNo × Int) → List (AccNo × Int)
  | [] => [(acc, v)]
  | (a, w) :: rest => if a = acc then (a, w + v) :: rest else (a, w) :: addPair acc v rest

end Sys2Proof.Machine
end

