-- ==== Sys2Proof/Machine/Link.lean ====
section
/-! DEFINITION. The Host Link Unit's link access (chapter 10): asking for reads, handing writes, fatal faults and the halt
they bring. -/

namespace Sys2Proof.Machine

/-! ## Reading host memory (R212, R213) -/

/-- The link reads of a read, in address order. `place` is where its first byte goes in the requester's window or buffer
(R212). -/
def linkReads (who : Requester) (part : Nat) (addr : HostAddr) (len place : Nat) : List LinkRead :=
  (linkPieces addr len).map fun (off, n) =>
    { requester := who, part := part, addr := hostAddr addr off, len := n, place := place + off, live := true }

/-- Ask for a read: its link reads join the read queue (R212). While HALTED no further read is issued, and none joins
(R219). -/
def askRead (who : Requester) (part : Nat) (addr : HostAddr) (len place : Nat) (s : State) : State :=
  if s.halted then s
  else { s with hlu := { s.hlu with readQueue := s.hlu.readQueue ++ linkReads who part addr len place } }

/-- A link read's data is still wanted by a requester. -/
def LinkRead.wantedBy (r : LinkRead) (who : Requester) : Bool := r.live && r.requester == who

/-- A requester still waits for a link read, queued or in flight. -/
def readOutstanding (who : Requester) (s : State) : Bool :=
  s.hlu.readQueue.any (LinkRead.wantedBy · who) || s.hlu.tags.toList.any fun t => t.any fun f => f.read.wantedBy who

/-- A link read whose data is no longer wanted. -/
def LinkRead.unwanted (r : LinkRead) : LinkRead := { r with live := false }

/-- One of a requester's reads has faulted: its queued link reads are removed, and no link read of the requester is
wanted any more (R213). -/
def dropReads (who : Requester) (part : Nat) (s : State) : State :=
  let mine := fun r : LinkRead => r.requester == who
  { s with hlu := { s.hlu with
      readQueue := (s.hlu.readQueue.filter fun r => !(r.wantedBy who && r.part == part)).map fun r =>
        if mine r then r.unwanted else r
      tags := mapAll (fun t => t.map fun f => if mine f.read then { f with read := f.read.unwanted } else f) s.hlu.tags } }

/-- A link read of the read that `f` belongs to, behind `f` in address order, as far as requester, part and place tell. -/
def LinkRead.behind (r f : LinkRead) : Bool := r.requester == f.requester && r.part == f.part && decide (f.place < r.place)

/-- The head of the read queue belongs to the read of the link read `f` in flight. The link reads of one read stand together
in address order and are issued from the head of the queue (R212), so that what is still queued of that read stands at the
head; every link read behind `f` begins at a multiple of 512, and the head is the one that follows the link reads issued since
`f` (R213, log 17). -/
def restQueued (f : InFlight) (s : State) : Bool :=
  s.hlu.readQueue.head?.any fun h =>
    h.behind f.read && h.place == f.read.place + f.read.len + Config.linkSpan * (s.readStamp - (f.stamp + 1))

/-- A link read in flight that nobody wants has faulted: what is still queued of its read is removed and not issued
(R213). -/
def dropRest (f : InFlight) (s : State) : State :=
  { s with hlu := { s.hlu with
      readQueue := if restQueued f s then s.hlu.readQueue.dropWhile (LinkRead.behind · f.read) else s.hlu.readQueue } }

/-- A requester's window or buffer takes a link read's data at its place (R212). -/
def placeData (r : LinkRead) (data : List Byte) (s : State) : State :=
  match r.requester with
  | .setup => { s with hlu := { s.hlu with setupBuf := writeBytes s.hlu.setupBuf r.place data } }
  | .fetch q => s.modSq q fun x => { x with fetchBuf := writeBytes x.fetchBuf r.place data }
  | .unit k => s.modFu k fun x => { x with srcWindow := writeBytes x.srcWindow r.place data }
  | .layoutLoad => { s with ls := { s.ls with buffer := writeBytes s.ls.buffer r.place data } }
  | .codesLoad => { s with cts := { s.cts with buffer := writeBytes s.cts.buffer r.place data } }
  | .settle _ => s

/-! ## Writing host memory (R214 to R217) -/

/-- A write the part hands: its writer, owner, address, bytes, and the vector of a message. -/
structure WriteAsk where
  writer : Writer
  owner : Owner
  addr : HostAddr := 0
  data : List Byte := []
  vector : Option (Fin 32) := none
  deriving DecidableEq, Repr

/-- The write queue has room, and nobody waits before (R214). -/
def queueHasRoom (s : State) : Bool := s.hlu.writeQueue.length < Config.writeQueueSize && s.hlu.waiting.isEmpty

/-- Settle tracking learns of a handed write of a job (R216). -/
def trackWrite (owner : Owner) (serial : Nat) (s : State) : State :=
  match owner with
  | .job j _ _ _ => s.modSettle j fun t => { t with handed := true, lastWrite := some serial }
  | .completion _ | .progressHead _ | .progressTail _ | .progressBlock | .message _ => s

/-- Hand a write: it joins the write queue, or waits with its writer while the queue is full (R214). While HALTED it is
not accepted and is discarded (R219). -/
def handWrite (w : WriteAsk) (s : State) : State :=
  if s.halted then s
  else
    let e : HandedWrite :=
      { serial := s.hlu.writeSerial, writer := w.writer, owner := w.owner, addr := w.addr, data := w.data,
        vector := w.vector, issued := 0 }
    let h := { s.hlu with writeSerial := s.hlu.writeSerial + 1 }
    let h := if queueHasRoom s then { h with writeQueue := h.writeQueue ++ [e] } else { h with waiting := h.waiting ++ [e] }
    trackWrite w.owner e.serial { s with hlu := h }

/-- A write has been handed and has not left the write queue. -/
def writeHeld (serial : Nat) (s : State) : Bool :=
  s.hlu.writeQueue.any (fun e => e.serial == serial) || s.hlu.waiting.any fun e => e.serial == serial

/-- The link writes of a handed write: a message is one, a write ends them at multiples of 512 (R214, R217). -/
def HandedWrite.linkOps (e : HandedWrite) : List LinkOp :=
  match e.vector with
  | some v => [.message v e.owner]
  | none => (linkPieces e.addr e.data.length).map fun (off, n) => .write (hostAddr e.addr off) (slice e.data off n) e.owner

/-- Take the first waiting write of a writer out of the waiting list. -/
def takeWaiting (w : Writer) : List HandedWrite → Option (HandedWrite × List HandedWrite)
  | [] => none
  | e :: es => if e.writer = w then some (e, es) else (takeWaiting w es).map fun (x, rest) => (x, e :: rest)

/-- An entry has left the write queue: one waiting write is admitted, writers that wait together in either order
(R214, log 5). A message that waits is admitted like any other write, so that it may stand before a write of another writer
that waited earlier, although R217 places it behind every write already handed (log 5). Answers the write admitted. -/
def admitWaiting (s : State) : Option HandedWrite × State :=
  let writers := (s.hlu.waiting.map HandedWrite.writer).eraseDups
  let (i, s) := s.choose writers.length
  match (writers[i]?).bind fun w => takeWaiting w s.hlu.waiting with
  | some (e, rest) => (some e, { s with hlu := { s.hlu with writeQueue := s.hlu.writeQueue ++ [e], waiting := rest } })
  | none => (none, s)

/-! ## Hand-off counts (R27, R50, R97) -/

/-- A kind that runs on the record cycle. -/
def ReqKind.recordCycle : ReqKind → Bool
  | .format | .parse => true
  | .translate | .compare | .loadLayout | .dropLayout | .loadCodes | .dropCodes | .readTotals | .clearTotals
  | .abort => false

/-- The counts that a hand-off of `n` bytes raises in the slot (R27, R97). -/
def Job.handed (x : Job) (kind : ReqKind) (n : Nat) : Job :=
  { x with
    recordsDone := if kind.recordCycle then x.recordsDone + 1 else x.recordsDone
    bytesWritten := x.bytesWritten + n }

/-- The slot of a job whose record or chunk is handed after the engine has become HALTED: R28 and R161 complete the
sequence, in which the counts rise, and R140 keeps every field of every slot. Which of the two holds is a free value
(log 27). -/
def Job.handedInHalt (x : Job) (kind : ReqKind) (n : Nat) : Job := if Config.haltedCountsRise then x.handed kind n else x

/-! ## Fatal faults (R218, R219) -/

/-- A unit when the engine becomes HALTED (R161, log 16). It stops at once when it waits on a source or chunk read (R29
speaks of the boundary that follows the read, R53 and R161 of a stop at once, and by R219 the read's data reaches nobody),
when it waits on the pool reads of the directive it is due to execute, and when it waits for room in the write queue, its
end-of-record sequence being completed with its write discarded. -/
def Fu.onHalt (x : Fu) : Fu :=
  match x.ctx.map Context.phase with
  | some .readWait | some .directive | some (.writeWait _) =>
    { x with state := .stopped, ctx := none, suspendRequested := false }
  | _ => x

/-- The context of a unit that waits for room in the write queue. -/
def Fu.handing (x : Fu) : Option Context :=
  x.ctx.bind fun c => match c.phase with
    | .writeWait _ => some c
    | .readWait | .boundary | .directive | .batchSubmitted | .batchAnswered _ | .finalBoundary => none

/-- The job slot `j` when the engine becomes HALTED: a unit that waits for room in the write queue completes its hand-off
(R28, R161); a slot whose parity fails is not changed (R140). -/
def State.jobOnHalt (s : State) (j : SlotNo) : Job :=
  ((s.fus.toList.filterMap Fu.handing).filter fun c => c.slot == j && !s.jt.badParity.contains j).foldl
    (fun x c => x.handedInHalt c.kind c.dstCursor) (s.job j)

/-- Every index of a vector. -/
def allIndices (n : Nat) : Vector (Fin n) n := ⟨⟨List.finRange n⟩, by simp⟩

/-- What entering HALTED does: unissued writes, messages and reads are discarded, reads in flight reach nobody, hold timers
stop, and units that wait stop (R161, R200, R219). -/
def enterHalted (s : State) : State :=
  { s with
    hlu := { s.hlu with
      engine := .halted, readQueue := [], writeQueue := [], waiting := []
      tags := mapAll (fun t => t.map fun f => { f with read := f.read.unwanted }) s.hlu.tags }
    qm := { s.qm with cqs := mapAll (fun c => { c with holdTimer := none }) s.qm.cqs }
    jt := { s.jt with slots := mapAll s.jobOnHalt (allIndices 32) }
    fus := mapAll Fu.onHalt s.fus }

/-- Take a fatal fault: in RUNNING, PAUSING or PAUSED the engine becomes HALTED and FAULT is set (R218). -/
def fatalFault (f : FaultRecord) (s : State) : State :=
  if s.live then enterHalted { s with hlu := { s.hlu with fault := f } } else s

/-- The slots that a Job Table event reads pass their parity checks: one that fails is the fatal fault SLOT_PARITY (R140).
When several fail together, which of them is taken first is a free choice (R218, log 5). Answers whether all passed. -/
def readSlots (js : List SlotNo) (s : State) : Bool × State :=
  match js.filter fun j => s.jt.badParity.contains j with
  | [] => (true, s)
  | j :: others =>
    let (i, s) := s.choose (others.length + 1)
    (false, fatalFault { code := .slotParity, slot := (j :: others)[i]?.getD j } s)

/-- Do a Job Table event that reads slots: nothing of it comes about when a slot fails its parity check. -/
def withSlots (js : List SlotNo) (f : State → State) (s : State) : State :=
  match readSlots js s with
  | (true, s) => f s
  | (false, s) => s

end Sys2Proof.Machine
end

