-- ==== Sys2Proof/Machine/Jobs.lean ====
section
/-! DEFINITION. The Job Table (chapter 6): checks, chains, binding, service, ABORT, draining and posting, with the claims
that the stores and the Totals Unit take in the same event. -/

namespace Sys2Proof.Machine

/-! ## Field checks (R120, R121) -/

/-- The fields that a request kind uses (R121). -/
def ReqKind.usesLayout : ReqKind → Bool
  | .format | .parse | .loadLayout | .dropLayout => true
  | .translate | .compare | .loadCodes | .dropCodes | .readTotals | .clearTotals | .abort => false

def ReqKind.usesCodes : ReqKind → Bool
  | .format | .parse | .translate | .compare | .loadCodes | .dropCodes => true
  | .loadLayout | .dropLayout | .readTotals | .clearTotals | .abort => false

def ReqKind.usesStopMask : ReqKind → Bool
  | .format | .parse => true
  | .translate | .compare | .loadLayout | .dropLayout | .loadCodes | .dropCodes | .readTotals | .clearTotals
  | .abort => false

def ReqKind.usesSource : ReqKind → Bool
  | .format | .parse | .translate | .compare | .loadLayout | .loadCodes => true
  | .dropLayout | .dropCodes | .readTotals | .clearTotals | .abort => false

def ReqKind.usesDestination : ReqKind → Bool
  | .format | .parse | .translate | .compare | .readTotals => true
  | .loadLayout | .dropLayout | .loadCodes | .dropCodes | .clearTotals | .abort => false

/-- The totals group field holds what a kind asks for (check 6 of R120). -/
def Request.totalsGroupOk (r : Request) : ReqKind → Bool
  | .format | .parse => r.totalsGroup.toNat < 8 || r.totalsGroup == 0xFF#8
  | .readTotals | .clearTotals => r.totalsGroup.toNat < 8
  | .translate | .compare | .loadLayout | .dropLayout | .loadCodes | .dropCodes | .abort => r.totalsGroup == 0xFF#8

/-- The defined bits of the kind-specific word (R223). -/
def kindWordMask : ReqKind → Word
  | .translate | .readTotals => 0x00000001
  | .compare => 0x000000FF
  | .abort => 0xFFFF00FF
  | .format | .parse | .loadLayout | .dropLayout | .loadCodes | .dropCodes | .clearTotals => 0

/-- The kind-specific word holds defined bits only, and an ABORT names an SQ 0 to 7 (check 10 of R120). -/
def Request.kindWordOk (r : Request) (k : ReqKind) : Bool :=
  r.kindWord &&& ~~~(kindWordMask k) == 0#32 && (k != .abort || r.kindWord.toNat % 256 < 8)

/-- The first failing check of an ordered list. -/
def firstFailing : List (Bool × Detail) → Option Detail
  | [] => none
  | (ok, d) :: rest => if ok then firstFailing rest else some d

/-- The field checks in their order (R120): the detail code of the first that fails. -/
def Request.fieldFault (r : Request) : Option Detail :=
  match r.kind with
  | none => some .kind
  | some k =>
    firstFailing
      [ (!r.reservedSet, .reserved),
        (inRange 1 65535 r.recordCount, .recordCount),
        (if k.usesLayout then r.layoutId.toNat ≤ 127 else r.layoutId == 0, .layoutId),
        (if k.usesCodes then r.codeTableId.toNat ≤ 15 else r.codeTableId == 0, .codeTableId),
        (r.totalsGroupOk k, .totalsGroup),
        (k.usesStopMask || r.stopMask == 0, .stopMask),
        (if k.usesSource then r.srcLen ≤ Config.lengthLimit else r.srcAddr == 0 && r.srcLen == 0, .source),
        (if k.usesDestination then r.dstCap ≤ Config.lengthLimit && (k != .readTotals || 384 ≤ r.dstCap)
         else r.dstAddr == 0 && r.dstCap == 0, .destination),
        (r.kindWordOk k, .kindWord) ]

/-! ## Posting (R125, R138, R191) -/

/-- A record joins the end of the posting queue (R191). -/
def joinPosting (e : PostEntry) (s : State) : State := { s with qm := { s.qm with posting := s.qm.posting ++ [e] } }

/-- The completion record of a job (R138). -/
def completionOf (x : Job) : CompletionRecord where
  sq := x.sq
  tag := x.req.tag
  status := x.status
  detail := x.detail
  detailArg := x.detailArg
  faults := x.faults
  anyFault := x.anyFault
  first := x.first
  recordsDone := x.recordsDone
  bytesWritten := x.bytesWritten
  compareOffset := x.compareOffset
  version := x.version
  compareResult := x.compareResult
  notify := x.req.notify

/-- A job enters POSTING: its completion record is handed to the QM, and a chain that it left open is closed (R125, R138).
Its chain successor is released by `chainReleaseRule`. -/
def enterPosting (j : SlotNo) (s : State) : State :=
  let x := s.job j
  let s := s.modJob j fun y => { y with state := .posting }
  let s := joinPosting ⟨some j, completionOf x⟩ s
  if s.chain x.sq = .isOpen j then s.setChain x.sq (if x.status = some .success then .none else .brokenPending) else s

/-- Take the settle outcome of a job that has handed no write: clean, in the same event (R136, R216). While HALTED no
completion record is handed to the QM (R140). -/
def settleIfUnwritten (j : SlotNo) (s : State) : State :=
  if (s.settle j).handed || s.halted then s else enterPosting j s

/-! ## Deciding and draining (R136) -/

/-- A status with its detail is decided for a job. -/
def Job.decide (x : Job) (st : Status) (d : Detail) : Job := { x with status := some st, detail := d }

/-- A job is decided ABORTED, by an ABORT or by a unit that acts on one (R133, R134). -/
def Job.decideAborted (x : Job) : Job :=
  { x.decide .aborted .none with endedAborted := true, suspension := none }

/-- A job that holds no reference enters DRAINING. -/
def drainUnbound (j : SlotNo) (s : State) : State :=
  settleIfUnwritten j (s.modJob j fun x => { x with state := .draining, refs := .none })

/-- A served job when its service ends: an ABORT waits on no target any longer (R115, R132, R134). -/
def Job.endService (x : Job) (st : Status) (d : Detail) (arg version : Byte) : Job :=
  { x.decide st d with detailArg := arg, version := version, abortTarget := none, abortOutcome := none }

/-- A serving block reports a service end (R132). -/
def serviceEnd (j : SlotNo) (st : Status) (d : Detail) (arg version : Byte) (s : State) : State :=
  withSlots [j] (fun s => drainUnbound j (s.modJob j fun x => x.endService st d arg version)) s

/-- The job that holds a layout slot ends SUCCESS with a version. -/
def serviceSuccess (j : Option SlotNo) (version : Byte) (s : State) : State :=
  match j with
  | some k => serviceEnd k .success .none 0 version s
  | none => s

/-- Release a layout reference: the last one installs a staged image or empties a DROPPING slot (R17, R20, R21). -/
def releaseLayout (l : LayoutNo) (s : State) : State :=
  let s := s.modLayout l fun x => { x with refCount := x.refCount - 1 }
  let x := s.layout l
  if x.refCount ≠ 0 then s
  else
    match x.state, x.staged with
    | .replacing, some im =>
      let s := installImage l im s
      serviceSuccess x.service (s.layout l).version s
    | .dropping, _ => serviceSuccess x.service x.version (emptyLayout l s)
    | _, _ => s

/-- Release a code table reference (R88). -/
def releaseTable (t : TableNo) (s : State) : State := s.modTable t fun x => { x with refCount := x.refCount - 1 }

/-- Release what a job holds in the stores. -/
def releaseRefs (x : Job) (s : State) : State :=
  let s := match x.refs, x.boundLayout with
    | .layout, some (l, _) | .both, some (l, _) => releaseLayout l s
    | _, _ => s
  match x.refs, x.boundCodes with
  | .both, some t | .codes, some t => releaseTable t s
  | _, _ => s

/-- A job whose status is decided enters DRAINING: its references are released and its settle outcome is asked for
(R136). -/
def enterDraining (j : SlotNo) (s : State) : State :=
  let x := s.job j
  let s := s.modJob j fun y => { y with state := .draining, refs := .none }
  settleIfUnwritten j (releaseRefs x s)

/-- A job ends with a status decided by the Job Table. -/
def endJob (j : SlotNo) (st : Status) (d : Detail) (s : State) : State :=
  enterDraining j (s.modJob j fun x => x.decide st d)

/-! ## The ready order (R145, R146) -/

/-- One entry stands before another (R145). -/
def ReadyEntry.before (a b : ReadyEntry) : Bool :=
  if a.cls != b.cls then a.cls == .urgent
  else if a.suspended != b.suspended then a.suspended
  else a.takeOrder < b.takeOrder

/-- Put an entry into a sorted ready order. -/
def insertReady (e : ReadyEntry) : List ReadyEntry → List ReadyEntry
  | [] => [e]
  | x :: xs => if e.before x then e :: x :: xs else x :: insertReady e xs

/-- A job joins the ready order. -/
def joinReady (j : SlotNo) (suspended : Bool) (s : State) : State :=
  let x := s.job j
  { s with sch := { s.sch with ready := insertReady ⟨j, x.cls, x.takeOrder, suspended⟩ s.sch.ready } }

/-- A job leaves the ready order. -/
def leaveReady (j : SlotNo) (s : State) : State :=
  { s with sch := { s.sch with ready := s.sch.ready.filter fun e => e.slot != j } }

/-- A job enters READY (R129). -/
def enterReady (j : SlotNo) (s : State) : State := joinReady j false (s.modJob j fun x => { x with state := .ready })

/-! ## Management requests (R132) -/

/-- A LOAD_LAYOUT enters SERVICE (R14). -/
def serveLoadLayout (j : SlotNo) (s : State) : State :=
  let l := (s.job j).req.layoutNo
  match (s.layout l).service with
  | some _ => serviceEnd j .layoutBusy .none 0 0 s
  | none =>
    let s := s.modLayout l fun x => { x with service := some j }
    { s with ls := { s.ls with queue := s.ls.queue ++ [j] } }

/-- A DROP_LAYOUT enters SERVICE (R19). -/
def serveDropLayout (j : SlotNo) (s : State) : State :=
  let l := (s.job j).req.layoutNo
  let x := s.layout l
  match x.service with
  | some _ => serviceEnd j .layoutBusy .none 0 0 s
  | none =>
    if x.state = .empty then serviceEnd j .noLayout .none 0 0 s
    else if x.refCount = 0 then serviceEnd j .success .none 0 x.version (emptyLayout l s)
    else s.modLayout l fun y => { y with state := .dropping, service := some j }

/-- A LOAD_CODES enters SERVICE (R89). -/
def serveLoadCodes (j : SlotNo) (s : State) : State :=
  let r := (s.job j).req
  let x := s.table r.tableNo
  if x.service.isSome || (x.ready && x.refCount != 0) then serviceEnd j .codesBusy .none 0 0 s
  else if r.srcLen ≠ Config.codesImageBytes then serviceEnd j .badImage .imageLength 0 0 s
  else
    let s := s.modTable r.tableNo fun y => { y with service := some j }
    { s with cts := { s.cts with queue := s.cts.queue ++ [j] } }

/-- A DROP_CODES enters SERVICE (R93). -/
def serveDropCodes (j : SlotNo) (s : State) : State :=
  let t := (s.job j).req.tableNo
  let x := s.table t
  if x.service.isSome then serviceEnd j .codesBusy .none 0 0 s
  else if !x.ready then serviceEnd j .noCodes .none 0 0 s
  else if x.refCount ≠ 0 then serviceEnd j .codesBusy .none 0 0 s
  else serviceEnd j .success .none 0 0 (s.modTable t fun y => { y with ready := false, entries := [] })

/-- The write that carries snapshot record `k` (R169, R227). -/
def snapshotWrite (j : SlotNo) (x : Job) (g : GroupNo) (k : Nat) (a : Accumulator) : WriteAsk where
  writer := .totals
  owner := .job j x.takeOrder 0 (Config.snapshotBytes * k)
  addr := hostAddr x.req.dstAddr (Config.snapshotBytes * k)
  data := snapshotRecord g k a

/-- A READ_TOTALS enters SERVICE: its snapshot claim, and the 16 writes handed (R168, R169). Its service end follows when
all 16 have joined the write queue (`totalsEndRule`). -/
def serveReadTotals (j : SlotNo) (s : State) : State :=
  let x := s.job j
  let g := x.req.group?.getD 0
  let snap := (s.group g).toList
  let s := if x.req.kindFlag then s.setGroup g zeroGroup else s
  let s := s.modJob j fun y => { y with snapshot := snap }
  snap.zipIdx.foldl (fun s (a, k) => handWrite (snapshotWrite j x g k a) s) s

/-- A CLEAR_TOTALS enters SERVICE: its zeroing claim (R171). -/
def serveClearTotals (j : SlotNo) (s : State) : State :=
  let g := (s.job j).req.group?.getD 0
  serviceEnd j .success .none 0 0 (s.setGroup g zeroGroup)

/-! ## ABORT (R133 to R135) -/

/-- Following predecessor links from a slot reaches a slot with a property. -/
def predReaches (s : State) (p : SlotNo → Bool) : Nat → SlotNo → Bool
  | 0, _ => false
  | n + 1, j =>
    match (s.job j).pred with
    | some k => p k || predReaches s p n k
    | none => false

/-- A slot holds an ABORT that waits in SERVICE for its target. -/
def waitsForTarget (s : State) (k : SlotNo) : Bool :=
  let x := s.job k
  x.state == .service && x.req.kind == some .abort && x.abortTarget.isSome

/-- A request kind, as far as it is known, is served and not run. -/
def Request.management (r : Request) : Bool := r.kind.any ReqKind.management

/-- The job that an ABORT names: carried tags of non-FREE slots only (R119, R133). -/
def abortTargetOf (s : State) (r : Request) : Option SlotNo :=
  s.findSlot fun _ x => x.state != .free && x.tagCarried && x.sq == r.targetSq && x.req.tag == r.targetTag

/-- An ABORT waits on its target's slot, with the outcome it was resolved with, if any (R134). -/
def awaitTarget (j k : SlotNo) (outcome : Option Status) (s : State) : State :=
  s.modJob j fun x => { x with abortTarget := some k, abortOutcome := outcome }

/-- An ABORT acts on a target that holds no unit: it is decided ABORTED, leaves the ready order and enters DRAINING. -/
def abortWaiting (k : SlotNo) (s : State) : State :=
  enterDraining k (leaveReady k (s.modJob k fun x => { x.decideAborted with abortPending := true }))

/-- Resolve an ABORT against its target as it stands (R133). -/
def resolveAbort (j k : SlotNo) (s : State) : State :=
  let x := s.job k
  if x.req.management then serviceEnd j .abortRefused .none 0 0 s
  else if predReaches s (fun i => i == j || waitsForTarget s i) 32 k then serviceEnd j .abortRefused .none 0 0 s
  else if x.abortPending then awaitTarget j k (some .abortPending) s
  else
    match x.state with
    | .waitChain =>
      if x.status.isSome then awaitTarget j k (some .abortLate) s
      else awaitTarget j k none (s.modJob k fun y => { y.decideAborted with abortPending := true })
    | .waitLayout | .ready | .suspended => abortWaiting k (awaitTarget j k none s)
    | .running => awaitTarget j k none (s.modJob k fun y => { y with abortPending := true })
    | .draining | .posting => awaitTarget j k (some .abortLate) s
    | .free | .fetched | .service => serviceEnd j .abortNoTarget .none 0 0 s

/-- An ABORT enters SERVICE: the lookup reads every slot that is not FREE (R133, R140). -/
def serveAbort (j : SlotNo) (s : State) : State :=
  withSlots (s.slotsWhere fun _ x => x.state != .free)
    (fun s =>
      match abortTargetOf s (s.job j).req with
      | some k => resolveAbort j k s
      | none => serviceEnd j .abortNoTarget .none 0 0 s) s

/-- A management job enters SERVICE (R129, R132). -/
def enterService (j : SlotNo) (k : ReqKind) (s : State) : State :=
  let s := s.modJob j fun x => { x with state := .service }
  match k with
  | .loadLayout => serveLoadLayout j s
  | .dropLayout => serveDropLayout j s
  | .loadCodes => serveLoadCodes j s
  | .dropCodes => serveDropCodes j s
  | .readTotals => serveReadTotals j s
  | .clearTotals => serveClearTotals j s
  | .abort => serveAbort j s
  | .format | .parse | .translate | .compare => s

/-! ## Binding (R126 to R129) -/

/-- The code table claim: a reference and READY, or NO_CODES with the layout reference given back (R88, R126). -/
def claimTable (j : SlotNo) (held : Refs) (s : State) : State :=
  let t := (s.job j).req.tableNo
  if (s.table t).ready then
    let s := s.modTable t fun x => { x with refCount := x.refCount + 1 }
    enterReady j (s.modJob j fun x => { x with boundCodes := some t, refs := held })
  else endJob j .noCodes .none s

/-- The layout claim, and the code table claim after it (R126). -/
def claimLayout (j : SlotNo) (s : State) : State :=
  let r := (s.job j).req
  let l := r.layoutNo
  match (s.layout l).claim r with
  | .failed st d => endJob j st d s
  | .waits => s.modJob j fun x => { x with state := .waitLayout }
  | .bound v =>
    let s := s.modLayout l fun x => { x with refCount := x.refCount + 1 }
    claimTable j .both (s.modJob j fun x => { x with boundLayout := some (l, v), version := v, refs := .layout })

/-- The bind step (R126, R129). -/
def bindJob (j : SlotNo) (s : State) : State :=
  match (s.job j).req.kind with
  | some .format | some .parse => claimLayout j s
  | some .translate | some .compare => claimTable j .codes s
  | some k => enterService j k s
  | none => endJob j .badRequest .kind s

/-! ## The take step (R117 to R123) -/

/-- Hold a FREE slot for a granted fetch (R117). -/
def holdSlot (j : SlotNo) (q : SqNo) (s : State) : State :=
  let s := s.modJob j fun _ => { state := .fetched, sq := q }
  let s := s.modSettle j fun _ => {}
  { s with jt := { s.jt with badParity := s.jt.badParity.filter (· != j) } }

/-- Another non-FREE job of the SQ carries the same tag (R119). -/
def tagTaken (s : State) (j : SlotNo) (q : SqNo) (tag : BitVec 16) : Bool :=
  (s.findSlot fun k x => k != j && x.state != .free && x.sq == q && x.tagCarried && x.req.tag == tag).isSome

/-- Steps 1 to 3 of the take step: the request fields, the tag check and the field checks (R118 to R120). -/
def storeRequest (j : SlotNo) (r : Request) (s : State) : State :=
  let q := (s.job j).sq
  let taken := tagTaken s j q r.tag
  let s := s.modJob j fun x => { x with req := r, cls := (s.sq q).cls, takeOrder := s.jt.nextTake, tagCarried := !taken }
  let s := { s with jt := { s.jt with nextTake := s.jt.nextTake + 1 } }
  if taken then s.modJob j fun x => x.decide .duplicateTag .none
  else
    match r.fieldFault with
    | some d => s.modJob j fun x => x.decide .badRequest d
    | none => s

/-- The chain step (R123). -/
def chainStep (j : SlotNo) (s : State) : State :=
  let x := s.job j
  let next := if x.req.chain then ChainState.isOpen j else .none
  match s.chain x.sq with
  | .none => s.setChain x.sq next
  | .isOpen p => (s.modJob j fun y => { y with pred := some p }).setChain x.sq next
  | .brokenPending =>
    let s := if x.status.isNone then s.modJob j fun y => y.decide .chainBroken .none else s
    s.setChain x.sq (if x.req.chain then .brokenPending else .none)

/-- The job leaves FETCHED by the outcome of its take step (step 5 of R118, R122). -/
def leaveTake (j : SlotNo) (s : State) : State :=
  let x := s.job j
  if x.pred.isSome then s.modJob j fun y => { y with state := .waitChain }
  else if x.status.isSome then enterDraining j s
  else bindJob j s

/-- The take step. The tag check reads every non-FREE slot of the SQ (R118, R119, R140). -/
def takeStep (j : SlotNo) (r : Request) (s : State) : State :=
  let q := (s.job j).sq
  withSlots (s.slotsWhere fun _ x => x.state != .free && x.sq == q)
    (fun s => leaveTake j (chainStep j (storeRequest j r s))) s

/-! ## Chain release and the end of a job (R124, R134, R139) -/

/-- A chain member whose predecessor `p` has entered POSTING goes on (R124). -/
def chainRelease (j p : SlotNo) (s : State) : State :=
  withSlots [j, p]
    (fun s =>
      let x := s.job j
      let s := s.modJob j fun y => { y with pred := none }
      if x.status.isSome then enterDraining j s
      else if (s.job p).status = some .success then bindJob j s
      else endJob j .chainBroken .none s) s

/-- The outcome of an ABORT whose target is FREE (R134). -/
def abortOutcomeOf (abort target : Job) : Status :=
  abort.abortOutcome.getD (if target.endedAborted then .abortDone else .abortLate)

/-- The ABORTs of a list end with their target `x`, one after another: which goes first, and so which completion record is
handed to the QM first, is a free choice (R134, R138, R191, log 5). When the slot of one fails its parity check, the services
of the others still end in that event, and the halt keeps their records from the QM (R140; DESIGN CHOICE, log 31). The first
argument bounds their number. -/
def endAborts (x : Job) : Nat → List SlotNo → State → State
  | 0, _, s => s
  | n + 1, js, s =>
    let (i, s) := s.choose js.length
    match js[i]? with
    | some a => endAborts x n (js.eraseIdx i) (serviceEnd a (abortOutcomeOf (s.job a) x) .none 0 0 s)
    | none => s

/-- Both writes of a job's posting are issued: its slot becomes FREE, the QM is told, and the ABORTs that wait on it end
(R134, R139). -/
def freeSlot (j : SlotNo) (s : State) : State :=
  let x := s.job j
  let waiters := s.slotsWhere fun _ y => y.state == .service && y.abortTarget == some j
  let s := s.modJob j fun _ => {}
  let s := s.modSettle j fun _ => {}
  let s := s.modSq x.sq fun y => { y with outstanding := y.outstanding - 1 }
  endAborts x waiters.length waiters s

/-- The settle outcome of a job after a settle read (R137, R216): `faulted` says that the read itself faulted. -/
def settleOutcome (j : SlotNo) (faulted : Bool) (s : State) : State :=
  withSlots [j]
    (fun s =>
      let s := match (s.settle j).refused with
        | some (rec, off) => s.modJob j fun x =>
            { x.decide .hostAccess .write with
              recordsDone := (match x.req.kind with
                | some .format | some .parse => rec
                | _ => x.recordsDone)
              bytesWritten := off }
        | none => if faulted then s.modJob j fun x => x.decide .hostAccess .settle else s
      enterPosting j (s.modSettle j fun t => { t with reading := false })) s

end Sys2Proof.Machine
end

