-- ==== Sys2Proof/Machine/Queues.lean ====
section
/-! DEFINITION. The Queue Manager (chapter 9): indices, credit, the fetch arbiter, queue breaks, posting and coalescing, and
setup (chapter 10). -/

namespace Sys2Proof.Machine

/-! ## Indices (R176) -/

/-- Entries from index `a` up to index `b` of a ring of `size` entries. -/
def ringCount (size a b : Nat) : Nat := (b + 2 * size - a) % (2 * size)

/-- Advance an index by one. -/
def advance (size i : Nat) : Nat := (i + 1) % (2 * size)

/-! ## Progress block (R193, R225) -/

/-- The QM hands the head field of an SQ. -/
def writeHeadField (q : SqNo) (s : State) : State :=
  handWrite
    { writer := .queueManager, owner := .progressHead q, addr := hostAddr s.qm.progressBase (4 * q.val)
      data := leBytes 4 (s.sq q).head } s

/-- The QM hands the tail field of a CQ. -/
def writeTailField (c : CqNo) (s : State) : State :=
  handWrite
    { writer := .queueManager, owner := .progressTail c, addr := hostAddr s.qm.progressBase (0x20 + 4 * c.val)
      data := leBytes 4 (s.cq c).tail } s

/-! ## Breaking (R189, R190) -/

/-- The queue event of an SQ (R190). Its NOTIFY bit is a free value (log 28). -/
def queueEvent (q : SqNo) (cause : Detail) : CompletionRecord :=
  { event := true, sq := q, detail := cause, notify := Config.eventNotify }

/-- An SQ breaks: a BROKEN one breaks no second time (R186, R189). -/
def breakSq (q : SqNo) (cause : Detail) (s : State) : State :=
  if (s.sq q).broken then s
  else
    let s := s.modSq q fun x => { x with broken := true, eventUsed := true }
    let s := s.modCq (s.sq q).boundCq fun c =>
      { c with eventReserves := c.eventReserves - 1, reservations := c.reservations + 1 }
    joinPosting ⟨none, queueEvent q cause⟩ s

/-! ## POST and RETIRE (R177, R178, R194, R195) -/

/-- The fetch point of an SQ (R178). -/
def Sq.fetchPoint (x : Sq) : Nat := if x.fetchInFlight then advance x.size x.head else x.head

/-- A new tail passes the index check (R178). -/
def Sq.tailOk (x : Sq) (t : Nat) : Bool := t < 2 * x.size && ringCount x.size x.fetchPoint t ≤ x.size

/-- A POST write with its reserved bits zero names an SQ that takes it: configured and ACTIVE, in RUNNING, PAUSING or PAUSED
(R177). -/
def postTaken (q : SqNo) (s : State) : Bool := s.live && (s.sq q).configured && !(s.sq q).broken

/-- A POST write that its SQ takes: the index check (R178). -/
def postTail (q : SqNo) (t : Nat) (s : State) : State :=
  if (s.sq q).tailOk t then s.modSq q fun x => { x with tail := t } else breakSq q .indexError s

/-- A POST or RETIRE write to an unconfigured queue: ignored, with PROTOCOL set in RUNNING, PAUSING or PAUSED (R177,
R194). -/
def unconfiguredWrite (configured : Bool) (s : State) : State := if s.live && !configured then s.setProtocol else s

/-- A consumer index passes the index check (R195). -/
def Cq.consumerOk (x : Cq) (c : Nat) : Bool :=
  c < 2 * x.size && ringCount x.size x.retireIndex c ≤ ringCount x.size x.retireIndex x.tail

/-- A RETIRE write names a CQ that examines it: configured, in RUNNING, PAUSING or PAUSED (R194). -/
def retireTaken (q : CqNo) (s : State) : Bool := s.live && (s.cq q).configured

/-- An accepted RETIRE hands entries back (R195). -/
def retireTo (q : CqNo) (c : Nat) (s : State) : State :=
  s.modCq q fun x =>
    { x with retireIndex := c, postedUnretired := x.postedUnretired - ringCount x.size x.retireIndex c }

/-! ## Credit and fetching (R180 to R186) -/

/-- Entries of a CQ that are in use or set aside. -/
def Cq.committed (x : Cq) : Nat := x.postedUnretired + x.reservations + x.eventReserves

/-- The free entries of a CQ (R180). -/
def Cq.freeEntries (x : Cq) : Nat := x.size - x.committed

/-- The take conditions of an SQ (R182). -/
def candidate (s : State) (q : SqNo) : Bool :=
  let x := s.sq q
  s.hlu.engine == .running && x.configured && !x.broken && x.head != x.tail && x.outstanding < x.maxOutstanding
    && !x.fetchInFlight && (s.findSlot fun _ j => j.state == .free).isSome && 0 < (s.cq x.boundCq).freeEntries

/-- SQ numbers in the order that begins after the last granted one, or at 0 (R183). -/
def rotation (last : Option SqNo) : List SqNo :=
  match last with
  | none => List.finRange 8
  | some q => (List.finRange 8).map fun i => q + 1 + i

/-- The first candidate of a class after its last granted SQ (R183). -/
def firstCandidate (s : State) (cls : QueueClass) (last : Option SqNo) : Option SqNo :=
  (rotation last).find? fun q => (s.sq q).cls == cls && candidate s q

/-- The choice of the fetch arbiter: an URGENT candidate if there is one (R183). -/
def arbiterChoice (s : State) : Option SqNo :=
  match firstCandidate s .urgent s.qm.lastUrgent with
  | some q => some q
  | none => firstCandidate s .normal s.qm.lastNormal

/-- The chosen SQ becomes its class's last granted SQ (R183). -/
def noteGrant (q : SqNo) (s : State) : State :=
  match (s.sq q).cls with
  | .urgent => { s with qm := { s.qm with lastUrgent := some q } }
  | .normal => { s with qm := { s.qm with lastNormal := some q } }

/-- The host address of the SQ entry with an index (R176). -/
def Sq.entryAddr (x : Sq) (i : Nat) : HostAddr := hostAddr x.base (64 * (i % x.size))

/-- A grant for an SQ, into the FREE slot `j` (R117, R184). -/
def grantTake (q : SqNo) (j : SlotNo) (s : State) : State :=
  let x := s.sq q
  let s := noteGrant q s
  let s := s.modCq x.boundCq fun c => { c with reservations := c.reservations + 1 }
  let s := holdSlot j q s
  let s := s.modSq q fun y => { y with outstanding := y.outstanding + 1, fetchInFlight := true }
  askRead (.fetch q) 0 (x.entryAddr x.head) 64 0 s

/-- The slot held for a fetch of an SQ in flight. -/
def fetchedSlot (s : State) (q : SqNo) : Option SlotNo := s.findSlot fun _ x => x.state == .fetched && x.sq == q

/-- The request record of an SQ has arrived (R185). -/
def fetchArrived (q : SqNo) (s : State) : State :=
  let r := Request.parse (readBytes (s.sq q).fetchBuf 0 64)
  let s := s.modSq q fun x => { x with head := advance x.size x.head, fetchInFlight := false, fetchBuf := [] }
  let s := writeHeadField q s
  match fetchedSlot s q with
  | some j => takeStep j r s
  | none => s

/-- A request read faulted (R186). -/
def fetchFaulted (q : SqNo) (s : State) : State :=
  let s := s.modCq (s.sq q).boundCq fun c => { c with reservations := c.reservations - 1 }
  let s := match fetchedSlot s q with
    | some j => s.modJob j fun _ => {}
    | none => s
  let s := s.modSq q fun x => { x with outstanding := x.outstanding - 1, fetchInFlight := false, fetchBuf := [] }
  breakSq q .fetchFault s

/-! ## Posting (R191, R192) -/

/-- The host address of the CQ entry with an index (R176). -/
def Cq.entryAddr (x : Cq) (i : Nat) : HostAddr := hostAddr x.base (32 * (i % x.size))

/-- Steps 1 to 4 of posting the head of the posting queue (R192). -/
def beginPosting (e : PostEntry) (s : State) : State :=
  let q := s.sq e.record.sq
  let c := q.boundCq
  let x := s.cq c
  let first := s.hlu.writeSerial
  let s := handWrite
    { writer := .queueManager, owner := .completion c, addr := x.entryAddr x.tail, data := e.record.encode q.head } s
  let s := s.modCq c fun y =>
    { y with reservations := y.reservations - 1, postedUnretired := y.postedUnretired + 1, tail := advance y.size y.tail }
  let second := s.hlu.writeSerial
  let s := writeTailField c s
  { s with qm := { s.qm with inPosting := some (first, second) } }

/-- A CQ sends a message (R198, R217). -/
def sendMessage (c : CqNo) (s : State) : State :=
  let s := handWrite { writer := .queueManager, owner := .message c, vector := some (s.cq c).vector } s
  s.modCq c fun x => { x with unsignalled := 0, holdTimer := none }

/-- A posting raises the unsignalled count and may start the hold timer (step 1 of R197). -/
def Cq.countPosting (x : Cq) : Cq :=
  { x with
    unsignalled := x.unsignalled + 1
    holdTimer := if x.unsignalled = 0 && x.holdTime != 0 then some (4 * x.holdTime) else x.holdTimer }

/-- Coalescing takes a posting (R196, R197); while HALTED no message is sent and no timer runs (R200). -/
def coalesce (c : CqNo) (r : CompletionRecord) (s : State) : State :=
  if s.halted || !(s.cq c).interruptEnable then s
  else
    let s := s.modCq c Cq.countPosting
    if (s.cq c).threshold ≤ (s.cq c).unsignalled || r.notify || r.event then sendMessage c s else s

/-- Steps 5 and 6 of a posting: the slot becomes FREE, the entry leaves, and coalescing acts (R192). -/
def finishPosting (e : PostEntry) (s : State) : State :=
  let c := (s.sq e.record.sq).boundCq
  let leave := fun s : State => coalesce c e.record
    { s with qm := { s.qm with posting := s.qm.posting.tail, inPosting := none } }
  match e.slot with
  | some j => withSlots [j] (fun s => leave (freeSlot j s)) s
  | none => leave s

/-! ## Setup (R205 to R208) -/

/-- A queue size passes check 2 of R206. -/
def sizeOk (n : Nat) : Bool := n == 4 || n == 8 || n == 16 || n == 32 || n == 64 || n == 128 || n == 256 || n == 512 || n == 1024

/-- The configured SQ entries and CQ entries. -/
def sqEntries (bs : List Byte) : List SqEntry := (List.range (sqCount bs)).map (sqEntry bs)
def cqEntries (bs : List Byte) : List CqEntry := (List.range (cqCount bs)).map (cqEntry bs)

/-- SQs bound to a CQ by a configuration block. -/
def boundCount (bs : List Byte) (c : Nat) : Nat := (sqEntries bs).countP fun e => e.boundCq == c

/-- An SQ entry passes check 4 of R206. -/
def SqEntry.limitsOk (e : SqEntry) : Bool := inRange 1 32 e.maxOutstanding && e.cls ≤ 1

/-- A CQ entry passes check 4 of R206. -/
def CqEntry.limitsOk (e : CqEntry) : Bool := inRange 1 64 e.threshold && e.vector ≤ 31 && e.interruptEnable ≤ 1

/-- The setup result of a configuration block (R206). -/
def setupCheck (bs : List Byte) : SetupResult :=
  let sqs := sqEntries bs
  let cqs := cqEntries bs
  if !(inRange 1 8 (sqCount bs) && inRange 1 8 (cqCount bs)) then .badCount
  else if !(sqs.all (fun e => sizeOk e.size) && cqs.all fun e => sizeOk e.size) then .badSize
  else if !(progressField bs % 64 == 0 && sqs.all (fun e => e.base % 64 == 0) && cqs.all fun e => e.base % 64 == 0) then
    .badAlign
  else if !(sqs.all SqEntry.limitsOk && cqs.all CqEntry.limitsOk) then .badLimit
  else if !(sqs.all fun e => e.boundCq < cqCount bs) then .badBinding
  else if !(cqs.zipIdx.all fun (e, c) => boundCount bs c + 1 < e.size) then .badBinding
  else .success

/-- The SQ descriptor that setup fills (R207). -/
def sqDescriptor (bs : List Byte) (q : SqNo) : Sq :=
  if q.val < sqCount bs then
    let e := sqEntry bs q
    { configured := true, base := BitVec.ofNat 64 e.base, size := e.size,
      boundCq := ⟨e.boundCq % 8, Nat.mod_lt _ (by decide)⟩,
      cls := if e.cls = 1 then .urgent else .normal, maxOutstanding := e.maxOutstanding }
  else {}

/-- The CQ descriptor that setup fills (R207). -/
def cqDescriptor (bs : List Byte) (c : CqNo) : Cq :=
  if c.val < cqCount bs then
    let e := cqEntry bs c
    { configured := true, base := BitVec.ofNat 64 e.base, size := e.size, interruptEnable := e.interruptEnable == 1,
      vector := ⟨e.vector % 32, Nat.mod_lt _ (by decide)⟩, threshold := e.threshold, holdTime := e.holdTime,
      eventReserves := boundCount bs c }
  else {}

/-- A setup fails (R208). -/
def setupFailed (r : SetupResult) (s : State) : State :=
  { s with hlu := { s.hlu with engine := .off, setupResult := r, latched := none, setupBuf := [] } }

/-- A configuration block passes every check (R207). -/
def setupSucceeded (bs : List Byte) (s : State) : State :=
  let s := { s with
    hlu := { s.hlu with engine := .running, setupResult := .success, latched := none, setupBuf := [] }
    qm := { s.qm with
      sqs := mapAll (sqDescriptor bs) (allIndices 8), cqs := mapAll (cqDescriptor bs) (allIndices 8)
      lastUrgent := none, lastNormal := none, progressBase := BitVec.ofNat 64 (progressField bs) } }
  handWrite
    { writer := .linkUnit, owner := .progressBlock, addr := s.qm.progressBase, data := List.replicate 64 0 } s

/-- The 512 bytes of the configuration block have arrived (R205, R206). -/
def setupArrived (s : State) : State :=
  let bs := readBytes s.hlu.setupBuf 0 512
  match setupCheck bs with
  | .success => setupSucceeded bs s
  | r => setupFailed r s

end Sys2Proof.Machine
end

