-- ==== Sys2Proof/Machine/Units.lean ====
section
/-! DEFINITION. The Scheduler and the formatting units (chapters 2, 4 and 7): dispatch, boundaries, hand-off, chunks,
suspension and release. The work of one directive is in Machine/Directives.lean. -/

namespace Sys2Proof.Machine

/-! ## Leaving a job (R152, R153, R157, R161) -/

/-- A unit that has given up its job (R153, R157). -/
def Fu.toIdle (x : Fu) : Fu := { x with state := .idle, ctx := none, suspendRequested := false }

/-- A unit that stops for a halted engine (R161). -/
def Fu.toStopped (x : Fu) : Fu := { x with state := .stopped, ctx := none, suspendRequested := false }

/-- The unit `k` stops for a halted engine: its context, staged bytes and pending batch are discarded (R161). -/
def stopUnit (k : FuNo) (s : State) : State := s.modFu k Fu.toStopped

/-- The result of a COMPARE: its offset and its order (R100). -/
abbrev CompareEnd := Option (Nat × CompareResult)

/-- A job released by its unit (R130, R134). -/
def Job.release (x : Job) (st : Status) (d : Detail) (cmp : CompareEnd) : Job :=
  { x.decide st d with
    endedAborted := st == .aborted
    compareOffset := (cmp.map Prod.fst).getD 0
    compareResult := (cmp.map Prod.snd).getD .absent }

/-- The unit `k` releases its job with a status, becomes IDLE, and the job enters DRAINING (R130, R153). While HALTED
nothing is released: the unit stops (R161). -/
def releaseJob (k : FuNo) (st : Status) (d : Detail) (cmp : CompareEnd) (s : State) : State :=
  match (s.fu k).ctx with
  | none => s
  | some c =>
    if s.halted then stopUnit k s
    else
      match readSlots [c.slot] s with
      | (false, s) => stopUnit k s
      | (true, s) => enterDraining c.slot ((s.modFu k Fu.toIdle).modJob c.slot fun x => x.release st d cmp)

/-- The unit `k` suspends its job, to go on at record or chunk `i`: the job joins the ready order as SUSPENDED, or is
decided ABORTED when abort-pending is set (R130, R157). -/
def suspendJob (k : FuNo) (i : Nat) (s : State) : State :=
  match (s.fu k).ctx with
  | none => s
  | some c =>
    match readSlots [c.slot] s with
    | (false, s) => stopUnit k s
    | (true, s) =>
      let s := (s.modFu k Fu.toIdle).modJob c.slot fun x => { x with state := .suspended, suspension := some i }
      if (s.job c.slot).abortPending then enterDraining c.slot (s.modJob c.slot Job.decideAborted)
      else joinReady c.slot true s

/-- The reports of one point reach the Job Table, in raise order; a halted engine's slots keep their fields (R103 to R105,
R140). -/
def reportFaults (c : Context) (fs : List FieldFault) (directive : Nat) (s : State) : State :=
  if fs.isEmpty || s.halted then s
  else withSlots [c.slot] (fun s => s.modJob c.slot fun x => x.reports fs c.recordIndex directive) s

/-! ## Beginning a record or a chunk (R28 to R30, R97, R101) -/

/-- Step 1: the unit `k` asks for the source record its context names (R29). -/
def beginRecord (k : FuNo) (s : State) : State :=
  match (s.fu k).ctx with
  | none => s
  | some c =>
    let s := s.modCtx k fun c => { c with phase := .readWait }
    askRead (.unit k) 0 (hostAddr c.req.srcAddr (c.recordIndex * c.image.srcLen)) c.image.srcLen 0 s

/-- Step 2: the per-record state takes its start values, and the boundary before directive 0 is reached (R30, R31). -/
def Context.startRecord (c : Context) : Context :=
  { c with
    directiveIndex := 0, rep := none, srcCursor := 0, dstCursor := 0, lastState := .none, lastValue := none
    batch := [], phase := .boundary }

/-- Ask for one part of a COMPARE chunk, unless it lies wholly beyond its string (R101). R143 lays the two parts side by
side in the source window: the part of string A is placed from offset 0 and the part of string B from offset 256, whatever
the length of A's (DESIGN CHOICE, log 29). -/
def askPart (k : FuNo) (part : Nat) (base : HostAddr) (len chunk place : Nat) (s : State) : State :=
  if chunkBytes len chunk = 0 then s
  else askRead (.unit k) part (hostAddr base (Config.chunkSize * chunk)) (chunkBytes len chunk) place s

/-- The unit `k` begins the chunk its context names; a job without a byte to examine ends at once (R96, R97, R100,
R101). Of a COMPARE chunk the part of string A is asked for before the part of string B, though the manual leaves the order
open (DESIGN CHOICE, log 30). -/
def beginChunk (k : FuNo) (s : State) : State :=
  match (s.fu k).ctx with
  | none => s
  | some c =>
    let waiting := s.modCtx k fun c => { c with phase := .readWait }
    match c.kind with
    | .compare =>
      if c.req.compareLength = 0 then releaseJob k .success .none (some (0, .equal)) s
      else
        askPart k 1 c.req.dstAddr c.req.dstCap c.chunkIndex Config.chunkSize
          (askPart k 0 c.req.srcAddr c.req.srcLen c.chunkIndex 0 waiting)
    | _ =>
      if c.req.srcLen = 0 then releaseJob k .success .sourceEnd none s
      else askPart k 0 c.req.srcAddr c.req.srcLen c.chunkIndex 0 waiting

/-! ## Dispatch (R147, R148) -/

/-- The context a unit takes at a dispatch: job slot, kind, request fields, header values and bound references (R143,
R148). -/
def startContext (s : State) (j : SlotNo) : Context :=
  let x := s.job j
  let kind := x.req.kind.getD .format
  let at0 := x.suspension.getD 0
  let l := (x.boundLayout.map Prod.fst).getD 0
  { slot := j, kind, stamp := s.sch.nextStamp
    recordIndex := if kind.recordCycle then at0 else 0, chunkIndex := if kind.recordCycle then 0 else at0
    directiveIndex := 0, rep := none, srcCursor := 0, dstCursor := 0, lastState := .none, lastValue := none, batch := []
    phase := .readWait, layout := l, image := if kind.recordCycle then (s.layout l).image else {}
    table := x.boundCodes.getD 0, req := x.req }

/-- The unit begins the job it was given: a FORMAT or PARSE makes its damage query first (R148). -/
def beginJob (k : FuNo) (s : State) : State :=
  match (s.fu k).ctx with
  | none => s
  | some c =>
    if c.kind.recordCycle then
      if (s.layout c.layout).damaged then releaseJob k .engineFault .damaged none s else beginRecord k s
    else beginChunk k s

/-- The head of the ready order is given to the unit `k` (R147, R148). -/
def dispatchTo (k : FuNo) (e : ReadyEntry) (s : State) : State :=
  withSlots [e.slot]
    (fun s =>
      let c := startContext s e.slot
      let s := { s with sch := { ready := s.sch.ready.tail, nextStamp := s.sch.nextStamp + 1 } }
      let s := s.modJob e.slot fun x => { x with state := .running, suspension := none }
      beginJob k (s.modFu k fun x => { x with state := .busy, ctx := some c, suspendRequested := false })) s

/-- The lowest-numbered IDLE unit. -/
def idleUnit (s : State) : Option FuNo := (s.unitsWhere fun x => x.state == .idle).head?

/-- One dispatch, when the engine is RUNNING, a unit is IDLE and the ready order is not empty (R147). -/
def dispatchRule (s : State) : Option State :=
  match s.hlu.engine, idleUnit s, s.sch.ready with
  | .running, some k, e :: _ => some (dispatchTo k e s)
  | _, _, _ => none

/-! ## Preemption (R154) -/

/-- URGENT entries of the ready order. -/
def urgentWaiting (s : State) : Nat := s.sch.ready.countP fun e => e.cls == .urgent

/-- Units whose suspension requested is set. -/
def requestsSet (s : State) : Nat := (s.unitsWhere Fu.suspendRequested).length

/-- The dispatch stamp of a unit that runs a NORMAL job with suspension requested clear. -/
def preemptable (s : State) (k : FuNo) : Option Nat :=
  let x := s.fu k
  match x.state, x.ctx with
  | .busy, some c => if (s.job c.slot).cls == .normal && !x.suspendRequested then some c.stamp else none
  | _, _ => none

/-- The preemptable unit with the earliest dispatch stamp. -/
def earliestPreemptable (s : State) : Option FuNo :=
  let ks := (List.finRange 4).filterMap fun k => (preemptable s k).map fun n => (n, k)
  (leastOf (ks.map Prod.fst)).bind fun n => (ks.find? fun x => x.1 == n).map Prod.snd

/-- One suspension request, when its four conditions hold (R154). -/
def suspensionRule (s : State) : Option State :=
  if s.hlu.engine == .running && (idleUnit s).isNone && requestsSet s < urgentWaiting s then
    (earliestPreemptable s).map fun k => s.modFu k fun x => { x with suspendRequested := true }
  else none

/-! ## Record and chunk boundaries (R150, R151) -/

/-- A unit gives up its job at a record or chunk boundary: suspension requested, or engine PAUSING (R150, R151). -/
def mustSuspend (s : State) (k : FuNo) : Bool := (s.fu k).suspendRequested || s.hlu.engine == .pausing

/-- The record boundary before the record that the context names (R150). -/
def recordBoundary (k : FuNo) (s : State) : State :=
  match (s.fu k).ctx with
  | none => s
  | some c =>
    if s.halted then stopUnit k s
    else if mustSuspend s k then suspendJob k c.recordIndex s
    else beginRecord k s

/-- The chunk boundary after the chunk that the context names (R151). -/
def chunkBoundary (k : FuNo) (s : State) : State :=
  match (s.fu k).ctx with
  | none => s
  | some c =>
    if s.halted then stopUnit k s
    else
      match readSlots [c.slot] s with
      | (false, s) => stopUnit k s
      | (true, s) =>
        if (s.job c.slot).abortPending then releaseJob k .aborted .none none s
        else if mustSuspend s k then suspendJob k (c.chunkIndex + 1) s
        else beginChunk k (s.modCtx k fun c => { c with chunkIndex := c.chunkIndex + 1 })

/-! ## Hand-off (R50, R51, R97) -/

/-- Step 8, and step 5 of a TRANSLATE chunk: what the unit does once its output is handed (R51, R97). -/
def afterHandOff (k : FuNo) (next : AfterHand) (s : State) : State :=
  match (s.fu k).ctx with
  | none => s
  | some c =>
    match next with
    | .ending st d => releaseJob k st d none s
    | .onward =>
      if !c.kind.recordCycle then chunkBoundary k s
      else if c.recordIndex + 1 < c.req.recordCount then
        recordBoundary k (s.modCtx k fun c => { c with recordIndex := c.recordIndex + 1 })
      else if s.halted then stopUnit k s
      else s.modCtx k fun c => { c with phase := .finalBoundary }

/-- The slot takes a hand-off: its counts rise by the bytes handed, which the destination cursor gives (R27, R50). -/
def countHandOff (c : Context) (s : State) : State :=
  s.modJob c.slot fun x => if s.halted then x.handedInHalt c.kind c.dstCursor else x.handed c.kind c.dstCursor

/-- A hand-off is complete: the slot takes it, and the unit goes on (R50). -/
def handedOff (k : FuNo) (next : AfterHand) (s : State) : State :=
  match (s.fu k).ctx with
  | none => s
  | some c =>
    match readSlots [c.slot] s with
    | (false, s) => stopUnit k s
    | (true, s) => afterHandOff k next (countHandOff c s)

/-- The write of a job's output at its bytes written (R27, R50, R97, R214). -/
def outputWrite (k : FuNo) (c : Context) (x : Job) (data : List Byte) : WriteAsk where
  writer := .unit k
  owner := .job c.slot x.takeOrder c.recordIndex x.bytesWritten
  addr := hostAddr c.req.dstAddr x.bytesWritten
  data := data

/-- The unit `k` hands the bytes staged up to its destination cursor: nothing is written for none of them; while the write
queue is full the unit waits (R47, R97, R214). -/
def handOutput (k : FuNo) (next : AfterHand) (s : State) : State :=
  match (s.fu k).ctx with
  | none => s
  | some c =>
    match readSlots [c.slot] s with
    | (false, s) => stopUnit k s
    | (true, s) =>
      let w := outputWrite k c (s.job c.slot) (readBytes (s.fu k).stgWindow 0 c.dstCursor)
      if c.dstCursor = 0 then handedOff k next s
      else if s.halted || queueHasRoom s then handedOff k next (handWrite w s)
      else (handWrite w s).modCtx k fun c => { c with phase := .writeWait next }

/-- The room left in the destination (R48, R98). -/
def remainingCapacity (c : Context) (x : Job) : Nat := c.req.dstCap - x.bytesWritten

/-! ## End of record (R47 to R49) -/

/-- Steps 4 to 6 after the terminator is staged: fit check, and the batch or the hand-off (R48, R49). -/
def settleRecord (k : FuNo) (s : State) : State :=
  match (s.fu k).ctx with
  | none => s
  | some c =>
    if remainingCapacity c (s.job c.slot) < c.dstCursor then releaseJob k .destFull .none none s
    else if c.batch.isEmpty then handOutput k .onward s
    else s.modCtx k fun c => { c with phase := .batchSubmitted }

/-- Stage bytes at the destination cursor (R34). -/
def stageBytes (k : FuNo) (bs : List Byte) (s : State) : State :=
  match (s.fu k).ctx with
  | none => s
  | some c =>
    (s.modFu k fun x => { x with stgWindow := writeBytes x.stgWindow c.dstCursor bs }).modCtx k fun c =>
      { c with dstCursor := c.dstCursor + bs.length }

/-! ## Chunks (R97, R101) -/

/-- A TRANSLATE chunk has been read (R96 to R98). -/
def translateChunk (k : FuNo) (c : Context) (s : State) : State :=
  match readSlots [c.slot] s with
  | (false, s) => stopUnit k s
  | (true, s) =>
    let src := readBytes (s.fu k).srcWindow 0 (chunkBytes c.req.srcLen c.chunkIndex)
    let (out, stopped) := translateBytes (s.lookup c.table) c.req.kindFlag src
    let room := remainingCapacity c (s.job c.slot)
    let last := c.req.srcLen ≤ Config.chunkSize * (c.chunkIndex + 1)
    let s := s.modCtx k fun c => { c with dstCursor := 0 }
    handOutput k (translateNext out.length room stopped last) (stageBytes k (out.take room) s)

/-- Both parts of a COMPARE chunk have been read (R100, R101). -/
def comparePart (k : FuNo) (c : Context) (s : State) : State :=
  let w := (s.fu k).srcWindow
  let a := readBytes w 0 (chunkBytes c.req.srcLen c.chunkIndex)
  let b := readBytes w Config.chunkSize (chunkBytes c.req.dstCap c.chunkIndex)
  let len := c.req.compareLength
  match compareChunk (s.lookup c.table) c.req.padByte a b (chunkBytes len c.chunkIndex) with
  | some (i, r) => releaseJob k .success .none (some (Config.chunkSize * c.chunkIndex + i, r)) s
  | none =>
    if len ≤ Config.chunkSize * (c.chunkIndex + 1) then releaseJob k .success .none (some (len, .equal)) s
    else chunkBoundary k s

/-- All the bytes a unit asked for have arrived (R29, R97, R101). -/
def unitReadDone (k : FuNo) (s : State) : State :=
  match (s.fu k).ctx with
  | none => s
  | some c =>
    match c.kind with
    | .translate => translateChunk k c s
    | .compare => comparePart k c s
    | _ => s.modCtx k Context.startRecord

/-- The detail of a HOST_ACCESS by a unit's read fault: READ (R130, R153, R213). For a TRANSLATE the table of R99 gives
none: which of the two holds is a free value (log 25). -/
def Fu.readFaultDetail (x : Fu) : Detail :=
  match x.ctx.map Context.kind with
  | some .translate => if Config.translateFaultIsRead then .read else .none
  | _ => .read

/-- A read of a unit has faulted: its job ends HOST_ACCESS, and nothing of the record or chunk is written (R29, R99,
R101). -/
def unitReadFault (k : FuNo) (s : State) : State := releaseJob k .hostAccess (s.fu k).readFaultDetail none s

/-! ## Parity damage (R22, R32) -/

/-- The unit `k` has found a parity error in a pool read: the slot is marked and the job ends ENGINE_FAULT. -/
def parityError (k : FuNo) (s : State) : State :=
  match (s.fu k).ctx with
  | none => s
  | some c => releaseJob k .engineFault .parity none (if s.halted then s else s.modLayout c.layout LayoutSlot.markDamaged)

end Sys2Proof.Machine
end

