-- ==== Sys2Proof/Machine/Quiesce.lean ====
section
/-! DEFINITION. What follows inside the part from an event, without a further command (spec/95_what_each_step_holds.md):
consequence rules, each of which acts on the state it finds, taken in a fixed order until none applies (log 7, log 8). -/

namespace Sys2Proof.Machine

/-! ## Job Table -/

/-- The slot that a rule picks has a consequence: none when there is no such slot. -/
def pickedRule (p : SlotNo → Job → Bool) (act : SlotNo → State → Option State) (s : State) : Option State :=
  match s.pickSlot p with
  | (some j, s) => act j s
  | (none, _) => none

/-- A job in WAIT_CHAIN whose predecessor has entered POSTING goes on (R124). When several are released in one event, which
goes first is a free choice, and with it which of their requests enters SERVICE, a load queue or a totals group first and
which completion record is handed first (R14, R15, R89, R90, R138, R164, R191, log 5). -/
def chainReleaseRule (s : State) : Option State :=
  pickedRule (fun _ x => x.state == .waitChain && x.pred.any fun p => (s.job p).state == .posting)
    (fun j s => (s.job j).pred.map fun p => chainRelease j p s) s

/-- The install notice: a job in WAIT_LAYOUT whose slot is no longer REPLACING makes a fresh layout claim. Several make
theirs in any order (R128, log 5). -/
def rebindRule (s : State) : Option State :=
  pickedRule (fun _ x => x.state == .waitLayout && (s.layout x.req.layoutNo).state != .replacing)
    (fun j s => some (withSlots [j] (claimLayout j) s)) s

/-! ## Queue Manager -/

/-- Both writes of the posting in progress have left the write queue (steps 5 and 6 of R192). -/
def finishPostingRule (s : State) : Option State :=
  match s.qm.inPosting, s.qm.posting with
  | some (a, b), e :: _ => if writeHeld a s || writeHeld b s then none else some (finishPosting e s)
  | _, _ => none

/-- The head of the posting queue is posted (steps 1 to 4 of R192). -/
def beginPostingRule (s : State) : Option State :=
  match s.qm.inPosting, s.qm.posting with
  | none, e :: _ => some (beginPosting e s)
  | _, _ => none

/-- One grant of the fetch arbiter, into the lowest-numbered FREE slot (R117, R183). -/
def grantRule (s : State) : Option State :=
  match arbiterChoice s, s.findSlot fun _ x => x.state == .free with
  | some q, some j => some (grantTake q j s)
  | _, _ => none

/-! ## Settle reads (R216) -/

/-- A slot's settle read is due: a DRAINING job that handed writes, the last of which has left the write queue. -/
def settleDue (s : State) (j : SlotNo) (x : Job) : Bool :=
  let t := s.settle j
  x.state == .draining && t.handed && !t.reading && t.lastWrite.all fun n => !writeHeld n s

/-- The settle read of a job is asked for, at the destination address that its slot holds (R140, R216). -/
def askSettle (j : SlotNo) (s : State) : State :=
  withSlots [j]
    (fun s => askRead (.settle j) 0 (s.job j).req.dstAddr 0 0 (s.modSettle j fun t => { t with reading := true })) s

/-- A settle read is asked for; several in any order (R212, R216, log 5). -/
def settleReadRule (s : State) : Option State := pickedRule (settleDue s) (fun j s => some (askSettle j s)) s

/-! ## Totals Unit (R169) -/

/-- A write of the job in a slot waits for room in the write queue (R214). -/
def jobWrites (s : State) (j : SlotNo) : Bool :=
  s.hlu.waiting.any fun e => match e.owner with
    | .job k _ _ _ => k == j
    | .completion _ | .progressHead _ | .progressTail _ | .progressBlock | .message _ => false

/-- The service of a READ_TOTALS ends (R169). -/
def endReadTotals (j : SlotNo) (s : State) : State :=
  withSlots [j] (fun s => serviceEnd j .success .none 0 0 (s.modJob j fun x => { x with bytesWritten := 384 })) s

/-- A READ_TOTALS has handed all its snapshot writes: its service ends; several in any order (R191, log 5). -/
def totalsEndRule (s : State) : Option State :=
  pickedRule
    (fun j x => x.state == .service && x.req.kind == some .readTotals && !x.snapshot.isEmpty && !jobWrites s j)
    (fun j s => some (endReadTotals j s)) s

/-! ## Load queues (R15, R16, R90) -/

/-- A load ends without an install: the buffer and the service job are released (R16). -/
def endLayoutLoad (j : SlotNo) (st : Status) (d : Detail) (arg version : Byte) (s : State) : State :=
  let l := (s.job j).req.layoutNo
  let s := { s with ls := { s.ls with queue := s.ls.queue.tail, bufferHeld := false, buffer := [] } }
  serviceEnd j st d arg version (s.modLayout l fun x => { x with service := none })

/-- A LOAD_LAYOUT takes the buffer: its slot is read, its length is checked and its image is asked for (R8, R15, R16,
R140). -/
def beginLayoutLoad (j : SlotNo) (s : State) : State :=
  withSlots [j]
    (fun s =>
      let r := (s.job j).req
      if r.srcLen < Config.headerBytes || Config.maxImageBytes < r.srcLen then
        endLayoutLoad j .badImage .imageLength 0 0 s
      else askRead .layoutLoad 0 r.srcAddr r.srcLen 0 { s with ls := { s.ls with bufferHeld := true, buffer := [] } }) s

/-- The LOAD_LAYOUT at the head of the load queue takes a free buffer (R15). -/
def layoutLoadRule (s : State) : Option State :=
  match s.ls.bufferHeld, s.ls.queue with
  | false, j :: _ => some (beginLayoutLoad j s)
  | _, _ => none

/-- A LOAD_CODES takes the buffer: its slot is read and its image is asked for (R90, R140). -/
def beginCodesLoad (j : SlotNo) (s : State) : State :=
  withSlots [j]
    (fun s => askRead .codesLoad 0 (s.job j).req.srcAddr Config.codesImageBytes 0
      { s with cts := { s.cts with bufferHeld := true, buffer := [] } }) s

/-- The LOAD_CODES at the head of the load queue takes a free buffer (R90). -/
def codesLoadRule (s : State) : Option State :=
  match s.cts.bufferHeld, s.cts.queue with
  | false, j :: _ => some (beginCodesLoad j s)
  | _, _ => none

/-! ## PAUSED (R209) -/

/-- No slot is RUNNING or DRAINING. -/
def quiet (s : State) : Bool := (s.findSlot fun _ x => x.state == .running || x.state == .draining).isNone

/-- In PAUSING with no slot RUNNING or DRAINING, the engine becomes PAUSED (R209). The report that finds no such slot checks
the parity of every slot that is not FREE, and one that finds such a slot checks none (R140; DESIGN CHOICE, log 9). -/
def pausedRule (s : State) : Option State :=
  if s.hlu.engine == .pausing && quiet s then
    some (withSlots (s.slotsWhere fun _ x => x.state != .free) (fun s => s.setEngine .paused) s)
  else none

/-! ## All together -/

/-- The consequence rules in the order in which they are tried. DESIGN CHOICE (log 7): the manual leaves the order open
wherever two could act together. -/
def consequenceRules : List (State → Option State) :=
  [chainReleaseRule, rebindRule, finishPostingRule, settleReadRule, totalsEndRule, layoutLoadRule, codesLoadRule,
   beginPostingRule, grantRule, dispatchRule, suspensionRule, pausedRule]

/-- The first rule of a list that applies. -/
def firstRule : List (State → Option State) → State → Option State
  | [], _ => none
  | r :: rs, s =>
    match r s with
    | some s' => some s'
    | none => firstRule rs s

/-- The first consequence that applies. None does while jobs do not live: in OFF, SETUP and HALTED (R23, R94, R140,
R172, R200, R219). -/
def consequence (s : State) : Option State :=
  if s.live then firstRule consequenceRules s else none

/-- Consequences one after another. -/
def settleWithin : Nat → State → State
  | 0, s => s
  | n + 1, s =>
    match consequence s with
    | some s' => settleWithin n s'
    | none => s

/-- Everything that follows from an event inside the part. -/
def quiesce (s : State) : State := settleWithin Config.quiesceFuel s

end Sys2Proof.Machine
end

