-- ==== Sys2Proof/Machine/Directives.lean ====
section
/-! DEFINITION. The ten directives (chapters 2 and 3), one meaning each over one runner. -/

namespace Sys2Proof.Machine

/-- What a command answers. -/
abbrev Answer := Host.Outcome State Fault Refusal

/-! ## Pool reads (R32) -/

/-- What a read of literal bytes finds. -/
inductive PoolRead where
  | bytes (bs : List Byte)
  | bad
  | outside
  deriving DecidableEq, Repr

/-- The unit's read of `n` literal bytes at an offset of the literal part (R32). -/
def readLiteral (s : State) (im : LayoutImage) (off n : Nat) : PoolRead :=
  match im.literalStart with
  | none => .outside
  | some l =>
    if Config.literalPoolSize < l + off + n then .outside
    else if s.ls.litBad.any fun a => l + off ≤ a && a < l + off + n then .bad
    else .bytes (readBytes s.ls.litPool (l + off) n)

/-- The directive pool location of the directive a context names (R32). -/
def Context.location (c : Context) : Nat := c.image.directiveStart + c.directiveIndex

/-- The directive at a directive pool location. -/
def directiveAt (s : State) (loc : Nat) : Option Directive :=
  Directive.parse (readBytes s.ls.dirPool (directiveByte loc) Config.directiveBytes)

/-! ## What a directive does -/

/-- The effect of one directive: how far from the source cursor it examines or consumes, its source advance, the bytes it
stages, the last-value state and last value it sets, the batch and the repeat state it leaves, and the faults it raises in
raise order. -/
structure Effect where
  reach : Nat := 0
  advance : Nat := 0
  out : List Byte := []
  value : Option (LastState × Option Int) := none
  batch : Option (List (AccNo × Int)) := none
  rep : Option RepeatState := none
  faults : List FieldFault := []
  deriving DecidableEq, Repr

/-- How a directive comes out: its effect, a parity error in a pool read (R32), or a fault of the model. -/
inductive DirectiveEnd where
  | done (e : Effect)
  | parity
  | stops (f : Fault)
  deriving DecidableEq, Repr

/-- The directive index after a directive completes, with the repeat state (R46). -/
def Context.advance (c : Context) : Context :=
  match c.rep with
  | some r =>
    if c.directiveIndex = r.last then
      if 1 < r.remaining then { c with directiveIndex := r.first, rep := some { r with remaining := r.remaining - 1 } }
      else { c with directiveIndex := c.directiveIndex + 1, rep := none }
    else { c with directiveIndex := c.directiveIndex + 1 }
  | none => { c with directiveIndex := c.directiveIndex + 1 }

/-- The context after a directive has had its effect: the boundary before the next directive (R31). -/
def Context.complete (c : Context) (e : Effect) : Context :=
  Context.advance
    { c with
      srcCursor := c.srcCursor + e.advance, dstCursor := c.dstCursor + e.out.length
      lastState := (e.value.map Prod.fst).getD c.lastState
      lastValue := match e.value with
        | some v => v.2
        | none => c.lastValue
      batch := e.batch.getD c.batch
      rep := e.rep.orElse fun _ => c.rep
      phase := .boundary }

/-- A directive completes: its effect on cursors, staging window, last value and batch, its fault reports, and the stop
mask (R31, R52, R103, R107, R108). -/
def completeDirective (k : FuNo) (c : Context) (e : Effect) (s : State) : Answer :=
  if Config.windowSize < c.srcCursor + e.reach || Config.windowSize < c.dstCursor + e.out.length then .fault .windowRange
  else
    let s := s.modFu k fun x =>
      { x with ctx := some (c.complete e), stgWindow := writeBytes x.stgWindow c.dstCursor e.out }
    let s := reportFaults c e.faults c.directiveIndex s
    match stoppingKind c.req.stopMask e.faults with
    | some f => .next (quiesce (releaseJob k .fieldStop (.field f) none s))
    | none => .next s

/-- A unit executes the directive at its directive index, if it is of the kind that `meaning` takes: `meaning` answers none
for a directive of another kind, and the event is then not due (R31, R32). -/
def runDirective (k : FuNo) (u : Upset) (meaning : State → Fu → Context → Directive → Option DirectiveEnd)
    (s : State) : Answer :=
  let s := s.strike u
  match (s.fu k).ctx with
  | none => .refused .eventNotDue
  | some c =>
    if c.phase ≠ .directive then .refused .eventNotDue
    else if Config.directivePoolSize ≤ c.location then .fault .poolRange
    else
      match (directiveAt s c.location).bind (meaning s (s.fu k) c) with
      | none => .refused .eventNotDue
      | some o =>
        if s.ls.dirBad.contains c.location then .next (quiesce (parityError k s))
        else
          match o with
          | .done e => completeDirective k c e s
          | .parity => .next (quiesce (parityError k s))
          | .stops f => .fault f

/-! ## The directives -/

/-- The `n` source bytes at the source cursor (R33). -/
def sourceBytes (x : Fu) (c : Context) (n : Nat) : List Byte := readBytes x.srcWindow c.srcCursor n

/-- Bytes through the bound code table (R35). -/
def translated (look : Lookup) (bs : List Byte) : List Byte := bs.map fun b => (look b).target

/-- COPY (R36). -/
def copyMeaning (s : State) (x : Fu) (c : Context) : Directive → Option DirectiveEnd
  | .copy n => some (.done { reach := n, advance := n, out := translated (s.lookup c.table) (sourceBytes x c n) })
  | _ => none

def execCopy (k : FuNo) (u : Upset) (s : State) : Answer := runDirective k u copyMeaning s

/-- Bytes before the first one of class DELIM (R37). -/
def beforeDelimiter (look : Lookup) (bs : List Byte) : List Byte := bs.takeWhile fun b => !(look b).has .delim

/-- COPY_UNTIL (R37). -/
def copyUntilMeaning (s : State) (x : Fu) (c : Context) : Directive → Option DirectiveEnd
  | .copyUntil n =>
    let look := s.lookup c.table
    let kept := beforeDelimiter look (sourceBytes x c n)
    some (.done
      (if kept.length < n then { reach := n, advance := kept.length + 1, out := translated look kept }
       else { reach := n, advance := n, out := translated look kept, faults := [.delim] }))
  | _ => none

def execCopyUntil (k : FuNo) (u : Upset) (s : State) : Answer := runDirective k u copyUntilMeaning s

/-- SKIP (R38). -/
def skipMeaning (_s : State) (_x : Fu) (_c : Context) : Directive → Option DirectiveEnd
  | .skip n => some (.done { reach := n, advance := n })
  | _ => none

def execSkip (k : FuNo) (u : Upset) (s : State) : Answer := runDirective k u skipMeaning s

/-- LITERAL (R39): an unmet condition reads no literal byte (R32). -/
def literalMeaning (s : State) (_x : Fu) (c : Context) : Directive → Option DirectiveEnd
  | .literal cond off len =>
    some
      (if cond.met c.lastState then
        match readLiteral s c.image off len with
        | .bytes bs => .done { out := bs }
        | .bad => .parity
        | .outside => .stops .poolRange
       else .done {})
  | _ => none

def execLiteral (k : FuNo) (u : Upset) (s : State) : Answer := runDirective k u literalMeaning s

/-- FILL (R40). -/
def fillMeaning (_s : State) (_x : Fu) (_c : Context) : Directive → Option DirectiveEnd
  | .fill b n => some (.done { out := List.replicate n b })
  | _ => none

def execFill (k : FuNo) (u : Upset) (s : State) : Answer := runDirective k u fillMeaning s

/-- PAD_TO (R41). -/
def padToMeaning (_s : State) (_x : Fu) (c : Context) : Directive → Option DirectiveEnd
  | .padTo b column => some (.done { out := List.replicate (column - c.dstCursor) b })
  | _ => none

def execPadTo (k : FuNo) (u : Upset) (s : State) : Answer := runDirective k u padToMeaning s

/-- A byte passes a CHECK: its class set and the directive's have a class in common (R42). -/
def passesCheck (look : Lookup) (classes b : Byte) : Bool := (look b).classes &&& classes != 0#8

/-- CHECK (R42). -/
def checkMeaning (s : State) (x : Fu) (c : Context) : Directive → Option DirectiveEnd
  | .check classes n =>
    let ok := (sourceBytes x c n).all (passesCheck (s.lookup c.table) classes)
    some (.done { reach := n, faults := if ok then [] else [.cls] })
  | _ => none

def execCheck (k : FuNo) (u : Upset) (s : State) : Answer := runDirective k u checkMeaning s

/-- The conversion of a NUMBER with a picture at the source cursor (R59). -/
def numberConversion (s : State) (x : Fu) (c : Context) (p : Picture) : Conversion :=
  let lit := fun o => readByte s.ls.litPool (c.image.literalStart.getD 0 + o)
  convert c.image.direction p (s.lookup c.table) lit (sourceBytes x c (p.sourceSize c.image.direction))

/-- The effect of a NUMBER: its source size is consumed and its output size staged, with fault fill bytes when a value kind
was raised (R43, R44, R109). -/
def numberEffect (c : Context) (p : Picture) (r : Conversion) : Effect where
  reach := p.sourceSize c.image.direction
  advance := p.sourceSize c.image.direction
  out := match r.result with
    | some (_, bs) => bs
    | none => List.replicate (p.outputSize c.image.direction) c.image.faultFill
  value := match r.result with
    | some (v, _) => some (lastStateOf v, some v)
    | none => some (.none, none)
  faults := r.faults

/-- How a NUMBER with a picture comes out: the pair marker it stages is read from the literal pool (R32, R72). -/
def numberWith (s : State) (x : Fu) (c : Context) (p : Picture) : DirectiveEnd :=
  let r := numberConversion s x c p
  match r.marker.map fun o => readLiteral s c.image o 2 with
  | some .bad => .parity
  | some .outside => .stops .poolRange
  | some (.bytes _) | none => .done (numberEffect c p r)

/-- NUMBER (R43, R59). -/
def numberMeaning (s : State) (x : Fu) (c : Context) : Directive → Option DirectiveEnd
  | .number off =>
    some
      (match readLiteral s c.image off Config.pictureBytes with
       | .bad => .parity
       | .outside => .stops .poolRange
       | .bytes bs =>
         match Picture.parse bs with
         | some p => numberWith s x c p
         | none => .stops .uncheckedImage)
  | _ => none

def execNumber (k : FuNo) (u : Upset) (s : State) : Answer := runDirective k u numberMeaning s

/-- ADD_TOTAL (R45). -/
def addTotalMeaning (_s : State) (_x : Fu) (c : Context) : Directive → Option DirectiveEnd
  | .addTotal acc =>
    some (.done (match c.lastState, c.lastValue with
      | .none, _ | _, none => {}
      | _, some v => { batch := some (addPair acc v c.batch) }))
  | _ => none

def execAddTotal (k : FuNo) (u : Upset) (s : State) : Answer := runDirective k u addTotalMeaning s

/-- REPEAT (R46). -/
def repeatMeaning (_s : State) (_x : Fu) (c : Context) : Directive → Option DirectiveEnd
  | .repeatGroup count span =>
    some (.done { rep := some { first := c.directiveIndex + 1, last := c.directiveIndex + span, remaining := count } })
  | _ => none

def execRepeatGroup (k : FuNo) (u : Upset) (s : State) : Answer := runDirective k u repeatMeaning s

end Sys2Proof.Machine
end

