-- ==== Sys2Proof/Machine/Control.lean ====
section
/-! DEFINITION. The register window and engine control (R202 to R211, R220): the commands of CTRL, POST and RETIRE, other
register writes, and the resets. -/

namespace Sys2Proof.Machine

/-! ## Engine control -/

/-- The 64-bit address that SETUP_HI and SETUP_LO give (R205). -/
def setupAddr (s : State) : HostAddr := s.hlu.setupHi ++ s.hlu.setupLo

/-- A START in OFF latches the address, and the engine becomes SETUP (R205). -/
def latchSetup (s : State) : State :=
  { s with hlu := { s.hlu with engine := .setup, setupResult := .none, latched := some (setupAddr s), setupBuf := [] } }

/-- START (R203, R205). -/
def startCommand (s : State) : State :=
  if s.hlu.engine ≠ .off then s.setProtocol
  else if (setupAddr s).toNat % 64 ≠ 0 then setupFailed .badAlign (latchSetup s)
  else askRead .setup 0 (setupAddr s) 512 0 (latchSetup s)

/-- PAUSE: the engine becomes PAUSING, and PAUSED at once when no slot is RUNNING or DRAINING (R203, R209). -/
def pauseCommand (s : State) : State :=
  if s.hlu.engine ≠ .running then s.setProtocol
  else (pausedRule (s.setEngine .pausing)).getD (s.setEngine .pausing)

/-- RESUME (R203, R210). -/
def resumeCommand (s : State) : State :=
  match s.hlu.engine with
  | .pausing | .paused => quiesce (s.setEngine .running)
  | .off | .setup | .running | .halted => s.setProtocol

/-- The Host Link Unit after a RESET or CLEAR: SETUP_LO and SETUP_HI keep their values (R204). -/
def Hlu.afterReset (h : Hlu) : Hlu := { State.reset.hlu with setupLo := h.setupLo, setupHi := h.setupHi }

/-- RESET: every job is discarded; layouts, code tables and totals are kept (R24, R95, R141, R162, R173, R201, R204). -/
def resetCommand (s : State) : State :=
  { s with
    hlu := s.hlu.afterReset, qm := State.reset.qm, jt := State.reset.jt, sch := State.reset.sch, fus := State.reset.fus
    ls := s.ls.afterReset, cts := s.cts.afterReset }

/-- CLEAR: as RESET, and layouts, code tables and totals are emptied (R25, R95, R173, R204). -/
def clearCommand (s : State) : State :=
  { resetCommand s with ls := s.ls.afterClear, cts := State.reset.cts, tu := State.reset.tu }

/-- ACK_PROTOCOL (R211). -/
def ackCommand (s : State) : State := { s with hlu := { s.hlu with protocol := false } }

/-- A full-width write to CTRL: the command of its code, or PROTOCOL for any other word (R203). -/
def ctrlWrite (w : Word) (s : State) : State :=
  match w.toNat with
  | 1 => startCommand s
  | 2 => pauseCommand s
  | 3 => resumeCommand s
  | 4 => resetCommand s
  | 5 => clearCommand s
  | 6 => ackCommand s
  | _ => s.setProtocol

/-- CTRL START. -/
def execStart (s : State) : Answer := .next (startCommand s)

/-- CTRL PAUSE. -/
def execPause (s : State) : Answer := .next (pauseCommand s)

/-- CTRL RESUME. -/
def execResume (s : State) : Answer := .next (resumeCommand s)

/-- CTRL RESET. -/
def execReset (s : State) : Answer := .next (resetCommand s)

/-- CTRL CLEAR. -/
def execClear (s : State) : Answer := .next (clearCommand s)

/-- CTRL ACK_PROTOCOL. -/
def execAckProtocol (s : State) : Answer := .next (ackCommand s)

/-- A write to CTRL that R203 marks P sets PROTOCOL and nothing else; a word that is a command of the engine state is taken
as that command (log 20). -/
def execCtrlInvalidCommand (w : Word) (s : State) : Answer := .next (ctrlWrite w s)

/-! ## POST and RETIRE -/

/-- A POST or RETIRE write with a reserved bit set (R202). -/
def reservedWrite (s : State) : State := if s.live then s.setProtocol else s

/-- A full-width write to POST (R177, R202): the fetch arbiter examines its candidates after a write that its SQ takes
(R182). -/
def postWrite (w : Word) (s : State) : State :=
  if wordReserved w then reservedWrite s
  else if postTaken (wordQueue w) s then quiesce (postTail (wordQueue w) (wordIndex w) s)
  else unconfiguredWrite (s.sq (wordQueue w)).configured s

/-- A full-width write to RETIRE (R194, R195, R202): the fetch arbiter examines its candidates after an accepted one
(R195). -/
def retireWrite (w : Word) (s : State) : State :=
  if wordReserved w then reservedWrite s
  else if retireTaken (wordQueue w) s then
    if (s.cq (wordQueue w)).consumerOk (wordIndex w) then quiesce (retireTo (wordQueue w) (wordIndex w) s)
    else s.setProtocol
  else unconfiguredWrite (s.cq (wordQueue w)).configured s

/-- POST. -/
def execPost (w : Word) (s : State) : Answer := .next (postWrite w s)

/-- RETIRE. -/
def execRetire (w : Word) (s : State) : Answer := .next (retireWrite w s)

/-! ## Other register writes (R202) -/

/-- A full-width write at an offset of the register region. -/
def wordWrite (offset : Nat) (v : Word) (s : State) : State :=
  match offset with
  | 0x00 => ctrlWrite v s
  | 0x08 => { s with hlu := { s.hlu with setupLo := v } }
  | 0x0C => { s with hlu := { s.hlu with setupHi := v } }
  | 0x10 => postWrite v s
  | 0x14 => retireWrite v s
  | _ => s

/-- REGISTER_WRITE: a write narrower than 32 bits, to a read-only register or to any other offset is ignored (R202). -/
def execRegisterWrite (offset : BitVec 12) (width : AccessWidth) (v : Word) (s : State) : Answer :=
  match width with
  | .byte | .half => .next s
  | .word => .next (wordWrite offset.toNat v s)

/-! ## Link reset and power-on (R220) -/

/-- Every register and every block takes its power-on value; the model's own fields keep theirs (log 1, log 10). -/
def powerOnState (s : State) : State :=
  { State.reset with pending := s.pending, readStamp := s.readStamp, choices := s.choices }

/-- LINK_RESET. -/
def execLinkReset (s : State) : Answer := .next (powerOnState s)

/-- POWER_ON. -/
def execPowerOn (s : State) : Answer := .next (powerOnState s)

end Sys2Proof.Machine
end

