-- ==== Sys2Proof/Machine/LinkEvents.lean ====
section
/-! DEFINITION. The events of the host link (R212 to R216, R199): reads issued and answered, writes issued and refused, hold
timers. -/

namespace Sys2Proof.Machine

/-! ## Images read (R16, R90 to R92) -/

/-- An accepted layout image in its extents is installed at once or staged (step 4 of R16). -/
def installOrStage (j : SlotNo) (l : LayoutNo) (im : LayoutImage) (s : State) : State :=
  if (s.layout l).state = .empty ∨ (s.layout l).refCount = 0 then
    let s := installImage l im s
    serviceEnd j .success .none 0 (s.layout l).version s
  else s.modLayout l fun x => { x with state := .replacing, staged := some im }

/-- Pool space is taken for an accepted image, and the image is written into it (steps 3 and 4 of R16). -/
def placeLoaded (j : SlotNo) (im : LayoutImage) (img : List Byte) (s : State) : State :=
  match takeSpace s.ls.dirFree s.ls.litFree im.directiveCount im.literalCount with
  | .noDirectives => endLayoutLoad j .noSpace .directivePool 0 0 s
  | .noLiterals => endLayoutLoad j .noSpace .literalPool 0 0 s
  | .taken d l dirFree litFree =>
    let im := { im with directiveStart := d, literalStart := l }
    let ls := Ls.place { s.ls with dirFree := dirFree, litFree := litFree } im img
    let s := { s with ls := { ls with queue := ls.queue.tail, bufferHeld := false, buffer := [] } }
    installOrStage j (s.job j).req.layoutNo im s

/-- The image of the LOAD_LAYOUT that holds the buffer is checked and placed (steps 2 to 4 of R16). -/
def settleLayoutLoad (j : SlotNo) (s : State) : State :=
  let len := (s.job j).req.srcLen
  let img := readBytes s.ls.buffer 0 len
  match checkImage len img with
  | .error (d, i) => endLayoutLoad j .badImage d (BitVec.ofNat 8 i) 0 s
  | .ok im => placeLoaded j im img s

/-- The load at the head of a load queue reads its slot and acts (R140). -/
def withHead (queue : List SlotNo) (act : SlotNo → State → State) (s : State) : State :=
  match queue with
  | [] => s
  | j :: _ => withSlots [j] (act j) s

/-- The layout image of the LOAD_LAYOUT at the head of the load queue has been read (R16). -/
def layoutImageRead (s : State) : State := withHead s.ls.queue settleLayoutLoad s

/-- A LOAD_CODES ends: the buffer and the service job are released (R90 to R92). -/
def endCodesLoad (j : SlotNo) (st : Status) (d : Detail) (arg : Byte) (s : State) : State :=
  let t := (s.job j).req.tableNo
  let s := { s with cts := { s.cts with queue := s.cts.queue.tail, bufferHeld := false, buffer := [] } }
  serviceEnd j st d arg 0 (s.modTable t fun x => { x with service := none })

/-- The image of the LOAD_CODES that holds the buffer is checked and installed or refused (R91, R92). -/
def settleCodesLoad (j : SlotNo) (s : State) : State :=
  let t := (s.job j).req.tableNo
  match checkCodes (readBytes s.cts.buffer 0 Config.codesImageBytes) with
  | .error (d, v) => endCodesLoad j .badImage d (BitVec.ofNat 8 v) s
  | .ok es =>
    if (s.table t).refCount = 0 then
      endCodesLoad j .success .none 0 (s.modTable t fun x => { x with ready := true, entries := es })
    else endCodesLoad j .codesBusy .none 0 s

/-- The code table image of the LOAD_CODES at the head of the load queue has been read (R91, R92). -/
def codesImageRead (s : State) : State := withHead s.cts.queue settleCodesLoad s

/-! ## A read has ended (R212, R213) -/

/-- Every byte that a requester asked for has arrived. -/
def readDone (who : Requester) (s : State) : State :=
  match who with
  | .setup => setupArrived s
  | .fetch q => fetchArrived q s
  | .unit k => unitReadDone k s
  | .layoutLoad => layoutImageRead s
  | .codesLoad => codesImageRead s
  | .settle j => settleOutcome j false s

/-- A requester's read has faulted (R213). A load ends HOST_ACCESS without a detail: R16, R90, R132 and R213 give it none,
and a detail that no rule gives is zero (R138, log 25). -/
def readFault (who : Requester) (s : State) : State :=
  match who with
  | .setup => setupFailed .readFault s
  | .fetch q => fetchFaulted q s
  | .unit k => unitReadFault k s
  | .layoutLoad => withHead s.ls.queue (fun j => endLayoutLoad j .hostAccess .none 0 0) s
  | .codesLoad => withHead s.cts.queue (fun j => endCodesLoad j .hostAccess .none 0) s
  | .settle j => settleOutcome j true s

/-! ## Link reads -/

/-- LINK_READ_ISSUE: the head of the read queue is issued under a free read tag (R212). -/
def execLinkReadIssue (t : ReadTag) (s : State) : Answer :=
  match s.hlu.readQueue, s.tag t with
  | r :: rest, none =>
    .next
      { s.setTag t (some ⟨r, s.readStamp⟩) with
        hlu := { (s.setTag t (some ⟨r, s.readStamp⟩)).hlu with readQueue := rest, out := [.read t r.addr r.len] }
        readStamp := s.readStamp + 1 }
  | _, _ => .refused .eventNotDue

/-- The data of a link read that is still wanted has been placed: the requester is told if its read is complete (R212). -/
def afterData (who : Requester) (s : State) : State := if readOutstanding who s then s else quiesce (readDone who s)

/-- LINK_READ_ANSWER: an answer to a link read that is no longer in flight is discarded, and so is the data of one that
nobody wants any more (R212, R213, R221). -/
def execLinkReadAnswer (t : ReadTag) (stamp : Nat) (data : List Byte) (u : Upset) (s : State) : Answer :=
  let s := s.strike u
  match s.tag t with
  | none => .next s
  | some f =>
    if f.stamp ≠ stamp then .next s
    else if data.length ≠ f.read.len then .refused .answerLength
    else if f.read.live then .next (afterData f.read.requester (placeData f.read data (s.setTag t none)))
    else .next (s.setTag t none)

/-- A link read in flight faults: its tag is freed, its read ends with a host access fault, and what is still queued of the
read is not issued. The requester of a read that nobody wants any more is told nothing (R213). -/
def linkReadFaults (t : ReadTag) (f : InFlight) (s : State) : State :=
  let s := s.setTag t none
  if f.read.live then
    quiesce (readFault f.read.requester (dropReads f.read.requester f.read.part s))
  else dropRest f s

/-- LINK_READ_ERROR: an error answer; one to a link read that is no longer in flight is discarded (R213, R221). -/
def execLinkReadError (t : ReadTag) (stamp : Nat) (u : Upset) (s : State) : Answer :=
  let s := s.strike u
  match s.tag t with
  | none => .next s
  | some f => if f.stamp ≠ stamp then .next s else .next (linkReadFaults t f s)

/-- LINK_READ_TIMEOUT: 64 µs have passed since a link read in flight was issued (R213). -/
def execLinkReadTimeout (t : ReadTag) (stamp : Nat) (u : Upset) (s : State) : Answer :=
  let s := s.strike u
  match s.tag t with
  | none => .refused .eventNotDue
  | some f => if f.stamp ≠ stamp then .refused .eventNotDue else .next (linkReadFaults t f s)

/-! ## Writes -/

/-- A waiting write has joined the write queue: a unit that waited for it goes on (R214). -/
def writeJoined (e : Option HandedWrite) (s : State) : State :=
  match e.map HandedWrite.writer with
  | some (.unit k) =>
    match (s.fu k).ctx.map Context.phase with
    | some (.writeWait next) => handedOff k next s
    | _ => s
  | _ => s

/-- The last link write of the head of the write queue has been issued (R214). A unit whose waiting write is admitted
completes its hand-off before the end of a posting whose last write this was (steps 5 and 6 of R192), so that a slot that
fails its parity check at the hand-off leaves the posting unfinished (DESIGN CHOICE, log 7). -/
def writeLeaves (ops : List LinkOp) (rest : List HandedWrite) (s : State) : State :=
  let (e, s) := admitWaiting { s with hlu := { s.hlu with writeQueue := rest, out := ops } }
  quiesce (writeJoined e s)

/-- WRITE_ISSUE: the link writes of the head of the write queue are issued in address order, all that remain or the next `n`
of them (R214, R219, log 12). -/
def execWriteIssue (limit : Option Nat) (u : Upset) (s : State) : Answer :=
  let s := s.strike u
  match s.hlu.writeQueue with
  | [] => .refused .eventNotDue
  | e :: rest =>
    let ops := e.linkOps.drop e.issued
    let n := limit.getD ops.length
    if n < ops.length then
      .next { s with hlu := { s.hlu with writeQueue := { e with issued := e.issued + n } :: rest, out := ops.take n } }
    else .next (writeLeaves ops rest s)

/-- One refused write stands before another in a job's destination (R215). -/
def earlierWrite (a b : Nat × Nat) : Bool := a.1 < b.1 || (a.1 == b.1 && a.2 < b.2)

/-- Settle tracking records a refused write of a job: the earliest stays (R215). -/
def Settle.recordRefused (t : Settle) (w : Nat × Nat) : Settle :=
  { t with refused := match t.refused with
      | none => some w
      | some v => if earlierWrite w v then some w else some v }

/-- A write fault report whose owner names a job slot: taken when the slot holds the job of that take order (R215). -/
def jobWriteRefused (j : SlotNo) (order record offset : Nat) (s : State) : State :=
  match s.hlu.engine with
  | .off | .setup => s
  | .running | .pausing | .paused | .halted =>
    if (s.job j).state = .free then s
    else
      withSlots [j]
        (fun s =>
          if (s.job j).state = .fetched ∨ (s.job j).takeOrder ≠ order then s
          else s.modSettle j fun t => t.recordRefused (record, offset)) s

/-- WRITE_FAULT_REPORT (R215, R218). -/
def execWriteFaultReport (owner : Owner) (u : Upset) (s : State) : Answer :=
  let s := s.strike u
  match owner with
  | .job j order record offset => .next (jobWriteRefused j order record offset s)
  | .completion c => .next (fatalFault { code := .completionWrite, queueType := .cq, queue := c } s)
  | .progressHead q => .next (fatalFault { code := .progressWrite, queueType := .sq, queue := q } s)
  | .progressTail c => .next (fatalFault { code := .progressWrite, queueType := .cq, queue := c } s)
  | .progressBlock => .next (fatalFault { code := .progressWrite, queueType := .block } s)
  | .message _ => .next s

/-! ## Hold timers -/

/-- HOLD_TIMER_EXPIRY: the CQ sends a message if its unsignalled count is above 0 (R199). -/
def execHoldTimerExpiry (c : CqNo) (s : State) : Answer :=
  match (s.cq c).holdTimer with
  | none => .refused .eventNotDue
  | some _ =>
    let s := s.modCq c fun x => { x with holdTimer := none }
    .next (if 0 < (s.cq c).unsignalled then sendMessage c s else s)

end Sys2Proof.Machine
end

