-- ==== Sys2Proof/Machine/Records.lean ====
section
/-! DEFINITION. Directive boundaries, the end of a record and its totals batch (R47 to R51, R149, R165, R166). -/

namespace Sys2Proof.Machine

/-- Steps 4 to 8 of the record cycle: the terminator is staged, and the sequence begun (R47). -/
def endOfRecord (k : FuNo) (c : Context) (s : State) : Answer :=
  if Config.windowSize < c.dstCursor + c.image.terminator.length then .fault .windowRange
  else .next (quiesce (settleRecord k (stageBytes k c.image.terminator s)))

/-- What a unit does at a directive boundary once it has read its conditions (R149). -/
def actAtBoundary (k : FuNo) (c : Context) (s : State) : Answer :=
  if (s.job c.slot).abortPending then .next (quiesce (releaseJob k .aborted .none none s))
  else if (s.layout c.layout).damaged then .next (quiesce (releaseJob k .engineFault .damaged none s))
  else if c.phase = .finalBoundary then .next (quiesce (releaseJob k .success .none none s))
  else if c.directiveIndex < c.image.directiveCount then .next (s.modCtx k fun c => { c with phase := .directive })
  else endOfRecord k c s

/-- DIRECTIVE_BOUNDARY: the boundary before a directive, after the last one, or the final boundary of the job (R31,
R149). -/
def execDirectiveBoundary (k : FuNo) (u : Upset) (s : State) : Answer :=
  let s := s.strike u
  match (s.fu k).ctx with
  | none => .refused .eventNotDue
  | some c =>
    if c.phase ≠ .boundary ∧ c.phase ≠ .finalBoundary then .refused .eventNotDue
    else if s.halted then .next (stopUnit k s)
    else
      match readSlots [c.slot] s with
      | (false, s) => .next (stopUnit k s)
      | (true, s) => actAtBoundary k c s

/-- RECORD_BATCH: the Totals Unit takes the batch that the unit `k` has submitted, whole, and answers (R165, R166). -/
def execRecordBatch (k : FuNo) (s : State) : Answer :=
  match (s.fu k).ctx with
  | none => .refused .eventNotDue
  | some c =>
    match c.phase, c.req.group? with
    | .batchSubmitted, some g =>
      let (group, applied) := takeBatch (s.group g) c.batch
      .next ((s.setGroup g group).modCtx k fun c => { c with phase := .batchAnswered applied })
    | _, _ => .refused .eventNotDue

/-- A refused batch raises TOTAL for the record; the stop mask decides whether the record is written (R49, R111). -/
def totalRefused (k : FuNo) (c : Context) (s : State) : State :=
  let s := reportFaults c [.total] c.image.directiveCount s
  if faultSet c.req.stopMask .total then releaseJob k .fieldStop (.field .total) none s else handOutput k .onward s

/-- BATCH_ANSWER: the unit takes the answer (R49). -/
def execBatchAnswer (k : FuNo) (u : Upset) (s : State) : Answer :=
  let s := s.strike u
  match (s.fu k).ctx with
  | none => .refused .eventNotDue
  | some c =>
    match c.phase with
    | .batchAnswered true => .next (quiesce (handOutput k .onward s))
    | .batchAnswered false => .next (quiesce (totalRefused k c s))
    | _ => .refused .eventNotDue

end Sys2Proof.Machine
end

