-- ==== Sys2Proof/Machine/Dispatch.lean ====
section
/-! DEFINITION. One arm per command. -/

namespace Sys2Proof.Machine

-- The effect of a command on everything but the queue of waiting commands.
def exec (i : Instr) (s : State) : Host.Outcome State Fault Refusal :=
  match i with
  | .start => Sys2Proof.Machine.execStart s
  | .pause => Sys2Proof.Machine.execPause s
  | .resume => Sys2Proof.Machine.execResume s
  | .reset => Sys2Proof.Machine.execReset s
  | .clear => Sys2Proof.Machine.execClear s
  | .ackProtocol => Sys2Proof.Machine.execAckProtocol s
  | .ctrlInvalidCommand w => Sys2Proof.Machine.execCtrlInvalidCommand w s
  | .post w => Sys2Proof.Machine.execPost w s
  | .retire w => Sys2Proof.Machine.execRetire w s
  | .registerWrite offset width v => Sys2Proof.Machine.execRegisterWrite offset width v s
  | .linkReset => Sys2Proof.Machine.execLinkReset s
  | .powerOn => Sys2Proof.Machine.execPowerOn s
  | .linkReadIssue t => Sys2Proof.Machine.execLinkReadIssue t s
  | .linkReadAnswer t stamp data u => Sys2Proof.Machine.execLinkReadAnswer t stamp data u s
  | .linkReadError t stamp u => Sys2Proof.Machine.execLinkReadError t stamp u s
  | .linkReadTimeout t stamp u => Sys2Proof.Machine.execLinkReadTimeout t stamp u s
  | .writeIssue limit u => Sys2Proof.Machine.execWriteIssue limit u s
  | .writeFaultReport owner u => Sys2Proof.Machine.execWriteFaultReport owner u s
  | .holdTimerExpiry c => Sys2Proof.Machine.execHoldTimerExpiry c s
  | .directiveBoundary k u => Sys2Proof.Machine.execDirectiveBoundary k u s
  | .copy k u => Sys2Proof.Machine.execCopy k u s
  | .copyUntil k u => Sys2Proof.Machine.execCopyUntil k u s
  | .skip k u => Sys2Proof.Machine.execSkip k u s
  | .literal k u => Sys2Proof.Machine.execLiteral k u s
  | .fill k u => Sys2Proof.Machine.execFill k u s
  | .padTo k u => Sys2Proof.Machine.execPadTo k u s
  | .check k u => Sys2Proof.Machine.execCheck k u s
  | .number k u => Sys2Proof.Machine.execNumber k u s
  | .addTotal k u => Sys2Proof.Machine.execAddTotal k u s
  | .repeatGroup k u => Sys2Proof.Machine.execRepeatGroup k u s
  | .recordBatch k => Sys2Proof.Machine.execRecordBatch k s
  | .batchAnswer k u => Sys2Proof.Machine.execBatchAnswer k u s

end Sys2Proof.Machine
end

