-- ==== Sys2Proof/Safety.lean ====
section
/-! DEFINITION. What claims about the part speak of: the invariants that every step keeps, and when an event has no further
consequence. -/

namespace Sys2Proof.Machine

/-- Nothing further follows inside the part from the state it is in. -/
def Settled (s : State) : Prop := consequence s = none

/-! ## Addressed RAMs -/

/-- Both windows of a unit are canonical. -/
def Fu.windowsCanonical (x : Fu) : Prop := Memory.wf x.srcWindow = true ∧ Memory.wf x.stgWindow = true

/-- Every addressed RAM of the part is canonical: the setup buffer, the fetch buffers, the unit windows, the pools and the
image buffers. -/
structure RamsCanonical (s : State) : Prop where
  setup : Memory.wf s.hlu.setupBuf = true
  fetch : ∀ q, Memory.wf (s.sq q).fetchBuf = true
  windows : ∀ k, (s.fu k).windowsCanonical
  directives : Memory.wf s.ls.dirPool = true
  literals : Memory.wf s.ls.litPool = true
  layoutBuffer : Memory.wf s.ls.buffer = true
  codesBuffer : Memory.wf s.cts.buffer = true

/-! ## Units -/

/-- The cursors of a context lie in their windows (R33, R34, R143). -/
def Context.cursorsInside (c : Context) : Prop := c.srcCursor ≤ Config.windowSize ∧ c.dstCursor ≤ Config.windowSize

/-- The cursors of every context lie in their windows. -/
def CursorsInside (s : State) : Prop := ∀ k c, (s.fu k).ctx = some c → c.cursorsInside

/-! ## Totals -/

/-- A pending batch holds at most one pair per accumulator (R45). -/
def Context.batchDistinct (c : Context) : Prop := (c.batch.map Prod.fst).Nodup

/-- The values an accumulator may hold (R163). -/
def Accumulator.inRange (a : Accumulator) : Prop :=
  a.value.natAbs ≤ Config.accumulatorLimit ∧ a.count ≤ Config.addCountLimit

/-- Every accumulator is in range, and every pending batch names each accumulator at most once. -/
structure TotalsInRange (s : State) : Prop where
  accumulators : ∀ (g : GroupNo) (a : AccNo), (s.group g)[a].inRange
  batches : ∀ k c, (s.fu k).ctx = some c → c.batchDistinct

/-! ## Queues -/

/-- The indices of a configured SQ run from 0 to twice its size less one (R174, R176). -/
def Sq.indicesInRange (x : Sq) : Prop := x.configured = true → x.head < 2 * x.size ∧ x.tail < 2 * x.size

/-- The indices of a configured CQ run from 0 to twice its size less one (R175, R176). -/
def Cq.indicesInRange (x : Cq) : Prop := x.configured = true → x.tail < 2 * x.size ∧ x.retireIndex < 2 * x.size

/-- The indices of every configured queue are in range. -/
structure IndicesInRange (s : State) : Prop where
  sqs : ∀ q, (s.sq q).indicesInRange
  cqs : ∀ q, (s.cq q).indicesInRange

/-- The part is sound: its addressed RAMs are canonical, cursors lie in their windows, totals and batches are in range, and
queue indices are in range. -/
structure SoundPart (s : State) : Prop where
  rams : RamsCanonical s
  cursors : CursorsInside s
  totals : TotalsInRange s
  indices : IndicesInRange s

/-- The ready order is sorted by its three keys (R145). -/
def ReadyOrdered (s : State) : Prop := s.sch.ready.Pairwise fun a b => b.before a = false

/-- The write queue holds at most 64 handed writes, and a writer waits only while it is full (R214). -/
def WriteQueueBounded (s : State) : Prop :=
  s.hlu.writeQueue.length ≤ Config.writeQueueSize
    ∧ (s.hlu.waiting ≠ [] → s.hlu.writeQueue.length = Config.writeQueueSize)

/-- A link read in flight reaches nobody. -/
def DeadTags (s : State) : Prop := ∀ t f, s.tag t = some f → f.read.live = false

/-- A HALTED engine has nothing to read or write: no queued read, no handed or waiting write, no read whose data is wanted,
and no hold timer running (R200, R219). -/
structure HaltQuiet (s : State) : Prop where
  reads : s.hlu.readQueue = []
  writes : s.hlu.writeQueue = []
  waiting : s.hlu.waiting = []
  tags : DeadTags s
  timers : ∀ q, (s.cq q).holdTimer = none

/-- Whenever the engine is HALTED, it is quiet. -/
def HaltedIsQuiet (s : State) : Prop := s.hlu.engine = .halted → HaltQuiet s

/-- Every link read in flight was issued before the number of the next issue (R213, R221). -/
def StampsPast (s : State) : Prop := ∀ t f, s.tag t = some f → f.stamp < s.readStamp

/-! ## What commands meet -/

/-- The unit `k` is about to execute the directive `d`, whose pool location has good parity (R31, R32). -/
structure DirectiveDue (s : State) (k : FuNo) (c : Context) (d : Directive) : Prop where
  context : (s.fu k).ctx = some c
  phase : c.phase = .directive
  location : c.location < Config.directivePoolSize
  decoded : directiveAt s c.location = some d
  parity : c.location ∉ s.ls.dirBad

/-- The unit `k` with another context and staging window, everything else unchanged. -/
def State.withUnit (s : State) (k : FuNo) (c : Context) (stg : Cells) : State :=
  s.modFu k fun x => { x with ctx := some c, stgWindow := stg }

end Sys2Proof.Machine
end

