-- ==== Sys2Proof/WellFormed.lean ====
section
/-! DEFINITION. Which commands are well formed: operands inside the ranges the manual gives. -/

namespace Sys2Proof

/-- Every pool location an upset names exists (R4). -/
def Upset.wf (u : Upset) : Bool :=
  u.directives.all (· < Config.directivePoolSize) && u.literals.all (· < Config.literalPoolSize)

/-- A job's owner names a record index and a destination offset inside a request's ranges (R115, R143). -/
def Owner.wf : Owner → Bool
  | .job _ _ record offset => record ≤ 65534 && offset ≤ Config.lengthLimit
  | _ => true

/-- A full-width write at the offset of CTRL, POST or RETIRE: the rows of those registers. -/
def commandOffset (offset : BitVec 12) (width : AccessWidth) : Bool :=
  width == .word && (offset == 0x00#12 || offset == 0x10#12 || offset == 0x14#12)

/-- The operand checks of one command. -/
def Instr.wf : Instr → Bool
  | .ctrlInvalidCommand w => !(w == 4#32 || w == 5#32 || w == 6#32)
  | .registerWrite offset width _ => !commandOffset offset width
  | .linkReadAnswer _ _ data u => data.length ≤ Config.linkSpan && u.wf
  | .linkReadError _ _ u | .linkReadTimeout _ _ u => u.wf
  | .writeIssue limit u => limit != some 0 && u.wf
  | .writeFaultReport owner u => owner.wf && u.wf
  | .directiveBoundary _ u | .batchAnswer _ u => u.wf
  | .copy _ u | .copyUntil _ u | .skip _ u | .literal _ u | .fill _ u => u.wf
  | .padTo _ u | .check _ u | .number _ u | .addTotal _ u | .repeatGroup _ u => u.wf
  | .start | .pause | .resume | .reset | .clear | .ackProtocol => true
  | .post _ | .retire _ | .linkReset | .powerOn => true
  | .linkReadIssue _ | .holdTimerExpiry _ | .recordBatch _ => true

/-- The storage upsets that an event carries; a command of the host carries none (log 9). -/
def Instr.upset : Instr → Upset
  | .linkReadAnswer _ _ _ u | .linkReadError _ _ u | .linkReadTimeout _ _ u => u
  | .writeIssue _ u | .writeFaultReport _ u => u
  | .directiveBoundary _ u | .batchAnswer _ u => u
  | .copy _ u | .copyUntil _ u | .skip _ u | .literal _ u | .fill _ u => u
  | .padTo _ u | .check _ u | .number _ u | .addTotal _ u | .repeatGroup _ u => u
  | .start | .pause | .resume | .reset | .clear | .ackProtocol => {}
  | .ctrlInvalidCommand _ | .post _ | .retire _ | .registerWrite _ _ _ | .linkReset | .powerOn => {}
  | .linkReadIssue _ | .holdTimerExpiry _ | .recordBatch _ => {}

end Sys2Proof
end

