-- ==== Sys2Proof/Certificates/Slice0/Obligations.lean ====
section
/-! DEFINITION. The statements for the provers, grouped as the manual groups its blocks. A statement that gives the whole
next state is its own frame: whatever the equation does not name is unchanged. -/

open Sys2Proof Sys2Proof.Machine

/-! ## The machine -/

/-- A step takes the command at the front of the queue and is its meaning on the state with the queue's rest; an empty
queue idles. That each event is taken whole is the manual's; the queue of waiting commands and idling are the model's
choice (log 1, DESIGN CHOICE). -/
def Obligations.StepTakesFrontCommand : Prop :=
  (∀ (c : Instr) (rest : List Instr) (s : State),
      step { s with pending := c :: rest } = exec c { s with pending := rest })
    ∧ ∀ s : State, s.pending = [] → step s = .next s

/-- No command touches the queue of waiting commands, and no reset does: the queue is the model's choice (log 1, DESIGN
CHOICE). -/
def Obligations.CommandsLeaveQueueAlone : Prop :=
  ∀ (i : Instr) (s t : State), exec i s = .next t → t.pending = s.pending

/-! ## The register window and engine control -/

/-- START in OFF latches the setup address: an unaligned one fails at once with BAD_ALIGN and no read, an aligned one asks
for the 512 bytes (R205). -/
def Obligations.StartLatchesSetupAddress : Prop :=
  ∀ s : State, s.hlu.engine = .off →
    let a : HostAddr := s.hlu.setupHi ++ s.hlu.setupLo
    (a.toNat % 64 ≠ 0 →
      exec .start s = .next
        { s with hlu := { s.hlu with engine := .off, setupResult := .badAlign, latched := none, setupBuf := [] } })
    ∧ (a.toNat % 64 = 0 →
      exec .start s = .next
        { s with hlu := { s.hlu with
            engine := .setup, setupResult := .none, latched := some a, setupBuf := []
            readQueue := s.hlu.readQueue ++ linkReads .setup 0 a 512 0 } })

/-- A CTRL write that R203 marks P sets PROTOCOL and changes nothing else: START, PAUSE and RESUME in the states marked,
and every word that is none of the six codes. ACK_PROTOCOL clears it in any engine state and changes nothing else
(R203, R211). -/
def Obligations.MisplacedControlSetsProtocol : Prop :=
  ∀ s : State,
    let t := { s with hlu := { s.hlu with protocol := true } }
    (s.hlu.engine ≠ .off → exec .start s = .next t)
    ∧ (s.hlu.engine ≠ .running → exec .pause s = .next t)
    ∧ (s.hlu.engine ≠ .pausing → s.hlu.engine ≠ .paused → exec .resume s = .next t)
    ∧ (∀ w : Word, w.toNat = 0 ∨ 7 ≤ w.toNat → exec (.ctrlInvalidCommand w) s = .next t)
    ∧ exec .ackProtocol s = .next { s with hlu := { s.hlu with protocol := false } }

/-- PAUSE in RUNNING makes the engine PAUSING; with no slot RUNNING or DRAINING it is PAUSED in the same event, unless the
report of the slots finds one whose parity fails (R140, R209). That only the report which finds no such slot checks the
slots' parity is the model's choice (log 9, DESIGN CHOICE). -/
def Obligations.PauseReachesPausingOrPaused : Prop :=
  ∀ s : State, s.hlu.engine = .running →
    ((∃ j, (s.job j).state = .running ∨ (s.job j).state = .draining) →
      exec .pause s = .next { s with hlu := { s.hlu with engine := .pausing } })
    ∧ ((∀ j, (s.job j).state ≠ .running ∧ (s.job j).state ≠ .draining) →
      ((∀ j, (s.job j).state ≠ .free → j ∉ s.jt.badParity) →
        exec .pause s = .next { s with hlu := { s.hlu with engine := .paused } })
      ∧ ((∃ j, (s.job j).state ≠ .free ∧ j ∈ s.jt.badParity) →
        ∃ t, exec .pause s = .next t ∧ t.hlu.engine = .halted ∧ t.hlu.fault.code = .slotParity))

/-- RESUME in PAUSING or PAUSED makes the engine RUNNING, and what follows from that follows; nothing else changes when
nothing follows (R210). -/
def Obligations.ResumeMakesEngineRunning : Prop :=
  ∀ s : State, s.hlu.engine = .pausing ∨ s.hlu.engine = .paused →
    let t := { s with hlu := { s.hlu with engine := .running } }
    exec .resume s = .next (quiesce t) ∧ (Settled t → exec .resume s = .next t)

/-- RESET in any engine state: the engine is OFF, SETUP_LO and SETUP_HI are kept, jobs, queues, units and the ready order
are emptied, layout slots keep their images and lose staged images, references and service jobs, code tables keep their
contents, and totals are kept, the extents of staged images being freed (R24, R95, R141, R162, R173, R201, R204). The
model's own fields stand (log 1, log 5, log 10). Fields of the emptied blocks to which no rule gives a reset value hold the
model's (log 6, DESIGN CHOICE), and the pools' bytes stand as they are (log 21). -/
def Obligations.ResetDiscardsJobsAndKeepsStores : Prop :=
  ∀ s : State, ∃ t, exec .reset s = .next t
    ∧ t.hlu = { State.reset.hlu with setupLo := s.hlu.setupLo, setupHi := s.hlu.setupHi }
    ∧ t.qm = State.reset.qm ∧ t.jt = State.reset.jt ∧ t.sch = State.reset.sch ∧ t.fus = State.reset.fus
    ∧ t.tu = s.tu
    ∧ (∀ l, t.layout l = { s.layout l with
        state := if (s.layout l).state = .replacing ∨ (s.layout l).state = .dropping then
            (if (s.layout l).damaged then .damaged else .ready)
          else (s.layout l).state
        staged := none, service := none, refCount := 0 })
    ∧ (let staged := s.ls.slots.toList.filterMap LayoutSlot.staged
      t.ls.dirFree = staged.foldl (fun free im => giveBack ⟨im.directiveStart, im.directiveCount⟩ free) s.ls.dirFree
      ∧ t.ls.litFree = staged.foldl (fun free im => match im.literalStart with
          | some a => giveBack ⟨a, im.literalCount⟩ free
          | none => free) s.ls.litFree)
    ∧ ((∀ l, (s.layout l).staged = none) → t.ls.dirFree = s.ls.dirFree ∧ t.ls.litFree = s.ls.litFree)
    ∧ t.ls.dirPool = s.ls.dirPool ∧ t.ls.litPool = s.ls.litPool
    ∧ t.ls.dirBad = s.ls.dirBad ∧ t.ls.litBad = s.ls.litBad
    ∧ t.ls.queue = [] ∧ t.ls.bufferHeld = false ∧ t.ls.buffer = []
    ∧ (∀ i, t.table i = { s.table i with refCount := 0, service := none })
    ∧ t.cts.queue = [] ∧ t.cts.bufferHeld = false ∧ t.cts.buffer = []
    ∧ t.pending = s.pending ∧ t.readStamp = s.readStamp ∧ t.choices = s.choices

/-- CLEAR in any engine state does what RESET does and empties every layout slot, both pools' free lists being whole, every
code table and every accumulator: only SETUP_LO, SETUP_HI, the pools' bytes and the model's own fields are kept. Link reset
and power-on each bring the part to its power-on state, in which every register reads 0 (R25, R95, R173, R204, R220;
log 1, log 5, log 10). That the pools' bytes and their parity marks outlast CLEAR and not a link reset or power-on is the
model's reading (log 21, DEDUCED), and fields without a reset value hold the model's (log 6, DESIGN CHOICE). -/
def Obligations.ClearAndPowerOnEmptyThePart : Prop :=
  ∀ s : State,
    let t := { State.reset with pending := s.pending, readStamp := s.readStamp, choices := s.choices }
    exec .clear s = .next
      { t with
        hlu := { State.reset.hlu with setupLo := s.hlu.setupLo, setupHi := s.hlu.setupHi }
        ls := { State.reset.ls with
          dirPool := s.ls.dirPool, litPool := s.ls.litPool, dirBad := s.ls.dirBad, litBad := s.ls.litBad } }
    ∧ exec .linkReset s = .next t ∧ exec .powerOn s = .next t
    ∧ ∀ offset width, readRegister t offset width = 0

/-- What a POST write does: ignored in OFF, SETUP and HALTED; with a reserved bit set, PROTOCOL; to an unconfigured SQ,
PROTOCOL; to a BROKEN SQ, ignored; otherwise the index check, by which the tail is taken or the SQ breaks (R177, R178,
R189, R202). The NOTIFY bit of the queue event is a free value (log 28). -/
def Obligations.PostMovesTailOrBreaksQueue : Prop :=
  ∀ (w : Word) (s : State),
    let q := wordQueue w
    let x := s.sq q
    let n := wordIndex w
    let from' := if x.fetchInFlight then (x.head + 1) % (2 * x.size) else x.head
    let bad := 2 * x.size ≤ n ∨ x.size < (n + 2 * x.size - from') % (2 * x.size)
    let flagged := { s with hlu := { s.hlu with protocol := true } }
    let isLive := s.hlu.engine = .running ∨ s.hlu.engine = .pausing ∨ s.hlu.engine = .paused
    (¬ isLive → exec (.post w) s = .next s)
    ∧ (isLive → w &&& 0xF800FFF8#32 ≠ 0 → exec (.post w) s = .next flagged)
    ∧ (isLive → w &&& 0xF800FFF8#32 = 0 →
      (x.configured = false → exec (.post w) s = .next flagged)
      ∧ (x.configured = true → x.broken = true → exec (.post w) s = .next s)
      ∧ (x.configured = true → x.broken = false →
        (¬ bad → exec (.post w) s = .next (quiesce (s.modSq q fun y => { y with tail := n })))
        ∧ (bad → exec (.post w) s = .next (quiesce
            (joinPosting ⟨none, { event := true, sq := q, detail := .indexError, notify := Config.eventNotify }⟩
              ((s.modSq q fun y => { y with broken := true, eventUsed := true }).modCq x.boundCq fun y =>
                { y with eventReserves := y.eventReserves - 1, reservations := y.reservations + 1 }))))))

/-- What a RETIRE write does: ignored in OFF, SETUP and HALTED; PROTOCOL with a reserved bit set, for an unconfigured CQ
and for an index that fails its check; otherwise the retire index moves and entries are handed back (R194, R195, R202). -/
def Obligations.RetireHandsEntriesBack : Prop :=
  ∀ (w : Word) (s : State),
    let q := wordQueue w
    let x := s.cq q
    let c := wordIndex w
    let count := fun b => (b + 2 * x.size - x.retireIndex) % (2 * x.size)
    let bad := 2 * x.size ≤ c ∨ count x.tail < count c
    let flagged := { s with hlu := { s.hlu with protocol := true } }
    let isLive := s.hlu.engine = .running ∨ s.hlu.engine = .pausing ∨ s.hlu.engine = .paused
    (¬ isLive → exec (.retire w) s = .next s)
    ∧ (isLive → w &&& 0xF800FFF8#32 ≠ 0 ∨ x.configured = false ∨ bad → exec (.retire w) s = .next flagged)
    ∧ (isLive → w &&& 0xF800FFF8#32 = 0 → x.configured = true → ¬ bad →
      exec (.retire w) s = .next (quiesce (s.modCq q fun y =>
        { y with retireIndex := c, postedUnretired := y.postedUnretired - count c })))

/-- Register writes: narrower than 32 bits, to a read-only register or where no register stands, a write is ignored; at
08h and 0Ch it sets SETUP_LO and SETUP_HI; at 00h, 10h and 14h it is a CTRL, POST or RETIRE write (R202). -/
def Obligations.RegisterWriteReachesItsRegister : Prop :=
  ∀ (offset : BitVec 12) (v : Word) (s : State),
    exec (.registerWrite offset .byte v) s = .next s
    ∧ exec (.registerWrite offset .half v) s = .next s
    ∧ exec (.registerWrite 0x08 .word v) s = .next { s with hlu := { s.hlu with setupLo := v } }
    ∧ exec (.registerWrite 0x0C .word v) s = .next { s with hlu := { s.hlu with setupHi := v } }
    ∧ (offset ≠ 0x00 → offset ≠ 0x08 → offset ≠ 0x0C → offset ≠ 0x10 → offset ≠ 0x14 →
        exec (.registerWrite offset .word v) s = .next s)
    ∧ exec (.registerWrite 0x10 .word v) s = exec (.post v) s
    ∧ exec (.registerWrite 0x14 .word v) s = exec (.retire v) s
    ∧ exec (.registerWrite 0x00 .word 1) s = exec .start s ∧ exec (.registerWrite 0x00 .word 2) s = exec .pause s
    ∧ exec (.registerWrite 0x00 .word 3) s = exec .resume s ∧ exec (.registerWrite 0x00 .word 4) s = exec .reset s
    ∧ exec (.registerWrite 0x00 .word 5) s = exec .clear s
    ∧ exec (.registerWrite 0x00 .word 6) s = exec .ackProtocol s
    ∧ (v.toNat = 0 ∨ 7 ≤ v.toNat →
        exec (.registerWrite 0x00 .word v) s = .next { s with hlu := { s.hlu with protocol := true } })

/-- Register reads: STAT holds the engine state in bits 2 to 0, the setup result in bits 7 to 4, PROTOCOL in bit 8, the BUSY
units in bits 11 to 9 and the slots in use in bits 21 to 16; FAULT holds the code in bits 3 to 0, the queue type in bits 5
to 4, the queue number in bits 10 to 8 and the slot number in bits 20 to 16; the other bits of both read 0; SETUP_LO and
SETUP_HI read as written; a write-only register and an offset without a register read 0; a narrower read answers the
addressed bytes (R202), and that they stand in the low bits is the model's choice (log 22, DESIGN CHOICE). -/
def Obligations.RegistersReadTheirFields : Prop :=
  ∀ (offset : BitVec 12) (s : State),
    let w := readRegister s 0x04 .word
    ((w.extractLsb' 0 4).toNat = s.hlu.engine.code
      ∧ (w.extractLsb' 4 4).toNat = s.hlu.setupResult.code
      ∧ w.getLsbD 8 = s.hlu.protocol
      ∧ (w.extractLsb' 9 3).toNat = (s.unitsWhere fun x => x.state == .busy).length
      ∧ (w.extractLsb' 16 6).toNat = (s.slotsWhere fun _ x => x.state != .free).length
      ∧ (w.extractLsb' 12 4).toNat = 0 ∧ (w.extractLsb' 22 10).toNat = 0)
    ∧ (let v := readRegister s 0x18 .word
      (v.extractLsb' 0 4).toNat = s.hlu.fault.code.code ∧ (v.extractLsb' 4 2).toNat = s.hlu.fault.queueType.code
      ∧ (v.extractLsb' 8 3).toNat = s.hlu.fault.queue.val ∧ (v.extractLsb' 16 5).toNat = s.hlu.fault.slot.val
      ∧ (v.extractLsb' 6 2).toNat = 0 ∧ (v.extractLsb' 11 5).toNat = 0 ∧ (v.extractLsb' 21 11).toNat = 0)
    ∧ readRegister s 0x08 .word = s.hlu.setupLo ∧ readRegister s 0x0C .word = s.hlu.setupHi
    ∧ (offset.toNat % 4 = 0 → offset ≠ 0x04 → offset ≠ 0x08 → offset ≠ 0x0C → offset ≠ 0x18 →
        readRegister s offset .word = 0)
    ∧ (offset.toNat % 2 = 0 → readRegister s offset .half =
        (readRegister s (BitVec.ofNat 12 (offset.toNat - offset.toNat % 4)) .word >>> (8 * (offset.toNat % 4)))
          &&& 0xFFFF#32)
    ∧ readRegister s offset .byte =
        (readRegister s (BitVec.ofNat 12 (offset.toNat - offset.toNat % 4)) .word >>> (8 * (offset.toNat % 4)))
          &&& 0xFF#32

/-! ## The host link -/

/-- LINK_READ_ISSUE: the head of the read queue is issued under a free tag (R212). The issue number (log 10), that the event
names the tag and a taken tag makes it not due (log 12), and its refusal as eventNotDue (log 13) are the model's, each a
DESIGN CHOICE. -/
def Obligations.LinkReadIssueTakesQueueHead : Prop :=
  ∀ (tag : ReadTag) (s : State),
    (s.hlu.readQueue = [] → exec (.linkReadIssue tag) s = .refused .eventNotDue)
    ∧ ∀ r rest, s.hlu.readQueue = r :: rest →
      (s.tag tag ≠ none → exec (.linkReadIssue tag) s = .refused .eventNotDue)
      ∧ (s.tag tag = none → ∃ t, exec (.linkReadIssue tag) s = .next t
        ∧ t = { s with
            hlu := { s.hlu with readQueue := rest, tags := t.hlu.tags, out := [.read tag r.addr r.len] }
            readStamp := s.readStamp + 1 }
        ∧ t.tag tag = some ⟨r, s.readStamp⟩ ∧ ∀ other, other ≠ tag → t.tag other = s.tag other)

/-- The link reads that a read is divided into run through its bytes in order without a gap, none of them crosses a
multiple of 512, and only a zero-length read has one that carries no data (R212). -/
def Obligations.LinkReadsCoverTheRead : Prop :=
  ∀ (a : HostAddr) (len : Nat),
    let ps := linkPieces a len
    (ps.map Prod.snd).sum = len
    ∧ (∀ (i : Nat) (p : Nat × Nat), ps[i]? = some p → p.1 = ((ps.take i).map Prod.snd).sum)
    ∧ (∀ p ∈ ps, p.2 = 0 ∨ (a.toNat + p.1) / 512 = (a.toNat + p.1 + p.2 - 1) / 512)
    ∧ (0 < len → ∀ p ∈ ps, 0 < p.2)
    ∧ (len = 0 → ps = [(0, 0)])
    ∧ (a.toNat % 512 = 0 → len = 512 → ps = [(0, 512)])

/-- An answer that names a link read no longer in flight is discarded, whatever its tag carries now, and a timeout of such
a link read is not due; an answer, error or timeout of a link read that nobody wants any more frees its tag and reaches no
requester; an error or timeout also takes off the read queue what is still queued of its read, which stands at the head and
begins where the link reads issued since end (log 17), and nothing else; an answer of another length than was asked for is
refused (R213, R219, R221; log 10, log 13). -/
def Obligations.StaleAndUnwantedAnswersReachNobody : Prop :=
  ∀ (tag : ReadTag) (n : Nat) (data : List Byte) (u : Upset) (s : State),
    ((∀ f, s.tag tag = some f → f.stamp ≠ n) →
      exec (.linkReadAnswer tag n data u) s = .next (s.strike u)
      ∧ exec (.linkReadError tag n u) s = .next (s.strike u)
      ∧ exec (.linkReadTimeout tag n u) s = .refused .eventNotDue)
    ∧ (∀ f, s.tag tag = some f → f.stamp = n → f.read.live = false →
      let freed := (s.strike u).setTag tag none
      let faults := fun t : State => exec (.linkReadError tag n u) s = .next t ∧ exec (.linkReadTimeout tag n u) s = .next t
      let rest := fun r : LinkRead => r.requester = f.read.requester ∧ r.part = f.read.part ∧ f.read.place < r.place
      let at0 := f.read.place + f.read.len + 512 * (s.readStamp - (n + 1))
      (data.length = f.read.len → exec (.linkReadAnswer tag n data u) s = .next freed)
      ∧ (∀ r mine others, s.hlu.readQueue = r :: mine ++ others → r.place = at0 → (∀ x ∈ r :: mine, rest x) →
          (∀ x, others.head? = some x → ¬ rest x) →
          faults { freed with hlu := { freed.hlu with readQueue := others } })
      ∧ ((∀ r, s.hlu.readQueue.head? = some r → ¬ (rest r ∧ r.place = at0)) → faults freed))
    ∧ (∀ f, s.tag tag = some f → f.stamp = n → data.length ≠ f.read.len →
      exec (.linkReadAnswer tag n data u) s = .refused .answerLength)

/-- An answer to a wanted link read places its data at its own offset; the requester is told only when no link read of it
is outstanding (R212). -/
def Obligations.AnswersPlaceDataUntilTheLast : Prop :=
  ∀ (tag : ReadTag) (f : InFlight) (data : List Byte) (u : Upset) (s : State), s.tag tag = some f →
    f.read.live = true → data.length = f.read.len →
    let placed := placeData f.read data ((s.strike u).setTag tag none)
    (readOutstanding f.read.requester placed = true → exec (.linkReadAnswer tag f.stamp data u) s = .next placed)
    ∧ (readOutstanding f.read.requester placed = false →
        exec (.linkReadAnswer tag f.stamp data u) s = .next (quiesce (readDone f.read.requester placed)))

/-- The last answer of a source record's read: the unit's window holds the data at its place and every per-record value of
the context takes its start value, at the boundary before directive 0; nothing else changes (R29, R30, R31). -/
def Obligations.SourceRecordArrivesAtItsStartValues : Prop :=
  ∀ (tag : ReadTag) (f : InFlight) (k : FuNo) (c : Context) (data : List Byte) (u : Upset) (s : State),
    s.tag tag = some f → f.read.live = true → f.read.requester = .unit k → data.length = f.read.len →
    (s.fu k).ctx = some c → c.kind = .format ∨ c.kind = .parse →
    readOutstanding (.unit k) (s.setTag tag none) = false →
    let t := ((s.strike u).setTag tag none).modFu k fun x =>
      { x with
        srcWindow := writeBytes x.srcWindow f.read.place data
        ctx := some { c with
          directiveIndex := 0, rep := none, srcCursor := 0, dstCursor := 0, lastState := .none, lastValue := none
          batch := [], phase := .boundary } }
    exec (.linkReadAnswer tag f.stamp data u) s = .next (quiesce t)
    ∧ (Settled t → exec (.linkReadAnswer tag f.stamp data u) s = .next t)

/-- An error answer and the timeout of a link read in flight complete alike: its tag is freed, queued link reads of the
same read are removed and no others, those in flight keep their tags and are wanted no more, and the requester is told
once. A unit's job ends HOST_ACCESS, READ, but that READ or none for a TRANSLATE is a free value (log 25), and a unit
without a job stays as it is; a setup ends with READ_FAULT, an SQ's fetch faults, a load ends HOST_ACCESS
with its buffer and service job released and nothing else changed, and a settle read gives its outcome (R16, R90, R208,
R213, R216). That the other part of a COMPARE chunk stays queued, wanted no more, is log 17, and that a load has no detail
is log 25 (both DEDUCED). -/
def Obligations.FaultingLinkReadEndsItsRead : Prop :=
  ∀ (tag : ReadTag) (f : InFlight) (u : Upset) (s : State), s.tag tag = some f → f.read.live = true →
    let who := f.read.requester
    let dropped := dropReads who f.read.part ((s.strike u).setTag tag none)
    let answers := fun t : State =>
      exec (.linkReadError tag f.stamp u) s = .next t ∧ exec (.linkReadTimeout tag f.stamp u) s = .next t
    (∃ t, answers t)
    ∧ (∀ k, who = .unit k → ((s.fu k).ctx = none → answers (quiesce dropped))
      ∧ ∀ c, (s.fu k).ctx = some c →
        answers (quiesce (releaseJob k .hostAccess
          (if c.kind = .translate ∧ Config.translateFaultIsRead = false then .none else .read) none dropped)))
    ∧ (who = .setup →
        answers { dropped with hlu := { dropped.hlu with
          engine := .off, setupResult := .readFault, latched := none, setupBuf := [] } })
    ∧ (∀ q, who = .fetch q → answers (quiesce (fetchFaulted q dropped)))
    ∧ (∀ j rest, who = .layoutLoad → s.ls.queue = j :: rest → j ∉ (s.strike u).jt.badParity →
        let t := endLayoutLoad j .hostAccess .none 0 0 dropped
        let l := (s.job j).req.layoutNo
        answers (quiesce t)
        ∧ t.ls = { dropped.ls with queue := rest, bufferHeld := false, buffer := [], slots := t.ls.slots }
        ∧ t.layout l = { s.layout l with service := none } ∧ (∀ i, i ≠ l → t.layout i = s.layout i)
        ∧ (t.job j).status = some .hostAccess ∧ (t.job j).detail = .none)
    ∧ (∀ j rest, who = .codesLoad → s.cts.queue = j :: rest → j ∉ (s.strike u).jt.badParity →
        let t := endCodesLoad j .hostAccess .none 0 dropped
        let i := (s.job j).req.tableNo
        answers (quiesce t)
        ∧ t.cts = { s.cts with queue := rest, bufferHeld := false, buffer := [], tables := t.cts.tables }
        ∧ t.table i = { s.table i with service := none } ∧ (∀ k, k ≠ i → t.table k = s.table k)
        ∧ (t.job j).status = some .hostAccess ∧ (t.job j).detail = .none)
    ∧ (∀ j, who = .settle j → answers (quiesce (settleOutcome j true dropped)))
    ∧ readOutstanding who dropped = false
    ∧ dropped.hlu.readQueue =
        ((s.hlu.readQueue.filter fun r => !(r.live && r.requester == who && r.part == f.read.part)).map fun r =>
          if r.requester = who then { r with live := false } else r)
    ∧ ∀ i, dropped.tag i = if i = tag then none else (s.tag i).map fun g =>
        if g.read.requester = who then { g with read := { g.read with live := false } } else g

/-- A request read that faults, by an error answer or its timeout: the reservation is given back, the held slot is FREE
again, outstanding falls, the head stays, and the SQ breaks with FETCH_FAULT unless it is BROKEN already (R186, R189,
R213). The NOTIFY bit of the queue event is a free value (log 28). -/
def Obligations.FetchFaultBreaksTheQueue : Prop :=
  ∀ (tag : ReadTag) (f : InFlight) (q : SqNo) (j : SlotNo) (u : Upset) (s : State), s.tag tag = some f →
    f.read.live = true → f.read.requester = .fetch q →
    (∀ i, (s.job i).state = .fetched ∧ (s.job i).sq = q ↔ i = j) →
    let b := (s.sq q).boundCq
    let d := dropReads (.fetch q) f.read.part ((s.strike u).setTag tag none)
    let t := ((d.modCq b fun x => { x with reservations := x.reservations - 1 }).modJob j fun _ => {}).modSq q fun x =>
      { x with outstanding := x.outstanding - 1, fetchInFlight := false, fetchBuf := [] }
    let broken := joinPosting ⟨none, { event := true, sq := q, detail := .fetchFault, notify := Config.eventNotify }⟩
      ((t.modSq q fun x => { x with broken := true, eventUsed := true }).modCq b fun x =>
        { x with eventReserves := x.eventReserves - 1, reservations := x.reservations + 1 })
    let ended := if (s.sq q).broken then t else broken
    exec (.linkReadError tag f.stamp u) s = .next (quiesce ended)
    ∧ exec (.linkReadTimeout tag f.stamp u) s = .next (quiesce ended)

/-- The last answer of the configuration block's read: a block that fails a check leaves the engine OFF with the code of
the first failing check; one that passes them all makes the engine RUNNING, fills the descriptors and hands the zeroing
write of the progress block (R205 to R208). -/
def Obligations.ConfigurationBlockEndsSetup : Prop :=
  ∀ (tag : ReadTag) (f : InFlight) (data : List Byte) (u : Upset) (s : State),
    s.tag tag = some f → f.read.live = true → f.read.requester = .setup → data.length = f.read.len →
    readOutstanding .setup (s.setTag tag none) = false → s.hlu.engine = .setup →
    let freed := (s.strike u).setTag tag none
    let bs := readBytes (writeBytes s.hlu.setupBuf f.read.place data) 0 512
    (setupCheck bs ≠ .success →
      exec (.linkReadAnswer tag f.stamp data u) s = .next
        { freed with hlu := { freed.hlu with
            engine := .off, setupResult := setupCheck bs, latched := none, setupBuf := [] } })
    ∧ (setupCheck bs = .success → ∃ t,
      exec (.linkReadAnswer tag f.stamp data u) s = .next (quiesce t)
      ∧ (∀ q, t.sq q = sqDescriptor bs q) ∧ (∀ c, t.cq c = cqDescriptor bs c)
      ∧ t.qm.lastUrgent = none ∧ t.qm.lastNormal = none
      ∧ t.qm.progressBase = BitVec.ofNat 64 (progressField bs)
      ∧ t.hlu.engine = .running ∧ t.hlu.setupResult = .success ∧ t.hlu.latched = none ∧ t.hlu.setupBuf = []
      ∧ (s.hlu.writeQueue = [] → s.hlu.waiting = [] →
          t.hlu.writeQueue =
            [{ serial := s.hlu.writeSerial, writer := .linkUnit, owner := .progressBlock
               addr := BitVec.ofNat 64 (progressField bs), data := List.replicate 64 0, vector := none, issued := 0 }])
      ∧ t.jt = freed.jt ∧ t.sch = s.sch ∧ t.fus = s.fus ∧ t.ls = freed.ls ∧ t.cts = s.cts ∧ t.tu = s.tu)

/-- WRITE_ISSUE of part of the head of the write queue, and of all that remains of it while nothing waits for room: its
link writes stand on the link port in address order, and a write leaves with its last one (R214, R219; log 12). That an
empty write queue refuses the event as eventNotDue is the model's choice (log 13, DESIGN CHOICE). -/
def Obligations.WriteIssueTakesQueueHead : Prop :=
  ∀ (limit : Option Nat) (u : Upset) (s : State),
    (s.hlu.writeQueue = [] → exec (.writeIssue limit u) s = .refused .eventNotDue)
    ∧ ∀ e rest, s.hlu.writeQueue = e :: rest →
      let ops := e.linkOps.drop e.issued
      let s' := s.strike u
      (∀ n, limit = some n → n < ops.length →
        exec (.writeIssue limit u) s = .next
          { s' with hlu := { s'.hlu with
              writeQueue := { e with issued := e.issued + n } :: rest, out := ops.take n } })
      ∧ ((∀ n, limit = some n → ops.length ≤ n) → s.hlu.waiting = [] →
        exec (.writeIssue limit u) s = .next
          (quiesce { s' with hlu := { s'.hlu with writeQueue := rest, out := ops } }))

/-- A write that leaves a full queue admits exactly one waiting write, the first that its writer handed; a unit that
waited for it goes on (R214). Which writer is a free choice (log 5). -/
def Obligations.LeavingWriteAdmitsOneWaiter : Prop :=
  ∀ (u : Upset) (s : State) (e : HandedWrite) (rest : List HandedWrite), s.hlu.writeQueue = e :: rest →
    s.hlu.waiting ≠ [] →
    ∃ w before after n, s.hlu.waiting = before ++ w :: after ∧ (∀ x ∈ before, x.writer ≠ w.writer)
      ∧ let s' := s.strike u
        exec (.writeIssue none u) s = .next (quiesce (writeJoined (some w)
          { s' with
            hlu := { s'.hlu with
              writeQueue := rest ++ [w], waiting := before ++ after, out := e.linkOps.drop e.issued }
            choices := n }))

/-- WRITE_FAULT_REPORT of a completion or progress write: in RUNNING, PAUSING and PAUSED the engine becomes HALTED with
FAULT naming the write, nothing unissued is left to read or write, timers stop, units that wait on a read, on the pool
reads of a directive or for room in the write queue stop, and jobs, settle tracking, ready order, posting queue, stores and
totals are kept; in OFF, SETUP and HALTED it is ignored, and so is the report of a message in every state (R161, R200, R215,
R218, R219; log 16). A unit that waits for room completes its hand-off, and whether its job's counts rise then is a free
value (R28, R140, R161; log 27). -/
def Obligations.RefusedQueueWritesHaltTheEngine : Prop :=
  ∀ (c : CqNo) (q : SqNo) (u : Upset) (s : State),
    let live := s.hlu.engine = .running ∨ s.hlu.engine = .pausing ∨ s.hlu.engine = .paused
    let halts := fun (o : Owner) (r : FaultRecord) => ∃ t, exec (.writeFaultReport o u) s = .next t
      ∧ t.hlu.engine = .halted ∧ t.hlu.fault = r ∧ HaltQuiet t
      ∧ t.hlu.settle = s.hlu.settle ∧ t.hlu.protocol = s.hlu.protocol ∧ t.hlu.setupResult = s.hlu.setupResult
      ∧ t.jt = { (s.strike u).jt with slots := t.jt.slots } ∧ t.sch = s.sch ∧ t.qm.sqs = s.qm.sqs ∧ t.qm.posting = s.qm.posting
      ∧ (∀ i, t.cq i = { s.cq i with holdTimer := none })
      ∧ t.ls = (s.strike u).ls ∧ t.cts = s.cts ∧ t.tu = s.tu
      ∧ ∀ k, (∀ x, (s.fu k).ctx = some x →
            ((x.phase = .readWait ∨ x.phase = .directive ∨ ∃ n, x.phase = .writeWait n) →
              t.fu k = { s.fu k with state := .stopped, ctx := none, suspendRequested := false })
            ∧ (x.phase ≠ .readWait → x.phase ≠ .directive → (∀ n, x.phase ≠ .writeWait n) → t.fu k = s.fu k)
            ∧ ((∃ n, x.phase = .writeWait n) → x.slot ∉ (s.strike u).jt.badParity →
              (∀ i y n, i ≠ k → (s.fu i).ctx = some y → y.phase = .writeWait n → y.slot ≠ x.slot) →
              t.job x.slot =
                if Config.haltedCountsRise then
                  { s.job x.slot with
                    recordsDone := (s.job x.slot).recordsDone + (if x.kind = .format ∨ x.kind = .parse then 1 else 0)
                    bytesWritten := (s.job x.slot).bytesWritten + x.dstCursor }
                else s.job x.slot))
          ∧ ((s.fu k).ctx = none → t.fu k = s.fu k)
          ∧ ∀ j, (∀ i y n, (s.fu i).ctx = some y → y.phase = .writeWait n → y.slot ≠ j) → t.job j = s.job j
    (live → halts (.completion c) ⟨.completionWrite, .cq, c, 0⟩ ∧ halts (.progressHead q) ⟨.progressWrite, .sq, q, 0⟩
      ∧ halts (.progressTail c) ⟨.progressWrite, .cq, c, 0⟩ ∧ halts .progressBlock ⟨.progressWrite, .block, 0, 0⟩)
    ∧ (¬ live → ∀ o ∈ [Owner.completion c, .progressHead q, .progressTail c, .progressBlock],
        exec (.writeFaultReport o u) s = .next (s.strike u))
    ∧ exec (.writeFaultReport (.message c) u) s = .next (s.strike u)

/-- WRITE_FAULT_REPORT of a job's write: taken by the slot that holds the job of that take order, which keeps the refused
write that stands earlier in the job's destination; ignored in OFF and SETUP, for a FREE slot and for a later job, and a
slot read that fails its parity check is a fatal fault (R140, R215, R218). -/
def Obligations.RefusedJobWritesAreKeptEarliest : Prop :=
  ∀ (j : SlotNo) (order record offset : Nat) (u : Upset) (s : State),
    let report := exec (.writeFaultReport (.job j order record offset) u) s
    let s' := s.strike u
    (s.hlu.engine = .off ∨ s.hlu.engine = .setup ∨ (s.job j).state = .free → report = .next s')
    ∧ (s.hlu.engine ≠ .off → s.hlu.engine ≠ .setup → (s.job j).state ≠ .free →
      (j ∈ s'.jt.badParity →
        report = .next (if s.hlu.engine = .halted then s'
          else enterHalted { s' with hlu := { s.hlu with fault := { code := .slotParity, slot := j } } }))
      ∧ (j ∉ s'.jt.badParity →
        ((s.job j).state = .fetched ∨ (s.job j).takeOrder ≠ order → report = .next s')
        ∧ ((s.job j).state ≠ .fetched → (s.job j).takeOrder = order →
            report = .next (s'.modSettle j fun t => { t with refused := match t.refused with
              | none => some (record, offset)
              | some (r, o) => if record < r ∨ record = r ∧ offset < o then some (record, offset) else some (r, o) }))))

/-- HOLD_TIMER_EXPIRY: the timer stops and, with postings unsignalled, one message is asked for and the count becomes 0
(R198, R199). That the expiry of a stopped timer is refused as eventNotDue is the model's choice (log 13, DESIGN
CHOICE). -/
def Obligations.HoldTimerExpirySendsOneMessage : Prop :=
  ∀ (c : CqNo) (s : State),
    ((s.cq c).holdTimer = none → exec (.holdTimerExpiry c) s = .refused .eventNotDue)
    ∧ ((s.cq c).holdTimer ≠ none →
      ((s.cq c).unsignalled = 0 →
        exec (.holdTimerExpiry c) s = .next (s.modCq c fun x => { x with holdTimer := none }))
      ∧ (0 < (s.cq c).unsignalled →
        exec (.holdTimerExpiry c) s = .next
          (handWrite { writer := .queueManager, owner := .message c, vector := some (s.cq c).vector }
            (s.modCq c fun x => { x with holdTimer := none, unsignalled := 0 }))))

/-! ## Formatting units: boundaries, endings and hand-off -/

/-- At a directive boundary the unit applies the first row of R149 that holds: it stops for a halted engine, or ends the job
ABORTED, ENGINE_FAULT with DAMAGED, or SUCCESS at the final boundary, or goes on to the next directive. A slot read that
fails its parity check is a fatal fault instead (R140). -/
def Obligations.DirectiveBoundaryAppliesFirstRow : Prop :=
  ∀ (k : FuNo) (c : Context) (u : Upset) (s : State), (s.fu k).ctx = some c →
    c.phase = .boundary ∨ c.phase = .finalBoundary →
    let s' := s.strike u
    let stopped := fun t : State => t.modFu k fun x => { x with state := .stopped, ctx := none, suspendRequested := false }
    (s.hlu.engine = .halted → exec (.directiveBoundary k u) s = .next (stopped s'))
    ∧ (s.hlu.engine = .running ∨ s.hlu.engine = .pausing ∨ s.hlu.engine = .paused → c.slot ∈ s'.jt.badParity →
        exec (.directiveBoundary k u) s = .next (stopped (enterHalted
          { s' with hlu := { s.hlu with fault := { code := .slotParity, slot := c.slot } } })))
    ∧ (s.hlu.engine ≠ .halted → c.slot ∉ s'.jt.badParity →
      ((s.job c.slot).abortPending = true →
        exec (.directiveBoundary k u) s = .next (quiesce (releaseJob k .aborted .none none s')))
      ∧ ((s.job c.slot).abortPending = false →
        ((s.layout c.layout).damaged = true →
          exec (.directiveBoundary k u) s = .next (quiesce (releaseJob k .engineFault .damaged none s')))
        ∧ ((s.layout c.layout).damaged = false →
          (c.phase = .finalBoundary →
            exec (.directiveBoundary k u) s = .next (quiesce (releaseJob k .success .none none s')))
          ∧ (c.phase = .boundary → c.directiveIndex < c.image.directiveCount →
            exec (.directiveBoundary k u) s = .next
              (s'.withUnit k { c with phase := .directive } (s.fu k).stgWindow)))))

/-- After the last directive the terminator is staged; a record beyond the remaining capacity ends the job DEST_FULL with
nothing of it written, a record with a batch waits for the Totals Unit, and any other is handed for writing (R47 to
R49). -/
def Obligations.EndOfRecordMeasuresAndSubmits : Prop :=
  ∀ (k : FuNo) (c : Context) (u : Upset) (s : State), (s.fu k).ctx = some c → c.phase = .boundary →
    c.image.directiveCount ≤ c.directiveIndex → s.hlu.engine ≠ .halted → c.slot ∉ (s.strike u).jt.badParity →
    (s.job c.slot).abortPending = false → (s.layout c.layout).damaged = false →
    c.dstCursor + c.image.terminator.length ≤ 4096 →
    let len := c.dstCursor + c.image.terminator.length
    let ended := { c with dstCursor := len }
    let window := writeBytes (s.fu k).stgWindow c.dstCursor c.image.terminator
    let staged := (s.strike u).withUnit k ended window
    let room := c.req.dstCap - (s.job c.slot).bytesWritten
    (room < len → exec (.directiveBoundary k u) s = .next (quiesce (releaseJob k .destFull .none none staged)))
    ∧ (len ≤ room → c.batch ≠ [] →
        exec (.directiveBoundary k u) s = .next
          (quiesce ((s.strike u).withUnit k { ended with phase := .batchSubmitted } window)))
    ∧ (len ≤ room → c.batch = [] →
        exec (.directiveBoundary k u) s = .next (quiesce (handOutput k .onward staged)))

/-- A unit that ends its job becomes IDLE, a suspension request lapses, and the job leaves RUNNING with the status, detail
and COMPARE result given: its layout reference is released to the Layout Store, the reference count of its code table falls
by 1, its counts and fault state stand as they were, and with no parity error about it is POSTING if it handed no write and
DRAINING otherwise (R88, R102, R130, R136, R153, R156). The counts could change only where a slot's parity is bad and another
unit holds the same job, which R144 forbids. -/
def Obligations.ReleaseDecidesTheJobsStatus : Prop :=
  ∀ (k : FuNo) (c : Context) (st : Status) (d : Detail) (cmp : CompareEnd) (s : State), (s.fu k).ctx = some c →
    s.hlu.engine ≠ .halted → c.slot ∉ s.jt.badParity → (∀ l, (s.layout l).service ≠ some c.slot) →
    let x := s.job c.slot
    let t := releaseJob k st d cmp s
    let y := t.job c.slot
    let holdsLayout := x.refs = .layout ∨ x.refs = .both
    let holdsCodes := x.refs = .codes ∨ x.refs = .both
    t.fu k = { s.fu k with state := .idle, ctx := none, suspendRequested := false }
    ∧ y.status = some st ∧ y.detail = d ∧ y.refs = .none ∧ y.endedAborted = (st == .aborted)
    ∧ y.compareOffset = (cmp.map Prod.fst).getD 0 ∧ y.compareResult = (cmp.map Prod.snd).getD .absent
    ∧ (s.jt.badParity = [] ∨ (∀ i y, i ≠ k → (s.fu i).ctx = some y → y.slot ≠ c.slot) →
        y.recordsDone = x.recordsDone ∧ y.bytesWritten = x.bytesWritten)
    ∧ y.faults = x.faults ∧ y.anyFault = x.anyFault ∧ y.first = x.first
    ∧ (∀ l v, holdsLayout → x.boundLayout = some (l, v) → t.ls = (releaseLayout l s).ls)
    ∧ ((¬ holdsLayout ∨ x.boundLayout = none) → t.ls = s.ls)
    ∧ (∀ i, holdsCodes → x.boundCodes = some i → t.table i = { s.table i with refCount := (s.table i).refCount - 1 })
    ∧ (∀ i, (¬ holdsCodes ∨ x.boundCodes ≠ some i) → t.table i = s.table i)
    ∧ t.tu = s.tu ∧ t.cts.queue = s.cts.queue ∧ t.sch = s.sch
    ∧ (s.jt.badParity = [] →
        y.state = (if (s.settle c.slot).handed then .draining else .posting)
        ∧ t.hlu = s.hlu ∧ ∀ i, i ≠ k → t.fu i = s.fu i)

/-- Handing the last record of a FORMAT or PARSE with room in the write queue: one write of the whole staged record at the
job's bytes written, or none for a record of length 0; records done rises by 1 and bytes written by the record length, and
the unit stands at the final boundary (R27, R47, R50, R51, R214). -/
def Obligations.HandOffWritesOneWholeRecord : Prop :=
  ∀ (k : FuNo) (c : Context) (s : State), (s.fu k).ctx = some c → c.kind = .format ∨ c.kind = .parse →
    c.req.recordCount ≤ c.recordIndex + 1 → s.hlu.engine ≠ .halted → c.slot ∉ s.jt.badParity →
    s.hlu.writeQueue.length < 64 → s.hlu.waiting = [] →
    let x := s.job c.slot
    let t := handOutput k .onward s
    t.job c.slot = { x with recordsDone := x.recordsDone + 1, bytesWritten := x.bytesWritten + c.dstCursor }
    ∧ (∀ j, j ≠ c.slot → t.job j = s.job j)
    ∧ t.fu k = { s.fu k with ctx := some { c with phase := .finalBoundary } } ∧ (∀ i, i ≠ k → t.fu i = s.fu i)
    ∧ (c.dstCursor = 0 → t.hlu = s.hlu)
    ∧ (0 < c.dstCursor →
      t.hlu.writeQueue = s.hlu.writeQueue ++
        [{ serial := s.hlu.writeSerial, writer := .unit k
           owner := .job c.slot x.takeOrder c.recordIndex x.bytesWritten
           addr := hostAddr c.req.dstAddr x.bytesWritten
           data := readBytes (s.fu k).stgWindow 0 c.dstCursor, vector := none, issued := 0 }]
      ∧ (t.settle c.slot).handed = true ∧ (t.settle c.slot).lastWrite = some s.hlu.writeSerial)
    ∧ t.sch = s.sch ∧ t.qm = s.qm ∧ t.ls = s.ls ∧ t.cts = s.cts ∧ t.tu = s.tu

/-- At the boundary before another record the unit stops for a halted engine; it gives up its job, which joins the ready
order as SUSPENDED at that record, for a suspension request or a PAUSING engine; and otherwise it asks for the next source
record at the source address plus the record index times the source record length (R27, R29, R150, R157). -/
def Obligations.RecordBoundarySuspendsOrReadsOn : Prop :=
  ∀ (k : FuNo) (c : Context) (s : State), (s.fu k).ctx = some c →
    let t := recordBoundary k s
    (s.hlu.engine = .halted →
      t = s.modFu k fun x => { x with state := .stopped, ctx := none, suspendRequested := false })
    ∧ (s.hlu.engine ≠ .halted → ((s.fu k).suspendRequested = true ∨ s.hlu.engine = .pausing) →
      c.slot ∉ s.jt.badParity → (s.job c.slot).abortPending = false →
      t.fu k = { s.fu k with state := .idle, ctx := none, suspendRequested := false }
      ∧ t.job c.slot = { s.job c.slot with state := .suspended, suspension := some c.recordIndex }
      ∧ t.sch.ready = insertReady ⟨c.slot, (s.job c.slot).cls, (s.job c.slot).takeOrder, true⟩ s.sch.ready
      ∧ t.hlu = s.hlu)
    ∧ (s.hlu.engine ≠ .halted → (s.fu k).suspendRequested = false → s.hlu.engine ≠ .pausing →
      t.fu k = { s.fu k with ctx := some { c with phase := .readWait } }
      ∧ t.hlu.readQueue = s.hlu.readQueue ++
          linkReads (.unit k) 0 (hostAddr c.req.srcAddr (c.recordIndex * c.image.srcLen)) c.image.srcLen 0
      ∧ t.jt = s.jt ∧ t.sch = s.sch)

/-! ## Directives -/

/-- COPY with operand n takes the n source bytes at the source cursor through the bound code table, stages them, and raises
both cursors by n; it raises no fault and changes nothing else (R36). -/
def Obligations.CopyStagesTranslatedBytes : Prop :=
  ∀ (k : FuNo) (c : Context) (n : Nat) (u : Upset) (s : State), DirectiveDue (s.strike u) k c (.copy n) →
    c.srcCursor + n ≤ 4096 → c.dstCursor + n ≤ 4096 →
    let out := (readBytes (s.fu k).srcWindow c.srcCursor n).map fun b => ((s.table c.table).entry b).target
    exec (.copy k u) s = .next ((s.strike u).withUnit k
      (Context.advance { c with srcCursor := c.srcCursor + n, dstCursor := c.dstCursor + n, phase := .boundary })
      (writeBytes (s.fu k).stgWindow c.dstCursor out))

/-- SKIP raises the source cursor by n; FILL stages n copies of its byte; PAD_TO stages copies of its byte up to its column,
and nothing when the cursor has reached it. None examines a source byte, raises a fault or changes anything else (R38,
R40, R41). -/
def Obligations.SkipFillAndPadToExamineNoByte : Prop :=
  ∀ (k : FuNo) (c : Context) (b : Byte) (n : Nat) (u : Upset) (s : State), c.srcCursor ≤ 4096 → c.dstCursor ≤ 4096 →
    (DirectiveDue (s.strike u) k c (.skip n) → c.srcCursor + n ≤ 4096 →
      exec (.skip k u) s = .next ((s.strike u).withUnit k
        (Context.advance { c with srcCursor := c.srcCursor + n, phase := .boundary }) (s.fu k).stgWindow))
    ∧ (DirectiveDue (s.strike u) k c (.fill b n) → c.dstCursor + n ≤ 4096 →
      exec (.fill k u) s = .next ((s.strike u).withUnit k
        (Context.advance { c with dstCursor := c.dstCursor + n, phase := .boundary })
        (writeBytes (s.fu k).stgWindow c.dstCursor (List.replicate n b))))
    ∧ (DirectiveDue (s.strike u) k c (.padTo b n) → n ≤ 4096 →
      (c.dstCursor < n → exec (.padTo k u) s = .next ((s.strike u).withUnit k
        (Context.advance { c with dstCursor := n, phase := .boundary })
        (writeBytes (s.fu k).stgWindow c.dstCursor (List.replicate (n - c.dstCursor) b))))
      ∧ (n ≤ c.dstCursor → exec (.padTo k u) s = .next ((s.strike u).withUnit k
        (Context.advance { c with phase := .boundary }) (s.fu k).stgWindow)))

/-- COPY_UNTIL with operand n: up to the first byte of class DELIM the target bytes are staged, and the delimiter is consumed
but not staged; with none among the n bytes all are staged, and DELIM is raised, reported, and ends the job if it is in the
stop mask (R37, R52). -/
def Obligations.CopyUntilStopsAtTheDelimiter : Prop :=
  ∀ (k : FuNo) (c : Context) (n : Nat) (u : Upset) (s : State), DirectiveDue (s.strike u) k c (.copyUntil n) →
    c.srcCursor + n ≤ 4096 → c.dstCursor + n ≤ 4096 →
    let entry := (s.table c.table).entry
    let src := readBytes (s.fu k).srcWindow c.srcCursor n
    let staged := fun m : Nat => writeBytes (s.fu k).stgWindow c.dstCursor ((src.take m).map fun b => (entry b).target)
    (∀ m b, src[m]? = some b → (entry b).has .delim = true →
      (∀ i a, i < m → src[i]? = some a → (entry a).has .delim = false) →
      exec (.copyUntil k u) s = .next ((s.strike u).withUnit k
        (Context.advance
          { c with srcCursor := c.srcCursor + (m + 1), dstCursor := c.dstCursor + m, phase := .boundary })
        (staged m)))
    ∧ ((∀ a ∈ src, (entry a).has .delim = false) → s.hlu.engine ≠ .halted → c.slot ∉ (s.strike u).jt.badParity →
      let t := ((s.strike u).withUnit k
        (Context.advance { c with srcCursor := c.srcCursor + n, dstCursor := c.dstCursor + n, phase := .boundary })
        (staged n)).modJob c.slot fun x => x.report .delim c.recordIndex c.directiveIndex
      (faultSet c.req.stopMask .delim = false → exec (.copyUntil k u) s = .next t)
      ∧ (faultSet c.req.stopMask .delim = true →
          exec (.copyUntil k u) s = .next (quiesce (releaseJob k .fieldStop (.field .delim) none t))))

/-- LITERAL stages its literal bytes when its condition is met by the last-value state, and nothing when it is not; it
leaves the source alone and raises no fault (R32, R39). -/
def Obligations.LiteralStagesWhenItsConditionIsMet : Prop :=
  ∀ (k : FuNo) (c : Context) (cond : LitCondition) (off len at0 : Nat) (u : Upset) (s : State),
    DirectiveDue (s.strike u) k c (.literal cond off len) → c.srcCursor ≤ 4096 → c.dstCursor + len ≤ 4096 →
    c.image.literalStart = some at0 → at0 + off + len ≤ 32768 →
    let met := cond = .always ∨ cond = .ifNegative ∧ c.lastState = .negative ∨ cond = .ifZero ∧ c.lastState = .zero
      ∨ cond = .ifNotNegative ∧ (c.lastState = .zero ∨ c.lastState = .positive)
    (¬ met → exec (.literal k u) s = .next ((s.strike u).withUnit k
        (Context.advance { c with phase := .boundary }) (s.fu k).stgWindow))
    ∧ (met → (∀ a ∈ (s.strike u).ls.litBad, a < at0 + off ∨ at0 + off + len ≤ a) →
      exec (.literal k u) s = .next ((s.strike u).withUnit k
        (Context.advance { c with dstCursor := c.dstCursor + len, phase := .boundary })
        (writeBytes (s.fu k).stgWindow c.dstCursor (readBytes s.ls.litPool (at0 + off) len))))

/-- CHECK with operand n moves no cursor and stages nothing; when every byte shares a class with the directive's class set it
has no effect, and otherwise one CLASS fault is raised, reported, and ends the job if it is in the stop mask (R42,
R52). -/
def Obligations.CheckRaisesOneClassFault : Prop :=
  ∀ (k : FuNo) (c : Context) (classes : Byte) (n : Nat) (u : Upset) (s : State),
    DirectiveDue (s.strike u) k c (.check classes n) → c.srcCursor + n ≤ 4096 → c.dstCursor ≤ 4096 →
    let src := readBytes (s.fu k).srcWindow c.srcCursor n
    let passes := fun b : Byte => ((s.table c.table).entry b).classes &&& classes ≠ 0
    let t := (s.strike u).withUnit k (Context.advance { c with phase := .boundary }) (s.fu k).stgWindow
    let faulted := t.modJob c.slot fun x => x.report .cls c.recordIndex c.directiveIndex
    ((∀ b ∈ src, passes b) → exec (.check k u) s = .next t)
    ∧ ((∃ b ∈ src, ¬ passes b) → s.hlu.engine ≠ .halted → c.slot ∉ (s.strike u).jt.badParity →
      (faultSet c.req.stopMask .cls = false → exec (.check k u) s = .next faulted)
      ∧ (faultSet c.req.stopMask .cls = true →
          exec (.check k u) s = .next (quiesce (releaseJob k .fieldStop (.field .cls) none faulted))))

/-- NUMBER always raises the source cursor by its source size and stages exactly its output size: the converted bytes, with
the last value and its sign class, or fault fill bytes, with the state NONE, after a value kind. Its faults are reported in
raise order, and the first of them in the stop mask ends the job (R43, R44, R107, R109). -/
def Obligations.NumberConvertsOneField : Prop :=
  ∀ (k : FuNo) (c : Context) (off at0 : Nat) (p : Picture) (u : Upset) (s : State),
    DirectiveDue (s.strike u) k c (.number off) →
    c.image.literalStart = some at0 → at0 + off + 24 ≤ 32768 → (s.strike u).ls.litBad = [] →
    Picture.parse (readBytes s.ls.litPool (at0 + off) 24) = some p →
    let dir := c.image.direction
    let r := convert dir p (s.table c.table).entry (fun o => readByte s.ls.litPool (at0 + o))
      (readBytes (s.fu k).srcWindow c.srcCursor (p.sourceSize dir))
    let out := match r.result with
      | some (_, bs) => bs
      | none => List.replicate (p.outputSize dir) c.image.faultFill
    (∀ o, r.marker = some o → at0 + o + 2 ≤ 32768) →
    c.srcCursor + p.sourceSize dir ≤ 4096 → c.dstCursor + p.outputSize dir ≤ 4096 →
    let t := (s.strike u).withUnit k
      (Context.advance { c with
        srcCursor := c.srcCursor + p.sourceSize dir, dstCursor := c.dstCursor + p.outputSize dir
        lastState := match r.result with
          | some (v, _) => if v < 0 then .negative else if v = 0 then .zero else .positive
          | none => .none
        lastValue := r.result.map Prod.fst, phase := .boundary })
      (writeBytes (s.fu k).stgWindow c.dstCursor out)
    (r.faults = [] → exec (.number k u) s = .next t)
    ∧ (r.faults ≠ [] → s.hlu.engine ≠ .halted → c.slot ∉ (s.strike u).jt.badParity →
      let faulted := t.modJob c.slot fun x =>
        r.faults.foldl (fun y f => y.report f c.recordIndex c.directiveIndex) x
      (∀ f, r.faults.find? (faultSet c.req.stopMask) = some f →
        exec (.number k u) s = .next (quiesce (releaseJob k .fieldStop (.field f) none faulted)))
      ∧ (r.faults.find? (faultSet c.req.stopMask) = none → exec (.number k u) s = .next faulted))

/-- ADD_TOTAL adds the last value to its accumulator's pair in the pending batch, or puts a new pair at its end; with the
last-value state NONE it has no effect. It moves no cursor and raises no fault (R45). -/
def Obligations.AddTotalExtendsTheBatch : Prop :=
  ∀ (k : FuNo) (c : Context) (acc : AccNo) (u : Upset) (s : State), DirectiveDue (s.strike u) k c (.addTotal acc) →
    c.srcCursor ≤ 4096 → c.dstCursor ≤ 4096 →
    (c.lastState = .none → exec (.addTotal k u) s = .next ((s.strike u).withUnit k
        (Context.advance { c with phase := .boundary }) (s.fu k).stgWindow))
    ∧ (∀ v, c.lastState ≠ .none → c.lastValue = some v → ∃ batch,
        exec (.addTotal k u) s = .next ((s.strike u).withUnit k
          (Context.advance { c with batch := batch, phase := .boundary }) (s.fu k).stgWindow)
        ∧ batch.map Prod.fst =
            (if acc ∈ c.batch.map Prod.fst then c.batch.map Prod.fst else c.batch.map Prod.fst ++ [acc])
        ∧ batch.lookup acc = some ((c.batch.lookup acc).getD 0 + v)
        ∧ ∀ a, a ≠ acc → batch.lookup a = c.batch.lookup a)

/-- REPEAT sets the repeat state to its group with its count and goes on to the group's first directive; from there the
directives r + 1 to r + s complete in order c times, the repeat state is then absent, and the next is r + s + 1
(R46). -/
def Obligations.RepeatRunsItsGroupCountTimes : Prop :=
  ∀ (k : FuNo) (c : Context) (count span : Nat) (u : Upset) (s : State),
    DirectiveDue (s.strike u) k c (.repeatGroup count span) → c.srcCursor ≤ 4096 → c.dstCursor ≤ 4096 →
    let r := c.directiveIndex
    let start := { c with
      directiveIndex := r + 1, rep := some ⟨r + 1, r + span, count⟩, phase := .boundary }
    exec (.repeatGroup k u) s = .next ((s.strike u).withUnit k start (s.fu k).stgWindow)
    ∧ (∀ i, i < count * span → (Context.advance^[i] start).directiveIndex = r + 1 + i % span
        ∧ (Context.advance^[i] start).rep = some ⟨r + 1, r + span, count - i / span⟩)
    ∧ Context.advance^[count * span] start = { start with directiveIndex := r + span + 1, rep := none }

/-- A directive whose pool location fails its parity check, a LITERAL whose condition is met and whose literal bytes fail it,
and a NUMBER whose picture record or pair marker fails it end the job ENGINE_FAULT with PARITY and mark the layout slot
damaged, READY becoming DAMAGED; no directive has its effect (R22, R32). -/
def Obligations.ParityErrorEndsTheJob : Prop :=
  ∀ (k : FuNo) (c : Context) (u : Upset) (s : State), (s.fu k).ctx = some c → c.phase = .directive →
    c.location < 8192 → s.hlu.engine ≠ .halted →
    let marked := (s.strike u).modLayout c.layout fun x =>
      { x with damaged := true, state := if x.state = .ready then .damaged else x.state }
    let ended := Host.Outcome.next (quiesce (releaseJob k .engineFault .parity none marked))
    (c.location ∈ (s.strike u).ls.dirBad →
      (∀ n, directiveAt s c.location = some (.copy n) → exec (.copy k u) s = ended)
      ∧ (∀ n, directiveAt s c.location = some (.copyUntil n) → exec (.copyUntil k u) s = ended)
      ∧ (∀ n, directiveAt s c.location = some (.skip n) → exec (.skip k u) s = ended)
      ∧ (∀ cond off len, directiveAt s c.location = some (.literal cond off len) → exec (.literal k u) s = ended)
      ∧ (∀ b n, directiveAt s c.location = some (.fill b n) → exec (.fill k u) s = ended)
      ∧ (∀ b n, directiveAt s c.location = some (.padTo b n) → exec (.padTo k u) s = ended)
      ∧ (∀ b n, directiveAt s c.location = some (.check b n) → exec (.check k u) s = ended)
      ∧ (∀ off, directiveAt s c.location = some (.number off) → exec (.number k u) s = ended)
      ∧ (∀ a, directiveAt s c.location = some (.addTotal a) → exec (.addTotal k u) s = ended)
      ∧ (∀ n m, directiveAt s c.location = some (.repeatGroup n m) → exec (.repeatGroup k u) s = ended))
    ∧ ∀ at0, c.image.literalStart = some at0 →
      let bad := fun off n => ∃ a ∈ (s.strike u).ls.litBad, at0 + off ≤ a ∧ a < at0 + off + n
      let met := fun cond => cond = LitCondition.always ∨ cond = .ifNegative ∧ c.lastState = .negative
        ∨ cond = .ifZero ∧ c.lastState = .zero
        ∨ cond = .ifNotNegative ∧ (c.lastState = .zero ∨ c.lastState = .positive)
      (∀ cond off len, directiveAt s c.location = some (.literal cond off len) → met cond →
        at0 + off + len ≤ 32768 → bad off len → exec (.literal k u) s = ended)
      ∧ ∀ off, directiveAt s c.location = some (.number off) → at0 + off + 24 ≤ 32768 →
        (bad off 24 → exec (.number k u) s = ended)
        ∧ ∀ p o, Picture.parse (readBytes s.ls.litPool (at0 + off) 24) = some p →
          (convert c.image.direction p (s.table c.table).entry (fun i => readByte s.ls.litPool (at0 + i))
            (readBytes (s.fu k).srcWindow c.srcCursor (p.sourceSize c.image.direction))).marker = some o →
          at0 + o + 2 ≤ 32768 → bad o 2 → exec (.number k u) s = ended

/-! ## Totals -/

/-- RECORD_BATCH: if every sum of an accumulator and its pair has magnitude at most 10^31 − 1, every named accumulator takes
its sum and its add count rises by 1, staying at 4294967295; otherwise no accumulator changes. Accumulators not named and
other groups never change, and the unit is answered (R163, R165, R166). -/
def Obligations.RecordBatchAppliesWholeOrNot : Prop :=
  ∀ (k : FuNo) (c : Context) (g : GroupNo) (s : State), (s.fu k).ctx = some c → c.phase = .batchSubmitted →
    c.req.group? = some g → (c.batch.map Prod.fst).Nodup →
    let fits := ∀ p ∈ c.batch, ((s.group g)[p.1].value + p.2).natAbs ≤ 10 ^ 31 - 1
    ∃ t, exec (.recordBatch k) s = .next t
      ∧ (fits → (∀ a v, (a, v) ∈ c.batch →
            (t.group g)[a] = ⟨(s.group g)[a].value + v, min ((s.group g)[a].count + 1) 4294967295⟩)
          ∧ (∀ a, a ∉ c.batch.map Prod.fst → (t.group g)[a] = (s.group g)[a])
          ∧ t.fu k = { s.fu k with ctx := some { c with phase := .batchAnswered true } })
      ∧ (¬ fits → t.group g = s.group g
          ∧ t.fu k = { s.fu k with ctx := some { c with phase := .batchAnswered false } })
      ∧ (∀ h, h ≠ g → t.group h = s.group h) ∧ (∀ i, i ≠ k → t.fu i = s.fu i)
      ∧ t.hlu = s.hlu ∧ t.qm = s.qm ∧ t.jt = s.jt ∧ t.sch = s.sch ∧ t.ls = s.ls ∧ t.cts = s.cts

/-- BATCH_ANSWER: an applied batch lets the record be handed for writing; a refused one raises TOTAL for the record, reported
with the directive count as directive index, and ends the job FIELD_STOP if TOTAL is in the stop mask, else the record is
handed all the same (R49, R103, R111). In HALTED nothing is reported and the unit stops (log 16). -/
def Obligations.BatchAnswerWritesOrStops : Prop :=
  ∀ (k : FuNo) (c : Context) (u : Upset) (s : State), (s.fu k).ctx = some c →
    let s' := s.strike u
    (c.phase = .batchAnswered true → exec (.batchAnswer k u) s = .next (quiesce (handOutput k .onward s')))
    ∧ (c.phase = .batchAnswered false → s.hlu.engine ≠ .halted → c.slot ∉ s'.jt.badParity →
      let t := s'.modJob c.slot fun x => x.report .total c.recordIndex c.image.directiveCount
      (faultSet c.req.stopMask .total = true →
        exec (.batchAnswer k u) s = .next (quiesce (releaseJob k .fieldStop (.field .total) none t)))
      ∧ (faultSet c.req.stopMask .total = false →
        exec (.batchAnswer k u) s = .next (quiesce (handOutput k .onward t))))
    ∧ (c.phase = .batchAnswered false → s.hlu.engine = .halted → faultSet c.req.stopMask .total = true →
        exec (.batchAnswer k u) s = .next
          (s'.modFu k fun x => { x with state := .stopped, ctx := none, suspendRequested := false }))

/-! ## Numeric fields -/

/-- A NUMBER conversion either gives a result, with exactly its output size of bytes to stage, a value of at most I + F digits
and no fault but TRUNC, or raises exactly one value kind, with a TRUNC before it or not, and gives none (R43, R57 to R59,
R74). -/
def Obligations.ConversionsGiveOneFieldOrOneValueFault : Prop :=
  ∀ (dir : Direction) (p : Picture) (look : Lookup) (lit : Nat → Byte) (bs : List Byte),
    (∀ b d, (look b).digit = some d → d ≤ 9) →
    let r := convert dir p look lit bs
    (∀ v out, r.result = some (v, out) → out.length = p.outputSize dir ∧ v.natAbs < 10 ^ (p.intDigits + p.fracDigits)
      ∧ (r.faults = [] ∨ r.faults = [.trunc]))
    ∧ (r.result = none → ∃ f : FieldFault, (f = .digit ∨ f = .sign ∨ f = .size ∨ f = .unsigned)
      ∧ (r.faults = [f] ∨ r.faults = [.trunc, f]))

/-- What a PACKED or BINARY destination holds reads back as the value encoded: a packed field of n bytes for every magnitude
of at most 2n − 1 digits, a binary field of n bytes for every value inside its range, in either byte order (R61, R64,
R82, R84). -/
def Obligations.PackedAndBinaryFieldsReadBack : Prop :=
  ∀ (signed big : Bool) (n : Nat) (v : Value), 1 ≤ n → (v.neg = true → v.mag ≠ 0 ∧ signed = true) →
    (v.mag < 10 ^ (2 * n - 1) →
      (encodePacked signed n v).length = n ∧ decodePacked signed (encodePacked signed n v) = .ok v)
    ∧ (∀ out, encodeBinary signed big n v = some out → out.length = n ∧ decodeBinary signed big out = v)
    ∧ (encodeBinary signed big n v = none ↔
        if signed then v.toInt < -(2 ^ (8 * n - 1) : Int) ∨ (2 ^ (8 * n - 1) : Int) ≤ v.toInt
        else (2 ^ (8 * n) : Int) ≤ v.toInt)

/-! ## Field faults -/

/-- A fault report sets its kind's flag and ANY and clears none; it fills the first-fault record only when that is absent, so
the record names the earliest fault, TRUNC before the value kind of one NUMBER, and its presence stays with the ANY flag.
Both are absent and clear in a slot held for a take (R104, R105). -/
def Obligations.FaultReportsKeepTheFirstFault : Prop :=
  (∀ (x : Job) (f : FieldFault) (record directive : Nat),
    let y := x.report f record directive
    y = { x with faults := y.faults, anyFault := true, first := y.first }
    ∧ faultSet y.faults f = true ∧ (∀ g, g ≠ f → faultSet y.faults g = faultSet x.faults g)
    ∧ (x.first = none → y.first = some ⟨record, directive, f⟩) ∧ (x.first ≠ none → y.first = x.first)
    ∧ y.first.isSome = y.anyFault
    ∧ (x.first = none → (x.reports [.trunc, f] record directive).first = some ⟨record, directive, .trunc⟩))
  ∧ ∀ (j : SlotNo) (q : SqNo) (s : State),
    let y := (holdSlot j q s).job j
    y.first = none ∧ y.anyFault = false ∧ ∀ f, faultSet y.faults f = false

/-! ## The Job Table -/

/-- The take step stores the request with its SQ's class and the next take order. A tag that another job of the SQ carries
decides DUPLICATE_TAG and is not carried; otherwise the first failing field check decides BAD_REQUEST. The chain step then
places the job: it takes the open member as its predecessor and waits for it, or is decided CHAIN_BROKEN behind a broken
chain unless its status is decided already; with CHAIN it becomes the open member or leaves the chain broken, and without
it the chain is closed (R118 to R120, R123). -/
def Obligations.TakeStepDecidesAndPlacesTheJob : Prop :=
  (∀ (j : SlotNo) (r : Request) (s : State), (s.job j).status = none →
    let q := (s.job j).sq
    let taken := ∃ k, k ≠ j ∧ (s.job k).state ≠ .free ∧ (s.job k).sq = q ∧ (s.job k).tagCarried = true
      ∧ (s.job k).req.tag = r.tag
    let t := storeRequest j r s
    let y := t.job j
    y.req = r ∧ y.cls = (s.sq q).cls ∧ y.takeOrder = s.jt.nextTake ∧ t.jt.nextTake = s.jt.nextTake + 1
    ∧ (taken → y.status = some .duplicateTag ∧ y.detail = .none ∧ y.tagCarried = false)
    ∧ (¬ taken → y.tagCarried = true
      ∧ (∀ d, r.fieldFault = some d → y.status = some .badRequest ∧ y.detail = d)
      ∧ (r.fieldFault = none → y.status = none))
    ∧ (∀ k, k ≠ j → t.job k = s.job k) ∧ t.hlu = s.hlu ∧ t.qm = s.qm)
  ∧ ∀ (j : SlotNo) (s : State),
    let x := s.job j
    let t := chainStep j s
    let y := t.job j
    (s.chain x.sq = .none → y = x ∧ t.chain x.sq = if x.req.chain then .isOpen j else .none)
    ∧ (∀ p, s.chain x.sq = .isOpen p →
        y = { x with pred := some p } ∧ t.chain x.sq = (if x.req.chain then .isOpen j else .none)
        ∧ ((leaveTake j t).job j).state = .waitChain)
    ∧ (s.chain x.sq = .brokenPending →
        t.chain x.sq = (if x.req.chain then .brokenPending else .none)
        ∧ (x.status = none → y = { x with status := some .chainBroken, detail := .none })
        ∧ (x.status ≠ none → y = x))
    ∧ (∀ q, q ≠ x.sq → t.chain q = s.chain q) ∧ (∀ k, k ≠ j → t.job k = s.job k)

/-! ## Submission and completion queues -/

/-- The fetch arbiter chooses a candidate whenever there is one: never a NORMAL one while an URGENT SQ is a candidate, and
within the class the first after its last granted SQ. The grant sets aside a free completion entry, holds the slot for
the fetch and asks for the 64 bytes of the entry at the head, which it does not move (R182 to R184). -/
def Obligations.ArbiterGrantsUrgentFirstWithinCredit : Prop :=
  ∀ (s : State) (q : SqNo) (j : SlotNo),
    (arbiterChoice s = none ↔ ∀ p, candidate s p = false)
    ∧ (arbiterChoice s = some q →
      candidate s q = true
      ∧ ((s.sq q).cls = .normal → ∀ p, (s.sq p).cls = .urgent → candidate s p = false)
      ∧ (∀ p, (s.sq p).cls = (s.sq q).cls → candidate s p = true →
          match (if (s.sq q).cls = .urgent then s.qm.lastUrgent else s.qm.lastNormal) with
          | none => q ≤ p
          | some l => q - (l + 1) ≤ p - (l + 1))
      ∧ let x := s.sq q
        let t := grantTake q j s
        t.sq q = { x with outstanding := x.outstanding + 1, fetchInFlight := true }
        ∧ t.cq x.boundCq = { s.cq x.boundCq with reservations := (s.cq x.boundCq).reservations + 1 }
        ∧ (t.cq x.boundCq).committed ≤ (t.cq x.boundCq).size
        ∧ t.job j = { state := .fetched, sq := q }
        ∧ t.hlu.readQueue = s.hlu.readQueue ++
            linkReads (.fetch q) 0 (hostAddr x.base (64 * (x.head % x.size))) 64 0)

/-- Posting the head of the posting queue, with room in the write queue: the 32-byte record is handed at the entry of the
CQ tail before the tail's progress field, one reservation becomes a posted entry, and the tail advances by one (R176,
R192, R193, R224; log 15). -/
def Obligations.PostingHandsTheRecordBeforeItsTail : Prop :=
  ∀ (e : PostEntry) (s : State), s.hlu.engine ≠ .halted → s.hlu.writeQueue.length < 63 → s.hlu.waiting = [] →
    let q := s.sq e.record.sq
    let x := s.cq q.boundCq
    let tail := (x.tail + 1) % (2 * x.size)
    let n := s.hlu.writeSerial
    let t := beginPosting e s
    t.hlu.writeQueue = s.hlu.writeQueue ++
      [{ serial := n, writer := .queueManager, owner := .completion q.boundCq
         addr := hostAddr x.base (32 * (x.tail % x.size)), data := e.record.encode q.head, vector := none, issued := 0 },
       { serial := n + 1, writer := .queueManager, owner := .progressTail q.boundCq
         addr := hostAddr s.qm.progressBase (0x20 + 4 * q.boundCq.val), data := leBytes 4 tail, vector := none
         issued := 0 }]
    ∧ (e.record.encode q.head).length = 32
    ∧ t.cq q.boundCq =
        { x with reservations := x.reservations - 1, postedUnretired := x.postedUnretired + 1, tail := tail }
    ∧ (∀ c, c ≠ q.boundCq → t.cq c = s.cq c) ∧ (∀ i, t.sq i = s.sq i)
    ∧ t.qm.posting = s.qm.posting ∧ t.qm.inPosting = some (n, n + 1)
    ∧ t.jt = s.jt ∧ t.sch = s.sch ∧ t.fus = s.fus ∧ t.ls = s.ls ∧ t.cts = s.cts ∧ t.tu = s.tu

/-- Coalescing of a posting: a CQ without interrupts keeps nothing; with them the unsignalled count rises by 1 and may start
the hold timer, and at the threshold, for NOTIFY or for a queue event one message is asked for, the count becomes 0 and
the timer stops (R196 to R198). -/
def Obligations.CoalescingCountsOrSendsOneMessage : Prop :=
  ∀ (c : CqNo) (r : CompletionRecord) (s : State), s.hlu.engine ≠ .halted →
    let x := s.cq c
    let t := coalesce c r s
    let due := x.threshold ≤ x.unsignalled + 1 ∨ r.notify = true ∨ r.event = true
    (x.interruptEnable = false → t = s)
    ∧ (x.interruptEnable = true → ¬ due →
        t = s.modCq c fun y => { y with
          unsignalled := x.unsignalled + 1
          holdTimer := if x.unsignalled = 0 ∧ x.holdTime ≠ 0 then some (4 * x.holdTime) else x.holdTimer })
    ∧ (x.interruptEnable = true → due →
        t.cq c = { x with unsignalled := 0, holdTimer := none }
        ∧ (s.hlu.writeQueue.length < 64 → s.hlu.waiting = [] →
          t.hlu.writeQueue = s.hlu.writeQueue ++
            [{ serial := s.hlu.writeSerial, writer := .queueManager, owner := .message c, addr := 0, data := []
               vector := some x.vector, issued := 0 }]))

/-! ## The Scheduler -/

/-- A dispatch takes place exactly while the engine is RUNNING, a unit is IDLE and the ready order is not empty. It gives the
head of the ready order to the lowest-numbered IDLE unit with the next dispatch stamp, and a FORMAT or PARSE whose layout
is undamaged begins the source read of the record held in its suspension, or of record 0 (R145, R147, R148). -/
def Obligations.DispatchGivesHeadToLowestIdleUnit : Prop :=
  ∀ s : State,
    (dispatchRule s ≠ none ↔ s.hlu.engine = .running ∧ (∃ k, (s.fu k).state = .idle) ∧ s.sch.ready ≠ [])
    ∧ ∀ (k : FuNo) (e : ReadyEntry) (rest : List ReadyEntry), s.hlu.engine = .running → s.sch.ready = e :: rest →
      (s.fu k).state = .idle → (∀ i, i < k → (s.fu i).state ≠ .idle) → e.slot ∉ s.jt.badParity →
      let x := s.job e.slot
      let l := (x.boundLayout.map Prod.fst).getD 0
      let at0 := x.suspension.getD 0
      (x.req.kind = some .format ∨ x.req.kind = some .parse) → (s.layout l).damaged = false →
      ∃ t c, dispatchRule s = some t
        ∧ t.sch = { ready := rest, nextStamp := s.sch.nextStamp + 1 }
        ∧ t.job e.slot = { x with state := .running, suspension := none }
        ∧ t.fu k = { s.fu k with state := .busy, ctx := some c, suspendRequested := false }
        ∧ c.slot = e.slot ∧ some c.kind = x.req.kind ∧ c.stamp = s.sch.nextStamp ∧ c.recordIndex = at0
        ∧ c.image = (s.layout l).image ∧ c.layout = l ∧ c.req = x.req ∧ c.phase = .readWait
        ∧ t.hlu.readQueue = s.hlu.readQueue ++
            linkReads (.unit k) 0 (hostAddr x.req.srcAddr (at0 * (s.layout l).image.srcLen)) (s.layout l).image.srcLen 0
        ∧ ∀ i, i ≠ k → t.fu i = s.fu i

/-! ## The stores -/

/-- First fit takes the lowest part of the lowest free extent long enough, or nothing when none is; freed space is joined to
its neighbours. Both keep a free list ordered, inside its pool and with no two extents that touch; a location is free
afterwards just if it was free and was not taken, or was returned, and free space changes by as much (R4 to R6). -/
def Obligations.PoolsTakeFirstFitAndJoinFreedSpace : Prop :=
  ∀ (size n : Nat) (es : List Extent) (x : Extent), freeListFrom size 0 es = true →
    let free := fun (fs : List Extent) (i : Nat) => ∃ e ∈ fs, e.start ≤ i ∧ i < e.start + e.len
    (0 < n →
      (allocFirst n es = none ↔ ∀ e ∈ es, e.len < n)
      ∧ ∀ a rest, allocFirst n es = some (a, rest) →
        (∃ e ∈ es, e.start = a ∧ n ≤ e.len) ∧ (∀ e ∈ es, e.start < a → e.len < n)
        ∧ freeListFrom size 0 rest = true ∧ freeTotal rest + n = freeTotal es
        ∧ (∀ i, a ≤ i → i < a + n → free es i) ∧ ∀ i, free rest i ↔ free es i ∧ ¬ (a ≤ i ∧ i < a + n))
    ∧ (0 < x.len → x.start + x.len ≤ size → (∀ e ∈ es, e.start + e.len ≤ x.start ∨ x.start + x.len ≤ e.start) →
      freeListFrom size 0 (giveBack x es) = true ∧ freeTotal (giveBack x es) = freeTotal es + x.len
      ∧ ∀ i, free (giveBack x es) i ↔ free es i ∨ x.start ≤ i ∧ i < x.start + x.len)

/-- A release lowers the reference count by 1; the last one installs the staged image of a REPLACING slot with the next
version and empties a DROPPING slot, frees the directive and literal extents of the image that leaves, and ends the service
job SUCCESS with the version; in every other state it has no further effect (R3, R6, R17, R20, R21). -/
def Obligations.LastReleaseInstallsOrEmpties : Prop :=
  ∀ (l : LayoutNo) (s : State),
    let x := s.layout l
    let t := releaseLayout l s
    let freed := t.ls.dirFree = giveBack ⟨x.image.directiveStart, x.image.directiveCount⟩ s.ls.dirFree
      ∧ (∀ a, x.image.literalStart = some a → t.ls.litFree = giveBack ⟨a, x.image.literalCount⟩ s.ls.litFree)
      ∧ (x.image.literalStart = none → t.ls.litFree = s.ls.litFree)
    (∀ i, i ≠ l → t.layout i = s.layout i)
    ∧ (2 ≤ x.refCount ∨ x.state = .ready ∨ x.state = .damaged ∨ x.state = .empty →
        t = s.modLayout l fun y => { y with refCount := y.refCount - 1 })
    ∧ (x.refCount = 1 → x.state = .replacing → ∀ im, x.staged = some im →
        let version := if x.everInstalled then x.version + 1 else 0
        t.layout l = { x with
          state := .ready, version := version, everInstalled := true, image := im, refCount := 0, damaged := false
          staged := none, service := none }
        ∧ freed
        ∧ ∀ j, x.service = some j → j ∉ s.jt.badParity →
            (t.job j).status = some .success ∧ (t.job j).version = version)
    ∧ (x.refCount = 1 → x.state = .dropping →
        t.layout l = { x with state := .empty, image := {}, refCount := 0, damaged := false, service := none }
        ∧ freed
        ∧ ∀ j, x.service = some j → j ∉ s.jt.badParity →
            (t.job j).status = some .success ∧ (t.job j).version = x.version)

/-- The code table image of the load at the head of the load queue: the first failing entry ends it BAD_IMAGE with that byte
value; an accepted image is installed whole when no job holds the table, and refused CODES_BUSY otherwise. In each case
the buffer, the queue's head and the service job are released, and no other table changes (R90 to R92). -/
def Obligations.CodeTableImageIsInstalledOrRefused : Prop :=
  ∀ (j : SlotNo) (rest : List SlotNo) (s : State), s.cts.queue = j :: rest → j ∉ s.jt.badParity →
    let i := (s.job j).req.tableNo
    let x := s.table i
    let t := readDone .codesLoad s
    t.cts.queue = rest ∧ t.cts.bufferHeld = false ∧ (∀ k, k ≠ i → t.table k = s.table k)
    ∧ (∀ d v, checkCodes (readBytes s.cts.buffer 0 1024) = .error (d, v) →
        t.table i = { x with service := none }
        ∧ (t.job j).status = some .badImage ∧ (t.job j).detail = d ∧ (t.job j).detailArg = BitVec.ofNat 8 v)
    ∧ (∀ es, checkCodes (readBytes s.cts.buffer 0 1024) = .ok es →
        es.length = 256
        ∧ (x.refCount = 0 → t.table i = { x with ready := true, entries := es, service := none }
            ∧ (t.job j).status = some .success)
        ∧ (x.refCount ≠ 0 → t.table i = { x with service := none } ∧ (t.job j).status = some .codesBusy))

/-- TRANSLATE gives the target bytes up to the first byte of class STOP, with that byte's own target byte if the request
includes it; COMPARE orders two strings by the first offset at which their compared bytes differ, a string that has ended
giving the pad byte (R96, R100). -/
def Obligations.TranslateStopsAndCompareOrders : Prop :=
  ∀ (look : Lookup) (flag : Bool) (pad : Byte) (a b : List Byte) (n : Nat),
    let out := translateBytes look flag a
    ((∀ x ∈ a, (look x).has .stop = false) → out = (a.map fun x => (look x).target, false))
    ∧ (∀ m x, a[m]? = some x → (look x).has .stop = true →
        (∀ i y, i < m → a[i]? = some y → (look y).has .stop = false) →
        out = ((a.take m).map (fun y => (look y).target) ++ (if flag then [(look x).target] else []), true))
    ∧ let at' := fun (w : List Byte) (i : Nat) => if h : i < w.length then (look w[i]).target else pad
      (compareChunk look pad a b n = none ↔ ∀ i, i < n → at' a i = at' b i)
      ∧ ∀ i r, compareChunk look pad a b n = some (i, r) →
        i < n ∧ (∀ m, m < i → at' a m = at' b m) ∧ at' a i ≠ at' b i
        ∧ (r = .less ↔ (at' a i).toNat < (at' b i).toNat) ∧ (r = .greater ↔ (at' b i).toNat < (at' a i).toNat)

/-! ## Invariants that every command keeps -/

/-- A sound part stays sound at every step: every addressed RAM keeps its canonical form, every unit's cursors stay inside
its windows, every accumulator keeps a magnitude of at most 10^31 − 1 and an add count of at most 4294967295, every pending
batch names each accumulator at most once, and queue indices stay below twice their queue's size (R33, R34, R45, R143,
R163, R165, R176). -/
def Obligations.SoundPartStaysSound : Prop :=
  ∀ s t : State, step s = .next t → SoundPart s → SoundPart t

/-- The ready order stays sorted by its three keys: URGENT first, SUSPENDED before READY, then by take order (R145). -/
def Obligations.ReadyOrderStaysSorted : Prop :=
  ∀ s t : State, step s = .next t → ReadyOrdered s → ReadyOrdered t

/-- The write queue holds at most 64 handed writes, and a writer waits only while it is full (R214). -/
def Obligations.WriteQueueStaysBounded : Prop :=
  ∀ s t : State, step s = .next t → WriteQueueBounded s → WriteQueueBounded t

/-- While the engine is HALTED nothing is queued to read or write, nobody wants a read in flight, and no hold timer runs, and
every link read in flight was issued before the number of the next issue (R200, R213, R219, R221; log 10). -/
def Obligations.HaltedEngineStaysQuiet : Prop :=
  ∀ s t : State, step s = .next t →
    (HaltedIsQuiet s → HaltedIsQuiet t) ∧ (StampsPast s → StampsPast t)

/-- The part after power-on meets every invariant above. -/
def Obligations.PowerOnStateMeetsTheInvariants : Prop :=
  SoundPart State.reset ∧ ReadyOrdered State.reset ∧ WriteQueueBounded State.reset ∧ HaltedIsQuiet State.reset ∧ StampsPast State.reset

/-- The engine leaves HALTED by RESET, CLEAR, link reset and power-on only, which bring it to OFF with FAULT 0; until then
FAULT names the first fatal fault taken (R203, R218, R219). -/
def Obligations.HaltedIsLeftByResetsOnly : Prop :=
  ∀ (i : Instr) (s t : State), i.wf = true → HaltedIsQuiet s → s.hlu.engine = .halted → exec i s = .next t →
    (i = .reset ∨ i = .clear ∨ i = .linkReset ∨ i = .powerOn → t.hlu.engine = .off ∧ t.hlu.fault = {})
    ∧ (i ≠ .reset → i ≠ .clear → i ≠ .linkReset → i ≠ .powerOn →
        t.hlu.engine = .halted ∧ t.hlu.fault = s.hlu.fault)

/-- SETUP_LO and SETUP_HI change by a register write, a link reset and power-on only: no event of the part and no other
command writes them (R202, R204, R220). -/
def Obligations.SetupAddressChangesByRegisterWritesOnly : Prop :=
  ∀ (i : Instr) (s t : State), exec i s = .next t → i ≠ .linkReset → i ≠ .powerOn →
    (∀ offset width v, i ≠ .registerWrite offset width v) →
    t.hlu.setupLo = s.hlu.setupLo ∧ t.hlu.setupHi = s.hlu.setupHi
end

