-- ==== Sys2Proof/Laws/State.lean ====
section
/-! SUPPORT. One lemma per field per update of State, each true by rfl, and the reads of what an update wrote. -/

namespace Sys2Proof.Machine

/-! ## Vectors -/

theorem modifyAt_get {α : Type} {n : Nat} (v : Vector α n) (i j : Fin n) (f : α → α) :
    (modifyAt v i f)[j] = if j = i then f v[i] else v[j] := by
  simp only [modifyAt, Fin.getElem_fin, Vector.getElem_set, Fin.ext_iff, eq_comm]

@[simp] theorem modifyAt_get_self {α : Type} {n : Nat} (v : Vector α n) (i : Fin n) (f : α → α) :
    (modifyAt v i f)[i] = f v[i] := by simp [modifyAt]

@[simp] theorem mapAll_get {α β : Type} {n : Nat} (f : α → β) (v : Vector α n) (i : Fin n) :
    (mapAll f v)[i] = f v[i] := by simp [mapAll]

@[simp] theorem allIndices_get (n : Nat) (i : Fin n) : (allIndices n)[i] = i := by simp [allIndices]

theorem modifyAt_same {α : Type} {n : Nat} (v : Vector α n) (i : Fin n) (f : α → α) (h : f v[i] = v[i]) :
    modifyAt v i f = v := by
  apply Vector.ext
  intro j hj
  have := modifyAt_get v i ⟨j, hj⟩ f
  simp only [Fin.getElem_fin] at this h ⊢
  rw [this]
  split
  · next e => subst e; exact h
  · rfl

theorem modifyAt_modifyAt {α : Type} {n : Nat} (v : Vector α n) (i : Fin n) (f g : α → α) :
    modifyAt (modifyAt v i f) i g = modifyAt v i fun x => g (f x) := by
  apply Vector.ext
  intro j hj
  have h1 := modifyAt_get (modifyAt v i f) i ⟨j, hj⟩ g
  have h2 := modifyAt_get v i ⟨j, hj⟩ f
  have h3 := modifyAt_get v i ⟨j, hj⟩ fun x => g (f x)
  simp only [Fin.getElem_fin] at h1 h2 h3 ⊢
  rw [h1, h3]
  split
  · next e => subst e; rw [if_pos rfl] at h2; rw [h2]
  · rw [h2, if_neg ‹_›]


/-! ## modJob -/

@[simp] theorem State.modJob_hlu (s : State) (j : SlotNo) (f : Job → Job) : (s.modJob j f).hlu = s.hlu := rfl
@[simp] theorem State.modJob_qm (s : State) (j : SlotNo) (f : Job → Job) : (s.modJob j f).qm = s.qm := rfl
@[simp] theorem State.modJob_sch (s : State) (j : SlotNo) (f : Job → Job) : (s.modJob j f).sch = s.sch := rfl
@[simp] theorem State.modJob_fus (s : State) (j : SlotNo) (f : Job → Job) : (s.modJob j f).fus = s.fus := rfl
@[simp] theorem State.modJob_ls (s : State) (j : SlotNo) (f : Job → Job) : (s.modJob j f).ls = s.ls := rfl
@[simp] theorem State.modJob_cts (s : State) (j : SlotNo) (f : Job → Job) : (s.modJob j f).cts = s.cts := rfl
@[simp] theorem State.modJob_tu (s : State) (j : SlotNo) (f : Job → Job) : (s.modJob j f).tu = s.tu := rfl
@[simp] theorem State.modJob_pending (s : State) (j : SlotNo) (f : Job → Job) : (s.modJob j f).pending = s.pending := rfl
@[simp] theorem State.modJob_readStamp (s : State) (j : SlotNo) (f : Job → Job) : (s.modJob j f).readStamp = s.readStamp := rfl
@[simp] theorem State.modJob_choices (s : State) (j : SlotNo) (f : Job → Job) : (s.modJob j f).choices = s.choices := rfl
@[simp] theorem State.fu_modJob (s : State) (j : SlotNo) (f : Job → Job) (i : FuNo) : (s.modJob j f).fu i = s.fu i := rfl
@[simp] theorem State.sq_modJob (s : State) (j : SlotNo) (f : Job → Job) (i : SqNo) : (s.modJob j f).sq i = s.sq i := rfl
@[simp] theorem State.cq_modJob (s : State) (j : SlotNo) (f : Job → Job) (i : CqNo) : (s.modJob j f).cq i = s.cq i := rfl
@[simp] theorem State.chain_modJob (s : State) (j : SlotNo) (f : Job → Job) (i : SqNo) : (s.modJob j f).chain i = s.chain i := rfl
@[simp] theorem State.layout_modJob (s : State) (j : SlotNo) (f : Job → Job) (i : LayoutNo) : (s.modJob j f).layout i = s.layout i := rfl
@[simp] theorem State.table_modJob (s : State) (j : SlotNo) (f : Job → Job) (i : TableNo) : (s.modJob j f).table i = s.table i := rfl
@[simp] theorem State.group_modJob (s : State) (j : SlotNo) (f : Job → Job) (i : GroupNo) : (s.modJob j f).group i = s.group i := rfl
@[simp] theorem State.settle_modJob (s : State) (j : SlotNo) (f : Job → Job) (i : SlotNo) : (s.modJob j f).settle i = s.settle i := rfl
@[simp] theorem State.tag_modJob (s : State) (j : SlotNo) (f : Job → Job) (i : ReadTag) : (s.modJob j f).tag i = s.tag i := rfl
@[simp] theorem State.live_modJob (s : State) (j : SlotNo) (f : Job → Job) : (s.modJob j f).live = s.live := rfl
@[simp] theorem State.halted_modJob (s : State) (j : SlotNo) (f : Job → Job) : (s.modJob j f).halted = s.halted := rfl

/-! ## modFu -/

@[simp] theorem State.modFu_hlu (s : State) (k : FuNo) (f : Fu → Fu) : (s.modFu k f).hlu = s.hlu := rfl
@[simp] theorem State.modFu_qm (s : State) (k : FuNo) (f : Fu → Fu) : (s.modFu k f).qm = s.qm := rfl
@[simp] theorem State.modFu_jt (s : State) (k : FuNo) (f : Fu → Fu) : (s.modFu k f).jt = s.jt := rfl
@[simp] theorem State.modFu_sch (s : State) (k : FuNo) (f : Fu → Fu) : (s.modFu k f).sch = s.sch := rfl
@[simp] theorem State.modFu_ls (s : State) (k : FuNo) (f : Fu → Fu) : (s.modFu k f).ls = s.ls := rfl
@[simp] theorem State.modFu_cts (s : State) (k : FuNo) (f : Fu → Fu) : (s.modFu k f).cts = s.cts := rfl
@[simp] theorem State.modFu_tu (s : State) (k : FuNo) (f : Fu → Fu) : (s.modFu k f).tu = s.tu := rfl
@[simp] theorem State.modFu_pending (s : State) (k : FuNo) (f : Fu → Fu) : (s.modFu k f).pending = s.pending := rfl
@[simp] theorem State.modFu_readStamp (s : State) (k : FuNo) (f : Fu → Fu) : (s.modFu k f).readStamp = s.readStamp := rfl
@[simp] theorem State.modFu_choices (s : State) (k : FuNo) (f : Fu → Fu) : (s.modFu k f).choices = s.choices := rfl
@[simp] theorem State.job_modFu (s : State) (k : FuNo) (f : Fu → Fu) (i : SlotNo) : (s.modFu k f).job i = s.job i := rfl
@[simp] theorem State.sq_modFu (s : State) (k : FuNo) (f : Fu → Fu) (i : SqNo) : (s.modFu k f).sq i = s.sq i := rfl
@[simp] theorem State.cq_modFu (s : State) (k : FuNo) (f : Fu → Fu) (i : CqNo) : (s.modFu k f).cq i = s.cq i := rfl
@[simp] theorem State.chain_modFu (s : State) (k : FuNo) (f : Fu → Fu) (i : SqNo) : (s.modFu k f).chain i = s.chain i := rfl
@[simp] theorem State.layout_modFu (s : State) (k : FuNo) (f : Fu → Fu) (i : LayoutNo) : (s.modFu k f).layout i = s.layout i := rfl
@[simp] theorem State.table_modFu (s : State) (k : FuNo) (f : Fu → Fu) (i : TableNo) : (s.modFu k f).table i = s.table i := rfl
@[simp] theorem State.group_modFu (s : State) (k : FuNo) (f : Fu → Fu) (i : GroupNo) : (s.modFu k f).group i = s.group i := rfl
@[simp] theorem State.settle_modFu (s : State) (k : FuNo) (f : Fu → Fu) (i : SlotNo) : (s.modFu k f).settle i = s.settle i := rfl
@[simp] theorem State.tag_modFu (s : State) (k : FuNo) (f : Fu → Fu) (i : ReadTag) : (s.modFu k f).tag i = s.tag i := rfl
@[simp] theorem State.live_modFu (s : State) (k : FuNo) (f : Fu → Fu) : (s.modFu k f).live = s.live := rfl
@[simp] theorem State.halted_modFu (s : State) (k : FuNo) (f : Fu → Fu) : (s.modFu k f).halted = s.halted := rfl

/-! ## modCtx -/

@[simp] theorem State.modCtx_hlu (s : State) (k : FuNo) (f : Context → Context) : (s.modCtx k f).hlu = s.hlu := rfl
@[simp] theorem State.modCtx_qm (s : State) (k : FuNo) (f : Context → Context) : (s.modCtx k f).qm = s.qm := rfl
@[simp] theorem State.modCtx_jt (s : State) (k : FuNo) (f : Context → Context) : (s.modCtx k f).jt = s.jt := rfl
@[simp] theorem State.modCtx_sch (s : State) (k : FuNo) (f : Context → Context) : (s.modCtx k f).sch = s.sch := rfl
@[simp] theorem State.modCtx_ls (s : State) (k : FuNo) (f : Context → Context) : (s.modCtx k f).ls = s.ls := rfl
@[simp] theorem State.modCtx_cts (s : State) (k : FuNo) (f : Context → Context) : (s.modCtx k f).cts = s.cts := rfl
@[simp] theorem State.modCtx_tu (s : State) (k : FuNo) (f : Context → Context) : (s.modCtx k f).tu = s.tu := rfl
@[simp] theorem State.modCtx_pending (s : State) (k : FuNo) (f : Context → Context) : (s.modCtx k f).pending = s.pending := rfl
@[simp] theorem State.modCtx_readStamp (s : State) (k : FuNo) (f : Context → Context) : (s.modCtx k f).readStamp = s.readStamp := rfl
@[simp] theorem State.modCtx_choices (s : State) (k : FuNo) (f : Context → Context) : (s.modCtx k f).choices = s.choices := rfl
@[simp] theorem State.job_modCtx (s : State) (k : FuNo) (f : Context → Context) (i : SlotNo) : (s.modCtx k f).job i = s.job i := rfl
@[simp] theorem State.sq_modCtx (s : State) (k : FuNo) (f : Context → Context) (i : SqNo) : (s.modCtx k f).sq i = s.sq i := rfl
@[simp] theorem State.cq_modCtx (s : State) (k : FuNo) (f : Context → Context) (i : CqNo) : (s.modCtx k f).cq i = s.cq i := rfl
@[simp] theorem State.chain_modCtx (s : State) (k : FuNo) (f : Context → Context) (i : SqNo) : (s.modCtx k f).chain i = s.chain i := rfl
@[simp] theorem State.layout_modCtx (s : State) (k : FuNo) (f : Context → Context) (i : LayoutNo) : (s.modCtx k f).layout i = s.layout i := rfl
@[simp] theorem State.table_modCtx (s : State) (k : FuNo) (f : Context → Context) (i : TableNo) : (s.modCtx k f).table i = s.table i := rfl
@[simp] theorem State.group_modCtx (s : State) (k : FuNo) (f : Context → Context) (i : GroupNo) : (s.modCtx k f).group i = s.group i := rfl
@[simp] theorem State.settle_modCtx (s : State) (k : FuNo) (f : Context → Context) (i : SlotNo) : (s.modCtx k f).settle i = s.settle i := rfl
@[simp] theorem State.tag_modCtx (s : State) (k : FuNo) (f : Context → Context) (i : ReadTag) : (s.modCtx k f).tag i = s.tag i := rfl
@[simp] theorem State.live_modCtx (s : State) (k : FuNo) (f : Context → Context) : (s.modCtx k f).live = s.live := rfl
@[simp] theorem State.halted_modCtx (s : State) (k : FuNo) (f : Context → Context) : (s.modCtx k f).halted = s.halted := rfl

/-! ## modSq -/

@[simp] theorem State.modSq_hlu (s : State) (q : SqNo) (f : Sq → Sq) : (s.modSq q f).hlu = s.hlu := rfl
@[simp] theorem State.modSq_jt (s : State) (q : SqNo) (f : Sq → Sq) : (s.modSq q f).jt = s.jt := rfl
@[simp] theorem State.modSq_sch (s : State) (q : SqNo) (f : Sq → Sq) : (s.modSq q f).sch = s.sch := rfl
@[simp] theorem State.modSq_fus (s : State) (q : SqNo) (f : Sq → Sq) : (s.modSq q f).fus = s.fus := rfl
@[simp] theorem State.modSq_ls (s : State) (q : SqNo) (f : Sq → Sq) : (s.modSq q f).ls = s.ls := rfl
@[simp] theorem State.modSq_cts (s : State) (q : SqNo) (f : Sq → Sq) : (s.modSq q f).cts = s.cts := rfl
@[simp] theorem State.modSq_tu (s : State) (q : SqNo) (f : Sq → Sq) : (s.modSq q f).tu = s.tu := rfl
@[simp] theorem State.modSq_pending (s : State) (q : SqNo) (f : Sq → Sq) : (s.modSq q f).pending = s.pending := rfl
@[simp] theorem State.modSq_readStamp (s : State) (q : SqNo) (f : Sq → Sq) : (s.modSq q f).readStamp = s.readStamp := rfl
@[simp] theorem State.modSq_choices (s : State) (q : SqNo) (f : Sq → Sq) : (s.modSq q f).choices = s.choices := rfl
@[simp] theorem State.job_modSq (s : State) (q : SqNo) (f : Sq → Sq) (i : SlotNo) : (s.modSq q f).job i = s.job i := rfl
@[simp] theorem State.fu_modSq (s : State) (q : SqNo) (f : Sq → Sq) (i : FuNo) : (s.modSq q f).fu i = s.fu i := rfl
@[simp] theorem State.cq_modSq (s : State) (q : SqNo) (f : Sq → Sq) (i : CqNo) : (s.modSq q f).cq i = s.cq i := rfl
@[simp] theorem State.chain_modSq (s : State) (q : SqNo) (f : Sq → Sq) (i : SqNo) : (s.modSq q f).chain i = s.chain i := rfl
@[simp] theorem State.layout_modSq (s : State) (q : SqNo) (f : Sq → Sq) (i : LayoutNo) : (s.modSq q f).layout i = s.layout i := rfl
@[simp] theorem State.table_modSq (s : State) (q : SqNo) (f : Sq → Sq) (i : TableNo) : (s.modSq q f).table i = s.table i := rfl
@[simp] theorem State.group_modSq (s : State) (q : SqNo) (f : Sq → Sq) (i : GroupNo) : (s.modSq q f).group i = s.group i := rfl
@[simp] theorem State.settle_modSq (s : State) (q : SqNo) (f : Sq → Sq) (i : SlotNo) : (s.modSq q f).settle i = s.settle i := rfl
@[simp] theorem State.tag_modSq (s : State) (q : SqNo) (f : Sq → Sq) (i : ReadTag) : (s.modSq q f).tag i = s.tag i := rfl
@[simp] theorem State.live_modSq (s : State) (q : SqNo) (f : Sq → Sq) : (s.modSq q f).live = s.live := rfl
@[simp] theorem State.halted_modSq (s : State) (q : SqNo) (f : Sq → Sq) : (s.modSq q f).halted = s.halted := rfl

/-! ## modCq -/

@[simp] theorem State.modCq_hlu (s : State) (q : CqNo) (f : Cq → Cq) : (s.modCq q f).hlu = s.hlu := rfl
@[simp] theorem State.modCq_jt (s : State) (q : CqNo) (f : Cq → Cq) : (s.modCq q f).jt = s.jt := rfl
@[simp] theorem State.modCq_sch (s : State) (q : CqNo) (f : Cq → Cq) : (s.modCq q f).sch = s.sch := rfl
@[simp] theorem State.modCq_fus (s : State) (q : CqNo) (f : Cq → Cq) : (s.modCq q f).fus = s.fus := rfl
@[simp] theorem State.modCq_ls (s : State) (q : CqNo) (f : Cq → Cq) : (s.modCq q f).ls = s.ls := rfl
@[simp] theorem State.modCq_cts (s : State) (q : CqNo) (f : Cq → Cq) : (s.modCq q f).cts = s.cts := rfl
@[simp] theorem State.modCq_tu (s : State) (q : CqNo) (f : Cq → Cq) : (s.modCq q f).tu = s.tu := rfl
@[simp] theorem State.modCq_pending (s : State) (q : CqNo) (f : Cq → Cq) : (s.modCq q f).pending = s.pending := rfl
@[simp] theorem State.modCq_readStamp (s : State) (q : CqNo) (f : Cq → Cq) : (s.modCq q f).readStamp = s.readStamp := rfl
@[simp] theorem State.modCq_choices (s : State) (q : CqNo) (f : Cq → Cq) : (s.modCq q f).choices = s.choices := rfl
@[simp] theorem State.job_modCq (s : State) (q : CqNo) (f : Cq → Cq) (i : SlotNo) : (s.modCq q f).job i = s.job i := rfl
@[simp] theorem State.fu_modCq (s : State) (q : CqNo) (f : Cq → Cq) (i : FuNo) : (s.modCq q f).fu i = s.fu i := rfl
@[simp] theorem State.sq_modCq (s : State) (q : CqNo) (f : Cq → Cq) (i : SqNo) : (s.modCq q f).sq i = s.sq i := rfl
@[simp] theorem State.chain_modCq (s : State) (q : CqNo) (f : Cq → Cq) (i : SqNo) : (s.modCq q f).chain i = s.chain i := rfl
@[simp] theorem State.layout_modCq (s : State) (q : CqNo) (f : Cq → Cq) (i : LayoutNo) : (s.modCq q f).layout i = s.layout i := rfl
@[simp] theorem State.table_modCq (s : State) (q : CqNo) (f : Cq → Cq) (i : TableNo) : (s.modCq q f).table i = s.table i := rfl
@[simp] theorem State.group_modCq (s : State) (q : CqNo) (f : Cq → Cq) (i : GroupNo) : (s.modCq q f).group i = s.group i := rfl
@[simp] theorem State.settle_modCq (s : State) (q : CqNo) (f : Cq → Cq) (i : SlotNo) : (s.modCq q f).settle i = s.settle i := rfl
@[simp] theorem State.tag_modCq (s : State) (q : CqNo) (f : Cq → Cq) (i : ReadTag) : (s.modCq q f).tag i = s.tag i := rfl
@[simp] theorem State.live_modCq (s : State) (q : CqNo) (f : Cq → Cq) : (s.modCq q f).live = s.live := rfl
@[simp] theorem State.halted_modCq (s : State) (q : CqNo) (f : Cq → Cq) : (s.modCq q f).halted = s.halted := rfl

/-! ## setChain -/

@[simp] theorem State.setChain_hlu (s : State) (q : SqNo) (c : ChainState) : (s.setChain q c).hlu = s.hlu := rfl
@[simp] theorem State.setChain_qm (s : State) (q : SqNo) (c : ChainState) : (s.setChain q c).qm = s.qm := rfl
@[simp] theorem State.setChain_sch (s : State) (q : SqNo) (c : ChainState) : (s.setChain q c).sch = s.sch := rfl
@[simp] theorem State.setChain_fus (s : State) (q : SqNo) (c : ChainState) : (s.setChain q c).fus = s.fus := rfl
@[simp] theorem State.setChain_ls (s : State) (q : SqNo) (c : ChainState) : (s.setChain q c).ls = s.ls := rfl
@[simp] theorem State.setChain_cts (s : State) (q : SqNo) (c : ChainState) : (s.setChain q c).cts = s.cts := rfl
@[simp] theorem State.setChain_tu (s : State) (q : SqNo) (c : ChainState) : (s.setChain q c).tu = s.tu := rfl
@[simp] theorem State.setChain_pending (s : State) (q : SqNo) (c : ChainState) : (s.setChain q c).pending = s.pending := rfl
@[simp] theorem State.setChain_readStamp (s : State) (q : SqNo) (c : ChainState) : (s.setChain q c).readStamp = s.readStamp := rfl
@[simp] theorem State.setChain_choices (s : State) (q : SqNo) (c : ChainState) : (s.setChain q c).choices = s.choices := rfl
@[simp] theorem State.job_setChain (s : State) (q : SqNo) (c : ChainState) (i : SlotNo) : (s.setChain q c).job i = s.job i := rfl
@[simp] theorem State.fu_setChain (s : State) (q : SqNo) (c : ChainState) (i : FuNo) : (s.setChain q c).fu i = s.fu i := rfl
@[simp] theorem State.sq_setChain (s : State) (q : SqNo) (c : ChainState) (i : SqNo) : (s.setChain q c).sq i = s.sq i := rfl
@[simp] theorem State.cq_setChain (s : State) (q : SqNo) (c : ChainState) (i : CqNo) : (s.setChain q c).cq i = s.cq i := rfl
@[simp] theorem State.layout_setChain (s : State) (q : SqNo) (c : ChainState) (i : LayoutNo) : (s.setChain q c).layout i = s.layout i := rfl
@[simp] theorem State.table_setChain (s : State) (q : SqNo) (c : ChainState) (i : TableNo) : (s.setChain q c).table i = s.table i := rfl
@[simp] theorem State.group_setChain (s : State) (q : SqNo) (c : ChainState) (i : GroupNo) : (s.setChain q c).group i = s.group i := rfl
@[simp] theorem State.settle_setChain (s : State) (q : SqNo) (c : ChainState) (i : SlotNo) : (s.setChain q c).settle i = s.settle i := rfl
@[simp] theorem State.tag_setChain (s : State) (q : SqNo) (c : ChainState) (i : ReadTag) : (s.setChain q c).tag i = s.tag i := rfl
@[simp] theorem State.live_setChain (s : State) (q : SqNo) (c : ChainState) : (s.setChain q c).live = s.live := rfl
@[simp] theorem State.halted_setChain (s : State) (q : SqNo) (c : ChainState) : (s.setChain q c).halted = s.halted := rfl

/-! ## modLayout -/

@[simp] theorem State.modLayout_hlu (s : State) (l : LayoutNo) (f : LayoutSlot → LayoutSlot) : (s.modLayout l f).hlu = s.hlu := rfl
@[simp] theorem State.modLayout_qm (s : State) (l : LayoutNo) (f : LayoutSlot → LayoutSlot) : (s.modLayout l f).qm = s.qm := rfl
@[simp] theorem State.modLayout_jt (s : State) (l : LayoutNo) (f : LayoutSlot → LayoutSlot) : (s.modLayout l f).jt = s.jt := rfl
@[simp] theorem State.modLayout_sch (s : State) (l : LayoutNo) (f : LayoutSlot → LayoutSlot) : (s.modLayout l f).sch = s.sch := rfl
@[simp] theorem State.modLayout_fus (s : State) (l : LayoutNo) (f : LayoutSlot → LayoutSlot) : (s.modLayout l f).fus = s.fus := rfl
@[simp] theorem State.modLayout_cts (s : State) (l : LayoutNo) (f : LayoutSlot → LayoutSlot) : (s.modLayout l f).cts = s.cts := rfl
@[simp] theorem State.modLayout_tu (s : State) (l : LayoutNo) (f : LayoutSlot → LayoutSlot) : (s.modLayout l f).tu = s.tu := rfl
@[simp] theorem State.modLayout_pending (s : State) (l : LayoutNo) (f : LayoutSlot → LayoutSlot) : (s.modLayout l f).pending = s.pending := rfl
@[simp] theorem State.modLayout_readStamp (s : State) (l : LayoutNo) (f : LayoutSlot → LayoutSlot) : (s.modLayout l f).readStamp = s.readStamp := rfl
@[simp] theorem State.modLayout_choices (s : State) (l : LayoutNo) (f : LayoutSlot → LayoutSlot) : (s.modLayout l f).choices = s.choices := rfl
@[simp] theorem State.job_modLayout (s : State) (l : LayoutNo) (f : LayoutSlot → LayoutSlot) (i : SlotNo) : (s.modLayout l f).job i = s.job i := rfl
@[simp] theorem State.fu_modLayout (s : State) (l : LayoutNo) (f : LayoutSlot → LayoutSlot) (i : FuNo) : (s.modLayout l f).fu i = s.fu i := rfl
@[simp] theorem State.sq_modLayout (s : State) (l : LayoutNo) (f : LayoutSlot → LayoutSlot) (i : SqNo) : (s.modLayout l f).sq i = s.sq i := rfl
@[simp] theorem State.cq_modLayout (s : State) (l : LayoutNo) (f : LayoutSlot → LayoutSlot) (i : CqNo) : (s.modLayout l f).cq i = s.cq i := rfl
@[simp] theorem State.chain_modLayout (s : State) (l : LayoutNo) (f : LayoutSlot → LayoutSlot) (i : SqNo) : (s.modLayout l f).chain i = s.chain i := rfl
@[simp] theorem State.table_modLayout (s : State) (l : LayoutNo) (f : LayoutSlot → LayoutSlot) (i : TableNo) : (s.modLayout l f).table i = s.table i := rfl
@[simp] theorem State.group_modLayout (s : State) (l : LayoutNo) (f : LayoutSlot → LayoutSlot) (i : GroupNo) : (s.modLayout l f).group i = s.group i := rfl
@[simp] theorem State.settle_modLayout (s : State) (l : LayoutNo) (f : LayoutSlot → LayoutSlot) (i : SlotNo) : (s.modLayout l f).settle i = s.settle i := rfl
@[simp] theorem State.tag_modLayout (s : State) (l : LayoutNo) (f : LayoutSlot → LayoutSlot) (i : ReadTag) : (s.modLayout l f).tag i = s.tag i := rfl
@[simp] theorem State.live_modLayout (s : State) (l : LayoutNo) (f : LayoutSlot → LayoutSlot) : (s.modLayout l f).live = s.live := rfl
@[simp] theorem State.halted_modLayout (s : State) (l : LayoutNo) (f : LayoutSlot → LayoutSlot) : (s.modLayout l f).halted = s.halted := rfl

/-! ## modTable -/

@[simp] theorem State.modTable_hlu (s : State) (t : TableNo) (f : CodeTable → CodeTable) : (s.modTable t f).hlu = s.hlu := rfl
@[simp] theorem State.modTable_qm (s : State) (t : TableNo) (f : CodeTable → CodeTable) : (s.modTable t f).qm = s.qm := rfl
@[simp] theorem State.modTable_jt (s : State) (t : TableNo) (f : CodeTable → CodeTable) : (s.modTable t f).jt = s.jt := rfl
@[simp] theorem State.modTable_sch (s : State) (t : TableNo) (f : CodeTable → CodeTable) : (s.modTable t f).sch = s.sch := rfl
@[simp] theorem State.modTable_fus (s : State) (t : TableNo) (f : CodeTable → CodeTable) : (s.modTable t f).fus = s.fus := rfl
@[simp] theorem State.modTable_ls (s : State) (t : TableNo) (f : CodeTable → CodeTable) : (s.modTable t f).ls = s.ls := rfl
@[simp] theorem State.modTable_tu (s : State) (t : TableNo) (f : CodeTable → CodeTable) : (s.modTable t f).tu = s.tu := rfl
@[simp] theorem State.modTable_pending (s : State) (t : TableNo) (f : CodeTable → CodeTable) : (s.modTable t f).pending = s.pending := rfl
@[simp] theorem State.modTable_readStamp (s : State) (t : TableNo) (f : CodeTable → CodeTable) : (s.modTable t f).readStamp = s.readStamp := rfl
@[simp] theorem State.modTable_choices (s : State) (t : TableNo) (f : CodeTable → CodeTable) : (s.modTable t f).choices = s.choices := rfl
@[simp] theorem State.job_modTable (s : State) (t : TableNo) (f : CodeTable → CodeTable) (i : SlotNo) : (s.modTable t f).job i = s.job i := rfl
@[simp] theorem State.fu_modTable (s : State) (t : TableNo) (f : CodeTable → CodeTable) (i : FuNo) : (s.modTable t f).fu i = s.fu i := rfl
@[simp] theorem State.sq_modTable (s : State) (t : TableNo) (f : CodeTable → CodeTable) (i : SqNo) : (s.modTable t f).sq i = s.sq i := rfl
@[simp] theorem State.cq_modTable (s : State) (t : TableNo) (f : CodeTable → CodeTable) (i : CqNo) : (s.modTable t f).cq i = s.cq i := rfl
@[simp] theorem State.chain_modTable (s : State) (t : TableNo) (f : CodeTable → CodeTable) (i : SqNo) : (s.modTable t f).chain i = s.chain i := rfl
@[simp] theorem State.layout_modTable (s : State) (t : TableNo) (f : CodeTable → CodeTable) (i : LayoutNo) : (s.modTable t f).layout i = s.layout i := rfl
@[simp] theorem State.group_modTable (s : State) (t : TableNo) (f : CodeTable → CodeTable) (i : GroupNo) : (s.modTable t f).group i = s.group i := rfl
@[simp] theorem State.settle_modTable (s : State) (t : TableNo) (f : CodeTable → CodeTable) (i : SlotNo) : (s.modTable t f).settle i = s.settle i := rfl
@[simp] theorem State.tag_modTable (s : State) (t : TableNo) (f : CodeTable → CodeTable) (i : ReadTag) : (s.modTable t f).tag i = s.tag i := rfl
@[simp] theorem State.live_modTable (s : State) (t : TableNo) (f : CodeTable → CodeTable) : (s.modTable t f).live = s.live := rfl
@[simp] theorem State.halted_modTable (s : State) (t : TableNo) (f : CodeTable → CodeTable) : (s.modTable t f).halted = s.halted := rfl

/-! ## setGroup -/

@[simp] theorem State.setGroup_hlu (s : State) (g : GroupNo) (v : Vector Accumulator 16) : (s.setGroup g v).hlu = s.hlu := rfl
@[simp] theorem State.setGroup_qm (s : State) (g : GroupNo) (v : Vector Accumulator 16) : (s.setGroup g v).qm = s.qm := rfl
@[simp] theorem State.setGroup_jt (s : State) (g : GroupNo) (v : Vector Accumulator 16) : (s.setGroup g v).jt = s.jt := rfl
@[simp] theorem State.setGroup_sch (s : State) (g : GroupNo) (v : Vector Accumulator 16) : (s.setGroup g v).sch = s.sch := rfl
@[simp] theorem State.setGroup_fus (s : State) (g : GroupNo) (v : Vector Accumulator 16) : (s.setGroup g v).fus = s.fus := rfl
@[simp] theorem State.setGroup_ls (s : State) (g : GroupNo) (v : Vector Accumulator 16) : (s.setGroup g v).ls = s.ls := rfl
@[simp] theorem State.setGroup_cts (s : State) (g : GroupNo) (v : Vector Accumulator 16) : (s.setGroup g v).cts = s.cts := rfl
@[simp] theorem State.setGroup_pending (s : State) (g : GroupNo) (v : Vector Accumulator 16) : (s.setGroup g v).pending = s.pending := rfl
@[simp] theorem State.setGroup_readStamp (s : State) (g : GroupNo) (v : Vector Accumulator 16) : (s.setGroup g v).readStamp = s.readStamp := rfl
@[simp] theorem State.setGroup_choices (s : State) (g : GroupNo) (v : Vector Accumulator 16) : (s.setGroup g v).choices = s.choices := rfl
@[simp] theorem State.job_setGroup (s : State) (g : GroupNo) (v : Vector Accumulator 16) (i : SlotNo) : (s.setGroup g v).job i = s.job i := rfl
@[simp] theorem State.fu_setGroup (s : State) (g : GroupNo) (v : Vector Accumulator 16) (i : FuNo) : (s.setGroup g v).fu i = s.fu i := rfl
@[simp] theorem State.sq_setGroup (s : State) (g : GroupNo) (v : Vector Accumulator 16) (i : SqNo) : (s.setGroup g v).sq i = s.sq i := rfl
@[simp] theorem State.cq_setGroup (s : State) (g : GroupNo) (v : Vector Accumulator 16) (i : CqNo) : (s.setGroup g v).cq i = s.cq i := rfl
@[simp] theorem State.chain_setGroup (s : State) (g : GroupNo) (v : Vector Accumulator 16) (i : SqNo) : (s.setGroup g v).chain i = s.chain i := rfl
@[simp] theorem State.layout_setGroup (s : State) (g : GroupNo) (v : Vector Accumulator 16) (i : LayoutNo) : (s.setGroup g v).layout i = s.layout i := rfl
@[simp] theorem State.table_setGroup (s : State) (g : GroupNo) (v : Vector Accumulator 16) (i : TableNo) : (s.setGroup g v).table i = s.table i := rfl
@[simp] theorem State.settle_setGroup (s : State) (g : GroupNo) (v : Vector Accumulator 16) (i : SlotNo) : (s.setGroup g v).settle i = s.settle i := rfl
@[simp] theorem State.tag_setGroup (s : State) (g : GroupNo) (v : Vector Accumulator 16) (i : ReadTag) : (s.setGroup g v).tag i = s.tag i := rfl
@[simp] theorem State.live_setGroup (s : State) (g : GroupNo) (v : Vector Accumulator 16) : (s.setGroup g v).live = s.live := rfl
@[simp] theorem State.halted_setGroup (s : State) (g : GroupNo) (v : Vector Accumulator 16) : (s.setGroup g v).halted = s.halted := rfl

/-! ## modSettle -/

@[simp] theorem State.modSettle_qm (s : State) (j : SlotNo) (f : Settle → Settle) : (s.modSettle j f).qm = s.qm := rfl
@[simp] theorem State.modSettle_jt (s : State) (j : SlotNo) (f : Settle → Settle) : (s.modSettle j f).jt = s.jt := rfl
@[simp] theorem State.modSettle_sch (s : State) (j : SlotNo) (f : Settle → Settle) : (s.modSettle j f).sch = s.sch := rfl
@[simp] theorem State.modSettle_fus (s : State) (j : SlotNo) (f : Settle → Settle) : (s.modSettle j f).fus = s.fus := rfl
@[simp] theorem State.modSettle_ls (s : State) (j : SlotNo) (f : Settle → Settle) : (s.modSettle j f).ls = s.ls := rfl
@[simp] theorem State.modSettle_cts (s : State) (j : SlotNo) (f : Settle → Settle) : (s.modSettle j f).cts = s.cts := rfl
@[simp] theorem State.modSettle_tu (s : State) (j : SlotNo) (f : Settle → Settle) : (s.modSettle j f).tu = s.tu := rfl
@[simp] theorem State.modSettle_pending (s : State) (j : SlotNo) (f : Settle → Settle) : (s.modSettle j f).pending = s.pending := rfl
@[simp] theorem State.modSettle_readStamp (s : State) (j : SlotNo) (f : Settle → Settle) : (s.modSettle j f).readStamp = s.readStamp := rfl
@[simp] theorem State.modSettle_choices (s : State) (j : SlotNo) (f : Settle → Settle) : (s.modSettle j f).choices = s.choices := rfl
@[simp] theorem State.modSettle_hlu_engine (s : State) (j : SlotNo) (f : Settle → Settle) : (s.modSettle j f).hlu.engine = s.hlu.engine := rfl
@[simp] theorem State.modSettle_hlu_setupLo (s : State) (j : SlotNo) (f : Settle → Settle) : (s.modSettle j f).hlu.setupLo = s.hlu.setupLo := rfl
@[simp] theorem State.modSettle_hlu_setupHi (s : State) (j : SlotNo) (f : Settle → Settle) : (s.modSettle j f).hlu.setupHi = s.hlu.setupHi := rfl
@[simp] theorem State.modSettle_hlu_protocol (s : State) (j : SlotNo) (f : Settle → Settle) : (s.modSettle j f).hlu.protocol = s.hlu.protocol := rfl
@[simp] theorem State.modSettle_hlu_setupResult (s : State) (j : SlotNo) (f : Settle → Settle) : (s.modSettle j f).hlu.setupResult = s.hlu.setupResult := rfl
@[simp] theorem State.modSettle_hlu_fault (s : State) (j : SlotNo) (f : Settle → Settle) : (s.modSettle j f).hlu.fault = s.hlu.fault := rfl
@[simp] theorem State.modSettle_hlu_latched (s : State) (j : SlotNo) (f : Settle → Settle) : (s.modSettle j f).hlu.latched = s.hlu.latched := rfl
@[simp] theorem State.modSettle_hlu_setupBuf (s : State) (j : SlotNo) (f : Settle → Settle) : (s.modSettle j f).hlu.setupBuf = s.hlu.setupBuf := rfl
@[simp] theorem State.modSettle_hlu_readQueue (s : State) (j : SlotNo) (f : Settle → Settle) : (s.modSettle j f).hlu.readQueue = s.hlu.readQueue := rfl
@[simp] theorem State.modSettle_hlu_tags (s : State) (j : SlotNo) (f : Settle → Settle) : (s.modSettle j f).hlu.tags = s.hlu.tags := rfl
@[simp] theorem State.modSettle_hlu_writeQueue (s : State) (j : SlotNo) (f : Settle → Settle) : (s.modSettle j f).hlu.writeQueue = s.hlu.writeQueue := rfl
@[simp] theorem State.modSettle_hlu_waiting (s : State) (j : SlotNo) (f : Settle → Settle) : (s.modSettle j f).hlu.waiting = s.hlu.waiting := rfl
@[simp] theorem State.modSettle_hlu_writeSerial (s : State) (j : SlotNo) (f : Settle → Settle) : (s.modSettle j f).hlu.writeSerial = s.hlu.writeSerial := rfl
@[simp] theorem State.modSettle_hlu_out (s : State) (j : SlotNo) (f : Settle → Settle) : (s.modSettle j f).hlu.out = s.hlu.out := rfl
@[simp] theorem State.job_modSettle (s : State) (j : SlotNo) (f : Settle → Settle) (i : SlotNo) : (s.modSettle j f).job i = s.job i := rfl
@[simp] theorem State.fu_modSettle (s : State) (j : SlotNo) (f : Settle → Settle) (i : FuNo) : (s.modSettle j f).fu i = s.fu i := rfl
@[simp] theorem State.sq_modSettle (s : State) (j : SlotNo) (f : Settle → Settle) (i : SqNo) : (s.modSettle j f).sq i = s.sq i := rfl
@[simp] theorem State.cq_modSettle (s : State) (j : SlotNo) (f : Settle → Settle) (i : CqNo) : (s.modSettle j f).cq i = s.cq i := rfl
@[simp] theorem State.chain_modSettle (s : State) (j : SlotNo) (f : Settle → Settle) (i : SqNo) : (s.modSettle j f).chain i = s.chain i := rfl
@[simp] theorem State.layout_modSettle (s : State) (j : SlotNo) (f : Settle → Settle) (i : LayoutNo) : (s.modSettle j f).layout i = s.layout i := rfl
@[simp] theorem State.table_modSettle (s : State) (j : SlotNo) (f : Settle → Settle) (i : TableNo) : (s.modSettle j f).table i = s.table i := rfl
@[simp] theorem State.group_modSettle (s : State) (j : SlotNo) (f : Settle → Settle) (i : GroupNo) : (s.modSettle j f).group i = s.group i := rfl
@[simp] theorem State.tag_modSettle (s : State) (j : SlotNo) (f : Settle → Settle) (i : ReadTag) : (s.modSettle j f).tag i = s.tag i := rfl
@[simp] theorem State.live_modSettle (s : State) (j : SlotNo) (f : Settle → Settle) : (s.modSettle j f).live = s.live := rfl
@[simp] theorem State.halted_modSettle (s : State) (j : SlotNo) (f : Settle → Settle) : (s.modSettle j f).halted = s.halted := rfl

/-! ## setTag -/

@[simp] theorem State.setTag_qm (s : State) (t : ReadTag) (x : Option InFlight) : (s.setTag t x).qm = s.qm := rfl
@[simp] theorem State.setTag_jt (s : State) (t : ReadTag) (x : Option InFlight) : (s.setTag t x).jt = s.jt := rfl
@[simp] theorem State.setTag_sch (s : State) (t : ReadTag) (x : Option InFlight) : (s.setTag t x).sch = s.sch := rfl
@[simp] theorem State.setTag_fus (s : State) (t : ReadTag) (x : Option InFlight) : (s.setTag t x).fus = s.fus := rfl
@[simp] theorem State.setTag_ls (s : State) (t : ReadTag) (x : Option InFlight) : (s.setTag t x).ls = s.ls := rfl
@[simp] theorem State.setTag_cts (s : State) (t : ReadTag) (x : Option InFlight) : (s.setTag t x).cts = s.cts := rfl
@[simp] theorem State.setTag_tu (s : State) (t : ReadTag) (x : Option InFlight) : (s.setTag t x).tu = s.tu := rfl
@[simp] theorem State.setTag_pending (s : State) (t : ReadTag) (x : Option InFlight) : (s.setTag t x).pending = s.pending := rfl
@[simp] theorem State.setTag_readStamp (s : State) (t : ReadTag) (x : Option InFlight) : (s.setTag t x).readStamp = s.readStamp := rfl
@[simp] theorem State.setTag_choices (s : State) (t : ReadTag) (x : Option InFlight) : (s.setTag t x).choices = s.choices := rfl
@[simp] theorem State.setTag_hlu_engine (s : State) (t : ReadTag) (x : Option InFlight) : (s.setTag t x).hlu.engine = s.hlu.engine := rfl
@[simp] theorem State.setTag_hlu_setupLo (s : State) (t : ReadTag) (x : Option InFlight) : (s.setTag t x).hlu.setupLo = s.hlu.setupLo := rfl
@[simp] theorem State.setTag_hlu_setupHi (s : State) (t : ReadTag) (x : Option InFlight) : (s.setTag t x).hlu.setupHi = s.hlu.setupHi := rfl
@[simp] theorem State.setTag_hlu_protocol (s : State) (t : ReadTag) (x : Option InFlight) : (s.setTag t x).hlu.protocol = s.hlu.protocol := rfl
@[simp] theorem State.setTag_hlu_setupResult (s : State) (t : ReadTag) (x : Option InFlight) : (s.setTag t x).hlu.setupResult = s.hlu.setupResult := rfl
@[simp] theorem State.setTag_hlu_fault (s : State) (t : ReadTag) (x : Option InFlight) : (s.setTag t x).hlu.fault = s.hlu.fault := rfl
@[simp] theorem State.setTag_hlu_latched (s : State) (t : ReadTag) (x : Option InFlight) : (s.setTag t x).hlu.latched = s.hlu.latched := rfl
@[simp] theorem State.setTag_hlu_setupBuf (s : State) (t : ReadTag) (x : Option InFlight) : (s.setTag t x).hlu.setupBuf = s.hlu.setupBuf := rfl
@[simp] theorem State.setTag_hlu_readQueue (s : State) (t : ReadTag) (x : Option InFlight) : (s.setTag t x).hlu.readQueue = s.hlu.readQueue := rfl
@[simp] theorem State.setTag_hlu_writeQueue (s : State) (t : ReadTag) (x : Option InFlight) : (s.setTag t x).hlu.writeQueue = s.hlu.writeQueue := rfl
@[simp] theorem State.setTag_hlu_waiting (s : State) (t : ReadTag) (x : Option InFlight) : (s.setTag t x).hlu.waiting = s.hlu.waiting := rfl
@[simp] theorem State.setTag_hlu_writeSerial (s : State) (t : ReadTag) (x : Option InFlight) : (s.setTag t x).hlu.writeSerial = s.hlu.writeSerial := rfl
@[simp] theorem State.setTag_hlu_settle (s : State) (t : ReadTag) (x : Option InFlight) : (s.setTag t x).hlu.settle = s.hlu.settle := rfl
@[simp] theorem State.setTag_hlu_out (s : State) (t : ReadTag) (x : Option InFlight) : (s.setTag t x).hlu.out = s.hlu.out := rfl
@[simp] theorem State.job_setTag (s : State) (t : ReadTag) (x : Option InFlight) (i : SlotNo) : (s.setTag t x).job i = s.job i := rfl
@[simp] theorem State.fu_setTag (s : State) (t : ReadTag) (x : Option InFlight) (i : FuNo) : (s.setTag t x).fu i = s.fu i := rfl
@[simp] theorem State.sq_setTag (s : State) (t : ReadTag) (x : Option InFlight) (i : SqNo) : (s.setTag t x).sq i = s.sq i := rfl
@[simp] theorem State.cq_setTag (s : State) (t : ReadTag) (x : Option InFlight) (i : CqNo) : (s.setTag t x).cq i = s.cq i := rfl
@[simp] theorem State.chain_setTag (s : State) (t : ReadTag) (x : Option InFlight) (i : SqNo) : (s.setTag t x).chain i = s.chain i := rfl
@[simp] theorem State.layout_setTag (s : State) (t : ReadTag) (x : Option InFlight) (i : LayoutNo) : (s.setTag t x).layout i = s.layout i := rfl
@[simp] theorem State.table_setTag (s : State) (t : ReadTag) (x : Option InFlight) (i : TableNo) : (s.setTag t x).table i = s.table i := rfl
@[simp] theorem State.group_setTag (s : State) (t : ReadTag) (x : Option InFlight) (i : GroupNo) : (s.setTag t x).group i = s.group i := rfl
@[simp] theorem State.settle_setTag (s : State) (t : ReadTag) (x : Option InFlight) (i : SlotNo) : (s.setTag t x).settle i = s.settle i := rfl
@[simp] theorem State.live_setTag (s : State) (t : ReadTag) (x : Option InFlight) : (s.setTag t x).live = s.live := rfl
@[simp] theorem State.halted_setTag (s : State) (t : ReadTag) (x : Option InFlight) : (s.setTag t x).halted = s.halted := rfl

/-! ## setProtocol -/

@[simp] theorem State.setProtocol_qm (s : State) : (s.setProtocol).qm = s.qm := rfl
@[simp] theorem State.setProtocol_jt (s : State) : (s.setProtocol).jt = s.jt := rfl
@[simp] theorem State.setProtocol_sch (s : State) : (s.setProtocol).sch = s.sch := rfl
@[simp] theorem State.setProtocol_fus (s : State) : (s.setProtocol).fus = s.fus := rfl
@[simp] theorem State.setProtocol_ls (s : State) : (s.setProtocol).ls = s.ls := rfl
@[simp] theorem State.setProtocol_cts (s : State) : (s.setProtocol).cts = s.cts := rfl
@[simp] theorem State.setProtocol_tu (s : State) : (s.setProtocol).tu = s.tu := rfl
@[simp] theorem State.setProtocol_pending (s : State) : (s.setProtocol).pending = s.pending := rfl
@[simp] theorem State.setProtocol_readStamp (s : State) : (s.setProtocol).readStamp = s.readStamp := rfl
@[simp] theorem State.setProtocol_choices (s : State) : (s.setProtocol).choices = s.choices := rfl
@[simp] theorem State.setProtocol_hlu_engine (s : State) : (s.setProtocol).hlu.engine = s.hlu.engine := rfl
@[simp] theorem State.setProtocol_hlu_setupLo (s : State) : (s.setProtocol).hlu.setupLo = s.hlu.setupLo := rfl
@[simp] theorem State.setProtocol_hlu_setupHi (s : State) : (s.setProtocol).hlu.setupHi = s.hlu.setupHi := rfl
@[simp] theorem State.setProtocol_hlu_setupResult (s : State) : (s.setProtocol).hlu.setupResult = s.hlu.setupResult := rfl
@[simp] theorem State.setProtocol_hlu_fault (s : State) : (s.setProtocol).hlu.fault = s.hlu.fault := rfl
@[simp] theorem State.setProtocol_hlu_latched (s : State) : (s.setProtocol).hlu.latched = s.hlu.latched := rfl
@[simp] theorem State.setProtocol_hlu_setupBuf (s : State) : (s.setProtocol).hlu.setupBuf = s.hlu.setupBuf := rfl
@[simp] theorem State.setProtocol_hlu_readQueue (s : State) : (s.setProtocol).hlu.readQueue = s.hlu.readQueue := rfl
@[simp] theorem State.setProtocol_hlu_tags (s : State) : (s.setProtocol).hlu.tags = s.hlu.tags := rfl
@[simp] theorem State.setProtocol_hlu_writeQueue (s : State) : (s.setProtocol).hlu.writeQueue = s.hlu.writeQueue := rfl
@[simp] theorem State.setProtocol_hlu_waiting (s : State) : (s.setProtocol).hlu.waiting = s.hlu.waiting := rfl
@[simp] theorem State.setProtocol_hlu_writeSerial (s : State) : (s.setProtocol).hlu.writeSerial = s.hlu.writeSerial := rfl
@[simp] theorem State.setProtocol_hlu_settle (s : State) : (s.setProtocol).hlu.settle = s.hlu.settle := rfl
@[simp] theorem State.setProtocol_hlu_out (s : State) : (s.setProtocol).hlu.out = s.hlu.out := rfl
@[simp] theorem State.job_setProtocol (s : State) (i : SlotNo) : (s.setProtocol).job i = s.job i := rfl
@[simp] theorem State.fu_setProtocol (s : State) (i : FuNo) : (s.setProtocol).fu i = s.fu i := rfl
@[simp] theorem State.sq_setProtocol (s : State) (i : SqNo) : (s.setProtocol).sq i = s.sq i := rfl
@[simp] theorem State.cq_setProtocol (s : State) (i : CqNo) : (s.setProtocol).cq i = s.cq i := rfl
@[simp] theorem State.chain_setProtocol (s : State) (i : SqNo) : (s.setProtocol).chain i = s.chain i := rfl
@[simp] theorem State.layout_setProtocol (s : State) (i : LayoutNo) : (s.setProtocol).layout i = s.layout i := rfl
@[simp] theorem State.table_setProtocol (s : State) (i : TableNo) : (s.setProtocol).table i = s.table i := rfl
@[simp] theorem State.group_setProtocol (s : State) (i : GroupNo) : (s.setProtocol).group i = s.group i := rfl
@[simp] theorem State.settle_setProtocol (s : State) (i : SlotNo) : (s.setProtocol).settle i = s.settle i := rfl
@[simp] theorem State.tag_setProtocol (s : State) (i : ReadTag) : (s.setProtocol).tag i = s.tag i := rfl
@[simp] theorem State.live_setProtocol (s : State) : (s.setProtocol).live = s.live := rfl
@[simp] theorem State.halted_setProtocol (s : State) : (s.setProtocol).halted = s.halted := rfl

/-! ## setEngine -/

@[simp] theorem State.setEngine_qm (s : State) (e : EngineState) : (s.setEngine e).qm = s.qm := rfl
@[simp] theorem State.setEngine_jt (s : State) (e : EngineState) : (s.setEngine e).jt = s.jt := rfl
@[simp] theorem State.setEngine_sch (s : State) (e : EngineState) : (s.setEngine e).sch = s.sch := rfl
@[simp] theorem State.setEngine_fus (s : State) (e : EngineState) : (s.setEngine e).fus = s.fus := rfl
@[simp] theorem State.setEngine_ls (s : State) (e : EngineState) : (s.setEngine e).ls = s.ls := rfl
@[simp] theorem State.setEngine_cts (s : State) (e : EngineState) : (s.setEngine e).cts = s.cts := rfl
@[simp] theorem State.setEngine_tu (s : State) (e : EngineState) : (s.setEngine e).tu = s.tu := rfl
@[simp] theorem State.setEngine_pending (s : State) (e : EngineState) : (s.setEngine e).pending = s.pending := rfl
@[simp] theorem State.setEngine_readStamp (s : State) (e : EngineState) : (s.setEngine e).readStamp = s.readStamp := rfl
@[simp] theorem State.setEngine_choices (s : State) (e : EngineState) : (s.setEngine e).choices = s.choices := rfl
@[simp] theorem State.setEngine_hlu_setupLo (s : State) (e : EngineState) : (s.setEngine e).hlu.setupLo = s.hlu.setupLo := rfl
@[simp] theorem State.setEngine_hlu_setupHi (s : State) (e : EngineState) : (s.setEngine e).hlu.setupHi = s.hlu.setupHi := rfl
@[simp] theorem State.setEngine_hlu_protocol (s : State) (e : EngineState) : (s.setEngine e).hlu.protocol = s.hlu.protocol := rfl
@[simp] theorem State.setEngine_hlu_setupResult (s : State) (e : EngineState) : (s.setEngine e).hlu.setupResult = s.hlu.setupResult := rfl
@[simp] theorem State.setEngine_hlu_fault (s : State) (e : EngineState) : (s.setEngine e).hlu.fault = s.hlu.fault := rfl
@[simp] theorem State.setEngine_hlu_latched (s : State) (e : EngineState) : (s.setEngine e).hlu.latched = s.hlu.latched := rfl
@[simp] theorem State.setEngine_hlu_setupBuf (s : State) (e : EngineState) : (s.setEngine e).hlu.setupBuf = s.hlu.setupBuf := rfl
@[simp] theorem State.setEngine_hlu_readQueue (s : State) (e : EngineState) : (s.setEngine e).hlu.readQueue = s.hlu.readQueue := rfl
@[simp] theorem State.setEngine_hlu_tags (s : State) (e : EngineState) : (s.setEngine e).hlu.tags = s.hlu.tags := rfl
@[simp] theorem State.setEngine_hlu_writeQueue (s : State) (e : EngineState) : (s.setEngine e).hlu.writeQueue = s.hlu.writeQueue := rfl
@[simp] theorem State.setEngine_hlu_waiting (s : State) (e : EngineState) : (s.setEngine e).hlu.waiting = s.hlu.waiting := rfl
@[simp] theorem State.setEngine_hlu_writeSerial (s : State) (e : EngineState) : (s.setEngine e).hlu.writeSerial = s.hlu.writeSerial := rfl
@[simp] theorem State.setEngine_hlu_settle (s : State) (e : EngineState) : (s.setEngine e).hlu.settle = s.hlu.settle := rfl
@[simp] theorem State.setEngine_hlu_out (s : State) (e : EngineState) : (s.setEngine e).hlu.out = s.hlu.out := rfl
@[simp] theorem State.job_setEngine (s : State) (e : EngineState) (i : SlotNo) : (s.setEngine e).job i = s.job i := rfl
@[simp] theorem State.fu_setEngine (s : State) (e : EngineState) (i : FuNo) : (s.setEngine e).fu i = s.fu i := rfl
@[simp] theorem State.sq_setEngine (s : State) (e : EngineState) (i : SqNo) : (s.setEngine e).sq i = s.sq i := rfl
@[simp] theorem State.cq_setEngine (s : State) (e : EngineState) (i : CqNo) : (s.setEngine e).cq i = s.cq i := rfl
@[simp] theorem State.chain_setEngine (s : State) (e : EngineState) (i : SqNo) : (s.setEngine e).chain i = s.chain i := rfl
@[simp] theorem State.layout_setEngine (s : State) (e : EngineState) (i : LayoutNo) : (s.setEngine e).layout i = s.layout i := rfl
@[simp] theorem State.table_setEngine (s : State) (e : EngineState) (i : TableNo) : (s.setEngine e).table i = s.table i := rfl
@[simp] theorem State.group_setEngine (s : State) (e : EngineState) (i : GroupNo) : (s.setEngine e).group i = s.group i := rfl
@[simp] theorem State.settle_setEngine (s : State) (e : EngineState) (i : SlotNo) : (s.setEngine e).settle i = s.settle i := rfl
@[simp] theorem State.tag_setEngine (s : State) (e : EngineState) (i : ReadTag) : (s.setEngine e).tag i = s.tag i := rfl

/-! ## strike -/

@[simp] theorem State.strike_hlu (s : State) (u : Upset) : (s.strike u).hlu = s.hlu := rfl
@[simp] theorem State.strike_qm (s : State) (u : Upset) : (s.strike u).qm = s.qm := rfl
@[simp] theorem State.strike_sch (s : State) (u : Upset) : (s.strike u).sch = s.sch := rfl
@[simp] theorem State.strike_fus (s : State) (u : Upset) : (s.strike u).fus = s.fus := rfl
@[simp] theorem State.strike_cts (s : State) (u : Upset) : (s.strike u).cts = s.cts := rfl
@[simp] theorem State.strike_tu (s : State) (u : Upset) : (s.strike u).tu = s.tu := rfl
@[simp] theorem State.strike_pending (s : State) (u : Upset) : (s.strike u).pending = s.pending := rfl
@[simp] theorem State.strike_readStamp (s : State) (u : Upset) : (s.strike u).readStamp = s.readStamp := rfl
@[simp] theorem State.strike_choices (s : State) (u : Upset) : (s.strike u).choices = s.choices := rfl
@[simp] theorem State.job_strike (s : State) (u : Upset) (i : SlotNo) : (s.strike u).job i = s.job i := rfl
@[simp] theorem State.fu_strike (s : State) (u : Upset) (i : FuNo) : (s.strike u).fu i = s.fu i := rfl
@[simp] theorem State.sq_strike (s : State) (u : Upset) (i : SqNo) : (s.strike u).sq i = s.sq i := rfl
@[simp] theorem State.cq_strike (s : State) (u : Upset) (i : CqNo) : (s.strike u).cq i = s.cq i := rfl
@[simp] theorem State.chain_strike (s : State) (u : Upset) (i : SqNo) : (s.strike u).chain i = s.chain i := rfl
@[simp] theorem State.layout_strike (s : State) (u : Upset) (i : LayoutNo) : (s.strike u).layout i = s.layout i := rfl
@[simp] theorem State.table_strike (s : State) (u : Upset) (i : TableNo) : (s.strike u).table i = s.table i := rfl
@[simp] theorem State.group_strike (s : State) (u : Upset) (i : GroupNo) : (s.strike u).group i = s.group i := rfl
@[simp] theorem State.settle_strike (s : State) (u : Upset) (i : SlotNo) : (s.strike u).settle i = s.settle i := rfl
@[simp] theorem State.tag_strike (s : State) (u : Upset) (i : ReadTag) : (s.strike u).tag i = s.tag i := rfl
@[simp] theorem State.live_strike (s : State) (u : Upset) : (s.strike u).live = s.live := rfl
@[simp] theorem State.halted_strike (s : State) (u : Upset) : (s.strike u).halted = s.halted := rfl

/-! ## Reading what an update wrote -/

theorem State.job_modJob (s : State) (j i : SlotNo) (f : Job → Job) :
    (s.modJob j f).job i = if i = j then f (s.job j) else s.job i := modifyAt_get _ _ _ _

@[simp] theorem State.job_modJob_self (s : State) (j : SlotNo) (f : Job → Job) :
    (s.modJob j f).job j = f (s.job j) := by simp [State.job_modJob]

theorem State.fu_modFu (s : State) (k i : FuNo) (f : Fu → Fu) :
    (s.modFu k f).fu i = if i = k then f (s.fu k) else s.fu i := modifyAt_get _ _ _ _

@[simp] theorem State.fu_modFu_self (s : State) (k : FuNo) (f : Fu → Fu) :
    (s.modFu k f).fu k = f (s.fu k) := by simp [State.fu_modFu]

theorem State.fu_modCtx (s : State) (k i : FuNo) (f : Context → Context) :
    (s.modCtx k f).fu i = if i = k then { s.fu k with ctx := (s.fu k).ctx.map f } else s.fu i := State.fu_modFu _ _ _ _

@[simp] theorem State.fu_modCtx_self (s : State) (k : FuNo) (f : Context → Context) :
    (s.modCtx k f).fu k = { s.fu k with ctx := (s.fu k).ctx.map f } := State.fu_modFu_self _ _ _

theorem State.sq_modSq (s : State) (q i : SqNo) (f : Sq → Sq) :
    (s.modSq q f).sq i = if i = q then f (s.sq q) else s.sq i := modifyAt_get _ _ _ _

@[simp] theorem State.sq_modSq_self (s : State) (q : SqNo) (f : Sq → Sq) :
    (s.modSq q f).sq q = f (s.sq q) := by simp [State.sq_modSq]

theorem State.cq_modCq (s : State) (q i : CqNo) (f : Cq → Cq) :
    (s.modCq q f).cq i = if i = q then f (s.cq q) else s.cq i := modifyAt_get _ _ _ _

@[simp] theorem State.cq_modCq_self (s : State) (q : CqNo) (f : Cq → Cq) :
    (s.modCq q f).cq q = f (s.cq q) := by simp [State.cq_modCq]

theorem State.chain_setChain (s : State) (q i : SqNo) (c : ChainState) :
    (s.setChain q c).chain i = if i = q then c else s.chain i := modifyAt_get _ _ _ _

@[simp] theorem State.chain_setChain_self (s : State) (q : SqNo) (c : ChainState) :
    (s.setChain q c).chain q = c := by simp [State.chain_setChain]

theorem State.layout_modLayout (s : State) (l i : LayoutNo) (f : LayoutSlot → LayoutSlot) :
    (s.modLayout l f).layout i = if i = l then f (s.layout l) else s.layout i := modifyAt_get _ _ _ _

@[simp] theorem State.layout_modLayout_self (s : State) (l : LayoutNo) (f : LayoutSlot → LayoutSlot) :
    (s.modLayout l f).layout l = f (s.layout l) := by simp [State.layout_modLayout]

theorem State.table_modTable (s : State) (t i : TableNo) (f : CodeTable → CodeTable) :
    (s.modTable t f).table i = if i = t then f (s.table t) else s.table i := modifyAt_get _ _ _ _

@[simp] theorem State.table_modTable_self (s : State) (t : TableNo) (f : CodeTable → CodeTable) :
    (s.modTable t f).table t = f (s.table t) := by simp [State.table_modTable]

theorem State.group_setGroup (s : State) (g i : GroupNo) (v : Vector Accumulator 16) :
    (s.setGroup g v).group i = if i = g then v else s.group i := modifyAt_get _ _ _ _

@[simp] theorem State.group_setGroup_self (s : State) (g : GroupNo) (v : Vector Accumulator 16) :
    (s.setGroup g v).group g = v := by simp [State.group_setGroup]

theorem State.settle_modSettle (s : State) (j i : SlotNo) (f : Settle → Settle) :
    (s.modSettle j f).settle i = if i = j then f (s.settle j) else s.settle i := modifyAt_get _ _ _ _

@[simp] theorem State.settle_modSettle_self (s : State) (j : SlotNo) (f : Settle → Settle) :
    (s.modSettle j f).settle j = f (s.settle j) := by simp [State.settle_modSettle]

theorem State.tag_setTag (s : State) (t i : ReadTag) (x : Option InFlight) :
    (s.setTag t x).tag i = if i = t then x else s.tag i := modifyAt_get _ _ _ _

@[simp] theorem State.tag_setTag_self (s : State) (t : ReadTag) (x : Option InFlight) :
    (s.setTag t x).tag t = x := by simp [State.tag_setTag]

@[simp] theorem State.setEngine_engine (s : State) (e : EngineState) : (s.setEngine e).hlu.engine = e := rfl
@[simp] theorem State.setProtocol_protocol (s : State) : s.setProtocol.hlu.protocol = true := rfl
@[simp] theorem State.setTag_hlu_tags (s : State) (t : ReadTag) (x : Option InFlight) :
    (s.setTag t x).hlu.tags = modifyAt s.hlu.tags t fun _ => x := rfl
@[simp] theorem State.modSettle_hlu_settle (s : State) (j : SlotNo) (f : Settle → Settle) :
    (s.modSettle j f).hlu.settle = modifyAt s.hlu.settle j f := rfl

/-- An event that upsets nothing strikes nothing. -/
@[simp] theorem State.strike_empty (s : State) : s.strike {} = s := rfl

end Sys2Proof.Machine
end

