-- ==== Sys2Proof/Laws/Memory.lean ====
section
/-! SUPPORT. The laws of the addressed RAMs: what a read finds after a write, and that every write keeps the canonical
form. -/

namespace Sys2Proof.Machine

/-! ## Canonical form -/

theorem cellsAbove_mono {m : Cells} {lo lo' : Nat} (h : lo' ≤ lo) (w : cellsAbove lo m = true) :
    cellsAbove lo' m = true := by
  cases m with
  | nil => rfl
  | cons p m =>
    obtain ⟨k, b⟩ := p
    simp only [cellsAbove, Bool.and_eq_true, decide_eq_true_eq] at w ⊢
    exact ⟨⟨le_trans h w.1.1, w.1.2⟩, w.2⟩

theorem cellsAbove_writeByte {m : Cells} {lo a : Nat} {b : Byte} (h : lo ≤ a) (w : cellsAbove lo m = true) :
    cellsAbove lo (writeByte m a b) = true := by
  induction m generalizing lo with
  | nil =>
    simp only [writeByte]
    split
    · rfl
    · next hb => simp [cellsAbove, h, hb]
  | cons p m ih =>
    obtain ⟨k, v⟩ := p
    simp only [cellsAbove, Bool.and_eq_true, decide_eq_true_eq, bne_iff_ne, ne_eq] at w
    obtain ⟨⟨hk, hv⟩, hm⟩ := w
    simp only [writeByte]
    split
    · next hak =>
      split
      · simp [cellsAbove, hk, hv, hm]
      · next hb => simp [cellsAbove, h, hb, hv, hm]; omega
    · split
      · next hak => subst hak; split
                    · exact cellsAbove_mono (by omega) hm
                    · next hb => simp [cellsAbove, h, hb, hm]
      · have : k + 1 ≤ a := by omega
        simp [cellsAbove, hk, hv, ih this hm]

/-- A byte write keeps the canonical form. -/
theorem wf_writeByte {m : Cells} (a : Nat) (b : Byte) (w : Memory.wf m = true) : Memory.wf (writeByte m a b) = true :=
  cellsAbove_writeByte (Nat.zero_le a) w

/-- A write of bytes keeps the canonical form. -/
theorem wf_writeBytes {m : Cells} (a : Nat) (bs : List Byte) (w : Memory.wf m = true) :
    Memory.wf (writeBytes m a bs) = true := by
  induction bs generalizing m a with
  | nil => exact w
  | cons b bs ih => exact ih _ (wf_writeByte a b w)

@[simp] theorem wf_nil : Memory.wf [] = true := rfl

/-! ## Reading after writing -/

theorem readByte_of_above {m : Cells} {lo a : Nat} (w : cellsAbove lo m = true) (h : a < lo) :
    readByte m a = Config.unlistedByte := by
  induction m generalizing lo with
  | nil => rfl
  | cons p m ih =>
    obtain ⟨k, b⟩ := p
    simp only [cellsAbove, Bool.and_eq_true, decide_eq_true_eq] at w
    simp only [readByte]
    rw [if_neg (by omega)]
    exact ih w.2 (by omega)

theorem readByte_writeByte_above {m : Cells} {lo : Nat} (a x : Nat) (b : Byte) (w : cellsAbove lo m = true) :
    readByte (writeByte m a b) x = if x = a then b else readByte m x := by
  induction m generalizing lo with
  | nil =>
    simp only [writeByte]
    split
    · next hb => subst hb; simp [readByte]
    · simp [readByte, eq_comm]
  | cons p m ih =>
    obtain ⟨k, v⟩ := p
    simp only [cellsAbove, Bool.and_eq_true, decide_eq_true_eq] at w
    obtain ⟨⟨hk, hv⟩, hm⟩ := w
    simp only [writeByte]
    split
    · next hak =>
      split
      · next hb =>
        subst hb
        by_cases hx : x = a
        · subst hx
          simp only [readByte, if_true]
          rw [if_neg (by omega)]
          exact readByte_of_above hm (by omega)
        · simp [hx]
      · simp only [readByte]
        by_cases hx : x = a
        · simp [hx]
        · rw [if_neg (Ne.symm hx), if_neg hx]
    · split
      · next hak =>
        subst hak
        by_cases hx : x = a
        · subst hx
          simp only [if_true]
          split
          · next hb => subst hb; exact readByte_of_above hm (by omega)
          · simp [readByte]
        · rw [if_neg hx]
          split
          · simp [readByte, Ne.symm hx]
          · simp [readByte, Ne.symm hx]
      · next h1 h2 =>
        simp only [readByte]
        by_cases hx : x = k
        · subst hx; simp [Ne.symm h2]
        · rw [if_neg (Ne.symm hx), if_neg (Ne.symm hx)]
          exact ih hm

/-- A read of one byte after a write of one byte. -/
theorem readByte_writeByte {m : Cells} (a x : Nat) (b : Byte) (w : Memory.wf m = true) :
    readByte (writeByte m a b) x = if x = a then b else readByte m x := readByte_writeByte_above a x b w

/-- A read after a write of bytes: the byte written, or the byte that stood there. -/
theorem readByte_writeBytes {m : Cells} (a x : Nat) (bs : List Byte) (w : Memory.wf m = true) :
    readByte (writeBytes m a bs) x = if h : a ≤ x ∧ x - a < bs.length then bs[x - a]'h.2 else readByte m x := by
  induction bs generalizing m a with
  | nil => simp [writeBytes]
  | cons b bs ih =>
    rw [writeBytes, ih _ (wf_writeByte a b w), readByte_writeByte a x b w]
    by_cases h1 : a + 1 ≤ x ∧ x - (a + 1) < bs.length
    · have h2 : a ≤ x ∧ x - a < (b :: bs).length := by
        simp only [List.length_cons]; omega
      rw [dif_pos h1, dif_pos h2]
      have : x - a = x - (a + 1) + 1 := by omega
      simp only [this, List.getElem_cons_succ]
    · rw [dif_neg h1]
      by_cases hx : x = a
      · subst hx; simp
      · rw [if_neg hx, dif_neg]
        simp only [List.length_cons]
        omega

@[simp] theorem readBytes_length (m : Cells) (a n : Nat) : (readBytes m a n).length = n := by
  induction n generalizing a with
  | zero => rfl
  | succ n ih => simp [readBytes, ih]

theorem readBytes_get (m : Cells) (a n i : Nat) (h : i < (readBytes m a n).length) :
    (readBytes m a n)[i] = readByte m (a + i) := by
  induction n generalizing a i with
  | zero => simp [readBytes] at h
  | succ n ih =>
    cases i with
    | zero => simp [readBytes]
    | succ i =>
      simp only [readBytes, List.getElem_cons_succ]
      rw [ih]
      congr 1
      omega

/-- Reading back what was written. -/
theorem readBytes_writeBytes {m : Cells} (a : Nat) (bs : List Byte) (w : Memory.wf m = true) :
    readBytes (writeBytes m a bs) a bs.length = bs := by
  apply List.ext_getElem
  · simp
  · intro i h1 h2
    rw [readBytes_get, readByte_writeBytes _ _ _ w, dif_pos ⟨by omega, by omega⟩]
    simp

end Sys2Proof.Machine
end

