-- ==== Sys2Proof/Laws/Moves.lean ====
section
/-! SUPPORT. Everything a command can do to the state, said once: each shared operation is a chain of elementary moves.
An invariant that every elementary move keeps is kept by every command. -/

namespace Sys2Proof.Machine

/-! ## What the pieces of a sound state satisfy -/

/-- A sound unit: canonical windows, cursors inside them, a batch that names each accumulator once. -/
structure UnitSound (x : Fu) : Prop where
  windows : x.windowsCanonical
  context : ∀ c, x.ctx = some c → c.cursorsInside ∧ c.batchDistinct

/-- A sound SQ: indices in range, a canonical fetch buffer. -/
structure SqSound (x : Sq) : Prop where
  indices : x.indicesInRange
  buffer : Memory.wf x.fetchBuf = true

/-- A sound group: every accumulator in range. -/
def GroupSound (v : Vector Accumulator 16) : Prop := ∀ a : AccNo, v[a].inRange

/-- A sound Layout Store: canonical pools and image buffer. -/
structure LsSound (x : Ls) : Prop where
  directives : Memory.wf x.dirPool = true
  literals : Memory.wf x.litPool = true
  buffer : Memory.wf x.buffer = true

/-- Every unit is sound. -/
def UnitsSound (s : State) : Prop := ∀ k, UnitSound (s.fu k)

/-! ## Elementary moves -/

/-- One elementary change of the state. -/
inductive Move : State → State → Prop
  | job (s j f) : Move s (s.modJob j f)
  | unit (s k f) (h : UnitSound (s.fu k) → UnitSound (f (s.fu k))) : Move s (s.modFu k f)
  | sq (s q f) (h : SqSound (s.sq q) → SqSound (f (s.sq q))) : Move s (s.modSq q f)
  | cq (s q f) (h : (s.cq q).indicesInRange → (f (s.cq q)).indicesInRange)
      (ht : s.halted = true → (s.cq q).holdTimer = none → (f (s.cq q)).holdTimer = none) : Move s (s.modCq q f)
  | chain (s q c) : Move s (s.setChain q c)
  | layout (s l f) : Move s (s.modLayout l f)
  | table (s t f) : Move s (s.modTable t f)
  | group (s g v) (h : UnitsSound s → GroupSound (s.group g) → GroupSound v) : Move s (s.setGroup g v)
  | settle (s j f) : Move s (s.modSettle j f)
  | freeTag (s t) : Move s (s.setTag t none)
  | protocol (s b) : Move s { s with hlu := { s.hlu with protocol := b } }
  | engine (s e) (h : e ≠ .halted) : Move s (s.setEngine e)
  | strike (s u) : Move s (s.strike u)
  | ask (s who part addr len place) : Move s (askRead who part addr len place s)
  | hand (s w) : Move s (handWrite w s)
  | drop (s who part) : Move s (dropReads who part s)
  | dropRest (s f) : Move s (dropRest f s)
  | setup (s e r a b) (he : e ≠ .halted) (hb : Memory.wf s.hlu.setupBuf = true → Memory.wf b = true) :
      Move s { s with hlu := { s.hlu with engine := e, setupResult := r, latched := a, setupBuf := b } }
  | setupData (s b) (hb : Memory.wf s.hlu.setupBuf = true → Memory.wf b = true) :
      Move s { s with hlu := { s.hlu with setupBuf := b } }
  | configure (s a b l n p) (ha : ∀ q : SqNo, SqSound a[q]) (hb : ∀ q : CqNo, b[q].indicesInRange)
      (ht : ∀ q : CqNo, b[q].holdTimer = none) :
      Move s { s with qm := { s.qm with sqs := a, cqs := b, lastUrgent := l, lastNormal := n, progressBase := p } }
  | posting (s p i) : Move s { s with qm := { s.qm with posting := p, inPosting := i } }
  | granted (s u n) : Move s { s with qm := { s.qm with lastUrgent := u, lastNormal := n } }
  | takes (s n b) : Move s { s with jt := { s.jt with nextTake := n, badParity := b } }
  | sch (s x) (h : ReadyOrdered s → x.ready.Pairwise fun a b => b.before a = false) : Move s { s with sch := x }
  | ls (s x) (h : LsSound s.ls → LsSound x) : Move s { s with ls := x }
  | cts (s x) (h : Memory.wf s.cts.buffer = true → Memory.wf x.buffer = true) : Move s { s with cts := x }
  | choice (s n) : Move s { s with choices := n }
  | halt (s f) : Move s (enterHalted { s with hlu := { s.hlu with fault := f } })
  | issueRead (s t r rest) (h : s.hlu.readQueue = r :: rest) :
      Move s
        { s.setTag t (some ⟨r, s.readStamp⟩) with
          hlu := { (s.setTag t (some ⟨r, s.readStamp⟩)).hlu with readQueue := rest, out := [.read t r.addr r.len] }
          readStamp := s.readStamp + 1 }
  | issuePart (s e e' rest ops) (h : s.hlu.writeQueue = e :: rest) :
      Move s { s with hlu := { s.hlu with writeQueue := e' :: rest, out := ops } }
  | leave (s e rest ops) (h : s.hlu.writeQueue = e :: rest) :
      Move s (admitWaiting { s with hlu := { s.hlu with writeQueue := rest, out := ops } }).2

/-- The commands that replace the part's state, or the setup address registers, in one go. -/
inductive Replaces : Instr → State → State → Prop
  | reset (i s) : Replaces i s (resetCommand s)
  | clear (i s) : Replaces i s (clearCommand s)
  | powerOn (i s) (h : i = .linkReset ∨ i = .powerOn) : Replaces i s (powerOnState s)
  | registers (i s lo hi) (h : ∃ o w v, i = .registerWrite o w v) :
      Replaces i s { s with hlu := { s.hlu with setupLo := lo, setupHi := hi } }

/-- Elementary changes one after another. -/
inductive Moves : State → State → Prop
  | refl (s) : Moves s s
  | step {s t u} (h : Moves s t) (m : Move t u) : Moves s u

/-- A property that every elementary change keeps is kept by any number of them. -/
theorem Moves.keep {P : State → Prop} (k : ∀ s t, Move s t → P s → P t) {s t : State} (h : Moves s t) (p : P s) :
    P t := by
  induction h with
  | refl => exact p
  | step _ m ih => exact k _ _ m ih

theorem Moves.trans {s t u : State} (h : Moves s t) (h' : Moves t u) : Moves s u := by
  induction h' with
  | refl => exact h
  | step _ m ih => exact ih.step m

theorem Moves.foldl {α : Type} {f : State → α → State} {a : State} (hf : ∀ s x, Moves a s → Moves a (f s x))
    (l : List α) {s : State} (h : Moves a s) : Moves a (l.foldl f s) := by
  induction l generalizing s with
  | nil => exact h
  | cons x l ih => exact ih (hf s x h)

variable {a s : State}

theorem Moves.modJob (h : Moves a s) (j f) : Moves a (s.modJob j f) := h.step (.job s j f)
theorem Moves.setChain (h : Moves a s) (q c) : Moves a (s.setChain q c) := h.step (.chain s q c)
theorem Moves.modLayout (h : Moves a s) (l f) : Moves a (s.modLayout l f) := h.step (.layout s l f)
theorem Moves.modTable (h : Moves a s) (t f) : Moves a (s.modTable t f) := h.step (.table s t f)
theorem Moves.modSettle (h : Moves a s) (j f) : Moves a (s.modSettle j f) := h.step (.settle s j f)
theorem Moves.askRead (h : Moves a s) (who part addr len place) : Moves a (askRead who part addr len place s) :=
  h.step (.ask s who part addr len place)
theorem Moves.handWrite (h : Moves a s) (w) : Moves a (handWrite w s) := h.step (.hand s w)
theorem Moves.setProtocol (h : Moves a s) : Moves a s.setProtocol := h.step (.protocol s true)
theorem Moves.strike (h : Moves a s) (u) : Moves a (s.strike u) := h.step (.strike s u)
theorem Moves.posting (h : Moves a s) (p i) : Moves a { s with qm := { s.qm with posting := p, inPosting := i } } :=
  h.step (.posting s p i)

/-! ## Link -/

theorem Moves.choose (h : Moves a s) (n : Nat) : Moves a (s.choose n).2 := by
  unfold State.choose
  split
  · exact h
  · exact h.step (.choice s _)

theorem Moves.fatalFault (h : Moves a s) (f) : Moves a (fatalFault f s) := by
  unfold Machine.fatalFault
  split
  · exact h.step (.halt s f)
  · exact h

theorem Moves.readSlots (h : Moves a s) (js) : Moves a (readSlots js s).2 := by
  unfold Machine.readSlots
  split
  · exact h
  · exact (h.choose _).fatalFault _

theorem Moves.pickSlot (h : Moves a s) (p) : Moves a (s.pickSlot p).2 := h.choose _

theorem Moves.withSlots (h : Moves a s) (js) {f : State → State} (hf : ∀ t, Moves a t → Moves a (f t)) :
    Moves a (withSlots js f s) := by
  unfold Machine.withSlots
  have := h.readSlots js
  split
  · next t e => rw [e] at this; exact hf t this
  · next t e => rw [e] at this; exact this

/-! ## Units without conditions -/

theorem UnitSound.noContext {x y : Fu} (h : UnitSound x) (hs : y.srcWindow = x.srcWindow) (ht : y.stgWindow = x.stgWindow)
    (hc : y.ctx = none) : UnitSound y :=
  ⟨by simpa [Fu.windowsCanonical, hs, ht] using h.windows, by simp [hc]⟩

theorem UnitSound.mapContext {x : Fu} (h : UnitSound x) (f : Context → Context)
    (hf : ∀ c, c.cursorsInside ∧ c.batchDistinct → (f c).cursorsInside ∧ (f c).batchDistinct) :
    UnitSound { x with ctx := x.ctx.map f } := by
  refine ⟨h.windows, ?_⟩
  intro c hc
  simp only [Option.map_eq_some_iff] at hc
  obtain ⟨d, hd, rfl⟩ := hc
  exact hf d (h.context d hd)

theorem Moves.modCtx (h : Moves a s) (k) (f : Context → Context)
    (hf : ∀ c, c.cursorsInside ∧ c.batchDistinct → (f c).cursorsInside ∧ (f c).batchDistinct) :
    Moves a (s.modCtx k f) := h.step (.unit s k _ fun u => u.mapContext f hf)

theorem Moves.toIdle (h : Moves a s) (k) : Moves a (s.modFu k Fu.toIdle) :=
  h.step (.unit s k _ fun u => u.noContext rfl rfl rfl)

theorem Moves.stopUnit (h : Moves a s) (k) : Moves a (stopUnit k s) :=
  h.step (.unit s k _ fun u => u.noContext rfl rfl rfl)

/-! ## Job Table -/

theorem Moves.joinPosting (h : Moves a s) (e) : Moves a (joinPosting e s) := h.posting _ _

theorem Moves.enterPosting (h : Moves a s) (j) : Moves a (enterPosting j s) := by
  unfold Machine.enterPosting
  dsimp only
  split
  · exact ((h.modJob _ _).joinPosting _).setChain _ _
  · exact (h.modJob _ _).joinPosting _

theorem Moves.settleIfUnwritten (h : Moves a s) (j) : Moves a (settleIfUnwritten j s) := by
  unfold Machine.settleIfUnwritten
  split
  · exact h
  · exact h.enterPosting j

theorem Moves.drainUnbound (h : Moves a s) (j) : Moves a (drainUnbound j s) := (h.modJob _ _).settleIfUnwritten j

theorem Moves.serviceEnd (h : Moves a s) (j st d arg v) : Moves a (serviceEnd j st d arg v s) :=
  h.withSlots _ fun _ ht => (ht.modJob _ _).drainUnbound j

theorem Moves.serviceSuccess (h : Moves a s) (j v) : Moves a (serviceSuccess j v s) := by
  unfold Machine.serviceSuccess
  split
  · exact h.serviceEnd _ _ _ _ _
  · exact h

theorem LsSound.giveBackImage {x : Ls} (h : LsSound x) (im) : LsSound (x.giveBackImage im) :=
  ⟨h.directives, h.literals, h.buffer⟩

theorem Moves.giveBack (h : Moves a s) (im) : Moves a { s with ls := s.ls.giveBackImage im } :=
  h.step (.ls s _ fun u => u.giveBackImage im)

theorem Moves.installImage (h : Moves a s) (l im) : Moves a (installImage l im s) := by
  unfold Machine.installImage
  dsimp only
  split
  · exact (h.giveBack _).modLayout _ _
  · exact h.modLayout _ _

theorem Moves.emptyLayout (h : Moves a s) (l) : Moves a (emptyLayout l s) := (h.giveBack _).modLayout _ _

theorem Moves.releaseLayout (h : Moves a s) (l) : Moves a (releaseLayout l s) := by
  unfold Machine.releaseLayout
  dsimp only
  split
  · exact h.modLayout _ _
  · split
    · exact ((h.modLayout _ _).installImage _ _).serviceSuccess _ _
    · exact ((h.modLayout _ _).emptyLayout _).serviceSuccess _ _
    · exact h.modLayout _ _

theorem Moves.releaseRefs (h : Moves a s) (x) : Moves a (releaseRefs x s) := by
  unfold Machine.releaseRefs Machine.releaseTable
  have : ∀ t : State, Moves a t → Moves a (match x.refs, x.boundCodes with
      | .both, some t' | .codes, some t' => t.modTable t' fun x => { x with refCount := x.refCount - 1 }
      | _, _ => t) := by
    intro t ht
    split
    · exact ht.modTable _ _
    · exact ht.modTable _ _
    · exact ht
  apply this
  split
  · exact h.releaseLayout _
  · exact h.releaseLayout _
  · exact h

theorem Moves.enterDraining (h : Moves a s) (j) : Moves a (enterDraining j s) :=
  ((h.modJob _ _).releaseRefs _).settleIfUnwritten j

theorem Moves.endJob (h : Moves a s) (j st d) : Moves a (endJob j st d s) := (h.modJob _ _).enterDraining j

/-! ## The ready order -/

/-- The three keys of a ready entry as one key. -/
def ReadyEntry.key (e : ReadyEntry) : Nat ×ₗ Nat ×ₗ Nat :=
  toLex (if e.cls = .urgent then 0 else 1, toLex (if e.suspended then 0 else 1, e.takeOrder))

theorem ReadyEntry.before_iff (x y : ReadyEntry) : x.before y = true ↔ x.key < y.key := by
  obtain ⟨_, c, n, u⟩ := x
  obtain ⟨_, c', n', u'⟩ := y
  cases c <;> cases c' <;> cases u <;> cases u' <;> simp [ReadyEntry.before, ReadyEntry.key, Prod.Lex.toLex_lt_toLex]

theorem ReadyEntry.not_before_iff (x y : ReadyEntry) : x.before y = false ↔ y.key ≤ x.key := by
  rw [← not_lt, ← ReadyEntry.before_iff, Bool.not_eq_true]

/-- A sorted ready order stays sorted when an entry joins. -/
theorem insertReady_sorted (e : ReadyEntry) {l : List ReadyEntry}
    (h : l.Pairwise fun a b => b.before a = false) : (insertReady e l).Pairwise fun a b => b.before a = false := by
  have key : ∀ l : List ReadyEntry, ∀ y, y ∈ insertReady e l ↔ y = e ∨ y ∈ l := by
    intro l y
    induction l with
    | nil => simp [insertReady]
    | cons x xs ih =>
      simp only [insertReady]
      split
      · simp
      · simp only [List.mem_cons, ih]; tauto
  induction l with
  | nil => simp [insertReady]
  | cons x xs ih =>
    obtain ⟨hx, hxs⟩ := List.pairwise_cons.mp h
    simp only [insertReady]
    split
    · next hb =>
      refine List.pairwise_cons.mpr ⟨?_, h⟩
      rw [ReadyEntry.before_iff] at hb
      intro y hy
      rw [ReadyEntry.not_before_iff]
      rcases List.mem_cons.mp hy with rfl | hy
      · exact le_of_lt hb
      · exact le_trans (le_of_lt hb) ((ReadyEntry.not_before_iff _ _).mp (hx y hy))
    · next hb =>
      refine List.pairwise_cons.mpr ⟨?_, ih hxs⟩
      intro y hy
      rcases (key xs y).mp hy with rfl | hy
      · simpa using hb
      · exact hx y hy

theorem Moves.joinReady (h : Moves a s) (j b) : Moves a (joinReady j b s) :=
  h.step (.sch s _ fun u => insertReady_sorted _ u)

theorem Moves.leaveReady (h : Moves a s) (j) : Moves a (leaveReady j s) :=
  h.step (.sch s _ fun u => u.filter _)

theorem Moves.enterReady (h : Moves a s) (j) : Moves a (enterReady j s) := (h.modJob _ _).joinReady _ _

/-! ## Service -/

theorem Moves.serveLoadLayout (h : Moves a s) (j) : Moves a (serveLoadLayout j s) := by
  unfold Machine.serveLoadLayout
  dsimp only
  split
  · exact h.serviceEnd _ _ _ _ _
  · exact (h.modLayout _ _).step (.ls _ _ fun u => ⟨u.directives, u.literals, u.buffer⟩)

theorem Moves.serveDropLayout (h : Moves a s) (j) : Moves a (serveDropLayout j s) := by
  unfold Machine.serveDropLayout
  dsimp only
  split
  · exact h.serviceEnd _ _ _ _ _
  · split
    · exact h.serviceEnd _ _ _ _ _
    · split
      · exact (h.emptyLayout _).serviceEnd _ _ _ _ _
      · exact h.modLayout _ _

theorem Moves.serveLoadCodes (h : Moves a s) (j) : Moves a (serveLoadCodes j s) := by
  unfold Machine.serveLoadCodes
  dsimp only
  split
  · exact h.serviceEnd _ _ _ _ _
  · split
    · exact h.serviceEnd _ _ _ _ _
    · exact (h.modTable _ _).step (.cts _ _ fun u => u)

theorem Moves.serveDropCodes (h : Moves a s) (j) : Moves a (serveDropCodes j s) := by
  unfold Machine.serveDropCodes
  dsimp only
  split
  · exact h.serviceEnd _ _ _ _ _
  · split
    · exact h.serviceEnd _ _ _ _ _
    · split
      · exact h.serviceEnd _ _ _ _ _
      · exact (h.modTable _ _).serviceEnd _ _ _ _ _

theorem zeroGroup_sound : GroupSound zeroGroup := by
  intro k
  simp [zeroGroup, Accumulator.inRange]

theorem Moves.zeroGroup (h : Moves a s) (g) : Moves a (s.setGroup g zeroGroup) :=
  h.step (.group s g _ fun _ _ => zeroGroup_sound)

theorem Moves.serveReadTotals (h : Moves a s) (j) : Moves a (serveReadTotals j s) := by
  unfold Machine.serveReadTotals
  dsimp only
  apply Moves.foldl
  · intro t x ht
    exact ht.handWrite _
  · split
    · exact (h.zeroGroup _).modJob _ _
    · exact h.modJob _ _

theorem Moves.serveClearTotals (h : Moves a s) (j) : Moves a (serveClearTotals j s) :=
  (h.zeroGroup _).serviceEnd _ _ _ _ _

theorem Moves.awaitTarget (h : Moves a s) (j k o) : Moves a (awaitTarget j k o s) := h.modJob _ _

theorem Moves.abortWaiting (h : Moves a s) (k) : Moves a (abortWaiting k s) :=
  ((h.modJob _ _).leaveReady _).enterDraining _

theorem Moves.resolveAbort (h : Moves a s) (j k) : Moves a (resolveAbort j k s) := by
  unfold Machine.resolveAbort
  dsimp only
  split
  · exact h.serviceEnd _ _ _ _ _
  split
  · exact h.serviceEnd _ _ _ _ _
  split
  · exact h.awaitTarget _ _ _
  split
  · split
    · exact h.awaitTarget _ _ _
    · exact (h.modJob _ _).awaitTarget _ _ _
  · exact (h.awaitTarget _ _ _).abortWaiting _
  · exact (h.awaitTarget _ _ _).abortWaiting _
  · exact (h.awaitTarget _ _ _).abortWaiting _
  · exact (h.modJob _ _).awaitTarget _ _ _
  · exact h.awaitTarget _ _ _
  · exact h.awaitTarget _ _ _
  all_goals exact h.serviceEnd _ _ _ _ _

theorem Moves.serveAbort (h : Moves a s) (j) : Moves a (serveAbort j s) := by
  apply h.withSlots
  intro t ht
  split
  · exact ht.resolveAbort _ _
  · exact ht.serviceEnd _ _ _ _ _

theorem Moves.enterService (h : Moves a s) (j k) : Moves a (enterService j k s) := by
  unfold Machine.enterService
  dsimp only
  have h := h.modJob j fun x => { x with state := .service }
  split
  · exact h.serveLoadLayout _
  · exact h.serveDropLayout _
  · exact h.serveLoadCodes _
  · exact h.serveDropCodes _
  · exact h.serveReadTotals _
  · exact h.serveClearTotals _
  · exact h.serveAbort _
  all_goals exact h

/-! ## Binding and the take step -/

theorem Moves.claimTable (h : Moves a s) (j r) : Moves a (claimTable j r s) := by
  unfold Machine.claimTable
  dsimp only
  split
  · exact ((h.modTable _ _).modJob _ _).enterReady _
  · exact h.endJob _ _ _

theorem Moves.claimLayout (h : Moves a s) (j) : Moves a (claimLayout j s) := by
  unfold Machine.claimLayout
  dsimp only
  split
  · exact h.endJob _ _ _
  · exact h.modJob _ _
  · exact ((h.modLayout _ _).modJob _ _).claimTable _ _

theorem Moves.bindJob (h : Moves a s) (j) : Moves a (bindJob j s) := by
  unfold Machine.bindJob
  split
  · exact h.claimLayout _
  · exact h.claimLayout _
  · exact h.claimTable _ _
  · exact h.claimTable _ _
  · exact h.enterService _ _
  · exact h.endJob _ _ _

theorem Moves.holdSlot (h : Moves a s) (j q) : Moves a (holdSlot j q s) :=
  ((h.modJob _ _).modSettle _ _).step (.takes _ _ _)

theorem Moves.storeRequest (h : Moves a s) (j r) : Moves a (storeRequest j r s) := by
  unfold Machine.storeRequest
  dsimp only
  have h := (h.modJob j fun x => { x with
    req := r, cls := (s.sq (s.job j).sq).cls, takeOrder := s.jt.nextTake
    tagCarried := !tagTaken s j (s.job j).sq r.tag }).step (.takes _ (s.jt.nextTake + 1) s.jt.badParity)
  split
  · exact h.modJob _ _
  · split
    · exact h.modJob _ _
    · exact h

theorem Moves.chainStep (h : Moves a s) (j) : Moves a (chainStep j s) := by
  unfold Machine.chainStep
  dsimp only
  split
  · exact h.setChain _ _
  · exact (h.modJob _ _).setChain _ _
  · split
    · exact (h.modJob _ _).setChain _ _
    · exact h.setChain _ _

theorem Moves.leaveTake (h : Moves a s) (j) : Moves a (leaveTake j s) := by
  unfold Machine.leaveTake
  dsimp only
  split
  · exact h.modJob _ _
  · split
    · exact h.enterDraining _
    · exact h.bindJob _

theorem Moves.takeStep (h : Moves a s) (j r) : Moves a (takeStep j r s) :=
  h.withSlots _ fun _ ht => ((ht.storeRequest _ _).chainStep _).leaveTake _

theorem Moves.chainRelease (h : Moves a s) (j p) : Moves a (chainRelease j p s) := by
  apply h.withSlots
  intro t ht
  dsimp only
  split
  · exact (ht.modJob _ _).enterDraining _
  · split
    · exact (ht.modJob _ _).bindJob _
    · exact (ht.modJob _ _).endJob _ _ _

theorem SqSound.of_same {x y : Sq} (h : SqSound x) (hc : y.configured = x.configured) (hs : y.size = x.size)
    (hh : y.head = x.head) (ht : y.tail = x.tail) (hb : y.fetchBuf = x.fetchBuf) : SqSound y :=
  ⟨by simpa [Sq.indicesInRange, hc, hs, hh, ht] using h.indices, by rw [hb]; exact h.buffer⟩

theorem Moves.endAborts (h : Moves a s) (x n js) : Moves a (endAborts x n js s) := by
  induction n generalizing s js with
  | zero => exact h
  | succ n ih =>
    simp only [Machine.endAborts]
    split
    · exact ih ((h.choose _).serviceEnd _ _ _ _ _) _
    · exact h.choose _

theorem Moves.freeSlot (h : Moves a s) (j) : Moves a (freeSlot j s) := by
  unfold Machine.freeSlot
  apply Moves.endAborts
  exact ((h.modJob _ _).modSettle _ _).step (.sq _ _ _ fun u => u.of_same rfl rfl rfl rfl rfl)

theorem Moves.settleOutcome (h : Moves a s) (j b) : Moves a (settleOutcome j b s) := by
  apply h.withSlots
  intro t ht
  dsimp only
  split
  · exact ((ht.modJob _ _).modSettle _ _).enterPosting _
  · split
    · exact ((ht.modJob _ _).modSettle _ _).enterPosting _
    · exact (ht.modSettle _ _).enterPosting _

/-! ## Queue Manager -/

theorem Moves.writeHeadField (h : Moves a s) (q) : Moves a (writeHeadField q s) := h.handWrite _
theorem Moves.writeTailField (h : Moves a s) (c) : Moves a (writeTailField c s) := h.handWrite _

theorem Moves.modCq (h : Moves a s) (q f) (hf : (s.cq q).indicesInRange → (f (s.cq q)).indicesInRange)
    (ht : (f (s.cq q)).holdTimer = (s.cq q).holdTimer) : Moves a (s.modCq q f) :=
  h.step (.cq s q f hf fun _ e => ht.trans e)

theorem Moves.breakSq (h : Moves a s) (q d) : Moves a (breakSq q d s) := by
  unfold Machine.breakSq
  dsimp only
  split
  · exact h
  · apply Moves.joinPosting
    refine Moves.modCq ?_ _ _ (fun u => u) rfl
    exact h.step (.sq _ _ _ fun u => u.of_same rfl rfl rfl rfl rfl)

theorem advance_lt {n i : Nat} (h : i < 2 * n) : advance n i < 2 * n := Nat.mod_lt _ (by omega)

theorem Moves.postTail (h : Moves a s) (q t) : Moves a (postTail q t s) := by
  unfold Machine.postTail
  split
  · next hok =>
    refine h.step (.sq _ _ _ fun u => ⟨fun hc => ⟨(u.indices hc).1, ?_⟩, u.buffer⟩)
    simp only [Sq.tailOk, Bool.and_eq_true, decide_eq_true_eq] at hok
    exact hok.1
  · exact h.breakSq _ _

theorem Moves.unconfiguredWrite (h : Moves a s) (b) : Moves a (unconfiguredWrite b s) := by
  unfold Machine.unconfiguredWrite
  split
  · exact h.setProtocol
  · exact h

theorem Moves.retireTo (h : Moves a s) (q c) (hok : (s.cq q).consumerOk c = true) : Moves a (retireTo q c s) := by
  refine h.modCq _ _ (fun u hc => ⟨(u hc).1, ?_⟩) rfl
  simp only [Cq.consumerOk, Bool.and_eq_true, decide_eq_true_eq] at hok
  exact hok.1

theorem Moves.grantTake (h : Moves a s) (q j) : Moves a (grantTake q j s) := by
  unfold Machine.grantTake
  apply Moves.askRead
  have h1 : Moves a (noteGrant q s) := by
    unfold noteGrant
    split
    · exact h.step (.granted s _ _)
    · exact h.step (.granted s _ _)
  refine Moves.step ?_ (.sq _ _ _ fun u => u.of_same rfl rfl rfl rfl rfl)
  apply Moves.holdSlot
  exact h1.modCq _ _ (fun u => u) rfl

theorem Moves.fetchArrived (h : Moves a s) (q) : Moves a (fetchArrived q s) := by
  unfold Machine.fetchArrived
  dsimp only
  have h1 : Moves a (Machine.writeHeadField q
      (s.modSq q fun x => { x with head := advance x.size x.head, fetchInFlight := false, fetchBuf := [] })) := by
    apply Moves.writeHeadField
    exact h.step (.sq _ _ _ fun u => ⟨fun hc => ⟨advance_lt (u.indices hc).1, (u.indices hc).2⟩, rfl⟩)
  split
  · exact h1.takeStep _ _
  · exact h1

theorem Moves.fetchFaulted (h : Moves a s) (q) : Moves a (fetchFaulted q s) := by
  unfold Machine.fetchFaulted
  apply Moves.breakSq
  refine Moves.step ?_ (.sq _ _ _ fun u => ⟨u.indices, rfl⟩)
  have h1 := h.modCq (s.sq q).boundCq (fun c => { c with reservations := c.reservations - 1 }) (fun u => u) rfl
  split
  · exact h1.modJob _ _
  · exact h1

theorem Moves.beginPosting (h : Moves a s) (e) : Moves a (beginPosting e s) := by
  refine Moves.posting ?_ _ _
  apply Moves.writeTailField
  exact (h.handWrite _).modCq _ _ (fun u hc => ⟨advance_lt (u hc).1, (u hc).2⟩) rfl

theorem Moves.sendMessage (h : Moves a s) (c) : Moves a (sendMessage c s) :=
  (h.handWrite _).step (.cq _ _ _ (fun u => u) fun _ _ => rfl)

theorem Moves.coalesce (h : Moves a s) (c r) : Moves a (coalesce c r s) := by
  unfold Machine.coalesce
  dsimp only
  split
  · exact h
  · next hh =>
    simp only [Bool.or_eq_true, not_or, Bool.not_eq_true] at hh
    have h1 : Moves a (s.modCq c Cq.countPosting) :=
      h.step (.cq _ _ _ (fun u => u) fun ht => by simp [hh.1] at ht)
    split
    · exact h1.sendMessage _
    · exact h1

theorem Moves.finishPosting (h : Moves a s) (e) : Moves a (finishPosting e s) := by
  unfold Machine.finishPosting
  dsimp only
  split
  · apply h.withSlots
    intro t ht
    exact ((ht.freeSlot _).posting _ _).coalesce _ _
  · exact (h.posting _ _).coalesce _ _

/-! ## Setup -/

theorem sqEntries_size {bs : List Byte} {q : Nat} (h : (sqEntries bs).all (fun e => sizeOk e.size) = true)
    (hq : q < sqCount bs) : 0 < (sqEntry bs q).size := by
  have : sqEntry bs q ∈ sqEntries bs := List.mem_map.mpr ⟨q, List.mem_range.mpr hq, rfl⟩
  have := List.all_eq_true.mp h _ this
  simp only [sizeOk, Bool.or_eq_true, beq_iff_eq] at this
  omega

theorem cqEntries_size {bs : List Byte} {q : Nat} (h : (cqEntries bs).all (fun e => sizeOk e.size) = true)
    (hq : q < cqCount bs) : 0 < (cqEntry bs q).size := by
  have : cqEntry bs q ∈ cqEntries bs := List.mem_map.mpr ⟨q, List.mem_range.mpr hq, rfl⟩
  have := List.all_eq_true.mp h _ this
  simp only [sizeOk, Bool.or_eq_true, beq_iff_eq] at this
  omega

/-- A configuration block that passes its checks gives every configured queue a size. -/
theorem setupCheck_sizes {bs : List Byte} (h : setupCheck bs = .success) :
    (sqEntries bs).all (fun e => sizeOk e.size) = true ∧ (cqEntries bs).all (fun e => sizeOk e.size) = true := by
  unfold setupCheck at h
  dsimp only at h
  split at h
  · cases h
  · split at h
    · cases h
    · next h2 => simpa using h2

theorem Moves.setupFailed (h : Moves a s) (r) : Moves a (setupFailed r s) :=
  h.step (.setup s .off r none [] (by simp) fun _ => rfl)

theorem Moves.setupSucceeded (h : Moves a s) {bs} (hc : setupCheck bs = .success) : Moves a (setupSucceeded bs s) := by
  obtain ⟨hs, hq⟩ := setupCheck_sizes hc
  apply Moves.handWrite
  refine (h.step (.setup s .running .success none [] (by simp) fun _ => rfl)).step (.configure _ _ _ _ _ _ ?_ ?_ ?_)
  · intro q
    rw [mapAll_get, allIndices_get]
    unfold sqDescriptor
    split
    · next hlt =>
      have := sqEntries_size hs hlt
      refine ⟨fun _ => ⟨?_, ?_⟩, rfl⟩ <;> (dsimp only; omega)
    · exact ⟨fun hc => by simp at hc, rfl⟩
  · intro q
    rw [mapAll_get, allIndices_get]
    unfold cqDescriptor
    split
    · next hlt =>
      have := cqEntries_size hq hlt
      refine fun _ => ⟨?_, ?_⟩ <;> (dsimp only; omega)
    · exact fun hc => by simp at hc
  · intro q
    rw [mapAll_get, allIndices_get]
    unfold cqDescriptor
    split <;> rfl

theorem Moves.setupArrived (h : Moves a s) : Moves a (setupArrived s) := by
  unfold Machine.setupArrived
  dsimp only
  split
  · next hc => exact h.setupSucceeded hc
  · exact h.setupFailed _

end Sys2Proof.Machine
end

