-- ==== Sys2Proof/Laws/Commands.lean ====
section
/-! SUPPORT. Every command is a chain of elementary moves: `exec_reaches`. -/

namespace Sys2Proof.Machine

variable {a s : State}

/-! ## Units -/

/-- A change of a context that keeps cursors and batch. -/
theorem Moves.modCtxPlain (h : Moves a s) (k) (f : Context → Context)
    (hs : ∀ c, (f c).srcCursor = c.srcCursor) (hd : ∀ c, (f c).dstCursor = c.dstCursor)
    (hb : ∀ c, (f c).batch = c.batch) : Moves a (s.modCtx k f) :=
  h.modCtx k f fun c u => by simpa [Context.cursorsInside, Context.batchDistinct, hs, hd, hb] using u

theorem Moves.releaseJob (h : Moves a s) (k st d r) : Moves a (releaseJob k st d r s) := by
  unfold Machine.releaseJob
  split
  · exact h
  · split
    · exact h.stopUnit _
    · next c _ _ =>
      have h1 := h.readSlots [c.slot]
      split
      · next t e => rw [e] at h1; exact h1.stopUnit _
      · next t e => rw [e] at h1; exact ((h1.toIdle _).modJob _ _).enterDraining _

theorem Moves.suspendJob (h : Moves a s) (k i) : Moves a (suspendJob k i s) := by
  unfold Machine.suspendJob
  split
  · exact h
  · next c _ =>
    have h1 := h.readSlots [c.slot]
    split
    · next t e => rw [e] at h1; exact h1.stopUnit _
    · next t e =>
      rw [e] at h1
      dsimp only
      split
      · exact (((h1.toIdle _).modJob _ _).modJob _ _).enterDraining _
      · exact ((h1.toIdle _).modJob _ _).joinReady _ _

theorem Moves.reportFaults (h : Moves a s) (c fs d) : Moves a (reportFaults c fs d s) := by
  unfold Machine.reportFaults
  split
  · exact h
  · exact h.withSlots _ fun _ ht => ht.modJob _ _

theorem Moves.beginRecord (h : Moves a s) (k) : Moves a (beginRecord k s) := by
  unfold Machine.beginRecord
  split
  · exact h
  · refine Moves.askRead ?_ _ _ _ _ _
    exact h.modCtxPlain _ _ (fun _ => rfl) (fun _ => rfl) fun _ => rfl

theorem Moves.askPart (h : Moves a s) (k p b n c q) : Moves a (askPart k p b n c q s) := by
  unfold Machine.askPart
  split
  · exact h
  · exact h.askRead _ _ _ _ _

theorem Moves.beginChunk (h : Moves a s) (k) : Moves a (beginChunk k s) := by
  unfold Machine.beginChunk
  split
  · exact h
  · have hw := h.modCtxPlain k (fun c => { c with phase := .readWait }) (fun _ => rfl) (fun _ => rfl) fun _ => rfl
    dsimp only
    split
    · split
      · exact h.releaseJob _ _ _ _
      · exact (hw.askPart _ _ _ _ _ _).askPart _ _ _ _ _ _
    · split
      · exact h.releaseJob _ _ _ _
      · exact hw.askPart _ _ _ _ _ _

theorem Moves.beginJob (h : Moves a s) (k) : Moves a (beginJob k s) := by
  unfold Machine.beginJob
  split
  · exact h
  · split
    · split
      · exact h.releaseJob _ _ _ _
      · exact h.beginRecord _
    · exact h.beginChunk _

theorem Moves.dispatchTo (h : Moves a s) (k e) : Moves a (dispatchTo k e s) := by
  apply h.withSlots
  intro t ht
  apply Moves.beginJob
  refine Moves.step ((ht.step (.sch t _ fun u => ?_)).modJob _ _) (.unit _ _ _ fun u => ⟨u.windows, ?_⟩)
  · exact u.sublist (List.tail_sublist _)
  · intro c hc
    cases hc
    exact ⟨⟨Nat.zero_le _, Nat.zero_le _⟩, List.nodup_nil⟩

theorem Moves.recordBoundary (h : Moves a s) (k) : Moves a (recordBoundary k s) := by
  unfold Machine.recordBoundary
  split
  · exact h
  · split
    · exact h.stopUnit _
    · split
      · exact h.suspendJob _ _
      · exact h.beginRecord _

theorem Moves.chunkBoundary (h : Moves a s) (k) : Moves a (chunkBoundary k s) := by
  unfold Machine.chunkBoundary
  split
  · exact h
  · split
    · exact h.stopUnit _
    · next c _ _ =>
      have h1 := h.readSlots [c.slot]
      split
      · next t e => rw [e] at h1; exact h1.stopUnit _
      · next t e =>
        rw [e] at h1
        split
        · exact h1.releaseJob _ _ _ _
        · split
          · exact h1.suspendJob _ _
          · apply Moves.beginChunk
            exact h1.modCtxPlain _ _ (fun _ => rfl) (fun _ => rfl) fun _ => rfl

theorem Moves.afterHandOff (h : Moves a s) (k n) : Moves a (afterHandOff k n s) := by
  unfold Machine.afterHandOff
  split
  · exact h
  · split
    · exact h.releaseJob _ _ _ _
    · split
      · exact h.chunkBoundary _
      · split
        · apply Moves.recordBoundary
          exact h.modCtxPlain _ _ (fun _ => rfl) (fun _ => rfl) fun _ => rfl
        · split
          · exact h.stopUnit _
          · exact h.modCtxPlain _ _ (fun _ => rfl) (fun _ => rfl) fun _ => rfl

theorem Moves.handedOff (h : Moves a s) (k n) : Moves a (handedOff k n s) := by
  unfold Machine.handedOff
  split
  · exact h
  · next c _ =>
    have h1 := h.readSlots [c.slot]
    split
    · next t e => rw [e] at h1; exact h1.stopUnit _
    · next t e => rw [e] at h1; exact (h1.modJob _ _).afterHandOff _ _

theorem Moves.handOutput (h : Moves a s) (k n) : Moves a (handOutput k n s) := by
  unfold Machine.handOutput
  split
  · exact h
  · next c _ =>
    have h1 := h.readSlots [c.slot]
    split
    · next t e => rw [e] at h1; exact h1.stopUnit _
    · next t e =>
      rw [e] at h1
      dsimp only
      split
      · exact h1.handedOff _ _
      · split
        · exact (h1.handWrite _).handedOff _ _
        · exact (h1.handWrite _).modCtxPlain _ _ (fun _ => rfl) (fun _ => rfl) fun _ => rfl

theorem Moves.settleRecord (h : Moves a s) (k) : Moves a (settleRecord k s) := by
  unfold Machine.settleRecord
  split
  · exact h
  · split
    · exact h.releaseJob _ _ _ _
    · split
      · exact h.handOutput _ _
      · exact h.modCtxPlain _ _ (fun _ => rfl) (fun _ => rfl) fun _ => rfl

theorem Moves.stageBytes (h : Moves a s) (k bs)
    (hb : ∀ c, (s.fu k).ctx = some c → c.dstCursor + bs.length ≤ Config.windowSize) :
    Moves a (stageBytes k bs s) := by
  unfold Machine.stageBytes
  split
  · exact h
  · next c hc =>
    refine (h.step (.unit s k _ fun u => ⟨⟨u.windows.1, wf_writeBytes _ _ u.windows.2⟩, u.context⟩)).step
      (.unit _ k _ fun u => ⟨u.windows, ?_⟩)
    intro d hd
    simp only [State.fu_modFu_self, hc, Option.map_some, Option.some.injEq] at hd
    subst hd
    have hu := u.context c (by simpa using hc)
    exact ⟨⟨hu.1.1, hb c hc⟩, hu.2⟩

theorem translateBytes_length (look : Lookup) (b : Bool) (bs : List Byte) :
    (translateBytes look b bs).1.length ≤ bs.length := by
  induction bs with
  | nil => simp [translateBytes]
  | cons x xs ih =>
    simp only [translateBytes]
    split
    · split <;> simp
    · simpa using ih

theorem Moves.translateChunk (h : Moves a s) (k c) : Moves a (translateChunk k c s) := by
  unfold Machine.translateChunk
  have h1 := h.readSlots [c.slot]
  split
  · next t e => rw [e] at h1; exact h1.stopUnit _
  · next t e =>
    rw [e] at h1
    dsimp only
    apply Moves.handOutput
    apply Moves.stageBytes
    · exact h1.modCtx _ _ fun c u => ⟨⟨u.1.1, Nat.zero_le _⟩, u.2⟩
    · intro d hd
      simp only [State.fu_modCtx_self, Option.map_eq_some_iff] at hd
      obtain ⟨c', _, rfl⟩ := hd
      dsimp only
      refine le_trans (b := Config.chunkSize) ?_ (by decide)
      rw [Nat.zero_add]
      refine le_trans (List.length_take_le' _ _) (le_trans (translateBytes_length _ _ _) ?_)
      rw [readBytes_length]
      exact Nat.min_le_left _ _

theorem Moves.comparePart (h : Moves a s) (k c) : Moves a (comparePart k c s) := by
  unfold Machine.comparePart
  dsimp only
  split
  · exact h.releaseJob _ _ _ _
  · split
    · exact h.releaseJob _ _ _ _
    · exact h.chunkBoundary _

theorem Moves.unitReadDone (h : Moves a s) (k) : Moves a (unitReadDone k s) := by
  unfold Machine.unitReadDone
  split
  · exact h
  · split
    · exact h.translateChunk _ _
    · exact h.comparePart _ _
    · exact h.modCtx _ _ fun c _ => ⟨⟨Nat.zero_le _, Nat.zero_le _⟩, List.nodup_nil⟩

theorem Moves.parityError (h : Moves a s) (k) : Moves a (parityError k s) := by
  unfold Machine.parityError
  split
  · exact h
  · split
    · exact h.releaseJob _ _ _ _
    · exact (h.modLayout _ _).releaseJob _ _ _ _

/-! ## Consequences -/

theorem Moves.endLayoutLoad (h : Moves a s) (j st d arg v) : Moves a (endLayoutLoad j st d arg v s) := by
  unfold Machine.endLayoutLoad
  refine Moves.serviceEnd (Moves.modLayout ?_ _ _) _ _ _ _ _
  exact h.step (.ls s _ fun u => ⟨u.directives, u.literals, rfl⟩)

/-- A consequence rule is a chain of moves. -/
def RuleMoves (r : State → Option State) : Prop := ∀ {a s t : State}, Moves a s → r s = some t → Moves a t

/-- A rule that picks a slot makes the moves of what it does there. -/
theorem pickedRule_moves {a s t : State} {p act} (h : Moves a s)
    (hact : ∀ {j u v}, Moves a u → act j u = some v → Moves a v) (e : pickedRule p act s = some t) : Moves a t := by
  unfold pickedRule at e
  have h1 := h.pickSlot p
  split at e
  · next j u q => rw [q] at h1; exact hact h1 e
  · cases e

theorem chainReleaseRule_moves : RuleMoves chainReleaseRule := by
  intro a s t h e
  refine pickedRule_moves h ?_ e
  intro j u v hu e
  obtain ⟨p, _, rfl⟩ := Option.map_eq_some_iff.mp e
  exact hu.chainRelease _ _

theorem rebindRule_moves : RuleMoves rebindRule := by
  intro a s t h e
  refine pickedRule_moves h ?_ e
  intro j u v hu e
  cases e
  exact hu.withSlots _ fun _ ht => ht.claimLayout _

theorem finishPostingRule_moves : RuleMoves finishPostingRule := by
  intro a s t h e
  unfold finishPostingRule at e
  split at e
  · split at e
    · cases e
    · cases e; exact h.finishPosting _
  · cases e

theorem beginPostingRule_moves : RuleMoves beginPostingRule := by
  intro a s t h e
  unfold beginPostingRule at e
  split at e
  · cases e; exact h.beginPosting _
  · cases e

theorem grantRule_moves : RuleMoves grantRule := by
  intro a s t h e
  unfold grantRule at e
  split at e
  · cases e; exact h.grantTake _ _
  · cases e

theorem Moves.askSettle (h : Moves a s) (j) : Moves a (askSettle j s) :=
  h.withSlots _ fun _ ht => (ht.modSettle _ _).askRead _ _ _ _ _

theorem settleReadRule_moves : RuleMoves settleReadRule := by
  intro a s t h e
  refine pickedRule_moves h ?_ e
  intro j u v hu e
  cases e
  exact hu.askSettle _

theorem Moves.endReadTotals (h : Moves a s) (j) : Moves a (endReadTotals j s) :=
  h.withSlots _ fun _ ht => (ht.modJob _ _).serviceEnd _ _ _ _ _

theorem totalsEndRule_moves : RuleMoves totalsEndRule := by
  intro a s t h e
  refine pickedRule_moves h ?_ e
  intro j u v hu e
  cases e
  exact hu.endReadTotals _

theorem Moves.beginLayoutLoad (h : Moves a s) (j) : Moves a (beginLayoutLoad j s) := by
  apply h.withSlots
  intro t ht
  dsimp only
  split
  · exact ht.endLayoutLoad _ _ _ _ _
  · refine Moves.askRead ?_ _ _ _ _ _
    exact ht.step (.ls t _ fun u => ⟨u.directives, u.literals, rfl⟩)

theorem layoutLoadRule_moves : RuleMoves layoutLoadRule := by
  intro a s t h e
  unfold layoutLoadRule at e
  split at e
  · cases e; exact h.beginLayoutLoad _
  · cases e

theorem Moves.beginCodesLoad (h : Moves a s) (j) : Moves a (beginCodesLoad j s) :=
  h.withSlots _ fun t ht => by
    refine Moves.askRead ?_ _ _ _ _ _
    exact ht.step (.cts t _ fun _ => rfl)

theorem codesLoadRule_moves : RuleMoves codesLoadRule := by
  intro a s t h e
  unfold codesLoadRule at e
  split at e
  · cases e; exact h.beginCodesLoad _
  · cases e

theorem dispatchRule_moves : RuleMoves dispatchRule := by
  intro a s t h e
  unfold dispatchRule at e
  split at e
  · cases e; exact h.dispatchTo _ _
  · cases e

theorem suspensionRule_moves : RuleMoves suspensionRule := by
  intro a s t h e
  unfold suspensionRule at e
  split at e
  · simp only [Option.map_eq_some_iff] at e
    obtain ⟨k, _, rfl⟩ := e
    exact h.step (.unit s k _ fun u => ⟨u.windows, u.context⟩)
  · cases e

theorem pausedRule_moves : RuleMoves pausedRule := by
  intro a s t h e
  unfold pausedRule at e
  split at e
  · cases e; exact h.withSlots _ fun t ht => ht.step (.engine t .paused (by simp))
  · cases e

theorem firstRule_moves {rs : List (State → Option State)} (hr : ∀ r ∈ rs, RuleMoves r) : RuleMoves (firstRule rs) := by
  intro a s t h e
  induction rs with
  | nil => cases e
  | cons r rs ih =>
    unfold firstRule at e
    split at e
    · next u hu => cases e; exact hr r (by simp) h hu
    · exact ih (fun r h => hr r (by simp [h])) e

theorem consequence_moves : RuleMoves consequence := by
  intro a s t h e
  unfold consequence at e
  split at e
  · refine firstRule_moves ?_ h e
    intro r hr
    simp only [consequenceRules, List.mem_cons, List.not_mem_nil, or_false] at hr
    rcases hr with rfl | rfl | rfl | rfl | rfl | rfl | rfl | rfl | rfl | rfl | rfl | rfl
    · exact chainReleaseRule_moves
    · exact rebindRule_moves
    · exact finishPostingRule_moves
    · exact settleReadRule_moves
    · exact totalsEndRule_moves
    · exact layoutLoadRule_moves
    · exact codesLoadRule_moves
    · exact beginPostingRule_moves
    · exact grantRule_moves
    · exact dispatchRule_moves
    · exact suspensionRule_moves
    · exact pausedRule_moves
  · cases e

theorem Moves.quiesce (h : Moves a s) : Moves a (quiesce s) := by
  unfold Machine.quiesce
  generalize Config.quiesceFuel = n
  induction n generalizing s with
  | zero => exact h
  | succ n ih =>
    unfold settleWithin
    split
    · next t e => exact ih (consequence_moves h e)
    · exact h

/-- A state from which nothing follows is left as it is. -/
theorem quiesce_settled (h : Settled s) : quiesce s = s := by
  show settleWithin 1024 s = s
  rw [settleWithin, h]

/-- Outside RUNNING, PAUSING and PAUSED nothing follows. -/
theorem settled_of_not_live (h : s.live = false) : Settled s := by simp [Settled, consequence, h]

/-! ## Directives -/

/-- A command whose next state is reached by moves. -/
def AnswerMoves (a : State) (o : Answer) : Prop := ∀ t, o = .next t → Moves a t

theorem AnswerMoves.next {t : State} (h : Moves a t) : AnswerMoves a (.next t) := by
  intro u e; cases e; exact h

theorem AnswerMoves.refused (r) : AnswerMoves a (.refused r) := by intro u e; cases e
theorem AnswerMoves.fault (r) : AnswerMoves a (.fault r) := by intro u e; cases e

/-- What every directive's effect satisfies: it advances no further than it reaches, and leaves a batch that names each
accumulator once. -/
def EffectSound (c : Context) (e : Effect) : Prop :=
  e.advance ≤ e.reach ∧ (c.batchDistinct → ∀ b, e.batch = some b → (b.map Prod.fst).Nodup)

theorem advance_fields (c : Context) :
    c.advance.srcCursor = c.srcCursor ∧ c.advance.dstCursor = c.dstCursor ∧ c.advance.batch = c.batch := by
  unfold Context.advance
  split
  · split
    · split <;> exact ⟨rfl, rfl, rfl⟩
    · exact ⟨rfl, rfl, rfl⟩
  · exact ⟨rfl, rfl, rfl⟩

theorem complete_fields (c : Context) (e : Effect) :
    (c.complete e).srcCursor = c.srcCursor + e.advance ∧ (c.complete e).dstCursor = c.dstCursor + e.out.length
      ∧ (c.complete e).batch = e.batch.getD c.batch := by
  unfold Context.complete
  exact ⟨(advance_fields _).1, (advance_fields _).2.1, (advance_fields _).2.2⟩

theorem completeDirective_moves (h : Moves a s) {k c e} (hc : (s.fu k).ctx = some c) (he : EffectSound c e) :
    AnswerMoves a (completeDirective k c e s) := by
  unfold completeDirective
  split
  · exact .fault _
  · next hb =>
    simp only [Bool.or_eq_true, decide_eq_true_eq, not_or, not_lt] at hb
    have h1 : Moves a (s.modFu k fun x =>
        { x with ctx := some (c.complete e), stgWindow := writeBytes x.stgWindow c.dstCursor e.out }) := by
      refine h.step (.unit s k _ fun u => ⟨⟨u.windows.1, wf_writeBytes _ _ u.windows.2⟩, ?_⟩)
      intro d hd
      simp only [Option.some.injEq] at hd
      subst hd
      obtain ⟨f1, f2, f3⟩ := complete_fields c e
      have hu := u.context c hc
      refine ⟨⟨?_, ?_⟩, ?_⟩
      · rw [f1]; have := he.1; omega
      · rw [f2]; omega
      · unfold Context.batchDistinct
        rw [f3]
        cases hb : e.batch with
        | none => exact hu.2
        | some b => exact he.2 hu.2 b hb
    dsimp only
    split
    · exact .next ((h1.reportFaults _ _ _).releaseJob _ _ _ _).quiesce
    · exact .next (h1.reportFaults _ _ _)

/-- A meaning of directives whose effects are sound. -/
def MeaningSound (m : State → Fu → Context → Directive → Option DirectiveEnd) : Prop :=
  ∀ s x c d e, m s x c d = some (.done e) → EffectSound c e

theorem runDirective_moves (h : Moves a s) {k u m} (hm : MeaningSound m) : AnswerMoves a (runDirective k u m s) := by
  unfold runDirective
  have h := h.strike u
  dsimp only
  split
  · exact .refused _
  · next c hc =>
    split
    · exact .refused _
    · split
      · exact .fault _
      · split
        · exact .refused _
        · next o ho =>
          split
          · exact .next (h.parityError _).quiesce
          · split
            · next e =>
              obtain ⟨d, _, hd⟩ := Option.bind_eq_some_iff.mp ho
              exact completeDirective_moves h hc (hm _ _ _ _ _ hd)
            · exact .next (h.parityError _).quiesce
            · exact .fault _

theorem addPair_mem (acc x : AccNo) (v : Int) (b : List (AccNo × Int)) :
    x ∈ (addPair acc v b).map Prod.fst ↔ x = acc ∨ x ∈ b.map Prod.fst := by
  induction b with
  | nil => simp [addPair]
  | cons p b ih =>
    obtain ⟨y, w⟩ := p
    simp only [addPair]
    split
    · next e => subst e; simp
    · simp only [List.map_cons, List.mem_cons, ih]; tauto

theorem addPair_nodup (acc : AccNo) (v : Int) {b : List (AccNo × Int)} (h : (b.map Prod.fst).Nodup) :
    ((addPair acc v b).map Prod.fst).Nodup := by
  induction b with
  | nil => simp [addPair]
  | cons p b ih =>
    obtain ⟨y, w⟩ := p
    simp only [List.map_cons, List.nodup_cons] at h
    simp only [addPair]
    split
    · simpa using h
    · next hne =>
      simp only [List.map_cons, List.nodup_cons, addPair_mem]
      exact ⟨by rintro (e | e); exacts [hne e, h.1 e], ih h.2⟩

theorem copyMeaning_sound : MeaningSound copyMeaning := by
  intro s x c d e h
  cases d <;> simp [copyMeaning] at h
  subst h; simp [EffectSound]

theorem copyUntilMeaning_sound : MeaningSound copyUntilMeaning := by
  intro s x c d e h
  cases d <;> simp [copyUntilMeaning] at h
  split at h <;> subst h
  · simp [EffectSound]; omega
  · simp [EffectSound]

theorem skipMeaning_sound : MeaningSound skipMeaning := by
  intro s x c d e h
  cases d <;> simp [skipMeaning] at h
  subst h; simp [EffectSound]

theorem literalMeaning_sound : MeaningSound literalMeaning := by
  intro s x c d e h
  cases d <;> simp only [literalMeaning, Option.some.injEq, reduceCtorEq] at h
  split at h
  · split at h <;> cases h
    simp [EffectSound]
  · cases h; simp [EffectSound]

theorem fillMeaning_sound : MeaningSound fillMeaning := by
  intro s x c d e h
  cases d <;> simp [fillMeaning] at h
  subst h; simp [EffectSound]

theorem padToMeaning_sound : MeaningSound padToMeaning := by
  intro s x c d e h
  cases d <;> simp [padToMeaning] at h
  subst h; simp [EffectSound]

theorem checkMeaning_sound : MeaningSound checkMeaning := by
  intro s x c d e h
  cases d <;> simp only [checkMeaning, Option.some.injEq, reduceCtorEq, DirectiveEnd.done.injEq] at h
  subst h; simp [EffectSound]

theorem numberMeaning_sound : MeaningSound numberMeaning := by
  intro s x c d e h
  cases d <;> simp only [numberMeaning, Option.some.injEq, reduceCtorEq] at h
  split at h
  · cases h
  · cases h
  · split at h
    · unfold numberWith at h
      dsimp only at h
      split at h <;> cases h <;> simp [EffectSound, numberEffect]
    · cases h

theorem addTotalMeaning_sound : MeaningSound addTotalMeaning := by
  intro s x c d e h
  cases d <;> simp only [addTotalMeaning, Option.some.injEq, reduceCtorEq, DirectiveEnd.done.injEq] at h
  split at h <;> subst h
  · simp [EffectSound]
  · simp [EffectSound]
  · refine ⟨le_refl _, fun hd b hb => ?_⟩
    cases hb
    exact addPair_nodup _ _ hd

theorem repeatMeaning_sound : MeaningSound repeatMeaning := by
  intro s x c d e h
  cases d <;> simp [repeatMeaning] at h
  subst h; simp [EffectSound]

/-! ## Records -/

theorem actAtBoundary_moves (h : Moves a s) (k c) (hc : (s.fu k).ctx = some c) : AnswerMoves a (actAtBoundary k c s) := by
  unfold actAtBoundary
  split
  · exact .next (h.releaseJob _ _ _ _).quiesce
  · split
    · exact .next (h.releaseJob _ _ _ _).quiesce
    · split
      · exact .next (h.releaseJob _ _ _ _).quiesce
      · split
        · exact .next (h.modCtxPlain _ _ (fun _ => rfl) (fun _ => rfl) fun _ => rfl)
        · unfold endOfRecord
          split
          · exact .fault _
          · next hb =>
            refine .next (Moves.settleRecord (h.stageBytes _ _ ?_) _).quiesce
            intro d hd
            rw [hc] at hd
            cases hd
            omega

/-- Reading slots changes no unit unless a slot fails its check. -/
theorem readSlots_ok {s t : State} {js} (h : readSlots js s = (true, t)) : t = s := by
  unfold readSlots at h
  split at h
  · simp at h; exact h.symm
  · simp at h

theorem execDirectiveBoundary_moves (h : Moves a s) (k u) : AnswerMoves a (execDirectiveBoundary k u s) := by
  unfold execDirectiveBoundary
  have h := h.strike u
  dsimp only
  split
  · exact .refused _
  · next c hc =>
    split
    · exact .refused _
    · split
      · exact .next (h.stopUnit _)
      · have h1 := h.readSlots [c.slot]
        split
        · next t e => rw [e] at h1; exact .next (h1.stopUnit _)
        · next t e =>
          rw [e] at h1
          exact actAtBoundary_moves h1 _ _ (by rw [readSlots_ok e]; exact hc)

theorem accumulator_add_inRange {x : Accumulator} (v : Int) (h : sumFits (x.value + v) = true) :
    (x.add v).inRange :=
  ⟨by simpa [sumFits, Accumulator.add] using h, Nat.min_le_right _ _⟩

theorem applyBatch_sound {g : Vector Accumulator 16} {b : List (AccNo × Int)} (hb : (b.map Prod.fst).Nodup)
    (hg : GroupSound g) (hf : ∀ p ∈ b, sumFits (pairSum g p) = true) : GroupSound (applyBatch g b) := by
  unfold applyBatch
  induction b generalizing g with
  | nil => exact hg
  | cons p b ih =>
    simp only [List.map_cons, List.nodup_cons] at hb
    refine ih hb.2 ?_ ?_
    · intro x
      rw [modifyAt_get]
      split
      · exact accumulator_add_inRange _ (hf p (by simp))
      · exact hg _
    · intro q hq
      have hne : q.1 ≠ p.1 := by
        intro e
        exact hb.1 (e ▸ List.mem_map_of_mem hq)
      have := hf q (by simp [hq])
      unfold pairSum at this ⊢
      rw [modifyAt_get, if_neg hne]
      exact this

theorem takeBatch_sound {g : Vector Accumulator 16} {b : List (AccNo × Int)} (hb : (b.map Prod.fst).Nodup)
    (hg : GroupSound g) : GroupSound (takeBatch g b).1 := by
  unfold takeBatch
  split
  · next h => exact applyBatch_sound hb hg (by simpa using h)
  · exact hg

theorem execRecordBatch_moves (h : Moves a s) (k) : AnswerMoves a (execRecordBatch k s) := by
  unfold execRecordBatch
  split
  · exact .refused _
  · next c hc =>
    split
    · next g _ _ =>
      dsimp only
      refine .next (Moves.modCtxPlain ?_ _ _ (fun _ => rfl) (fun _ => rfl) fun _ => rfl)
      exact h.step (.group s _ _ fun hu hg => takeBatch_sound ((hu k).context c hc).2 hg)
    · exact .refused _

theorem execBatchAnswer_moves (h : Moves a s) (k u) : AnswerMoves a (execBatchAnswer k u s) := by
  unfold execBatchAnswer
  have h := h.strike u
  dsimp only
  split
  · exact .refused _
  · split
    · exact .next (h.handOutput _ _).quiesce
    · refine .next (Moves.quiesce ?_)
      unfold totalRefused
      dsimp only
      split
      · exact (h.reportFaults _ _ _).releaseJob _ _ _ _
      · exact (h.reportFaults _ _ _).handOutput _ _
    · exact .refused _

/-! ## Link events -/

theorem Moves.installOrStage (h : Moves a s) (j l im) : Moves a (installOrStage j l im s) := by
  unfold Machine.installOrStage
  split
  · exact (h.installImage _ _).serviceEnd _ _ _ _ _
  · exact h.modLayout _ _

theorem LsSound.place {x : Ls} (h : LsSound x) (im img) : LsSound (x.place im img) := by
  unfold Ls.place
  dsimp only
  split
  · exact ⟨wf_writeBytes _ _ h.directives, h.literals, h.buffer⟩
  · exact ⟨wf_writeBytes _ _ h.directives, wf_writeBytes _ _ h.literals, h.buffer⟩

theorem Moves.placeLoaded (h : Moves a s) (j im img) : Moves a (placeLoaded j im img s) := by
  unfold Machine.placeLoaded
  split
  · exact h.endLayoutLoad _ _ _ _ _
  · exact h.endLayoutLoad _ _ _ _ _
  · next d l df lf _ =>
    refine Moves.installOrStage (h.step (.ls s _ fun u => ?_)) _ _ _
    have := LsSound.place (x := { s.ls with dirFree := df, litFree := lf }) ⟨u.directives, u.literals, u.buffer⟩
      { im with directiveStart := d, literalStart := l } img
    exact ⟨this.directives, this.literals, rfl⟩

theorem Moves.withHead (h : Moves a s) (q) {act : SlotNo → State → State}
    (hact : ∀ j t, Moves a t → Moves a (act j t)) : Moves a (withHead q act s) := by
  unfold Machine.withHead
  split
  · exact h
  · exact h.withSlots _ (hact _)

theorem Moves.settleLayoutLoad (h : Moves a s) (j) : Moves a (settleLayoutLoad j s) := by
  unfold Machine.settleLayoutLoad
  dsimp only
  split
  · exact h.endLayoutLoad _ _ _ _ _
  · exact h.placeLoaded _ _ _

theorem Moves.layoutImageRead (h : Moves a s) : Moves a (layoutImageRead s) :=
  h.withHead _ fun _ _ ht => ht.settleLayoutLoad _

theorem Moves.endCodesLoad (h : Moves a s) (j st d arg) : Moves a (endCodesLoad j st d arg s) := by
  unfold Machine.endCodesLoad
  refine Moves.serviceEnd (Moves.modTable ?_ _ _) _ _ _ _ _
  exact h.step (.cts s _ fun _ => rfl)

theorem Moves.settleCodesLoad (h : Moves a s) (j) : Moves a (settleCodesLoad j s) := by
  unfold Machine.settleCodesLoad
  dsimp only
  split
  · exact h.endCodesLoad _ _ _ _
  · split
    · exact (h.modTable _ _).endCodesLoad _ _ _ _
    · exact h.endCodesLoad _ _ _ _

theorem Moves.codesImageRead (h : Moves a s) : Moves a (codesImageRead s) :=
  h.withHead _ fun _ _ ht => ht.settleCodesLoad _

theorem Moves.readDone (h : Moves a s) (who) : Moves a (readDone who s) := by
  unfold Machine.readDone
  split
  · exact h.setupArrived
  · exact h.fetchArrived _
  · exact h.unitReadDone _
  · exact h.layoutImageRead
  · exact h.codesImageRead
  · exact h.settleOutcome _ _

theorem Moves.readFault (h : Moves a s) (who) : Moves a (readFault who s) := by
  unfold Machine.readFault
  split
  · exact h.setupFailed _
  · exact h.fetchFaulted _
  · exact h.releaseJob _ _ _ _
  · exact h.withHead _ fun _ _ ht => ht.endLayoutLoad _ _ _ _ _
  · exact h.withHead _ fun _ _ ht => ht.endCodesLoad _ _ _ _
  · exact h.settleOutcome _ _

theorem Moves.freeTag (h : Moves a s) (t) : Moves a (s.setTag t none) := h.step (.freeTag s t)

theorem Moves.placeData (h : Moves a s) (r data) : Moves a (placeData r data s) := by
  unfold Machine.placeData
  split
  · exact h.step (.setupData s _ fun w => wf_writeBytes _ _ w)
  · exact h.step (.sq s _ _ fun u => ⟨u.indices, wf_writeBytes _ _ u.buffer⟩)
  · exact h.step (.unit s _ _ fun u => ⟨⟨wf_writeBytes _ _ u.windows.1, u.windows.2⟩, u.context⟩)
  · exact h.step (.ls s _ fun u => ⟨u.directives, u.literals, wf_writeBytes _ _ u.buffer⟩)
  · exact h.step (.cts s _ fun w => wf_writeBytes _ _ w)
  · exact h

theorem execLinkReadIssue_moves (h : Moves a s) (t) : AnswerMoves a (execLinkReadIssue t s) := by
  unfold execLinkReadIssue
  split
  · next r rest hq _ => exact .next (h.step (.issueRead s t r rest hq))
  · exact .refused _

theorem execLinkReadAnswer_moves (h : Moves a s) (t n d u) : AnswerMoves a (execLinkReadAnswer t n d u s) := by
  unfold execLinkReadAnswer
  have h := h.strike u
  dsimp only
  split
  · exact .next h
  · split
    · exact .next h
    · split
      · exact .refused _
      · split
        · refine .next ?_
          unfold afterData
          split
          · exact (h.freeTag _).placeData _ _
          · exact (((h.freeTag _).placeData _ _).readDone _).quiesce
        · exact .next (h.freeTag _)

theorem Moves.linkReadFaults (h : Moves a s) (t f) : Moves a (linkReadFaults t f s) := by
  unfold Machine.linkReadFaults
  dsimp only
  split
  · exact (((h.freeTag _).step (.drop _ _ _)).readFault _).quiesce
  · exact (h.freeTag _).step (.dropRest _ _)

theorem execLinkReadError_moves (h : Moves a s) (t n u) : AnswerMoves a (execLinkReadError t n u s) := by
  unfold execLinkReadError
  have h := h.strike u
  dsimp only
  split
  · exact .next h
  · split
    · exact .next h
    · exact .next (h.linkReadFaults _ _)

theorem execLinkReadTimeout_moves (h : Moves a s) (t n u) : AnswerMoves a (execLinkReadTimeout t n u s) := by
  unfold execLinkReadTimeout
  have h := h.strike u
  dsimp only
  split
  · exact .refused _
  · split
    · exact .refused _
    · exact .next (h.linkReadFaults _ _)

theorem Moves.writeJoined (h : Moves a s) (e) : Moves a (writeJoined e s) := by
  unfold Machine.writeJoined
  split
  · split
    · exact h.handedOff _ _
    · exact h
  · exact h

theorem execWriteIssue_moves (h : Moves a s) (n u) : AnswerMoves a (execWriteIssue n u s) := by
  unfold execWriteIssue
  have h := h.strike u
  dsimp only
  split
  · exact .refused _
  · next e rest hq =>
    split
    · exact .next (h.step (.issuePart _ _ _ _ _ hq))
    · unfold writeLeaves
      dsimp only
      exact .next (Moves.writeJoined (h.step (.leave _ _ _ _ hq)) _).quiesce

theorem Moves.jobWriteRefused (h : Moves a s) (j o r n) : Moves a (jobWriteRefused j o r n s) := by
  have key : Moves a (if (s.job j).state = .free then s
      else Machine.withSlots [j]
        (fun s : State =>
          if (s.job j).state = .fetched ∨ (s.job j).takeOrder ≠ o then s
          else s.modSettle j fun t => t.recordRefused (r, n)) s) := by
    split
    · exact h
    · apply h.withSlots
      intro t ht
      split
      · exact ht
      · exact ht.modSettle _ _
  unfold Machine.jobWriteRefused
  split
  · exact h
  · exact h
  all_goals exact key

theorem execWriteFaultReport_moves (h : Moves a s) (o u) : AnswerMoves a (execWriteFaultReport o u s) := by
  unfold execWriteFaultReport
  have h := h.strike u
  dsimp only
  split
  · exact .next (h.jobWriteRefused _ _ _ _)
  · exact .next (h.fatalFault _)
  · exact .next (h.fatalFault _)
  · exact .next (h.fatalFault _)
  · exact .next (h.fatalFault _)
  · exact .next h

theorem execHoldTimerExpiry_moves (h : Moves a s) (c) : AnswerMoves a (execHoldTimerExpiry c s) := by
  unfold execHoldTimerExpiry
  split
  · exact .refused _
  · have h1 := h.step (.cq s c (fun x => { x with holdTimer := none }) (fun u => u) fun _ _ => rfl)
    dsimp only
    split
    · exact .next (h1.sendMessage _)
    · exact .next h1

/-! ## Control -/

theorem Moves.startCommand (h : Moves a s) : Moves a (startCommand s) := by
  unfold Machine.startCommand
  split
  · exact h.setProtocol
  · have h1 : Moves a (latchSetup s) := h.step (.setup s .setup .none _ [] (by simp) fun _ => rfl)
    split
    · exact h1.setupFailed _
    · exact h1.askRead _ _ _ _ _

theorem Moves.pauseCommand (h : Moves a s) : Moves a (pauseCommand s) := by
  unfold Machine.pauseCommand
  split
  · exact h.setProtocol
  · have h1 : Moves a (s.setEngine .pausing) := h.step (.engine s .pausing (by simp))
    cases hr : pausedRule (s.setEngine .pausing) with
    | none => exact h1
    | some t => exact pausedRule_moves h1 hr

theorem Moves.resumeCommand (h : Moves a s) : Moves a (resumeCommand s) := by
  have h1 : Moves a (s.setEngine .running) := h.step (.engine s .running (by simp))
  unfold Machine.resumeCommand
  split
  · exact h1.quiesce
  · exact h1.quiesce
  all_goals exact h.setProtocol

theorem Moves.ackCommand (h : Moves a s) : Moves a (ackCommand s) := h.step (.protocol s false)

/-- A command's next state is reached by elementary moves, or it replaces the state in one go. -/
def Reaches (i : Instr) (s t : State) : Prop := Moves s t ∨ Replaces i s t

theorem reaches_ctrlWrite (i) (s) (w) : Reaches i s (ctrlWrite w s) := by
  have h : Moves s s := .refl s
  unfold Machine.ctrlWrite
  split
  · exact .inl h.startCommand
  · exact .inl h.pauseCommand
  · exact .inl h.resumeCommand
  · exact .inr (.reset i s)
  · exact .inr (.clear i s)
  · exact .inl h.ackCommand
  · exact .inl h.setProtocol

theorem Moves.reservedWrite (h : Moves a s) : Moves a (reservedWrite s) := by
  unfold Machine.reservedWrite
  split
  · exact h.setProtocol
  · exact h

theorem Moves.postWrite (h : Moves a s) (w) : Moves a (postWrite w s) := by
  unfold Machine.postWrite
  split
  · exact h.reservedWrite
  · split
    · exact (h.postTail _ _).quiesce
    · exact h.unconfiguredWrite _

theorem Moves.retireWrite (h : Moves a s) (w) : Moves a (retireWrite w s) := by
  unfold Machine.retireWrite
  split
  · exact h.reservedWrite
  · split
    · split
      · next hok => exact (h.retireTo _ _ hok).quiesce
      · exact h.setProtocol
    · exact h.unconfiguredWrite _

theorem reaches_registerWrite {o w v} {s t : State} (e : execRegisterWrite o w v s = .next t) :
    Reaches (.registerWrite o w v) s t := by
  have h : Moves s s := .refl s
  unfold execRegisterWrite at e
  split at e
  · cases e; exact .inl h
  · cases e; exact .inl h
  · cases e
    unfold Machine.wordWrite
    split
    · exact reaches_ctrlWrite _ s _
    · exact .inr (.registers _ s _ _ ⟨_, _, _, rfl⟩)
    · exact .inr (.registers _ s _ _ ⟨_, _, _, rfl⟩)
    · exact .inl (h.postWrite _)
    · exact .inl (h.retireWrite _)
    · exact .inl h

/-! ## Every command -/

/-- Every command's next state is reached by elementary moves, but for those that replace the state in one go. -/
theorem exec_reaches {i : Instr} {s t : State} (e : exec i s = .next t) : Reaches i s t := by
  have h : Moves s s := .refl s
  have go : ∀ {o : Answer}, AnswerMoves s o → o = .next t → Reaches i s t := fun k e => .inl (k t e)
  cases i with
  | start => exact go (.next h.startCommand) e
  | pause => exact go (.next h.pauseCommand) e
  | resume => exact go (.next h.resumeCommand) e
  | reset => cases e; exact .inr (.reset _ s)
  | clear => cases e; exact .inr (.clear _ s)
  | ackProtocol => exact go (.next h.ackCommand) e
  | ctrlInvalidCommand w => cases e; exact reaches_ctrlWrite _ s w
  | post w => exact go (.next (h.postWrite w)) e
  | retire w => exact go (.next (h.retireWrite w)) e
  | registerWrite o w v => exact reaches_registerWrite e
  | linkReset => cases e; exact .inr (.powerOn _ s (.inl rfl))
  | powerOn => cases e; exact .inr (.powerOn _ s (.inr rfl))
  | linkReadIssue t => exact go (execLinkReadIssue_moves h t) e
  | linkReadAnswer t n d u => exact go (execLinkReadAnswer_moves h t n d u) e
  | linkReadError t n u => exact go (execLinkReadError_moves h t n u) e
  | linkReadTimeout t n u => exact go (execLinkReadTimeout_moves h t n u) e
  | writeIssue n u => exact go (execWriteIssue_moves h n u) e
  | writeFaultReport o u => exact go (execWriteFaultReport_moves h o u) e
  | holdTimerExpiry c => exact go (execHoldTimerExpiry_moves h c) e
  | directiveBoundary k u => exact go (execDirectiveBoundary_moves h k u) e
  | copy k u => exact go (runDirective_moves h copyMeaning_sound) e
  | copyUntil k u => exact go (runDirective_moves h copyUntilMeaning_sound) e
  | skip k u => exact go (runDirective_moves h skipMeaning_sound) e
  | literal k u => exact go (runDirective_moves h literalMeaning_sound) e
  | fill k u => exact go (runDirective_moves h fillMeaning_sound) e
  | padTo k u => exact go (runDirective_moves h padToMeaning_sound) e
  | check k u => exact go (runDirective_moves h checkMeaning_sound) e
  | number k u => exact go (runDirective_moves h numberMeaning_sound) e
  | addTotal k u => exact go (runDirective_moves h addTotalMeaning_sound) e
  | repeatGroup k u => exact go (runDirective_moves h repeatMeaning_sound) e
  | recordBatch k => exact go (execRecordBatch_moves h k) e
  | batchAnswer k u => exact go (execBatchAnswer_moves h k u) e

end Sys2Proof.Machine
end

