-- ==== Sys2Proof/Laws/Operations.lean ====
section
/-! SUPPORT. One lemma per shared operation that says what it answers, for proofs to cite in place of unfolding it. -/

namespace Sys2Proof.Machine

/-! ## Updates that agree on what they change are one update -/

theorem State.modFu_congr {s : State} {k : FuNo} {f g : Fu → Fu} (h : f (s.fu k) = g (s.fu k)) : s.modFu k f = s.modFu k g := by
  simp only [State.modFu, modifyAt]
  rw [show f s.fus[k] = g s.fus[k] from h]

theorem State.modFu_modFu (s : State) (k : FuNo) (f g : Fu → Fu) : (s.modFu k f).modFu k g = s.modFu k fun x => g (f x) := by
  simp [State.modFu, modifyAt_modifyAt]

theorem State.modJob_congr {s : State} {j : SlotNo} {f g : Job → Job} (h : f (s.job j) = g (s.job j)) :
    s.modJob j f = s.modJob j g := by
  simp only [State.modJob, modifyAt]
  rw [show f s.jt.slots[j] = g s.jt.slots[j] from h]

theorem State.modJob_modJob (s : State) (j : SlotNo) (f g : Job → Job) :
    (s.modJob j f).modJob j g = s.modJob j fun x => g (f x) := by
  simp [State.modJob, modifyAt_modifyAt]

theorem State.modCq_congr {s : State} {q : CqNo} {f g : Cq → Cq} (h : f (s.cq q) = g (s.cq q)) : s.modCq q f = s.modCq q g := by
  simp only [State.modCq, modifyAt]
  rw [show f s.qm.cqs[q] = g s.qm.cqs[q] from h]

theorem State.modCq_modCq (s : State) (q : CqNo) (f g : Cq → Cq) : (s.modCq q f).modCq q g = s.modCq q fun x => g (f x) := by
  simp [State.modCq, modifyAt_modifyAt]

theorem State.modSq_congr {s : State} {q : SqNo} {f g : Sq → Sq} (h : f (s.sq q) = g (s.sq q)) : s.modSq q f = s.modSq q g := by
  simp only [State.modSq, modifyAt]
  rw [show f s.qm.sqs[q] = g s.qm.sqs[q] from h]

theorem State.modSq_modSq (s : State) (q : SqNo) (f g : Sq → Sq) : (s.modSq q f).modSq q g = s.modSq q fun x => g (f x) := by
  simp [State.modSq, modifyAt_modifyAt]

theorem State.modLayout_congr {s : State} {l : LayoutNo} {f g : LayoutSlot → LayoutSlot} (h : f (s.layout l) = g (s.layout l)) :
    s.modLayout l f = s.modLayout l g := by
  simp only [State.modLayout, modifyAt]
  rw [show f s.ls.slots[l] = g s.ls.slots[l] from h]

theorem State.modLayout_modLayout (s : State) (l : LayoutNo) (f g : LayoutSlot → LayoutSlot) :
    (s.modLayout l f).modLayout l g = s.modLayout l fun x => g (f x) := by
  simp [State.modLayout, modifyAt_modifyAt]

theorem State.modTable_modTable (s : State) (t : TableNo) (f g : CodeTable → CodeTable) :
    (s.modTable t f).modTable t g = s.modTable t fun x => g (f x) := by
  simp [State.modTable, modifyAt_modifyAt]

/-- A change of the context of a unit that has one. -/
theorem State.modCtx_of_some {s : State} {k : FuNo} {c : Context} (h : (s.fu k).ctx = some c) (f : Context → Context) :
    s.modCtx k f = s.modFu k fun x => { x with ctx := some (f c) } :=
  State.modFu_congr (by simp [h])

/-! ## Engine state -/

theorem State.live_iff (s : State) :
    s.live = true ↔ s.hlu.engine = .running ∨ s.hlu.engine = .pausing ∨ s.hlu.engine = .paused := by
  cases h : s.hlu.engine <;> simp [State.live, h]

theorem State.halted_iff (s : State) : s.halted = true ↔ s.hlu.engine = .halted := by simp [State.halted]

theorem State.halted_eq_false {s : State} (h : s.hlu.engine ≠ .halted) : s.halted = false := by simp [State.halted, h]

/-! ## Asking for reads and handing writes -/

theorem askRead_of_halted {s : State} (h : s.hlu.engine = .halted) (who part addr len place) :
    askRead who part addr len place s = s := by
  simp [askRead, State.halted, h]

theorem askRead_of_not_halted {s : State} (h : s.hlu.engine ≠ .halted) (who part addr len place) :
    askRead who part addr len place s =
      { s with hlu := { s.hlu with readQueue := s.hlu.readQueue ++ linkReads who part addr len place } } := by
  simp [askRead, State.halted, h]

/-- What a fault of an unwanted link read takes off the read queue: the link reads behind it of its own read, which stand at
the head, or nothing. -/
theorem dropRest_cases (f : InFlight) (s : State) :
    (∃ mine others, s.hlu.readQueue = mine ++ others ∧ mine ≠ [] ∧ (∀ r ∈ mine, r.behind f.read = true)
        ∧ dropRest f s = { s with hlu := { s.hlu with readQueue := others } })
      ∨ dropRest f s = s := by
  unfold dropRest
  split
  · next h =>
    left
    refine ⟨_, _, (List.takeWhile_append_dropWhile (p := (LinkRead.behind · f.read))).symm, fun e => ?_,
      fun r hr => List.mem_takeWhile_imp (p := fun x : LinkRead => x.behind f.read) hr, rfl⟩
    unfold restQueued at h
    cases hq : s.hlu.readQueue with
    | nil => simp [hq] at h
    | cons r rest => simp [hq, List.takeWhile_cons] at h e; simp [h.1] at e
  · exact .inr rfl

theorem handWrite_of_halted {s : State} (h : s.hlu.engine = .halted) (w : WriteAsk) : handWrite w s = s := by
  simp [handWrite, State.halted, h]

/-- With room in the write queue a handed write joins it, under the next serial number. -/
theorem handWrite_of_room {s : State} (h : s.hlu.engine ≠ .halted) (room : s.hlu.writeQueue.length < 64)
    (first : s.hlu.waiting = []) (w : WriteAsk) :
    handWrite w s = trackWrite w.owner s.hlu.writeSerial
      { s with hlu := { s.hlu with
          writeSerial := s.hlu.writeSerial + 1
          writeQueue := s.hlu.writeQueue ++
            [{ serial := s.hlu.writeSerial, writer := w.writer, owner := w.owner, addr := w.addr, data := w.data
               vector := w.vector, issued := 0 }] } } := by
  have r : queueHasRoom s = true := by simp [queueHasRoom, Config.writeQueueSize, room, first]
  simp [handWrite, State.halted, h, r]

/-! ## Free choices -/

/-- Of one thing, or of none, no choice is made. -/
@[simp] theorem State.choose_le_one {s : State} {n : Nat} (h : n ≤ 1) : s.choose n = (0, s) := if_pos h

/-- A choice is one of the things there are, and counts itself alone. -/
theorem State.choose_spec (s : State) {n : Nat} (h : 0 < n) :
    (s.choose n).1 < n ∧ ∃ m, (s.choose n).2 = { s with choices := m } := by
  unfold State.choose
  split
  · exact ⟨h, s.choices, rfl⟩
  · exact ⟨Nat.mod_lt _ h, _, rfl⟩

/-- The slot picked has the property, and none is picked exactly when no slot has it; nothing but the count of choices
changes. -/
theorem State.pickSlot_spec (s : State) (p : SlotNo → Job → Bool) :
    (∀ j, (s.pickSlot p).1 = some j → p j (s.job j) = true) ∧ ((s.pickSlot p).1 = none ↔ ∀ j, p j (s.job j) = false)
      ∧ ∃ m, (s.pickSlot p).2 = { s with choices := m } := by
  unfold State.pickSlot State.slotsWhere
  dsimp only
  generalize hl : (List.finRange 32).filter (fun j => p j (s.job j)) = l
  have hm : ∀ j, j ∈ l ↔ p j (s.job j) = true := fun j => by simp [← hl]
  refine ⟨fun j hj => (hm j).mp (List.mem_of_getElem? hj), ?_, ?_⟩
  · rw [List.getElem?_eq_none_iff]
    constructor
    · intro h j
      rcases Nat.eq_zero_or_pos l.length with h0 | h0
      · rw [List.length_eq_zero_iff] at h0
        have := mt (hm j).mpr
        simpa [h0] using this
      · have := (s.choose_spec h0).1
        omega
    · intro h
      have : l = [] := List.eq_nil_iff_forall_not_mem.mpr fun j hj => by
        have := (hm j).mp hj
        simp [h j] at this
      simp [this]
  · rcases Nat.eq_zero_or_pos l.length with h0 | h0
    · exact ⟨s.choices, by simp [h0]⟩
    · exact (s.choose_spec h0).2

/-! ## Entering HALTED -/

@[simp] theorem enterHalted_engine (s : State) : (enterHalted s).hlu.engine = .halted := rfl
@[simp] theorem enterHalted_fault (s : State) : (enterHalted s).hlu.fault = s.hlu.fault := rfl
@[simp] theorem enterHalted_settle (s : State) (j : SlotNo) : (enterHalted s).settle j = s.settle j := rfl
@[simp] theorem enterHalted_sq (s : State) (q : SqNo) : (enterHalted s).sq q = s.sq q := rfl
@[simp] theorem enterHalted_chain (s : State) (q : SqNo) : (enterHalted s).chain q = s.chain q := rfl
@[simp] theorem enterHalted_badParity (s : State) : (enterHalted s).jt.badParity = s.jt.badParity := rfl
@[simp] theorem enterHalted_sch (s : State) : (enterHalted s).sch = s.sch := rfl
@[simp] theorem enterHalted_ls (s : State) : (enterHalted s).ls = s.ls := rfl
@[simp] theorem enterHalted_cts (s : State) : (enterHalted s).cts = s.cts := rfl
@[simp] theorem enterHalted_tu (s : State) : (enterHalted s).tu = s.tu := rfl

@[simp] theorem enterHalted_cq (s : State) (q : CqNo) : (enterHalted s).cq q = { s.cq q with holdTimer := none } :=
  mapAll_get _ _ _

@[simp] theorem enterHalted_fu (s : State) (k : FuNo) : (enterHalted s).fu k = (s.fu k).onHalt :=
  mapAll_get _ _ _

@[simp] theorem enterHalted_job (s : State) (j : SlotNo) : (enterHalted s).job j = s.jobOnHalt j :=
  (mapAll_get _ _ _).trans (by rw [allIndices_get])

/-- A hand-off completed in HALTED changes the two counts of a slot at most. -/
theorem Job.handedInHalt_counts (x : Job) (k : ReqKind) (n : Nat) :
    x.handedInHalt k n =
      { x with recordsDone := (x.handedInHalt k n).recordsDone, bytesWritten := (x.handedInHalt k n).bytesWritten } := by
  unfold Job.handedInHalt
  split <;> rfl

/-- The halt changes the two counts of a slot at most. -/
theorem State.jobOnHalt_counts (s : State) (j : SlotNo) :
    s.jobOnHalt j =
      { s.job j with recordsDone := (s.jobOnHalt j).recordsDone, bytesWritten := (s.jobOnHalt j).bytesWritten } := by
  unfold State.jobOnHalt
  generalize (s.fus.toList.filterMap Fu.handing).filter (fun c => c.slot == j && !s.jt.badParity.contains j) = l
  generalize s.job j = x
  induction l generalizing x with
  | nil => rfl
  | cons c l ih =>
    rw [List.foldl_cons, ih, Job.handedInHalt_counts x]

/-- A slot whose job no unit waits to hand keeps every field when the engine becomes HALTED. -/
theorem State.jobOnHalt_keeps {s : State} {j : SlotNo} (h : ∀ k c, (s.fu k).handing = some c → c.slot ≠ j) :
    s.jobOnHalt j = s.job j := by
  unfold State.jobOnHalt
  rw [show (s.fus.toList.filterMap Fu.handing).filter (fun c => c.slot == j && !s.jt.badParity.contains j) = [] from ?_]
  · rfl
  · rw [List.filter_eq_nil_iff]
    intro c hc
    obtain ⟨x, hx, e⟩ := List.mem_filterMap.mp hc
    obtain ⟨i, hi, rfl⟩ := List.mem_iff_getElem.mp hx
    have := h ⟨i, by simpa using hi⟩ c (by simpa [State.fu] using e)
    simp [this]

/-! ## Slot reads -/

/-- A Job Table event finds every slot it reads good and goes on unchanged, or takes one of the failing ones as the fatal
fault SLOT_PARITY. -/
theorem readSlots_cases (js : List SlotNo) (s : State) :
    ((∀ j ∈ js, j ∉ s.jt.badParity) ∧ readSlots js s = (true, s))
      ∨ ∃ j ∈ js, j ∈ s.jt.badParity
        ∧ ∃ m, readSlots js s = (false, fatalFault { code := .slotParity, slot := j } { s with choices := m }) := by
  unfold readSlots
  split
  · next h =>
    rw [List.filter_eq_nil_iff] at h
    exact .inl ⟨fun j hj => by simpa using h j hj, rfl⟩
  · next j others h =>
    right
    obtain ⟨hi, m, hm⟩ := s.choose_spec (n := others.length + 1) (by omega)
    have hmem : (j :: others)[(s.choose (others.length + 1)).1]?.getD j ∈ j :: others := by
      rw [List.getElem?_eq_getElem (by simpa using hi)]
      exact List.getElem_mem _
    have hsub : ∀ x ∈ j :: others, x ∈ js ∧ x ∈ s.jt.badParity := by
      intro x hx
      rw [← h, List.mem_filter] at hx
      simpa using hx
    exact ⟨(j :: others)[(s.choose (others.length + 1)).1]?.getD j, (hsub _ hmem).1, (hsub _ hmem).2, m, by rw [← hm]⟩

/-- A slot whose parity holds is read without effect. -/
theorem readSlots_good {s : State} {j : SlotNo} (h : j ∉ s.jt.badParity) : readSlots [j] s = (true, s) := by
  simp [readSlots, h]

/-- A slot whose parity fails is the fatal fault SLOT_PARITY. -/
theorem readSlots_bad {s : State} {j : SlotNo} (h : j ∈ s.jt.badParity) :
    readSlots [j] s = (false, fatalFault { code := .slotParity, slot := j } s) := by
  simp [readSlots, h]

theorem withSlots_good {s : State} {j : SlotNo} (h : j ∉ s.jt.badParity) (f : State → State) : withSlots [j] f s = f s := by
  simp only [withSlots, readSlots_good h]

theorem withSlots_bad {s : State} {j : SlotNo} (h : j ∈ s.jt.badParity) (f : State → State) :
    withSlots [j] f s = fatalFault { code := .slotParity, slot := j } s := by
  simp only [withSlots, readSlots_bad h]

/-! ## Consequences -/

/-- While jobs do not live nothing follows from an event. -/
theorem quiesce_of_not_live {s : State} (h : s.live = false) : quiesce s = s := quiesce_settled (settled_of_not_live h)

theorem quiesce_of_halted {s : State} (h : s.hlu.engine = .halted) : quiesce s = s :=
  quiesce_of_not_live (by simp [State.live, h])

/-! ## Units -/

/-- The unit stops when its job's slot fails its parity check, or its engine is HALTED; otherwise the job is released. -/
theorem releaseJob_of_halted {s : State} {k : FuNo} {c : Context} (h : (s.fu k).ctx = some c) (e : s.hlu.engine = .halted)
    (st d r) : releaseJob k st d r s = stopUnit k s := by
  simp [releaseJob, h, State.halted, e]

theorem releaseJob_good {s : State} {k : FuNo} {c : Context} (h : (s.fu k).ctx = some c) (e : s.hlu.engine ≠ .halted)
    (p : c.slot ∉ s.jt.badParity) (st d r) :
    releaseJob k st d r s = enterDraining c.slot ((s.modFu k Fu.toIdle).modJob c.slot fun x => x.release st d r) := by
  simp only [releaseJob, h, State.halted_eq_false e, readSlots_good p]
  rfl

/-- The detail that a read fault gives the job of a unit. -/
theorem Fu.readFaultDetail_of_some {x : Fu} {c : Context} (h : x.ctx = some c) :
    x.readFaultDetail = if c.kind = .translate ∧ Config.translateFaultIsRead = false then .none else .read := by
  simp only [Fu.readFaultDetail, h, Option.map_some]
  cases Config.translateFaultIsRead <;> cases c.kind <;> rfl

/-- The reports of one point reach a slot whose parity holds, in raise order. -/
theorem reportFaults_good {s : State} {c : Context} (e : s.hlu.engine ≠ .halted) (p : c.slot ∉ s.jt.badParity)
    (fs : List FieldFault) (n : Nat) (f : fs ≠ []) :
    reportFaults c fs n s = s.modJob c.slot fun x => x.reports fs c.recordIndex n := by
  unfold reportFaults
  rw [if_neg (by simp [f, State.halted_eq_false e]), withSlots_good p]

theorem reportFaults_of_halted {s : State} (e : s.hlu.engine = .halted) (c : Context) (fs : List FieldFault) (n : Nat) :
    reportFaults c fs n s = s := by
  simp [reportFaults, State.halted, e]

theorem reportFaults_nil (s : State) (c : Context) (n : Nat) : reportFaults c [] n s = s := by simp [reportFaults]

/-- A slot takes a hand-off: its counts rise. -/
theorem countHandOff_of_not_halted {s : State} (e : s.hlu.engine ≠ .halted) (c : Context) :
    countHandOff c s = s.modJob c.slot fun x => x.handed c.kind c.dstCursor := by
  simp [countHandOff, State.halted_eq_false e]

/-- The rise of a slot's counts changes that slot only. -/
theorem countHandOff_spec (s : State) (c : Context) : ∃ f, countHandOff c s = s.modJob c.slot f := ⟨_, rfl⟩

/-! ## Directives -/

/-- A due directive completes with the effect its meaning gives. -/
theorem runDirective_due {s : State} {k : FuNo} {u : Upset} {c : Context} {d : Directive} {e : Effect}
    {m : State → Fu → Context → Directive → Option DirectiveEnd} (h : DirectiveDue (s.strike u) k c d)
    (hm : m (s.strike u) ((s.strike u).fu k) c d = some (.done e)) :
    runDirective k u m s = completeDirective k c e (s.strike u) := by
  unfold runDirective
  dsimp only
  rw [h.context]
  dsimp only
  rw [if_neg (by simp [h.phase]), if_neg (Nat.not_le.2 h.location), h.decoded]
  simp only [Option.bind_some, hm]
  rw [if_neg (by simpa using h.parity)]

/-- Inside the windows a directive changes its unit, reports its faults, and ends the job for a stopping kind. -/
theorem completeDirective_inside {s : State} {k : FuNo} {c : Context} {e : Effect} (h1 : c.srcCursor + e.reach ≤ 4096)
    (h2 : c.dstCursor + e.out.length ≤ 4096) :
    completeDirective k c e s =
      (let t := reportFaults c e.faults c.directiveIndex
        (s.withUnit k (c.complete e) (writeBytes (s.fu k).stgWindow c.dstCursor e.out))
      match stoppingKind c.req.stopMask e.faults with
      | some f => .next (quiesce (releaseJob k .fieldStop (.field f) none t))
      | none => .next t) := by
  have w : (decide (Config.windowSize < c.srcCursor + e.reach) || decide (Config.windowSize < c.dstCursor + e.out.length))
      = false := by
    have a1 : ¬ Config.windowSize < c.srcCursor + e.reach := Nat.not_lt.2 h1
    have a2 : ¬ Config.windowSize < c.dstCursor + e.out.length := Nat.not_lt.2 h2
    simp [a1, a2]
  unfold completeDirective
  rw [w, if_neg (by simp)]
  rw [show (s.modFu k fun x =>
      { x with ctx := some (c.complete e), stgWindow := writeBytes x.stgWindow c.dstCursor e.out })
    = s.withUnit k (c.complete e) (writeBytes (s.fu k).stgWindow c.dstCursor e.out) from State.modFu_congr rfl] <;> rfl

/-- A directive that raises no fault changes its unit only. -/
theorem completeDirective_plain {s : State} {k : FuNo} {c : Context} {e : Effect} (h1 : c.srcCursor + e.reach ≤ 4096)
    (h2 : c.dstCursor + e.out.length ≤ 4096) (hf : e.faults = []) :
    completeDirective k c e s = .next (s.withUnit k (c.complete e) (writeBytes (s.fu k).stgWindow c.dstCursor e.out)) := by
  rw [completeDirective_inside h1 h2, hf]
  simp [stoppingKind, reportFaults_nil]

end Sys2Proof.Machine
end

