-- ==== Sys2Proof/Laws/PerInstr.lean ====
section
/-! SUPPORT. Statements made of every command, one lemma per constructor. -/

namespace Sys2Proof.Laws.UpsetInRange

/-- A well-formed command strikes no pool location beyond the two pools (R4). -/
def Statement (i : Instr) : Prop := i.wf = true → i.upset.wf = true

theorem start : Statement (.start) := fun _ => rfl
theorem pause : Statement (.pause) := fun _ => rfl
theorem resume : Statement (.resume) := fun _ => rfl
theorem reset : Statement (.reset) := fun _ => rfl
theorem clear : Statement (.clear) := fun _ => rfl
theorem ackProtocol : Statement (.ackProtocol) := fun _ => rfl
theorem ctrlInvalidCommand (w : Word) : Statement (.ctrlInvalidCommand w) := fun _ => rfl
theorem post (w : Word) : Statement (.post w) := fun _ => rfl
theorem retire (w : Word) : Statement (.retire w) := fun _ => rfl
theorem registerWrite (o : BitVec 12) (w : AccessWidth) (v : Word) : Statement (.registerWrite o w v) := fun _ => rfl
theorem linkReset : Statement (.linkReset) := fun _ => rfl
theorem powerOn : Statement (.powerOn) := fun _ => rfl
theorem linkReadIssue (t : ReadTag) : Statement (.linkReadIssue t) := fun _ => rfl
theorem linkReadAnswer (t : ReadTag) (n : Nat) (d : List Byte) (u : Upset) : Statement (.linkReadAnswer t n d u) := fun h => by simp only [Instr.wf, Bool.and_eq_true] at h; exact h.2
theorem linkReadError (t : ReadTag) (n : Nat) (u : Upset) : Statement (.linkReadError t n u) := id
theorem linkReadTimeout (t : ReadTag) (n : Nat) (u : Upset) : Statement (.linkReadTimeout t n u) := id
theorem writeIssue (l : Option Nat) (u : Upset) : Statement (.writeIssue l u) := fun h => by simp only [Instr.wf, Bool.and_eq_true] at h; exact h.2
theorem writeFaultReport (o : Owner) (u : Upset) : Statement (.writeFaultReport o u) := fun h => by simp only [Instr.wf, Bool.and_eq_true] at h; exact h.2
theorem holdTimerExpiry (c : CqNo) : Statement (.holdTimerExpiry c) := fun _ => rfl
theorem directiveBoundary (k : FuNo) (u : Upset) : Statement (.directiveBoundary k u) := id
theorem copy (k : FuNo) (u : Upset) : Statement (.copy k u) := id
theorem copyUntil (k : FuNo) (u : Upset) : Statement (.copyUntil k u) := id
theorem skip (k : FuNo) (u : Upset) : Statement (.skip k u) := id
theorem literal (k : FuNo) (u : Upset) : Statement (.literal k u) := id
theorem fill (k : FuNo) (u : Upset) : Statement (.fill k u) := id
theorem padTo (k : FuNo) (u : Upset) : Statement (.padTo k u) := id
theorem check (k : FuNo) (u : Upset) : Statement (.check k u) := id
theorem number (k : FuNo) (u : Upset) : Statement (.number k u) := id
theorem addTotal (k : FuNo) (u : Upset) : Statement (.addTotal k u) := id
theorem repeatGroup (k : FuNo) (u : Upset) : Statement (.repeatGroup k u) := id
theorem recordBatch (k : FuNo) : Statement (.recordBatch k) := fun _ => rfl
theorem batchAnswer (k : FuNo) (u : Upset) : Statement (.batchAnswer k u) := id

end Sys2Proof.Laws.UpsetInRange
end

