-- ==== Sys2Proof/Tests/Slice0.lean ====
section
/-! SUPPORT. Small tests, their expected values taken from the manual's worked examples and tables, and for each statement
with hypotheses a witness: concrete states and operands that meet them, at the ends of their ranges. -/

namespace Sys2Proof.Tests

open Sys2Proof Sys2Proof.Machine

-- The kernel evaluates these one after another; run all at once they would need a thread each.
set_option Elab.async false

/-! ## Helpers -/

/-- A command answers a next state with a property. -/
def leads (i : Instr) (s : State) (p : State → Bool) : Bool :=
  match exec i s with
  | .next t => p t
  | .fault _ | .refused _ => false

/-- A command is refused as not due. -/
def notDue (i : Instr) (s : State) : Bool :=
  match exec i s with
  | .refused r => r == .eventNotDue
  | .next _ | .fault _ => false

/-- The part with a RUNNING engine. -/
def running : State := State.reset.setEngine .running

/-- SQ 0 and CQ 0 of size 4 configured, as in the ring example of 9.1: head and tail at 6. -/
def queues : State :=
  (running.modSq 0 fun x => { x with configured := true, base := 0x10000, size := 4, maxOutstanding := 32, head := 6, tail := 6 }).modCq 0
    fun x => { x with configured := true, base := 0x20000, size := 4, eventReserves := 1, threshold := 1, vector := 5 }

/-- A POST or RETIRE word for queue 0. -/
def word (index : Nat) : Word := BitVec.ofNat 32 (65536 * index)

/-- A code table: 30h to 39h DIGIT, 20h SPACE, 2Bh PLUS, 2Dh MINUS, 43h OVER_POS 3, 57h OVER_NEG 7, 7Ch DELIM, 00h STOP;
each byte has itself as its target, but 61h, whose target is 41h (3.5, 3.10, 11.7). -/
def codes : List CodeEntry :=
  (List.range 256).map fun v =>
    let e : CodeEntry := { target := if v = 0x61 then 0x41 else BitVec.ofNat 8 v }
    if 0x30 ≤ v ∧ v ≤ 0x39 then { e with classes := 0x02, digit := some (v - 0x30) }
    else if v = 0x20 then { e with classes := 0x04 }
    else if v = 0x2B then { e with classes := 0x08 }
    else if v = 0x2D then { e with classes := 0x10 }
    else if v = 0x43 then { e with classes := 0x20, digit := some 3 }
    else if v = 0x57 then { e with classes := 0x40, digit := some 7 }
    else if v = 0x7C then { e with classes := 0x01 }
    else if v = 0x00 then { e with classes := 0x80 }
    else e

/-- The first picture record of 11.7, with the literal bytes before it: a space and "CR". -/
def literalPart : List Byte :=
  [0x20, 0x43, 0x52, 0x01, 0x05, 0x00, 0x00, 0x00, 0x00, 0x02, 0x0C, 0x07, 0x02, 0x01, 0x30, 0x2E, 0x2C, 0x24, 0x20,
   0x00, 0x2D, 0x01, 0x01, 0x07, 0x00, 0x00, 0x00]

/-- The header of the layout of 2.9, with one directive. -/
def header : LayoutImage :=
  { srcLen := 20, maxOut := 42, terminator := [0x0D, 0x0A], faultFill := 0x3F, directiveCount := 1, literalCount := 51
    literalStart := some 0 }

/-- A FORMAT request of one record. -/
def request : Request :=
  { kind := some .format, totalsGroup := 3, srcAddr := 0x1000, srcLen := 40, dstCap := 64, dstAddr := 0x2000, recordCount := 1 }

/-- A unit about to execute the directive at location 0. -/
def context : Context :=
  { slot := 0, kind := .format, stamp := 0, recordIndex := 0, chunkIndex := 0, directiveIndex := 0, rep := none
    srcCursor := 0, dstCursor := 0, lastState := .none, lastValue := none, batch := [], phase := .directive
    layout := 0, image := header, table := 0, req := request }

/-- Unit 0 runs the job of slot 0 with a context, a directive at location 0 and source bytes in its window. -/
def unit (c : Context) (directive source : List Byte) : State :=
  let s := { running with ls := { running.ls with
    dirPool := writeBytes [] 0 directive, litPool := writeBytes [] 0 literalPart } }
  let s := (s.modLayout 0 fun x => { x with state := .ready, image := header, refCount := 1 }).modTable 0 fun x =>
    { x with ready := true, entries := codes, refCount := 1 }
  (s.modJob 0 fun x => { x with
      state := .running, req := c.req, tagCarried := true, refs := .both, boundLayout := some (0, 0)
      boundCodes := some 0 }).modFu 0
    fun x => { x with state := .busy, ctx := some c, srcWindow := writeBytes [] 0 source }

/-- The context of unit 0 has a property. -/
def ctxHas (p : Context → Bool) (s : State) : Bool := (s.fu 0).ctx.any p

/-- The first bytes staged in unit 0. -/
def staged (s : State) (n : Nat) : List Byte := readBytes (s.fu 0).stgWindow 0 n

/-- What a directive meets, from a fact that evaluation decides. -/
theorem due {s : State} {k : FuNo} {c : Context} {d : Directive}
    (h : (s.fu k).ctx = some c ∧ c.phase = .directive ∧ c.location < Config.directivePoolSize
      ∧ directiveAt s c.location = some d ∧ c.location ∉ s.ls.dirBad) : DirectiveDue s k c d :=
  ⟨h.1, h.2.1, h.2.2.1, h.2.2.2.1, h.2.2.2.2⟩

/-- The source record of 2.9: account code, two unused bytes, −1234.50, 75 and 0 in packed form. -/
def record29 : List Byte :=
  [0x41, 0x43, 0x43, 0x30, 0x30, 0x31, 0x20, 0x20, 0x00, 0x01, 0x23, 0x45, 0x0D, 0x00, 0x07, 0x5C, 0x00, 0x00, 0x0C, 0x00]

/-! ## Well-formedness: each check refuses a term that breaks it -/

theorem test_wf_ctrl_reset_is_no_invalid_command : (Instr.ctrlInvalidCommand 4).wf = false := by decide
theorem test_wf_register_write_at_post : (Instr.registerWrite 0x10 .word 0).wf = false := by decide
theorem test_wf_answer_too_long : (Instr.linkReadAnswer 0 0 (List.replicate 513 0) {}).wf = false := by decide +kernel
theorem test_wf_upset_beyond_directives : (Instr.linkReadError 0 0 { directives := [8192] }).wf = false := by decide
theorem test_wf_upset_beyond_literals : (Instr.copy 0 { literals := [32768] }).wf = false := by decide
theorem test_wf_write_issue_of_nothing : (Instr.writeIssue (some 0) {}).wf = false := by decide
theorem test_wf_owner_record : (Instr.writeFaultReport (.job 0 0 65535 0) {}).wf = false := by decide
theorem test_wf_owner_offset : (Instr.writeFaultReport (.job 0 0 0 16777216) {}).wf = false := by decide
theorem test_wf_accepts : (Instr.linkReadAnswer 31 7 (List.replicate 512 0) { slots := [31] }).wf = true := by decide +kernel

/-! ## Words: no word spells a command (log 2) -/

theorem test_no_word_spells_a_command : decodeTableWord 8 1 = none := by decide
theorem test_fetch_word_changes_nothing : State.reset.withFetchWord 8 1 = State.reset := rfl

/-! ## The register window -/

theorem test_start_aligned_asks_for_block :
    leads .start State.reset (fun t => t.hlu.engine == .setup && t.hlu.readQueue.length == 1) = true := by decide
theorem test_start_unaligned_is_bad_align :
    leads .start { State.reset with hlu := { State.reset.hlu with setupLo := 0x20 } }
      (fun t => t.hlu.engine == .off && statWord t == 0x40) = true := by decide
theorem test_pause_with_nothing_running_is_paused :
    leads .pause running (fun t => t.hlu.engine == .paused) = true := by decide
theorem test_resume : leads .resume (running.setEngine .paused) (fun t => t.hlu.engine == .running) = true := by decide
theorem test_reset_leaves_halted :
    leads .reset (enterHalted running) (fun t => t.hlu.engine == .off && t.hlu.fault == {}) = true := by decide
theorem test_clear_empties_table :
    leads .clear (unit context [] []) (fun t => t.table 0 == {} && t.layout 0 == {}) = true := by decide +kernel
theorem test_pause_in_off_sets_protocol_and_ack_clears_it :
    leads .pause State.reset (fun t => t.hlu.protocol && leads .ackProtocol t fun r => !r.hlu.protocol) = true := by decide
theorem test_unknown_ctrl_word_sets_protocol :
    leads (.ctrlInvalidCommand 0x101) running (fun t => t.hlu.protocol) = true := by decide
theorem test_post_fills_ring :
    leads (.post (word 2)) (queues.setEngine .paused) (fun t => (t.sq 0).tail == 2 && !(t.sq 0).broken) = true := by decide
theorem test_post_beyond_ring_breaks :
    leads (.post (word 3)) queues (fun t => (t.sq 0).broken && (t.sq 0).tail == 6) = true := by decide +kernel
theorem test_retire_hands_back :
    leads (.retire (word 5)) (queues.modCq 0 fun x => { x with tail := 5, retireIndex := 3, postedUnretired := 2 })
      (fun t => (t.cq 0).postedUnretired == 0 && (t.cq 0).retireIndex == 5) = true := by decide
theorem test_register_write_setup_hi :
    leads (.registerWrite 0x0C .word 0xABCD1234) State.reset (fun t => t.hlu.setupHi == 0xABCD1234) = true := by decide
theorem test_narrow_register_write_ignored :
    leads (.registerWrite 0x0C .half 0xFFFF) State.reset (fun t => t.hlu.setupHi == 0) = true := by decide
theorem test_link_reset_clears_setup_lo :
    leads .linkReset { running with hlu := { running.hlu with setupLo := 7 } } (fun t => t.hlu == State.reset.hlu) = true := by
  decide
theorem test_power_on : leads .powerOn queues (fun t => t.qm == State.reset.qm) = true := by decide +kernel

/-! ## The link -/

/-- A link read in flight under tag 0, number 7. -/
def inFlight (who : Requester) (len place : Nat) (s : State) : State :=
  { s.setTag 0 (some ⟨⟨who, 0, 0x1000, len, place, true⟩, 7⟩) with readStamp := 8 }

/-- Unit 0 waits for a source record of `len` bytes. -/
def waiting (len : Nat) : State := inFlight (.unit 0) len 0 (unit { context with phase := .readWait } [] [])

/-- A fetch for SQ 0 in flight, slot 0 held for it. -/
def fetching : State :=
  inFlight (.fetch 0) 64 0
    (holdSlot 0 0 ((queues.modSq 0 fun x => { x with tail := 7, outstanding := 1, fetchInFlight := true }).modCq 0 fun x =>
      { x with reservations := 1 }))

/-- A write handed and not issued, of `n` bytes from an address. -/
def handed (addr : HostAddr) (n : Nat) (s : State) : State :=
  handWrite { writer := .unit 0, owner := .job 0 0 0 0, addr, data := List.replicate n 0x41 } s

theorem test_issue_puts_read_on_link :
    leads (.linkReadIssue 31) (askRead .setup 0 0x1000 512 0 State.reset)
      (fun t => t.hlu.out == [.read 31 0x1000 512] && t.hlu.readQueue == [] && t.readStamp == 1) = true := by decide
theorem test_issue_needs_a_read : notDue (.linkReadIssue 0) State.reset = true := by decide
theorem test_answer_brings_record_to_its_first_boundary :
    leads (.linkReadAnswer 0 7 (record29) {}) (waiting 20)
      (fun t => ctxHas (fun c => c.phase == .boundary && c.srcCursor == 0) t
        && readByte (t.fu 0).srcWindow 12 == 0x0D && t.tag 0 == none) = true := by decide +kernel
theorem test_late_answer_is_discarded :
    leads (.linkReadAnswer 0 6 (record29) {}) (waiting 20) (fun t => t.fu 0 == (waiting 20).fu 0 && (t.tag 0).isSome) = true := by decide +kernel
theorem test_error_breaks_queue :
    leads (.linkReadError 0 7 {}) fetching (fun t => (t.sq 0).broken && (t.sq 0).head == 6 && (t.sq 0).outstanding == 0
      && (t.job 0).state == .free) = true := by decide +kernel
theorem test_timeout_of_setup_is_read_fault :
    leads (.linkReadTimeout 0 7 {}) (inFlight .setup 512 0 (State.reset.setEngine .setup))
      (fun t => statWord t == 0x70) = true := by decide +kernel
theorem test_writes_end_at_multiples_of_512 :
    leads (.writeIssue none {}) (handed 0x1F0 600 running)
      (fun t => (t.hlu.out.map fun o => match o with
        | .write a d _ => (a.toNat, d.length)
        | .read _ _ _ | .message _ _ => (0, 0)) == [(0x1F0, 16), (0x200, 512), (0x400, 72)]
        && t.hlu.writeQueue == []) = true := by decide +kernel
theorem test_write_issued_in_part :
    leads (.writeIssue (some 2) {}) (handed 0x1F0 600 running)
      (fun t => t.hlu.out.length == 2 && t.hlu.writeQueue.map HandedWrite.issued == [2]) = true := by decide +kernel
theorem test_refused_tail_write_halts :
    leads (.writeFaultReport (.progressTail 3) {}) running
      (fun t => t.hlu.engine == .halted && faultWord t.hlu.fault == 0x322) = true := by decide +kernel
theorem test_refused_record_is_kept :
    leads (.writeFaultReport (.job 0 0 2 84) {}) (unit context [] [])
      (fun t => (t.settle 0).refused == some (2, 84)) = true := by decide +kernel
theorem test_hold_timer_sends_message :
    leads (.holdTimerExpiry 0) (queues.modCq 0 fun x => { x with unsignalled := 1, holdTimer := some 40 })
      (fun t => t.hlu.writeQueue.map HandedWrite.vector == [some 5] && (t.cq 0).unsignalled == 0) = true := by decide +kernel
theorem test_stopped_timer_cannot_expire : notDue (.holdTimerExpiry 0) queues = true := by decide +kernel

/-! ## Formatting units: the record of 2.9 -/

theorem test_boundary_begins_directive :
    leads (.directiveBoundary 0 {}) (unit { context with phase := .boundary } [] [])
      (fun t => ctxHas (fun c => c.phase == .directive) t) = true := by decide +kernel
theorem test_final_boundary_ends_job :
    leads (.directiveBoundary 0 {}) (unit { context with phase := .finalBoundary } [] [])
      (fun t => (t.fu 0).state == .idle && (t.job 0).status == some .success && (t.layout 0).refCount == 0) = true := by
  decide +kernel
theorem test_copy_translates :
    leads (.copy 0 {}) (unit context [0x01, 0, 3, 0, 0, 0, 0, 0] [0x61, 0x62, 0x63])
      (fun t => staged t 3 == [0x41, 0x62, 0x63] && ctxHas (fun c => c.srcCursor == 3 && c.dstCursor == 3) t) = true := by
  decide +kernel
theorem test_copy_until_consumes_delimiter :
    leads (.copyUntil 0 {}) (unit context [0x02, 0, 5, 0, 0, 0, 0, 0] [0x62, 0x63, 0x7C, 0x64, 0x65])
      (fun t => staged t 3 == [0x62, 0x63, 0] && ctxHas (fun c => c.srcCursor == 3 && c.dstCursor == 2) t) = true := by
  decide +kernel
theorem test_copy_until_without_delimiter_stops :
    leads (.copyUntil 0 {}) (unit { context with req := { request with stopMask := 0x40 } } [0x02, 0, 2, 0, 0, 0, 0, 0] [0x62, 0x63])
      (fun t => (t.job 0).status == some .fieldStop && (t.job 0).detail.code == 0x36
        && (t.job 0).first == some ⟨0, 0, .delim⟩) = true := by decide +kernel
theorem test_skip :
    leads (.skip 0 {}) (unit { context with srcCursor := 6, dstCursor := 6 } [0x03, 0, 2, 0, 0, 0, 0, 0] [])
      (fun t => ctxHas (fun c => c.srcCursor == 8 && c.dstCursor == 6 && c.phase == .boundary) t) = true := by decide +kernel
theorem test_literal_if_negative :
    leads (.literal 0 {}) (unit { context with lastState := .negative } [0x04, 1, 1, 0, 2, 0, 0, 0] [])
      (fun t => staged t 2 == [0x43, 0x52] && ctxHas (fun c => c.dstCursor == 2) t) = true := by decide +kernel
theorem test_literal_not_met :
    leads (.literal 0 {}) (unit { context with lastState := .zero } [0x04, 1, 1, 0, 2, 0, 0, 0] [])
      (fun t => staged t 2 == [0, 0] && ctxHas (fun c => c.dstCursor == 0) t) = true := by decide +kernel
theorem test_fill :
    leads (.fill 0 {}) (unit context [0x05, 0x2A, 3, 0, 0, 0, 0, 0] [])
      (fun t => staged t 4 == [0x2A, 0x2A, 0x2A, 0] && ctxHas (fun c => c.dstCursor == 3) t) = true := by decide +kernel
theorem test_pad_to :
    leads (.padTo 0 {}) (unit { context with dstCursor := 37 } [0x06, 0x20, 40, 0, 0, 0, 0, 0] [])
      (fun t => ctxHas (fun c => c.dstCursor == 40) t && readByte (t.fu 0).stgWindow 39 == 0x20) = true := by decide +kernel
theorem test_check_reports_class :
    leads (.check 0 {}) (unit context [0x08, 0x02, 2, 0, 0, 0, 0, 0] [0x30, 0x41])
      (fun t => (t.job 0).faults == 0x80 && ctxHas (fun c => c.srcCursor == 0) t) = true := by decide +kernel
theorem test_number_renders_amount :
    leads (.number 0 {}) (unit { context with srcCursor := 8, dstCursor := 7 } [0x07, 0, 3, 0, 0, 0, 0, 0] record29)
      (fun t => readBytes (t.fu 0).stgWindow 7 12 == [0x20, 0x20, 0x2D, 0x24, 0x31, 0x2C, 0x32, 0x33, 0x34, 0x2E, 0x35, 0x30]
        && ctxHas (fun c => c.srcCursor == 13 && c.dstCursor == 19 && c.lastState == .negative && c.lastValue == some (-123450)) t)
      = true := by decide +kernel
theorem test_number_fills_after_bad_sign :
    leads (.number 0 {}) (unit context [0x07, 0, 3, 0, 0, 0, 0, 0] [0x00, 0x01, 0x23, 0x45, 0x03])
      (fun t => staged t 12 == List.replicate 12 0x3F && (t.job 0).faults == 0x02 && ctxHas (fun c => c.lastState == .none) t)
      = true := by decide +kernel
theorem test_add_total_joins_pair :
    leads (.addTotal 0 {}) (unit { context with lastState := .zero, lastValue := some 0, batch := [(0, -123450), (1, 75)] }
        [0x09, 1, 0, 0, 0, 0, 0, 0] [])
      (fun t => ctxHas (fun c => c.batch == [(0, -123450), (1, 75)]) t) = true := by decide +kernel
theorem test_repeat_goes_to_its_group :
    leads (.repeatGroup 0 {}) (unit context [0x0A, 2, 2, 0, 0, 0, 0, 0] [])
      (fun t => ctxHas (fun c => c.directiveIndex == 1 && c.rep == some ⟨1, 2, 2⟩) t) = true := by decide +kernel
theorem test_parity_error_damages_layout :
    leads (.skip 0 { directives := [0] }) (unit context [0x03, 0, 2, 0, 0, 0, 0, 0] [])
      (fun t => (t.layout 0).state == .damaged && (t.job 0).status == some .engineFault) = true := by decide +kernel

/-! ## Totals -/

/-- Unit 0 has submitted a batch for group 3, whose accumulator 0 stands one below its limit. -/
def batched (v : Int) : State :=
  (unit { context with phase := .batchSubmitted, batch := [(0, v)] } [] []).setGroup 3
    (modifyAt zeroGroup 0 fun _ => ⟨10 ^ 31 - 2, 4294967295⟩)

theorem test_batch_at_the_limit_is_applied :
    leads (.recordBatch 0) (batched 1)
      (fun t => (t.group 3)[0] == ⟨10 ^ 31 - 1, 4294967295⟩ && ctxHas (fun c => c.phase == .batchAnswered true) t) = true := by
  decide +kernel
theorem test_batch_beyond_the_limit_is_refused :
    leads (.recordBatch 0) (batched 2)
      (fun t => (t.group 3)[0] == ⟨10 ^ 31 - 2, 4294967295⟩ && ctxHas (fun c => c.phase == .batchAnswered false) t) = true := by
  decide +kernel
theorem test_refused_batch_reports_directive_count :
    leads (.batchAnswer 0 {}) (unit { context with phase := .batchAnswered false } [] [])
      (fun t => (t.job 0).first == some ⟨0, 1, .total⟩ && (t.job 0).recordsDone == 1) = true := by decide +kernel
theorem test_refused_batch_in_the_mask_stops :
    leads (.batchAnswer 0 {}) (unit { context with phase := .batchAnswered false, req := { request with stopMask := 0x20 } } [] [])
      (fun t => (t.job 0).status == some .fieldStop && (t.job 0).recordsDone == 0) = true := by decide +kernel

/-! ## Witnesses: states and operands that meet the hypotheses of the statements -/

/-- Slot 31 in a state. -/
def slot31 (st : JobState) (s : State) : State := s.modJob 31 fun x => { x with state := st }

theorem witness_StepTakesFrontCommand : State.reset.pending = [] ∧ (State.reset.push .start).pending = [.start] := by decide

theorem witness_CommandsLeaveQueueAlone : ∃ t, exec .pause (running.push .start) = .next t := ⟨_, rfl⟩

theorem witness_StartLatchesSetupAddress :
    State.reset.hlu.engine = .off
      ∧ (State.reset.hlu.setupHi ++ State.reset.hlu.setupLo).toNat % 64 = 0
      ∧ ((0xFFFFFFFF : Word) ++ (0xFFFFFFC0 : Word)).toNat % 64 = 0
      ∧ ((0 : Word) ++ (63 : Word)).toNat % 64 ≠ 0 := by decide

theorem witness_MisplacedControlSetsProtocol :
    running.hlu.engine ≠ .off ∧ State.reset.hlu.engine ≠ .running ∧ running.hlu.engine ≠ .pausing
      ∧ running.hlu.engine ≠ .paused ∧ (0 : Word).toNat = 0 ∧ 7 ≤ (7 : Word).toNat ∧ 7 ≤ (0xFFFFFFFF : Word).toNat := by decide

theorem witness_PauseReachesPausingOrPaused :
    (∃ j, ((slot31 .draining running).job j).state = .running ∨ ((slot31 .draining running).job j).state = .draining)
      ∧ (∀ j, ((slot31 .posting running).job j).state ≠ .running ∧ ((slot31 .posting running).job j).state ≠ .draining)
      ∧ (∀ j, ((slot31 .posting running).job j).state ≠ .free → j ∉ (slot31 .posting running).jt.badParity)
      ∧ (∃ j, ((slot31 .posting (running.strike { slots := [31] })).job j).state ≠ .free
          ∧ j ∈ (slot31 .posting (running.strike { slots := [31] })).jt.badParity) := by decide +kernel

theorem witness_ResumeMakesEngineRunning :
    (running.setEngine .pausing).hlu.engine = .pausing ∧ (running.setEngine .paused).hlu.engine = .paused ∧ Settled running :=
  ⟨rfl, rfl, rfl⟩

theorem witness_ResetDiscardsJobsAndKeepsStores :
    (∀ l, ((unit context [] []).layout l).staged = none) ∧ ((unit context [] []).layout 0).state = .ready
      ∧ (((unit context [] []).modLayout 127 fun x => { x with staged := some header }).layout 127).staged = some header := by
  decide +kernel

theorem witness_PostMovesTailOrBreaksQueue :
    queues.hlu.engine = .running ∧ State.reset.hlu.engine = .off ∧ word 2 &&& 0xF800FFF8#32 = 0
      ∧ (0x08000000 : Word) &&& 0xF800FFF8#32 ≠ 0 ∧ (queues.sq 1).configured = false ∧ (queues.sq 0).configured = true
      ∧ (queues.sq 0).broken = false ∧ ((queues.modSq 0 fun x => { x with broken := true }).sq 0).broken = true
      ∧ wordIndex (word 7) < 2 * (queues.sq 0).size ∧ 2 * (queues.sq 0).size ≤ wordIndex (word 8)
      ∧ (wordIndex (word 2) + 2 * 4 - (queues.sq 0).head) % (2 * 4) = 4
      ∧ (wordIndex (word 3) + 2 * 4 - (queues.sq 0).head) % (2 * 4) = 5 := by decide

/-- CQ 0 with two entries not yet handed back. -/
def retirable : State := queues.modCq 0 fun x => { x with tail := 5, retireIndex := 3, postedUnretired := 2 }

theorem witness_RetireHandsEntriesBack :
    retirable.hlu.engine = .running ∧ (retirable.cq 0).configured = true ∧ (retirable.cq 1).configured = false
      ∧ word 5 &&& 0xF800FFF8#32 = 0 ∧ (8 : Word) &&& 0xF800FFF8#32 ≠ 0
      ∧ ¬ (2 * 4 ≤ wordIndex (word 5) ∨ (5 + 2 * 4 - 3) % (2 * 4) < (wordIndex (word 5) + 2 * 4 - 3) % (2 * 4))
      ∧ (5 + 2 * 4 - 3) % (2 * 4) < (wordIndex (word 6) + 2 * 4 - 3) % (2 * 4) ∧ 2 * 4 ≤ wordIndex (word 8) := by decide

theorem witness_RegisterWriteReachesItsRegister :
    (0xFFF : BitVec 12) ≠ 0x00 ∧ (0x18 : BitVec 12) ≠ 0x00 ∧ (0x18 : BitVec 12) ≠ 0x08 ∧ (0x18 : BitVec 12) ≠ 0x0C
      ∧ (0x18 : BitVec 12) ≠ 0x10 ∧ (0x18 : BitVec 12) ≠ 0x14 ∧ 7 ≤ (7 : Word).toNat := by decide

theorem witness_RegistersReadTheirFields :
    (0xFFC : BitVec 12).toNat % 4 = 0 ∧ (0xFFC : BitVec 12) ≠ 0x04 ∧ (0xFFC : BitVec 12) ≠ 0x18
      ∧ (0xFFE : BitVec 12).toNat % 2 = 0 := by decide

/-- A setup that has asked for its block. -/
def asking : State := askRead .setup 0 0x1000 512 0 (State.reset.setEngine .setup)

theorem witness_LinkReadIssueTakesQueueHead :
    State.reset.hlu.readQueue = [] ∧ asking.hlu.readQueue = linkReads .setup 0 0x1000 512 0 ∧ asking.tag 31 = none
      ∧ (inFlight .setup 512 0 asking).tag 0 ≠ none := by decide +kernel

theorem witness_LinkReadsCoverTheRead :
    linkPieces 0 0 = [(0, 0)] ∧ linkPieces 0x200 512 = [(0, 512)] ∧ linkPieces 511 2 = [(0, 1), (1, 1)] := by decide

/-- String B's part of a COMPARE chunk, wanted no more after a fault of string A's: its first link read, of 64 bytes, is in
flight, and its second stands queued before another requester's. -/
def otherPart : State :=
  let s := (unit context [] []).setTag 0 (some ⟨⟨.unit 0, 1, 0x11C0, 64, 256, false⟩, 7⟩)
  { s with
    hlu := { s.hlu with
      readQueue := [⟨.unit 0, 1, 0x1200, 192, 320, false⟩] ++ linkReads (.fetch 0) 0 0x4000 64 0 }
    readStamp := 8 }

theorem test_error_removes_the_rest_of_an_unwanted_read :
    leads (.linkReadError 0 7 {}) otherPart
      (fun t => t.hlu.readQueue == linkReads (.fetch 0) 0 0x4000 64 0 && t.tag 0 == none) = true := by decide +kernel

theorem witness_StaleAndUnwantedAnswersReachNobody :
    (waiting 20).tag 0 = some ⟨⟨.unit 0, 0, 0x1000, 20, 0, true⟩, 7⟩ ∧ (waiting 20).tag 1 = none
      ∧ (enterHalted (waiting 20)).tag 0 = some ⟨⟨.unit 0, 0, 0x1000, 20, 0, false⟩, 7⟩
      ∧ record29.length = 20 ∧ (record29 ++ [0]).length ≠ 20
      ∧ otherPart.tag 0 = some ⟨⟨.unit 0, 1, 0x11C0, 64, 256, false⟩, 7⟩
      ∧ otherPart.hlu.readQueue = ⟨.unit 0, 1, 0x1200, 192, 320, false⟩ :: [] ++ linkReads (.fetch 0) 0 0x4000 64 0
      ∧ 320 = 256 + 64 + 512 * (otherPart.readStamp - (7 + 1)) ∧ (waiting 20).hlu.readQueue.head? = none := by decide +kernel

/-- Two link reads of one source record, the second in flight under tag 1. -/
def twoParts : State := (waiting 20).setTag 1 (some ⟨⟨.unit 0, 0, 0x1014, 20, 20, true⟩, 6⟩)

theorem witness_AnswersPlaceDataUntilTheLast :
    twoParts.tag 0 = some ⟨⟨.unit 0, 0, 0x1000, 20, 0, true⟩, 7⟩ ∧ record29.length = 20
      ∧ readOutstanding (.unit 0) (placeData ⟨.unit 0, 0, 0x1000, 20, 0, true⟩ record29 (twoParts.setTag 0 none)) = true
      ∧ readOutstanding (.unit 0) (placeData ⟨.unit 0, 0, 0x1000, 20, 0, true⟩ record29 ((waiting 20).setTag 0 none)) = false := by
  decide +kernel

theorem witness_SourceRecordArrivesAtItsStartValues :
    (waiting 20).tag 0 = some ⟨⟨.unit 0, 0, 0x1000, 20, 0, true⟩, 7⟩ ∧ record29.length = 20
      ∧ ((waiting 20).fu 0).ctx = some { context with phase := .readWait } ∧ context.kind = .format
      ∧ readOutstanding (.unit 0) ((waiting 20).setTag 0 none) = false := by decide +kernel

/-- The load in slot 31 waits for its image under tag 0. -/
def loadWaits (who : Requester) : State :=
  let s := inFlight who 100 0 (slot31 .service running)
  { s with ls := { s.ls with queue := [31], bufferHeld := true }, cts := { s.cts with queue := [31], bufferHeld := true } }

theorem witness_FaultingLinkReadEndsItsRead :
    (waiting 20).tag 0 = some ⟨⟨.unit 0, 0, 0x1000, 20, 0, true⟩, 7⟩
      ∧ ((waiting 20).fu 0).ctx = some { context with phase := .readWait }
      ∧ ((unit { context with kind := .translate, phase := .readWait } [] []).fu 0).ctx.map Context.kind = some .translate
      ∧ ((inFlight (.unit 3) 20 0 running).fu 3).ctx = none
      ∧ (inFlight .setup 512 0 asking).tag 0 = some ⟨⟨.setup, 0, 0x1000, 512, 0, true⟩, 7⟩
      ∧ fetching.tag 0 = some ⟨⟨.fetch 0, 0, 0x1000, 64, 0, true⟩, 7⟩
      ∧ (loadWaits .layoutLoad).tag 0 = some ⟨⟨.layoutLoad, 0, 0x1000, 100, 0, true⟩, 7⟩
      ∧ (loadWaits .codesLoad).tag 0 = some ⟨⟨.codesLoad, 0, 0x1000, 100, 0, true⟩, 7⟩
      ∧ (loadWaits .layoutLoad).ls.queue = [31] ∧ (loadWaits .codesLoad).cts.queue = [31]
      ∧ (31 : SlotNo) ∉ ((loadWaits .codesLoad).strike {}).jt.badParity
      ∧ (loadWaits (.settle 31)).tag 0 = some ⟨⟨.settle 31, 0, 0x1000, 100, 0, true⟩, 7⟩ := by decide +kernel

theorem witness_FetchFaultBreaksTheQueue :
    fetching.tag 0 = some ⟨⟨.fetch 0, 0, 0x1000, 64, 0, true⟩, 7⟩
      ∧ (∀ i, (fetching.job i).state = .fetched ∧ (fetching.job i).sq = 0 ↔ i = 0)
      ∧ (fetching.sq 0).broken = false
      ∧ ((fetching.modSq 0 fun x => { x with broken := true }).sq 0).broken = true := by decide +kernel

/-- A configuration block with one SQ and one CQ of size 4. -/
def block : List Byte :=
  [1, 1, 0, 0, 0, 0, 0, 0, 0x40, 0, 0, 0, 0, 0, 0, 0] ++ List.replicate 48 0
    ++ ([0, 1, 0, 0, 0, 0, 0, 0, 4, 0, 0, 1, 32, 0, 0, 0] ++ List.replicate 112 0)
    ++ ([0, 2, 0, 0, 0, 0, 0, 0, 4, 0, 1, 31, 64, 255, 0, 0] ++ List.replicate 304 0)

/-- The block's read in flight. -/
def blockRead : State := inFlight .setup 512 0 (State.reset.setEngine .setup)

theorem witness_ConfigurationBlockEndsSetup :
    blockRead.tag 0 = some ⟨⟨.setup, 0, 0x1000, 512, 0, true⟩, 7⟩ ∧ block.length = 512
      ∧ (List.replicate 512 (0 : Byte)).length = 512 ∧ readOutstanding .setup (blockRead.setTag 0 none) = false
      ∧ blockRead.hlu.engine = .setup ∧ setupCheck block = .success
      ∧ setupCheck (List.replicate 512 0) = .badCount ∧ blockRead.hlu.writeQueue = [] ∧ blockRead.hlu.waiting = [] := by
  decide +kernel

theorem witness_WriteIssueTakesQueueHead :
    (∃ e, (handed 0x1F0 600 running).hlu.writeQueue = [e] ∧ (e.linkOps.drop e.issued).length = 3)
      ∧ (handed 0x1F0 600 running).hlu.waiting = [] ∧ State.reset.hlu.writeQueue = [] :=
  ⟨⟨_, rfl, by decide +kernel⟩, rfl, rfl⟩

/-- One write in the queue while two writers wait. -/
def crowded : State :=
  let s := handed 0x1000 1 running
  { s with hlu := { s.hlu with waiting := s.hlu.writeQueue ++ (s.hlu.writeQueue.map fun e => { e with writer := .totals }) } }

theorem witness_LeavingWriteAdmitsOneWaiter :
    (∃ e, crowded.hlu.writeQueue = [e]) ∧ crowded.hlu.waiting ≠ [] ∧ (crowded.hlu.waiting.map HandedWrite.writer).length = 2 :=
  ⟨⟨_, rfl⟩, by decide, by decide⟩

/-- Unit 0 waits for room in the write queue. -/
def handing : State := unit { context with phase := .writeWait .onward, dstCursor := 42 } [] []

theorem witness_RefusedQueueWritesHaltTheEngine :
    running.hlu.engine = .running ∧ State.reset.hlu.engine = .off ∧ ((waiting 20).fu 0).ctx = some { context with phase := .readWait }
      ∧ ((waiting 20).fu 1).ctx = none ∧ ((unit context [] []).fu 0).ctx = some context ∧ context.phase = .directive
      ∧ (handing.fu 0).ctx = some { context with phase := .writeWait .onward, dstCursor := 42 }
      ∧ context.slot ∉ (handing.strike {}).jt.badParity ∧ (∀ i, i ≠ (0 : FuNo) → (handing.fu i).ctx = none)
      ∧ (((unit { context with phase := .boundary } [] []).fu 0).ctx.map Context.phase) = some .boundary := by decide +kernel

theorem witness_RefusedJobWritesAreKeptEarliest :
    (unit context [] []).hlu.engine = .running ∧ ((unit context [] []).job 0).state = .running
      ∧ ((unit context [] []).job 31).state = .free ∧ ((unit context [] []).job 0).takeOrder = 0
      ∧ (0 : SlotNo) ∉ ((unit context [] []).strike {}).jt.badParity
      ∧ (0 : SlotNo) ∈ ((unit context [] []).strike { slots := [0] }).jt.badParity
      ∧ (fetching.job 0).state = .fetched ∧ State.reset.hlu.engine = .off := by decide +kernel

theorem witness_HoldTimerExpirySendsOneMessage :
    ((queues.modCq 0 fun x => { x with holdTimer := some 4 }).cq 0).holdTimer ≠ none
      ∧ ((queues.modCq 0 fun x => { x with holdTimer := some 4 }).cq 0).unsignalled = 0
      ∧ 0 < ((queues.modCq 0 fun x => { x with holdTimer := some 4, unsignalled := 1 }).cq 0).unsignalled
      ∧ (queues.cq 0).holdTimer = none := by decide

/-- Unit 0 at a boundary. -/
def bounded (p : Phase) (i : Nat) : State := unit { context with phase := p, directiveIndex := i } [] []

theorem witness_DirectiveBoundaryAppliesFirstRow :
    ((bounded .boundary 0).fu 0).ctx = some { context with phase := .boundary }
      ∧ ((bounded .finalBoundary 1).fu 0).ctx = some { context with phase := .finalBoundary, directiveIndex := 1 }
      ∧ ((bounded .boundary 0).setEngine .halted).hlu.engine = .halted ∧ (bounded .boundary 0).hlu.engine = .running
      ∧ (0 : SlotNo) ∈ ((bounded .boundary 0).strike { slots := [0] }).jt.badParity
      ∧ (0 : SlotNo) ∉ ((bounded .boundary 0).strike {}).jt.badParity ∧ ((bounded .boundary 0).job 0).abortPending = false
      ∧ (((bounded .boundary 0).modJob 0 fun x => { x with abortPending := true }).job 0).abortPending = true
      ∧ ((bounded .boundary 0).layout 0).damaged = false
      ∧ (((bounded .boundary 0).modLayout 0 LayoutSlot.markDamaged).layout 0).damaged = true
      ∧ 0 < context.image.directiveCount := by decide +kernel

theorem witness_EndOfRecordMeasuresAndSubmits :
    ((bounded .boundary 1).fu 0).ctx = some { context with phase := .boundary, directiveIndex := 1 }
      ∧ context.image.directiveCount ≤ 1 ∧ (bounded .boundary 1).hlu.engine ≠ .halted
      ∧ (0 : SlotNo) ∉ ((bounded .boundary 1).strike {}).jt.badParity ∧ ((bounded .boundary 1).job 0).abortPending = false
      ∧ ((bounded .boundary 1).layout 0).damaged = false ∧ 4094 + context.image.terminator.length ≤ 4096
      ∧ context.req.dstCap - ((bounded .boundary 1).job 0).bytesWritten < 63 + context.image.terminator.length
      ∧ 62 + context.image.terminator.length ≤ context.req.dstCap - ((bounded .boundary 1).job 0).bytesWritten := by
  decide +kernel

theorem witness_ReleaseDecidesTheJobsStatus :
    ((unit context [] []).fu 0).ctx = some context ∧ (unit context [] []).hlu.engine ≠ .halted
      ∧ (∀ l, ((unit context [] []).layout l).service ≠ some context.slot) ∧ (unit context [] []).jt.badParity = []
      ∧ ((unit context [] []).settle 0).handed = false ∧ ((handed 0 1 (unit context [] [])).settle 0).handed = true
      ∧ ((unit context [] []).job 0).refs = .both ∧ ((unit context [] []).job 0).boundLayout = some (0, 0)
      ∧ ((unit context [] []).job 0).boundCodes = some 0 ∧ (∀ i, i ≠ (0 : FuNo) → ((unit context [] []).fu i).ctx = none)
      ∧ (((unit context [] []).modJob 0 fun x => { x with refs := .none }).job 0).refs = .none := by decide +kernel

theorem witness_HandOffWritesOneWholeRecord :
    ((unit context [] []).fu 0).ctx = some context ∧ context.kind = .format
      ∧ context.req.recordCount ≤ context.recordIndex + 1 ∧ context.slot ∉ (unit context [] []).jt.badParity
      ∧ (unit context [] []).hlu.writeQueue.length < 64 ∧ (unit context [] []).hlu.waiting = [] ∧ context.dstCursor = 0
      ∧ ((unit { context with dstCursor := 42 } [] []).fu 0).ctx = some { context with dstCursor := 42 } := by decide +kernel

theorem witness_RecordBoundarySuspendsOrReadsOn :
    ((unit context [] []).fu 0).ctx = some context ∧ ((unit context [] []).setEngine .halted).hlu.engine = .halted
      ∧ ((unit context [] []).setEngine .pausing).hlu.engine = .pausing
      ∧ ((unit context [] []).fu 0).suspendRequested = false ∧ (unit context [] []).hlu.engine = .running
      ∧ ((unit context [] []).job 0).abortPending = false ∧ context.slot ∉ (unit context [] []).jt.badParity := by decide +kernel

/-! ### Directives -/

theorem witness_CopyStagesTranslatedBytes :
    DirectiveDue ((unit { context with srcCursor := 4091, dstCursor := 0 } [0x01, 0, 5, 0, 0, 0, 0, 0] []).strike {}) 0
        { context with srcCursor := 4091, dstCursor := 0 } (.copy 5)
      ∧ 4091 + 5 ≤ 4096 ∧ 0 + 5 ≤ 4096 :=
  ⟨due (by decide +kernel), by decide, by decide⟩

theorem witness_SkipFillAndPadToExamineNoByte :
    DirectiveDue ((unit context [0x03, 0, 0, 0x10, 0, 0, 0, 0] []).strike {}) 0 context (.skip 4096)
      ∧ DirectiveDue ((unit context [0x05, 0x2A, 0, 0x10, 0, 0, 0, 0] []).strike {}) 0 context (.fill 0x2A 4096)
      ∧ DirectiveDue ((unit context [0x06, 0x20, 1, 0, 0, 0, 0, 0] []).strike {}) 0 context (.padTo 0x20 1)
      ∧ DirectiveDue ((unit { context with dstCursor := 1 } [0x06, 0x20, 1, 0, 0, 0, 0, 0] []).strike {}) 0
          { context with dstCursor := 1 } (.padTo 0x20 1) :=
  ⟨due (by decide +kernel), due (by decide +kernel), due (by decide +kernel), due (by decide +kernel)⟩

theorem witness_CopyUntilStopsAtTheDelimiter :
    DirectiveDue ((unit context [0x02, 0, 2, 0, 0, 0, 0, 0] [0x62, 0x7C]).strike {}) 0 context (.copyUntil 2)
      ∧ (readBytes ((unit context [] [0x62, 0x7C]).fu 0).srcWindow 0 2)[1]? = some 0x7C
      ∧ (((unit context [] []).table 0).entry 0x7C).has .delim = true
      ∧ (((unit context [] []).table 0).entry 0x62).has .delim = false
      ∧ faultSet context.req.stopMask .delim = false ∧ faultSet 0x40 .delim = true :=
  ⟨due (by decide +kernel), by decide +kernel, by decide +kernel, by decide +kernel, by decide, by decide⟩

theorem witness_LiteralStagesWhenItsConditionIsMet :
    DirectiveDue ((unit context [0x04, 0, 1, 0, 2, 0, 0, 0] []).strike {}) 0 context (.literal .always 1 2)
      ∧ DirectiveDue ((unit context [0x04, 1, 1, 0, 2, 0, 0, 0] []).strike {}) 0 context (.literal .ifNegative 1 2)
      ∧ context.lastState = .none ∧ context.image.literalStart = some 0
      ∧ (∀ a ∈ ((unit context [] []).strike { literals := [3] }).ls.litBad, a < 0 + 1 ∨ 0 + 1 + 2 ≤ a) :=
  ⟨due (by decide +kernel), due (by decide +kernel), rfl, rfl, by decide⟩

theorem witness_CheckRaisesOneClassFault :
    DirectiveDue ((unit context [0x08, 0x02, 2, 0, 0, 0, 0, 0] [0x30, 0x41]).strike {}) 0 context (.check 0x02 2)
      ∧ (((unit context [] []).table 0).entry 0x30).classes &&& 0x02 ≠ 0
      ∧ ¬ (((unit context [] []).table 0).entry 0x41).classes &&& 0x02 ≠ 0
      ∧ faultSet context.req.stopMask .cls = false ∧ faultSet 0x80 .cls = true :=
  ⟨due (by decide +kernel), by decide +kernel, by decide +kernel, by decide, by decide⟩

theorem witness_NumberConvertsOneField :
    DirectiveDue ((unit context [0x07, 0, 3, 0, 0, 0, 0, 0] []).strike {}) 0 context (.number 3)
      ∧ ((unit context [] []).strike {}).ls.litBad = []
      ∧ (Picture.parse (readBytes (unit context [] []).ls.litPool (0 + 3) 24)).any
          (fun p => p.sourceSize .outward == 5 && p.outputSize .outward == 12
            && (convert .outward p ((unit context [] []).table 0).entry (fun _ => 0) [0, 1, 0x23, 0x45, 0x0D]).faults == []
            && (convert .outward p ((unit context [] []).table 0).entry (fun _ => 0) [0, 1, 0x23, 0x45, 0x0D]).marker == none
            && (convert .outward p ((unit context [] []).table 0).entry (fun _ => 0) [0, 1, 0x23, 0x45, 0x03]).faults == [.sign])
        = true :=
  ⟨due (by decide +kernel), rfl, by decide +kernel⟩

theorem witness_AddTotalExtendsTheBatch :
    DirectiveDue ((unit context [0x09, 15, 0, 0, 0, 0, 0, 0] []).strike {}) 0 context (.addTotal 15)
      ∧ context.lastState = .none
      ∧ DirectiveDue ((unit { context with lastState := .zero, lastValue := some 0 } [0x09, 15, 0, 0, 0, 0, 0, 0] []).strike {}) 0
          { context with lastState := .zero, lastValue := some 0 } (.addTotal 15) :=
  ⟨due (by decide +kernel), rfl, due (by decide +kernel)⟩

theorem witness_RepeatRunsItsGroupCountTimes :
    DirectiveDue ((unit context [0x0A, 255, 32, 0, 0, 0, 0, 0] []).strike {}) 0 context (.repeatGroup 255 32)
      ∧ context.srcCursor ≤ 4096 ∧ context.dstCursor ≤ 4096 :=
  ⟨due (by decide +kernel), by decide, by decide⟩

/-- The picture of 11.7 with TRAIL_PAIR, its marker pair at literal offset 27. -/
def pairPicture : List Byte :=
  literalPart.take 21 ++ [0x05, 0x01, 0x0F, 0x00, 27, 0x00] ++ [0x44, 0x42, 0x20, 0x20]

/-- Unit 0 about to execute a NUMBER with that picture. -/
def pairing : State :=
  let s := unit context [0x07, 0, 3, 0, 0, 0, 0, 0] [0, 1, 0x23, 0x45, 0x0D]
  { s with ls := { s.ls with litPool := writeBytes [] 0 pairPicture } }

theorem witness_ParityErrorEndsTheJob :
    ((unit context [0x03, 0, 2, 0, 0, 0, 0, 0] []).fu 0).ctx = some context ∧ context.phase = .directive
      ∧ context.location = 0 ∧ context.location ∈ ((unit context [] []).strike { directives := [0] }).ls.dirBad
      ∧ directiveAt (unit context [0x03, 0, 2, 0, 0, 0, 0, 0] []) 0 = some (.skip 2)
      ∧ directiveAt (unit context [0x0A, 2, 2, 0, 0, 0, 0, 0] []) 0 = some (.repeatGroup 2 2)
      ∧ context.image.literalStart = some 0 ∧ directiveAt (unit context [0x04, 0, 1, 0, 2, 0, 0, 0] []) 0 = some (.literal .always 1 2)
      ∧ 2 ∈ ((unit context [] []).strike { literals := [2] }).ls.litBad
      ∧ directiveAt pairing 0 = some (.number 3) ∧ 26 ∈ (pairing.strike { literals := [26] }).ls.litBad
      ∧ (Picture.parse (readBytes pairing.ls.litPool 3 24)).any
          (fun p => (convert .outward p (pairing.table 0).entry (fun i => readByte pairing.ls.litPool i)
            (readBytes (pairing.fu 0).srcWindow 0 (p.sourceSize .outward))).marker == some 27) = true
      ∧ 28 ∈ (pairing.strike { literals := [28] }).ls.litBad := by decide +kernel

/-! ### Totals, numbers and field faults -/

theorem witness_RecordBatchAppliesWholeOrNot :
    ((batched 1).fu 0).ctx = some { context with phase := .batchSubmitted, batch := [(0, 1)] }
      ∧ context.req.group? = some 3 ∧ ([((0 : AccNo), (1 : Int))].map Prod.fst).Nodup
      ∧ (((batched 1).group 3)[(0 : AccNo)].value + 1).natAbs ≤ 10 ^ 31 - 1
      ∧ ¬ (((batched 2).group 3)[(0 : AccNo)].value + 2).natAbs ≤ 10 ^ 31 - 1 := by decide +kernel

theorem witness_BatchAnswerWritesOrStops :
    ((bounded (.batchAnswered true) 1).fu 0).ctx = some { context with phase := .batchAnswered true, directiveIndex := 1 }
      ∧ ((bounded (.batchAnswered false) 1).fu 0).ctx = some { context with phase := .batchAnswered false, directiveIndex := 1 }
      ∧ faultSet context.req.stopMask .total = false ∧ faultSet 0x20 .total = true
      ∧ ((bounded (.batchAnswered false) 1).setEngine .halted).hlu.engine = .halted := by decide +kernel

theorem witness_ConversionsGiveOneFieldOrOneValueFault :
    ∀ b d, ((fun b : Byte => if b.toNat / 16 = 3 ∧ b.toNat % 16 ≤ 9 then { classes := 2, digit := some (b.toNat % 16) }
      else ({} : CodeEntry)) b).digit = some d → d ≤ 9 := by
  intro b d
  dsimp only
  split
  · next h => intro e; cases e; exact h.2
  · intro e; cases e

theorem witness_PackedAndBinaryFieldsReadBack :
    encodePacked true 4 ⟨true, 120450⟩ = [0x01, 0x20, 0x45, 0x0D] ∧ 120450 < 10 ^ (2 * 4 - 1)
      ∧ encodeBinary true false 2 ⟨false, 30000⟩ = some [0x30, 0x75] ∧ encodeBinary true false 2 ⟨false, 40000⟩ = none
      ∧ encodeBinary true true 1 ⟨true, 128⟩ = some [0x80] ∧ encodeBinary false true 1 ⟨false, 256⟩ = none := by decide

theorem witness_FaultReportsKeepTheFirstFault :
    ({} : Job).first = none ∧ (({} : Job).report .trunc 65534 255).first ≠ none := by decide

/-! ### Jobs, queues and stores -/

theorem witness_TakeStepDecidesAndPlacesTheJob :
    (fetching.job 0).status = none ∧ (request.fieldFault = none) ∧ ({ request with recordCount := 0 }.fieldFault = some .recordCount)
      ∧ (∃ k, k ≠ (0 : SlotNo) ∧ (((slot31 .ready fetching).modJob 31 fun x => { x with tagCarried := true }).job k).state ≠ .free
          ∧ (((slot31 .ready fetching).modJob 31 fun x => { x with tagCarried := true }).job k).tagCarried = true)
      ∧ fetching.chain 0 = .none ∧ (fetching.setChain 0 (.isOpen 31)).chain 0 = .isOpen 31
      ∧ (fetching.setChain 0 .brokenPending).chain 0 = .brokenPending := by decide +kernel

/-- Two requests posted to SQ 0. -/
def posted : State := queues.modSq 0 fun x => { x with tail := 0 }

theorem witness_ArbiterGrantsUrgentFirstWithinCredit :
    arbiterChoice posted = some 0 ∧ (posted.sq 0).cls = .normal ∧ posted.qm.lastNormal = none
      ∧ arbiterChoice State.reset = none
      ∧ arbiterChoice { posted with qm := { posted.qm with lastNormal := some 0 } } = some 0 := by decide +kernel

theorem witness_PostingHandsTheRecordBeforeItsTail :
    queues.hlu.engine ≠ .halted ∧ queues.hlu.writeQueue.length < 63 ∧ queues.hlu.waiting = [] := by decide

theorem witness_CoalescingCountsOrSendsOneMessage :
    queues.hlu.engine ≠ .halted ∧ (queues.cq 0).interruptEnable = false
      ∧ ((queues.modCq 0 fun x => { x with interruptEnable := true }).cq 0).interruptEnable = true
      ∧ ((queues.modCq 0 fun x => { x with interruptEnable := true }).cq 0).threshold
          ≤ ((queues.modCq 0 fun x => { x with interruptEnable := true }).cq 0).unsignalled + 1
      ∧ ¬ ((queues.modCq 0 fun x => { x with interruptEnable := true, threshold := 64 }).cq 0).threshold ≤ 62 + 1 := by decide

/-- A FORMAT job in slot 0 at the head of the ready order, with all units IDLE. -/
def dispatchable : State :=
  let s := (unit context [] []).modFu 0 fun _ => {}
  { (s.modJob 0 fun x => { x with state := .ready }) with sch := { ready := [⟨0, .normal, 0, false⟩], nextStamp := 0 } }

theorem witness_DispatchGivesHeadToLowestIdleUnit :
    dispatchable.hlu.engine = .running ∧ dispatchable.sch.ready = [⟨0, .normal, 0, false⟩]
      ∧ (dispatchable.fu 0).state = .idle ∧ (∀ i, i < (0 : FuNo) → (dispatchable.fu i).state ≠ .idle)
      ∧ (0 : SlotNo) ∉ dispatchable.jt.badParity ∧ (dispatchable.job 0).req.kind = some .format
      ∧ (dispatchable.layout 0).damaged = false := by decide +kernel

theorem witness_PoolsTakeFirstFitAndJoinFreedSpace :
    freeListFrom 8192 0 [⟨40, 100⟩, ⟨200, 7992⟩] = true ∧ allocFirst 80 [⟨40, 100⟩, ⟨200, 7992⟩] = some (40, [⟨120, 20⟩, ⟨200, 7992⟩])
      ∧ giveBack ⟨140, 60⟩ [⟨40, 100⟩, ⟨200, 7992⟩] = [⟨40, 8152⟩]
      ∧ (∀ e ∈ [(⟨40, 100⟩ : Extent), ⟨200, 7992⟩], e.start + e.len ≤ 140 ∨ 140 + 60 ≤ e.start)
      ∧ allocFirst 7993 [⟨40, 100⟩, ⟨200, 7992⟩] = none := by decide

/-- Layout slot 0 REPLACING or DROPPING with one reference and the service job in slot 31. -/
def leaving (st : LayoutState) (n : Nat) : State :=
  (slot31 .service running).modLayout 0 fun x =>
    { x with state := st, refCount := n, staged := some header, service := some 31, version := 255, everInstalled := true }

theorem witness_LastReleaseInstallsOrEmpties :
    2 ≤ ((leaving .replacing 2).layout 0).refCount ∧ ((leaving .replacing 1).layout 0).refCount = 1
      ∧ ((leaving .replacing 1).layout 0).state = .replacing ∧ ((leaving .replacing 1).layout 0).staged = some header
      ∧ ((leaving .dropping 1).layout 0).state = .dropping ∧ ((leaving .dropping 1).layout 0).service = some 31
      ∧ (31 : SlotNo) ∉ (leaving .dropping 1).jt.badParity ∧ ((leaving .ready 1).layout 0).state = .ready
      ∧ ((leaving .dropping 1).layout 0).image.literalStart = none
      ∧ (((leaving .dropping 1).modLayout 0 fun x => { x with image := header }).layout 0).image.literalStart = some 0 := by
  decide +kernel

/-- A code table image without a class: 256 entry images alike. -/
def plainCodes : List Byte := (List.replicate 256 [0, 0, (0xFF : Byte), 0]).flatten

theorem slice_flatten {e : List Byte} (h : e.length = 4) (n v : Nat) (hv : v < n) :
    slice (List.replicate n e).flatten (4 * v) 4 = e := by
  induction v generalizing n with
  | zero =>
    obtain ⟨m, rfl⟩ : ∃ m, n = m + 1 := ⟨n - 1, by omega⟩
    simp [slice, List.replicate_succ, ← h]
  | succ v ih =>
    obtain ⟨m, rfl⟩ : ∃ m, n = m + 1 := ⟨n - 1, by omega⟩
    have := ih m (by omega)
    simp only [slice, List.replicate_succ, List.flatten_cons] at this ⊢
    rw [show 4 * (v + 1) = e.length + 4 * v by omega, ← List.drop_drop, List.drop_left, this]

theorem codes_accepted {image : List Byte} (e : ∀ v, v < 256 → entryImage image v = [0, 0, 0xFF, 0]) :
    ∃ es, checkCodes image = .ok es := by
  have h : firstBad (fun _ e => (entryFault e).isNone) ((List.range 256).map (entryImage image)) = none := by
    generalize 256 = n at e ⊢
    unfold firstBad
    rw [Option.map_eq_none_iff, List.find?_eq_none]
    rintro ⟨x, i⟩ hx
    obtain ⟨v, hv, rfl⟩ := List.mem_map.mp (List.fst_mem_of_mem_zipIdx hx)
    rw [e v (List.mem_range.mp hv)]
    show ¬ (!(entryFault [0, 0, 0xFF, 0]).isNone) = true
    decide
  exact ⟨_, by simp only [checkCodes, h]; rfl⟩

/-- A LOAD_CODES of table 0 in slot 31, its image read into the buffer. -/
def loading (image : List Byte) : State :=
  let s := (slot31 .service running).modTable 0 fun x => { x with service := some 31 }
  { s with cts := { s.cts with queue := [31], bufferHeld := true, buffer := writeBytes [] 0 image } }

theorem loading_buffer (image : List Byte) : (loading image).cts.buffer = writeBytes [] 0 image := rfl

/-- The detail and byte value with which the image in the buffer fails. -/
def codesOutcome (s : State) : Option (Detail × Nat) :=
  match checkCodes (readBytes s.cts.buffer 0 1024) with
  | .ok _ => none
  | .error f => some f

theorem witness_CodeTableImageIsInstalledOrRefused :
    (∃ es, checkCodes (readBytes (loading plainCodes).cts.buffer 0 1024) = .ok es)
      ∧ (loading []).cts.queue = [31] ∧ (31 : SlotNo) ∉ (loading []).jt.badParity
      ∧ codesOutcome (loading [0, 2, 0xFF, 0]) = some (.digitPresence, 0)
      ∧ codesOutcome (loading [0, 2, 10, 0]) = some (.digitValue, 0) ∧ ((loading []).table 0).refCount = 0
      ∧ (((loading []).modTable 0 fun x => { x with ready := true, refCount := 1 }).table 0).refCount ≠ 0 := by
  refine ⟨?_, by decide +kernel⟩
  have n : plainCodes.length = 1024 := by decide +kernel
  have h := readBytes_writeBytes (m := []) 0 plainCodes (by decide)
  rw [n] at h
  rw [loading_buffer, h]
  exact codes_accepted fun v hv => slice_flatten rfl 256 v hv

theorem witness_TranslateStopsAndCompareOrders :
    (((unit context [] []).table 0).entry 0x61).has .stop = false ∧ (((unit context [] []).table 0).entry 0x00).has .stop = true
      ∧ compareChunk ((unit context [] []).table 0).entry 0x20 [0x61] [0x41, 0x20] 2 = none
      ∧ compareChunk ((unit context [] []).table 0).entry 0x20 [0x61, 0x43] [0x41, 0x42] 2 = some (1, .greater)
      ∧ compareChunk ((unit context [] []).table 0).entry 0x20 [0x61] [0x41, 0x42] 2 = some (1, .less) := by decide +kernel

/-! ### Invariants -/

theorem witness_SoundPartStaysSound : ∃ t, step (State.reset.push .start) = .next t ∧ t ≠ State.reset :=
  ⟨_, rfl, by decide +kernel⟩

theorem witness_ReadyOrderStaysSorted : ReadyOrdered dispatchable ∧ ∃ t, step (dispatchable.push .pause) = .next t :=
  ⟨by unfold ReadyOrdered; decide +kernel, _, rfl⟩

theorem witness_WriteQueueStaysBounded :
    WriteQueueBounded (handed 0x1000 1 running) ∧ ∃ t, step ((handed 0x1000 1 running).push .pause) = .next t :=
  ⟨by unfold WriteQueueBounded; decide +kernel, _, rfl⟩

theorem witness_HaltedEngineStaysQuiet : (enterHalted running).hlu.engine = .halted ∧ HaltQuiet (enterHalted running) := by
  refine ⟨rfl, rfl, rfl, rfl, ?_, by decide +kernel⟩
  have h : ∀ t : ReadTag, (enterHalted running).tag t = none := by decide +kernel
  intro t f e
  simp [h t] at e

theorem witness_HaltedIsLeftByResetsOnly :
    Instr.reset.wf = true ∧ Instr.pause.wf = true ∧ (enterHalted running).hlu.engine = .halted
      ∧ (∃ t, exec .reset (enterHalted running) = .next t) ∧ ∃ t, exec .pause (enterHalted running) = .next t :=
  ⟨rfl, rfl, rfl, ⟨_, rfl⟩, _, rfl⟩

theorem witness_SetupAddressChangesByRegisterWritesOnly :
    (∃ t, exec .clear State.reset = .next t) ∧ Instr.clear ≠ .linkReset ∧ Instr.clear ≠ .powerOn
      ∧ ∀ offset width v, Instr.clear ≠ .registerWrite offset width v :=
  ⟨⟨_, rfl⟩, by decide, by decide, fun _ _ _ h => nomatch h⟩

end Sys2Proof.Tests
end

section
/-! The free lists of the two pools (R4 to R6): what first fit and giving back leave of a canonical free list. -/

namespace Sys2Proof.Machine

/-! ### Free lists -/

/-- A location lies in one of the extents of a free list (R4). -/
def FreeAt (fs : List Extent) (i : Nat) : Prop := ∃ e ∈ fs, e.start ≤ i ∧ i < e.start + e.len

@[simp] theorem freeAt_nil (i : Nat) : ¬ FreeAt [] i := by simp [FreeAt]

@[simp] theorem freeAt_cons (e : Extent) (es : List Extent) (i : Nat) :
    FreeAt (e :: es) i ↔ (e.start ≤ i ∧ i < e.start + e.len) ∨ FreeAt es i := by
  simp [FreeAt]

@[simp] theorem freeListFrom_nil (size lo : Nat) : freeListFrom size lo [] = true := rfl

@[simp] theorem freeListFrom_cons (size lo : Nat) (e : Extent) (es : List Extent) :
    freeListFrom size lo (e :: es) = true ↔
      lo ≤ e.start ∧ 0 < e.len ∧ e.start + e.len ≤ size ∧ freeListFrom size (e.start + e.len + 1) es = true := by
  simp [freeListFrom, and_assoc]

@[simp] theorem freeTotal_nil : freeTotal [] = 0 := rfl

@[simp] theorem freeTotal_cons (e : Extent) (es : List Extent) : freeTotal (e :: es) = e.len + freeTotal es := by
  simp [freeTotal]

theorem freeListFrom_start_le {size lo : Nat} {es : List Extent} (h : freeListFrom size lo es = true) :
    ∀ e ∈ es, lo ≤ e.start := by
  induction es generalizing lo with
  | nil => simp
  | cons e es ih =>
    obtain ⟨hlo, _, _, hrest⟩ := (freeListFrom_cons ..).mp h
    intro x hx
    rcases List.mem_cons.mp hx with rfl | hx
    · exact hlo
    · have := ih hrest x hx
      omega

/-- Only the start of the first extent speaks of the bound from which a free list begins. -/
theorem freeListFrom_of_le_starts {size lo lo' : Nat} {es : List Extent} (h : freeListFrom size lo es = true)
    (hs : ∀ e ∈ es, lo' ≤ e.start) : freeListFrom size lo' es = true := by
  cases es with
  | nil => rfl
  | cons e es =>
    obtain ⟨_, hlen, hend, hrest⟩ := (freeListFrom_cons ..).mp h
    exact (freeListFrom_cons ..).mpr ⟨hs e (by simp), hlen, hend, hrest⟩

/-- A free location of a list that begins at `lo` lies at `lo` or above. -/
theorem FreeAt.le {size lo i : Nat} {es : List Extent} (h : freeListFrom size lo es = true) (hi : FreeAt es i) :
    lo ≤ i := by
  obtain ⟨e, he, hle, _⟩ := hi
  exact (freeListFrom_start_le h e he).trans hle

/-! ### First fit (R5) -/

theorem allocFirst_cons_fits {n : Nat} {e : Extent} (h : n ≤ e.len) (es : List Extent) :
    allocFirst n (e :: es) = some (e.start, if e.len = n then es else ⟨e.start + n, e.len - n⟩ :: es) := if_pos h

theorem allocFirst_cons_short {n : Nat} {e : Extent} (h : e.len < n) (es : List Extent) :
    allocFirst n (e :: es) = (allocFirst n es).map fun (a, rest) => (a, e :: rest) := if_neg (Nat.not_le.mpr h)

theorem allocFirst_eq_none_iff (n : Nat) (es : List Extent) : allocFirst n es = none ↔ ∀ e ∈ es, e.len < n := by
  induction es with
  | nil => simp [allocFirst]
  | cons e es ih =>
    rcases Nat.lt_or_ge e.len n with h | h
    · simp [allocFirst_cons_short h, ih, h]
    · simp [allocFirst_cons_fits h, h]

/-- What first fit gives out of the free list `es`, which begins at `lo`: the `n` locations from `a` on, with `rest` left. -/
structure FirstFit (size lo n : Nat) (es : List Extent) (a : Nat) (rest : List Extent) : Prop where
  fits : ∃ e ∈ es, e.start = a ∧ n ≤ e.len
  lowest : ∀ e ∈ es, e.start < a → e.len < n
  canonical : freeListFrom size lo rest = true
  total : freeTotal rest + n = freeTotal es
  taken : ∀ i, a ≤ i → i < a + n → FreeAt es i
  left : ∀ i, FreeAt rest i ↔ FreeAt es i ∧ ¬ (a ≤ i ∧ i < a + n)

/-- The first extent is long enough: its lowest part is given. -/
theorem firstFit_head {size lo n : Nat} {e : Extent} {es : List Extent} (h : freeListFrom size lo (e :: es) = true)
    (hn : 0 < n) (hfit : n ≤ e.len) :
    FirstFit size lo n (e :: es) e.start (if e.len = n then es else ⟨e.start + n, e.len - n⟩ :: es) := by
  obtain ⟨hlo, hlen, hend, hrest⟩ := (freeListFrom_cons ..).mp h
  have above : ∀ i, FreeAt es i → e.start + e.len + 1 ≤ i := fun i => FreeAt.le hrest
  have starts := freeListFrom_start_le hrest
  refine ⟨⟨e, by simp, rfl, hfit⟩, ?_, ?_, ?_, fun i h1 h2 => (freeAt_cons ..).mpr (.inl ⟨h1, by omega⟩), fun i => ?_⟩
  · intro x hx hlt
    rcases List.mem_cons.mp hx with rfl | hx
    · omega
    · have := starts x hx
      omega
  · split
    · exact freeListFrom_of_le_starts hrest fun x hx => by have := starts x hx; omega
    · refine (freeListFrom_cons ..).mpr ⟨?_, ?_, ?_, ?_⟩
      · dsimp only; omega
      · dsimp only; omega
      · dsimp only; omega
      · exact freeListFrom_of_le_starts hrest fun x hx => by have := starts x hx; dsimp only; omega
  · split
    · simp only [freeTotal_cons]; omega
    · simp only [freeTotal_cons]; omega
  · have := above i
    split
    · simp only [freeAt_cons]; grind
    · simp only [freeAt_cons]; grind

/-- The first extent is too short: it stays, and what is given lies behind it. -/
theorem FirstFit.behind {size lo n a : Nat} {e : Extent} {es rest : List Extent}
    (h : freeListFrom size lo (e :: es) = true) (hshort : e.len < n)
    (f : FirstFit size (e.start + e.len + 1) n es a rest) : FirstFit size lo n (e :: es) a (e :: rest) := by
  obtain ⟨hlo, hlen, hend, hrest⟩ := (freeListFrom_cons ..).mp h
  obtain ⟨x, hx, hstart, hfit⟩ := f.fits
  have ha : e.start + e.len + 1 ≤ a := hstart ▸ freeListFrom_start_le hrest x hx
  refine ⟨⟨x, List.mem_cons_of_mem _ hx, hstart, hfit⟩, ?_, (freeListFrom_cons ..).mpr ⟨hlo, hlen, hend, f.canonical⟩, ?_,
    fun i h1 h2 => (freeAt_cons ..).mpr (.inr (f.taken i h1 h2)), fun i => ?_⟩
  · intro y hy hlt
    rcases List.mem_cons.mp hy with rfl | hy
    · exact hshort
    · exact f.lowest y hy hlt
  · have := f.total
    simp only [freeTotal_cons]
    omega
  · simp only [freeAt_cons, f.left i]
    grind

theorem allocFirst_firstFit {size lo n a : Nat} {es rest : List Extent} (h : freeListFrom size lo es = true) (hn : 0 < n)
    (ha : allocFirst n es = some (a, rest)) : FirstFit size lo n es a rest := by
  induction es generalizing lo rest with
  | nil => simp [allocFirst] at ha
  | cons e es ih =>
    rcases Nat.lt_or_ge e.len n with hshort | hfit
    · rw [allocFirst_cons_short hshort] at ha
      obtain ⟨⟨a', rest'⟩, ha', heq⟩ := Option.map_eq_some_iff.mp ha
      obtain ⟨rfl, rfl⟩ := Prod.mk.inj heq
      obtain ⟨_, _, _, hrest⟩ := (freeListFrom_cons ..).mp h
      exact (ih hrest ha').behind h hshort
    · rw [allocFirst_cons_fits hfit, Option.some.injEq, Prod.mk.injEq] at ha
      obtain ⟨rfl, rfl⟩ := ha
      exact firstFit_head h hn hfit

/-! ### Giving space back (R6) -/

/-- The free list `fs`, which begins at `lo`, is `es` with the extent `x` returned to it. -/
structure Returned (size lo : Nat) (x : Extent) (es fs : List Extent) : Prop where
  canonical : freeListFrom size lo fs = true
  total : freeTotal fs = freeTotal es + x.len
  free : ∀ i, FreeAt fs i ↔ FreeAt es i ∨ x.start ≤ i ∧ i < x.start + x.len

theorem joinFront_cons (x e : Extent) (es : List Extent) :
    joinFront x (e :: es) = if x.start + x.len = e.start then ⟨x.start, x.len + e.len⟩ :: es else x :: e :: es := rfl

/-- An extent that lies before every free one. -/
theorem joinFront_returned {size lo : Nat} {x : Extent} {es : List Extent} (hlo : lo ≤ x.start) (hlen : 0 < x.len)
    (hend : x.start + x.len ≤ size) (h : freeListFrom size (x.start + x.len) es = true) :
    Returned size lo x es (joinFront x es) := by
  cases es with
  | nil => exact ⟨by simp [joinFront, hlo, hlen, hend], by simp [joinFront], by simp [joinFront]⟩
  | cons e es =>
    obtain ⟨hx, helen, heend, hrest⟩ := (freeListFrom_cons ..).mp h
    rw [joinFront_cons]
    split
    · next touch =>
      have hstart : x.start + (x.len + e.len) = e.start + e.len := by omega
      refine ⟨(freeListFrom_cons ..).mpr ⟨hlo, by dsimp only; omega, by dsimp only; omega, ?_⟩, ?_, fun i => ?_⟩
      · dsimp only; rw [hstart]; exact hrest
      · simp only [freeTotal_cons]; omega
      · simp only [freeAt_cons]; grind
    · next apart =>
      refine ⟨(freeListFrom_cons ..).mpr ⟨hlo, hlen, hend, ?_⟩, ?_, fun i => ?_⟩
      · exact (freeListFrom_cons ..).mpr ⟨by omega, helen, heend, hrest⟩
      · simp only [freeTotal_cons]; omega
      · simp only [freeAt_cons]; grind

theorem giveBack_returned {size lo : Nat} {x : Extent} {es : List Extent} (h : freeListFrom size lo es = true)
    (hlo : lo ≤ x.start) (hlen : 0 < x.len) (hend : x.start + x.len ≤ size)
    (apart : ∀ e ∈ es, e.start + e.len ≤ x.start ∨ x.start + x.len ≤ e.start) :
    Returned size lo x es (giveBack x es) := by
  induction es generalizing lo with
  | nil => exact ⟨by simp [giveBack, hlo, hlen, hend], by simp [giveBack], by simp [giveBack]⟩
  | cons e es ih =>
    obtain ⟨helo, helen, heend, hrest⟩ := (freeListFrom_cons ..).mp h
    obtain ⟨he, hes⟩ := List.forall_mem_cons.mp apart
    have starts := freeListFrom_start_le hrest
    unfold giveBack
    split
    · next before =>
      exact joinFront_returned hlo hlen hend ((freeListFrom_cons ..).mpr ⟨by omega, helen, heend, hrest⟩)
    · split
      · next notBefore touch =>
        have r : Returned size lo ⟨e.start, e.len + x.len⟩ es (joinFront ⟨e.start, e.len + x.len⟩ es) := by
          refine joinFront_returned helo (by dsimp only; omega) (by dsimp only; omega) ?_
          refine freeListFrom_of_le_starts hrest fun y hy => ?_
          have := starts y hy
          have := hes y hy
          dsimp only
          omega
        refine ⟨r.canonical, ?_, fun i => ?_⟩
        · have := r.total
          simp only [freeTotal_cons] at this ⊢
          omega
        · rw [r.free i]
          simp only [freeAt_cons]
          grind
      · next notBefore notTouching =>
        have r := ih hrest (by omega) hes
        refine ⟨(freeListFrom_cons ..).mpr ⟨helo, helen, heend, r.canonical⟩, ?_, fun i => ?_⟩
        · have := r.total
          simp only [freeTotal_cons]
          omega
        · simp only [freeAt_cons, r.free i, or_assoc]

/-- Settles O50: one induction over the free list for what first fit gives, one for what giving back leaves. -/
theorem poolsTakeFirstFitAndJoinFreedSpace : Obligations.PoolsTakeFirstFitAndJoinFreedSpace := by
  intro size n es x h
  refine ⟨fun hn => ⟨allocFirst_eq_none_iff n es, fun a rest ha => ?_⟩, fun hlen hend apart => ?_⟩
  · have f := allocFirst_firstFit h hn ha
    exact ⟨f.fits, f.lowest, f.canonical, f.total, f.taken, f.left⟩
  · have r := giveBack_returned h (Nat.zero_le _) hlen hend apart
    exact ⟨r.canonical, r.total, r.free⟩

end Sys2Proof.Machine
end

section
/-! RESET, CLEAR, link reset and power-on (R24, R25, R95, R204, R220): what each leaves of the stores, and the registers of
the emptied part. -/

namespace Sys2Proof.Machine

/-! ### The stores after a RESET (R24, R95) -/

theorem LayoutSlot.afterReset_eq (x : LayoutSlot) :
    x.afterReset = { x with
      state := if x.state = .replacing ∨ x.state = .dropping then (if x.damaged then .damaged else .ready) else x.state
      staged := none, service := none, refCount := 0 } := by
  unfold LayoutSlot.afterReset
  cases h : x.state <;> simp

theorem Ls.giveBackImages_dirFree (ims : List LayoutImage) (ls : Ls) :
    (ims.foldl Ls.giveBackImage ls).dirFree =
      ims.foldl (fun free im => giveBack ⟨im.directiveStart, im.directiveCount⟩ free) ls.dirFree := by
  induction ims generalizing ls with
  | nil => rfl
  | cons im ims ih => exact ih (ls.giveBackImage im)

theorem Ls.giveBackImages_litFree (ims : List LayoutImage) (ls : Ls) :
    (ims.foldl Ls.giveBackImage ls).litFree =
      ims.foldl (fun free im => match im.literalStart with
        | some a => giveBack ⟨a, im.literalCount⟩ free
        | none => free) ls.litFree := by
  induction ims generalizing ls with
  | nil => rfl
  | cons im ims ih => exact ih (ls.giveBackImage im)

/-- Giving extents back changes the two free lists only. -/
theorem Ls.giveBackImages_eq (ims : List LayoutImage) (ls : Ls) :
    ims.foldl Ls.giveBackImage ls =
      { ls with
        dirFree := (ims.foldl Ls.giveBackImage ls).dirFree, litFree := (ims.foldl Ls.giveBackImage ls).litFree } := by
  induction ims generalizing ls with
  | nil => rfl
  | cons im ims ih => exact ih (ls.giveBackImage im)

/-- The images staged in a Layout Store, in slot order. -/
def Ls.stagedImages (ls : Ls) : List LayoutImage := ls.slots.toList.filterMap LayoutSlot.staged

/-- RESET of the Layout Store, field by field. -/
theorem Ls.afterReset_eq (ls : Ls) :
    ls.afterReset = { ls with
      slots := mapAll LayoutSlot.afterReset ls.slots, queue := [], bufferHeld := false, buffer := []
      dirFree := (ls.stagedImages.foldl Ls.giveBackImage ls).dirFree
      litFree := (ls.stagedImages.foldl Ls.giveBackImage ls).litFree } := by
  unfold Ls.afterReset Ls.stagedImages
  rw [Ls.giveBackImages_eq]

theorem State.stagedImages_eq_nil {s : State} (h : ∀ l, (s.layout l).staged = none) : s.ls.stagedImages = [] := by
  refine List.filterMap_eq_nil_iff.mpr fun x hx => ?_
  obtain ⟨i, hi, rfl⟩ := List.mem_iff_getElem.mp hx
  exact h ⟨i, by simpa using hi⟩

theorem State.layout_resetCommand (s : State) (l : LayoutNo) : (resetCommand s).layout l = (s.layout l).afterReset := by
  have h : (resetCommand s).ls.slots = mapAll LayoutSlot.afterReset s.ls.slots := by
    simp only [resetCommand, Ls.afterReset_eq]
  simp only [State.layout, h, mapAll_get]

theorem State.table_resetCommand (s : State) (i : TableNo) :
    (resetCommand s).table i = { s.table i with refCount := 0, service := none } :=
  mapAll_get CodeTable.afterReset s.cts.tables i

/-- Settles O7: each block by itself, the free lists by the fold over the staged images. -/
theorem resetDiscardsJobsAndKeepsStores : Obligations.ResetDiscardsJobsAndKeepsStores := by
  intro s
  have hls : (resetCommand s).ls = s.ls.afterReset := rfl
  rw [Ls.afterReset_eq] at hls
  refine ⟨resetCommand s, rfl, rfl, rfl, rfl, rfl, rfl, rfl, ?layouts, ?freed, ?noneFreed, ?_, ?_, ?_, ?_, ?_, ?_, ?_,
    s.table_resetCommand, rfl, rfl, rfl, rfl, rfl, rfl⟩
  case layouts =>
    intro l
    rw [State.layout_resetCommand, LayoutSlot.afterReset_eq]
  case freed =>
    rw [hls]
    exact ⟨Ls.giveBackImages_dirFree .., Ls.giveBackImages_litFree ..⟩
  case noneFreed =>
    intro hnone
    rw [hls, State.stagedImages_eq_nil hnone]
    exact ⟨rfl, rfl⟩
  all_goals rw [hls]

/-! ### The registers after power-on (R220) -/

theorem registerAt_of_zero {s : State} (hstat : statWord s = 0) (hlo : s.hlu.setupLo = 0) (hhi : s.hlu.setupHi = 0)
    (hfault : s.hlu.fault = {}) (offset : Nat) : registerAt s offset = 0 := by
  unfold registerAt
  split
  · exact hstat
  · exact hlo
  · exact hhi
  · rw [hfault]; rfl
  · rfl

theorem readRegister_of_registerAt_zero {s : State} (h : ∀ n, registerAt s n = 0) (offset : BitVec 12)
    (width : AccessWidth) : readRegister s offset width = 0 := by
  unfold readRegister
  simp [h]

theorem statWord_reset : statWord State.reset = 0 := rfl

theorem readRegister_powerOnState (s : State) (offset : BitVec 12) (width : AccessWidth) :
    readRegister (powerOnState s) offset width = 0 :=
  readRegister_of_registerAt_zero (registerAt_of_zero statWord_reset rfl rfl rfl) offset width

/-- Settles O8: each command's next state is the one named, and the power-on state shows zero in every register. -/
theorem clearAndPowerOnEmptyThePart : Obligations.ClearAndPowerOnEmptyThePart :=
  fun s => ⟨rfl, rfl, rfl, readRegister_powerOnState s⟩

end Sys2Proof.Machine
end

section
/-! Service ends (R132, R136) and the last release of a layout slot (R17, R20, R21). -/

namespace Sys2Proof.Machine

/-! ### A fatal fault keeps the stores (R219) -/

@[simp] theorem fatalFault_ls (f : FaultRecord) (s : State) : (fatalFault f s).ls = s.ls := by
  unfold fatalFault
  split <;> rfl

@[simp] theorem fatalFault_cts (f : FaultRecord) (s : State) : (fatalFault f s).cts = s.cts := by
  unfold fatalFault
  split <;> rfl

/-! ### Posting and draining -/

@[simp] theorem enterPosting_ls (j : SlotNo) (s : State) : (enterPosting j s).ls = s.ls := by
  unfold enterPosting
  dsimp only
  split <;> rfl

@[simp] theorem enterPosting_cts (j : SlotNo) (s : State) : (enterPosting j s).cts = s.cts := by
  unfold enterPosting
  dsimp only
  split <;> rfl

theorem enterPosting_job (j : SlotNo) (s : State) : (enterPosting j s).job j = { s.job j with state := .posting } := by
  have h := State.job_modJob_self s j fun y => { y with state := .posting }
  unfold enterPosting
  dsimp only
  split <;> exact h

@[simp] theorem settleIfUnwritten_ls (j : SlotNo) (s : State) : (settleIfUnwritten j s).ls = s.ls := by
  unfold settleIfUnwritten
  split
  · rfl
  · exact enterPosting_ls j s

@[simp] theorem settleIfUnwritten_cts (j : SlotNo) (s : State) : (settleIfUnwritten j s).cts = s.cts := by
  unfold settleIfUnwritten
  split
  · rfl
  · exact enterPosting_cts j s

/-- Taking the settle outcome moves the state of the job's slot at most. -/
theorem settleIfUnwritten_job (j : SlotNo) (s : State) :
    ∃ st, (settleIfUnwritten j s).job j = { s.job j with state := st } := by
  unfold settleIfUnwritten
  split
  · exact ⟨(s.job j).state, rfl⟩
  · exact ⟨.posting, enterPosting_job j s⟩

@[simp] theorem drainUnbound_ls (j : SlotNo) (s : State) : (drainUnbound j s).ls = s.ls := by simp [drainUnbound]

@[simp] theorem drainUnbound_cts (j : SlotNo) (s : State) : (drainUnbound j s).cts = s.cts := by simp [drainUnbound]

theorem drainUnbound_job (j : SlotNo) (s : State) :
    ∃ st, (drainUnbound j s).job j = { s.job j with state := st, refs := .none } := by
  obtain ⟨st, h⟩ := settleIfUnwritten_job j (s.modJob j fun x => { x with state := .draining, refs := .none })
  exact ⟨st, by rw [drainUnbound, h, State.job_modJob_self]⟩

/-! ### Service ends (R132) -/

section
variable (j : SlotNo) (st : Status) (d : Detail) (arg version : Byte)

theorem serviceEnd_good {s : State} (h : j ∉ s.jt.badParity) :
    serviceEnd j st d arg version s = drainUnbound j (s.modJob j fun x => x.endService st d arg version) :=
  withSlots_good h _

theorem serviceEnd_bad {s : State} (h : j ∈ s.jt.badParity) :
    serviceEnd j st d arg version s = fatalFault { code := .slotParity, slot := j } s :=
  withSlots_bad h _

@[simp] theorem serviceEnd_ls (s : State) : (serviceEnd j st d arg version s).ls = s.ls := by
  by_cases h : j ∈ s.jt.badParity
  · rw [serviceEnd_bad j st d arg version h, fatalFault_ls]
  · rw [serviceEnd_good j st d arg version h, drainUnbound_ls, State.modJob_ls]

@[simp] theorem serviceEnd_cts (s : State) : (serviceEnd j st d arg version s).cts = s.cts := by
  by_cases h : j ∈ s.jt.badParity
  · rw [serviceEnd_bad j st d arg version h, fatalFault_cts]
  · rw [serviceEnd_good j st d arg version h, drainUnbound_cts, State.modJob_cts]

/-- A served job whose slot is read good carries the outcome of its service. -/
theorem serviceEnd_job {s : State} (h : j ∉ s.jt.badParity) :
    ∃ state, (serviceEnd j st d arg version s).job j =
      { (s.job j).endService st d arg version with state := state, refs := .none } := by
  obtain ⟨state, e⟩ := drainUnbound_job j (s.modJob j fun x => x.endService st d arg version)
  exact ⟨state, by rw [serviceEnd_good j st d arg version h, e, State.job_modJob_self]⟩

end

@[simp] theorem serviceSuccess_ls (j : Option SlotNo) (version : Byte) (s : State) :
    (serviceSuccess j version s).ls = s.ls := by
  cases j with
  | none => rfl
  | some k => exact serviceEnd_ls ..

theorem serviceSuccess_job {j : SlotNo} {s : State} (h : j ∉ s.jt.badParity) (version : Byte) :
    ((serviceSuccess (some j) version s).job j).status = some .success
      ∧ ((serviceSuccess (some j) version s).job j).version = version := by
  obtain ⟨state, e⟩ := serviceEnd_job j .success .none 0 version h
  simp only [serviceSuccess, e]
  exact ⟨rfl, rfl⟩

/-! ### Installing and removing images (R6, R17, R20) -/

/-- Two states with one Layout Store have the same layout slots. -/
theorem State.layout_congr {s t : State} (h : s.ls = t.ls) (l : LayoutNo) : s.layout l = t.layout l := by
  rw [State.layout, State.layout, h]

/-- The extents of an image that leaves its slot return to the pools (R6). -/
theorem Ls.giveBackImage_freed (ls : Ls) (im : LayoutImage) :
    (ls.giveBackImage im).dirFree = giveBack ⟨im.directiveStart, im.directiveCount⟩ ls.dirFree
      ∧ (∀ a, im.literalStart = some a → (ls.giveBackImage im).litFree = giveBack ⟨a, im.literalCount⟩ ls.litFree)
      ∧ (im.literalStart = none → (ls.giveBackImage im).litFree = ls.litFree) :=
  ⟨rfl, fun a h => by simp only [Ls.giveBackImage, h], fun h => by simp only [Ls.giveBackImage, h]⟩

theorem installImage_of_holds {l : LayoutNo} {s : State} (h : (s.layout l).state ≠ .empty) (im : LayoutImage) :
    installImage l im s =
      ({ s with ls := s.ls.giveBackImage (s.layout l).image } : State).modLayout l fun y => y.install im := by
  have hold : (s.layout l).holdsImage = true := by simp [LayoutSlot.holdsImage, h]
  simp [installImage, hold]

theorem installImage_layout (l i : LayoutNo) (im : LayoutImage) (s : State) :
    (installImage l im s).layout i = if i = l then (s.layout l).install im else s.layout i := by
  unfold installImage
  dsimp only
  split <;> exact State.layout_modLayout ..

theorem emptyLayout_layout (l i : LayoutNo) (s : State) :
    (emptyLayout l s).layout i = if i = l then (s.layout l).emptied else s.layout i :=
  State.layout_modLayout ..

/-! ### Releasing a layout reference (R17, R20, R21) -/

/-- One layout reference less. -/
def lowerCount (l : LayoutNo) (s : State) : State := s.modLayout l fun x => { x with refCount := x.refCount - 1 }

theorem lowerCount_layout (l i : LayoutNo) (s : State) :
    (lowerCount l s).layout i = if i = l then { s.layout l with refCount := (s.layout l).refCount - 1 } else s.layout i :=
  State.layout_modLayout ..

theorem lowerCount_layout_self (l : LayoutNo) (s : State) :
    (lowerCount l s).layout l = { s.layout l with refCount := (s.layout l).refCount - 1 } :=
  State.layout_modLayout_self ..

/-- A release lowers the count and goes on by the slot it then finds. -/
theorem releaseLayout_eq (l : LayoutNo) (s : State) :
    releaseLayout l s =
      (let t := lowerCount l s
       let x := t.layout l
       if x.refCount ≠ 0 then t
       else
         match x.state, x.staged with
         | .replacing, some im => serviceSuccess x.service ((installImage l im t).layout l).version (installImage l im t)
         | .dropping, _ => serviceSuccess x.service x.version (emptyLayout l t)
         | _, _ => t) := rfl

theorem releaseLayout_only_lowers {l : LayoutNo} {s : State}
    (h : 2 ≤ (s.layout l).refCount ∨ (s.layout l).state = .ready ∨ (s.layout l).state = .damaged
      ∨ (s.layout l).state = .empty) : releaseLayout l s = lowerCount l s := by
  rw [releaseLayout_eq]
  simp only [lowerCount_layout_self]
  rcases h with h | h | h | h
  · exact if_pos (by omega)
  all_goals simp [h]

theorem releaseLayout_installs {l : LayoutNo} {s : State} {im : LayoutImage} (hcount : (s.layout l).refCount = 1)
    (hstate : (s.layout l).state = .replacing) (hstaged : (s.layout l).staged = some im) :
    releaseLayout l s =
      serviceSuccess (s.layout l).service (s.layout l).nextVersion (installImage l im (lowerCount l s)) := by
  rw [releaseLayout_eq]
  simp only [lowerCount_layout_self, hcount, hstate, hstaged, installImage_layout]
  rfl

theorem releaseLayout_empties {l : LayoutNo} {s : State} (hcount : (s.layout l).refCount = 1)
    (hstate : (s.layout l).state = .dropping) :
    releaseLayout l s = serviceSuccess (s.layout l).service (s.layout l).version (emptyLayout l (lowerCount l s)) := by
  rw [releaseLayout_eq]
  simp only [lowerCount_layout_self, hcount, hstate]
  rfl

theorem releaseLayout_layout_other {l i : LayoutNo} (h : i ≠ l) (s : State) :
    (releaseLayout l s).layout i = s.layout i := by
  have low : (lowerCount l s).layout i = s.layout i := by rw [lowerCount_layout, if_neg h]
  rw [releaseLayout_eq]
  dsimp only
  split
  · exact low
  · split
    · rw [State.layout_congr (serviceSuccess_ls ..), installImage_layout, if_neg h, low]
    · rw [State.layout_congr (serviceSuccess_ls ..), emptyLayout_layout, if_neg h, low]
    · exact low

/-- Settles O51: the release lowers the count, and the two states that act on the last release are taken one by one. -/
theorem lastReleaseInstallsOrEmpties : Obligations.LastReleaseInstallsOrEmpties := by
  intro l s
  refine ⟨fun i h => releaseLayout_layout_other h s, releaseLayout_only_lowers, ?installs, ?empties⟩
  case installs =>
    intro hcount hstate im hstaged
    have hholds : ((lowerCount l s).layout l).state ≠ .empty := by simp [lowerCount_layout_self, hstate]
    have hls := congrArg State.ls (releaseLayout_installs hcount hstate hstaged)
    rw [serviceSuccess_ls] at hls
    refine ⟨?_, ?_, fun j hservice hj => ?_⟩
    · rw [State.layout_congr hls, installImage_layout, if_pos rfl, lowerCount_layout_self, hcount]
      rfl
    · rw [hls, installImage_of_holds hholds, lowerCount_layout_self]
      exact Ls.giveBackImage_freed s.ls (s.layout l).image
    · rw [releaseLayout_installs hcount hstate hstaged, hservice]
      refine serviceSuccess_job ?_ _
      rw [installImage_of_holds hholds]
      exact hj
  case empties =>
    intro hcount hstate
    have hls := congrArg State.ls (releaseLayout_empties hcount hstate)
    rw [serviceSuccess_ls] at hls
    refine ⟨?_, ?_, fun j hservice hj => ?_⟩
    · rw [State.layout_congr hls, emptyLayout_layout, if_pos rfl, lowerCount_layout_self, hcount]
      rfl
    · rw [hls]
      unfold emptyLayout
      rw [lowerCount_layout_self]
      exact Ls.giveBackImage_freed s.ls (s.layout l).image
    · rw [releaseLayout_empties hcount hstate, hservice]
      have hgood : j ∉ (emptyLayout l (lowerCount l s)).jt.badParity := hj
      exact serviceSuccess_job hgood _

end Sys2Proof.Machine
end

section
/-! Parity errors in the pool reads of a directive (R22, R32). -/

namespace Sys2Proof.Machine

/-! ### Pool reads -/

/-- Some literal pool location that a read of `n` bytes at an offset of the literal part covers fails its parity check. -/
def LiteralsBad (s : State) (start off n : Nat) : Prop := ∃ a ∈ s.ls.litBad, start + off ≤ a ∧ a < start + off + n

/-- A read inside the literal pool finds a parity error or the bytes. -/
theorem readLiteral_inside {s : State} {im : LayoutImage} {start off n : Nat} (hstart : im.literalStart = some start)
    (hin : start + off + n ≤ 32768) :
    (LiteralsBad s start off n → readLiteral s im off n = .bad)
      ∧ (¬ LiteralsBad s start off n → readLiteral s im off n = .bytes (readBytes s.ls.litPool (start + off) n)) := by
  have hany : (s.ls.litBad.any fun a => start + off ≤ a && a < start + off + n) = true ↔ LiteralsBad s start off n := by
    simp [LiteralsBad]
  have inside : ¬ Config.literalPoolSize < start + off + n := Nat.not_lt.mpr hin
  simp only [readLiteral, hstart, if_neg inside]
  exact ⟨fun h => if_pos (hany.mpr h), fun h => if_neg (mt hany.mp h)⟩

theorem LitCondition.met_iff (cond : LitCondition) (l : LastState) :
    cond.met l = true ↔ cond = .always ∨ cond = .ifNegative ∧ l = .negative ∨ cond = .ifZero ∧ l = .zero
      ∨ cond = .ifNotNegative ∧ (l = .zero ∨ l = .positive) := by
  cases cond <;> cases l <;> simp [LitCondition.met]

theorem literalMeaning_parity {s : State} {c : Context} {start off len : Nat} {cond : LitCondition}
    (hstart : c.image.literalStart = some start) (hmet : cond.met c.lastState = true) (hin : start + off + len ≤ 32768)
    (hbad : LiteralsBad s start off len) (x : Fu) : literalMeaning s x c (.literal cond off len) = some .parity := by
  simp only [literalMeaning, if_pos hmet, (readLiteral_inside hstart hin).1 hbad]

theorem numberMeaning_parity_of_record {s : State} {c : Context} {start off : Nat}
    (hstart : c.image.literalStart = some start) (hin : start + off + 24 ≤ 32768) (hbad : LiteralsBad s start off 24)
    (x : Fu) : numberMeaning s x c (.number off) = some .parity := by
  simp only [numberMeaning, Config.pictureBytes, (readLiteral_inside hstart hin).1 hbad]

theorem numberWith_parity {s : State} {x : Fu} {c : Context} {p : Picture} {start o : Nat}
    (hstart : c.image.literalStart = some start) (hmarker : (numberConversion s x c p).marker = some o)
    (hin : start + o + 2 ≤ 32768) (hbad : LiteralsBad s start o 2) : numberWith s x c p = .parity := by
  simp only [numberWith, hmarker, Option.map_some, (readLiteral_inside hstart hin).1 hbad]

/-- A bad pair marker is a parity error whether the picture record is good or bad. -/
theorem numberMeaning_parity_of_marker {s : State} {x : Fu} {c : Context} {p : Picture} {start off o : Nat}
    (hstart : c.image.literalStart = some start) (hin : start + off + 24 ≤ 32768)
    (hpic : Picture.parse (readBytes s.ls.litPool (start + off) 24) = some p)
    (hmarker : (numberConversion s x c p).marker = some o) (hmin : start + o + 2 ≤ 32768)
    (hbad : LiteralsBad s start o 2) : numberMeaning s x c (.number off) = some .parity := by
  by_cases hrec : LiteralsBad s start off 24
  · exact numberMeaning_parity_of_record hstart hin hrec x
  · simp only [numberMeaning, Config.pictureBytes, (readLiteral_inside hstart hin).2 hrec, hpic,
      numberWith_parity hstart hmarker hmin hbad]

/-! ### The directive that meets a parity error -/

/-- The unit `k` is about to execute the directive `d`, whatever the parity of its pool location (R31). -/
structure DirectiveNext (s : State) (k : FuNo) (c : Context) (d : Directive) : Prop where
  context : (s.fu k).ctx = some c
  phase : c.phase = .directive
  location : c.location < Config.directivePoolSize
  decoded : directiveAt s c.location = some d

/-- The layout slot is marked and the job released (R22, R32). -/
theorem parityError_of_some {s : State} {k : FuNo} {c : Context} (h : (s.fu k).ctx = some c) (e : s.hlu.engine ≠ .halted) :
    parityError k s = releaseJob k .engineFault .parity none (s.modLayout c.layout LayoutSlot.markDamaged) := by
  simp [parityError, h, State.halted_eq_false e]

/-- A parity error in the pool location of a directive or in the literal bytes it reads stops the job: the directive has no
effect (R32). -/
theorem runDirective_parity {s : State} {k : FuNo} {u : Upset} {c : Context} {d : Directive} {o : DirectiveEnd}
    {m : State → Fu → Context → Directive → Option DirectiveEnd} (h : DirectiveNext (s.strike u) k c d)
    (e : s.hlu.engine ≠ .halted) (hm : m (s.strike u) ((s.strike u).fu k) c d = some o)
    (bad : c.location ∈ (s.strike u).ls.dirBad ∨ o = .parity) :
    runDirective k u m s = .next (quiesce
      (releaseJob k .engineFault .parity none ((s.strike u).modLayout c.layout LayoutSlot.markDamaged))) := by
  rw [← parityError_of_some h.context e]
  unfold runDirective
  dsimp only
  rw [h.context]
  dsimp only
  rw [if_neg (by simp [h.phase]), if_neg (Nat.not_le.mpr h.location), h.decoded]
  simp only [Option.bind_some, hm]
  rcases bad with hloc | rfl
  · rw [if_pos (by simpa using hloc)]
  · simp

/-- Settles O39: every directive is one runner over its meaning, and the runner ends in the parity error either for the
directive's own location or for the literal bytes its meaning reads. -/
theorem parityErrorEndsTheJob : Obligations.ParityErrorEndsTheJob := by
  intro k c u s hctx hphase hloc hengine
  have next : ∀ d, directiveAt s c.location = some d → DirectiveNext (s.strike u) k c d :=
    fun d hd => ⟨hctx, hphase, hloc, hd⟩
  refine ⟨fun hbad => ?location, fun start hstart => ⟨?literal, fun off hd hin => ⟨?record, ?marker⟩⟩⟩
  case location =>
    refine ⟨fun n hd => ?_, fun n hd => ?_, fun n hd => ?_, fun cond off len hd => ?_, fun b n hd => ?_,
      fun b n hd => ?_, fun b n hd => ?_, fun off hd => ?_, fun a hd => ?_, fun n m hd => ?_⟩
    all_goals exact runDirective_parity (next _ hd) hengine rfl (.inl hbad)
  case literal =>
    intro cond off len hd hmet hin hbad
    have hm := literalMeaning_parity hstart ((cond.met_iff _).mpr hmet) hin hbad ((s.strike u).fu k)
    exact runDirective_parity (next _ hd) hengine hm (.inr rfl)
  case record =>
    intro hbad
    have hm := numberMeaning_parity_of_record hstart hin hbad ((s.strike u).fu k)
    exact runDirective_parity (next _ hd) hengine hm (.inr rfl)
  case marker =>
    intro p o hpic hmarker hmin hbad
    have hconv : (numberConversion (s.strike u) ((s.strike u).fu k) c p).marker = some o := by
      unfold numberConversion
      rw [hstart]
      exact hmarker
    have hm := numberMeaning_parity_of_marker (s := s.strike u) hstart hin hpic hconv hmin hbad
    exact runDirective_parity (next _ hd) hengine hm (.inr rfl)

end Sys2Proof.Machine
end

section
/-! Faulting link reads (R212, R213): what is left of a read, and what its requester makes of it. -/

namespace Sys2Proof.Machine

/-! ### Dropping a read (R213) -/

section
variable (who : Requester) (part : Nat) (s : State)

theorem dropReads_readQueue :
    (dropReads who part s).hlu.readQueue =
      (s.hlu.readQueue.filter fun r => !(r.live && r.requester == who && r.part == part)).map fun r =>
        if r.requester = who then { r with live := false } else r := by
  simp only [dropReads, LinkRead.wantedBy, LinkRead.unwanted, beq_iff_eq]

theorem tag_dropReads (i : ReadTag) :
    (dropReads who part s).tag i = (s.tag i).map fun g =>
      if g.read.requester = who then { g with read := { g.read with live := false } } else g := by
  simp only [dropReads, State.tag, mapAll_get, LinkRead.unwanted, beq_iff_eq]

/-- No link read of the requester is wanted any more, of this read or another (R213, log 17). -/
theorem readOutstanding_dropReads : readOutstanding who (dropReads who part s) = false := by
  unfold readOutstanding
  rw [Bool.or_eq_false_iff]
  constructor
  · rw [dropReads_readQueue, List.any_eq_false]
    intro r hr
    obtain ⟨q, _, rfl⟩ := List.mem_map.mp hr
    by_cases hq : q.requester = who <;> simp [LinkRead.wantedBy, hq]
  · rw [List.any_eq_false]
    intro x hx
    obtain ⟨i, hi, rfl⟩ := List.mem_iff_getElem.mp hx
    have h := tag_dropReads who part s ⟨i, by simpa using hi⟩
    simp only [State.tag, Fin.getElem_fin] at h
    simp only [Vector.getElem_toList, h]
    cases s.hlu.tags[i]'(by simpa using hi) with
    | none => simp
    | some g => by_cases hg : g.read.requester = who <;> simp [LinkRead.wantedBy, hg]

end

/-! ### The two events -/

/-- An error answer and the timeout of a wanted link read in flight do one and the same (R213). -/
theorem linkReadFault_answers {tag : ReadTag} {f : InFlight} {s : State} (u : Upset) (h : s.tag tag = some f)
    (hlive : f.read.live = true) :
    let t := quiesce (readFault f.read.requester
      (dropReads f.read.requester f.read.part ((s.strike u).setTag tag none)))
    exec (.linkReadError tag f.stamp u) s = .next t ∧ exec (.linkReadTimeout tag f.stamp u) s = .next t := by
  have hs : (s.strike u).tag tag = some f := h
  simp [exec, execLinkReadError, execLinkReadTimeout, hs, linkReadFaults, hlive]

theorem withHead_cons {j : SlotNo} {rest : List SlotNo} {s : State} (h : j ∉ s.jt.badParity)
    (act : SlotNo → State → State) : withHead (j :: rest) act s = act j s :=
  withSlots_good h (act j)

/-- A setup that fails leaves the engine OFF, where nothing follows (R208). -/
theorem quiesce_setupFailed (r : SetupResult) (s : State) : quiesce (setupFailed r s) = setupFailed r s :=
  quiesce_of_not_live rfl

/-! ### The end of a load (R16, R90) -/

section
variable (j : SlotNo) (st : Status) (d : Detail) (arg version : Byte)

theorem endLayoutLoad_ls (s : State) :
    (endLayoutLoad j st d arg version s).ls = { s.ls with
      queue := s.ls.queue.tail, bufferHeld := false, buffer := []
      slots := modifyAt s.ls.slots (s.job j).req.layoutNo fun x => { x with service := none } } :=
  serviceEnd_ls ..

theorem endLayoutLoad_layout (l : LayoutNo) (s : State) :
    (endLayoutLoad j st d arg version s).layout l =
      if l = (s.job j).req.layoutNo then { s.layout l with service := none } else s.layout l := by
  rw [State.layout, endLayoutLoad_ls]
  dsimp only
  rw [modifyAt_get]
  split
  · next h => rw [h]; rfl
  · rfl

theorem endLayoutLoad_job {s : State} (h : j ∉ s.jt.badParity) :
    ∃ state, (endLayoutLoad j st d arg version s).job j =
      { (s.job j).endService st d arg version with state := state, refs := .none } :=
  serviceEnd_job j st d arg version h

theorem endCodesLoad_cts (s : State) :
    (endCodesLoad j st d arg s).cts = { s.cts with
      queue := s.cts.queue.tail, bufferHeld := false, buffer := []
      tables := modifyAt s.cts.tables (s.job j).req.tableNo fun x => { x with service := none } } :=
  serviceEnd_cts ..

theorem endCodesLoad_table (i : TableNo) (s : State) :
    (endCodesLoad j st d arg s).table i =
      if i = (s.job j).req.tableNo then { s.table i with service := none } else s.table i := by
  rw [State.table, endCodesLoad_cts]
  dsimp only
  rw [modifyAt_get]
  split
  · next h => rw [h]; rfl
  · rfl

theorem endCodesLoad_job {s : State} (h : j ∉ s.jt.badParity) :
    ∃ state, (endCodesLoad j st d arg s).job j =
      { (s.job j).endService st d arg 0 with state := state, refs := .none } :=
  serviceEnd_job j st d arg 0 h

end

/-- Settles O18: both events come down to one fault of the read, and each requester takes it in its own way. -/
theorem faultingLinkReadEndsItsRead : Obligations.FaultingLinkReadEndsItsRead := by
  intro tag f u s htag hlive who dropped answers
  have told : answers (quiesce (readFault who dropped)) := linkReadFault_answers u htag hlive
  refine ⟨⟨_, told⟩, fun k hwho => ⟨fun hctx => ?noJob, fun c hctx => ?unit⟩, fun hwho => ?setup,
    fun q hwho => ?fetch, fun j rest hwho hqueue hj => ?layoutLoad, fun j rest hwho hqueue hj => ?codesLoad,
    fun j hwho => ?settle, ?outstanding, ?queue, fun i => ?tags⟩
  case noJob =>
    have keeps : unitReadFault k dropped = dropped := by
      have hdropped : (dropped.fu k).ctx = none := hctx
      simp only [unitReadFault, releaseJob, hdropped]
    rwa [hwho, readFault, keeps] at told
  case unit =>
    have hdropped : (dropped.fu k).ctx = some c := hctx
    rwa [hwho, readFault, unitReadFault, Fu.readFaultDetail_of_some hdropped] at told
  case setup =>
    rwa [hwho, readFault, quiesce_setupFailed] at told
  case fetch =>
    rwa [hwho] at told
  case layoutLoad =>
    have hd : dropped.ls.queue = j :: rest := hqueue
    have hgood : j ∉ dropped.jt.badParity := hj
    obtain ⟨state, hjob⟩ := endLayoutLoad_job j .hostAccess .none 0 0 hgood
    rw [hwho, readFault, hd, withHead_cons hgood] at told
    refine ⟨told, ?_, ?_, fun i hi => ?_, ?_, ?_⟩
    · rw [endLayoutLoad_ls, hd]
      rfl
    · exact (endLayoutLoad_layout ..).trans (if_pos rfl)
    · exact (endLayoutLoad_layout ..).trans (if_neg hi)
    · rw [hjob]
      rfl
    · rw [hjob]
      rfl
  case codesLoad =>
    have hd : dropped.cts.queue = j :: rest := hqueue
    have hgood : j ∉ dropped.jt.badParity := hj
    obtain ⟨state, hjob⟩ := endCodesLoad_job j .hostAccess .none 0 hgood
    rw [hwho, readFault, hd, withHead_cons hgood] at told
    refine ⟨told, ?_, ?_, fun i hi => ?_, ?_, ?_⟩
    · rw [endCodesLoad_cts, hd]
      rfl
    · exact (endCodesLoad_table ..).trans (if_pos rfl)
    · exact (endCodesLoad_table ..).trans (if_neg hi)
    · rw [hjob]
      rfl
    · rw [hjob]
      rfl
  case settle =>
    rwa [hwho] at told
  case outstanding => exact readOutstanding_dropReads ..
  case queue => exact dropReads_readQueue ..
  case tags =>
    refine (tag_dropReads ..).trans ?_
    rw [State.tag_setTag]
    split <;> rfl

end Sys2Proof.Machine
end

section
/-! The sound part (R33, R34, R45, R143, R163, R165, R176): every elementary move and every reset keeps it, and with them
every step. -/

namespace Sys2Proof.Machine

/-! ### The pieces of a sound part -/

/-- A sound part, piece by piece: each field speaks of one piece of the state. -/
structure PiecesSound (s : State) : Prop where
  setup : Memory.wf s.hlu.setupBuf = true
  sqs : ∀ q, SqSound (s.sq q)
  cqs : ∀ q, (s.cq q).indicesInRange
  units : UnitsSound s
  layouts : LsSound s.ls
  codes : Memory.wf s.cts.buffer = true
  groups : ∀ g, GroupSound (s.group g)

theorem soundPart_iff_pieces (s : State) : SoundPart s ↔ PiecesSound s := by
  constructor
  · rintro ⟨rams, cursors, totals, indices⟩
    exact ⟨rams.setup, fun q => ⟨indices.sqs q, rams.fetch q⟩, indices.cqs,
      fun k => ⟨rams.windows k, fun c hc => ⟨cursors k c hc, totals.batches k c hc⟩⟩,
      ⟨rams.directives, rams.literals, rams.layoutBuffer⟩, rams.codesBuffer, totals.accumulators⟩
  · rintro ⟨setup, sqs, cqs, units, ⟨directives, literals, buffer⟩, codes, groups⟩
    exact ⟨⟨setup, fun q => (sqs q).buffer, fun k => (units k).windows, directives, literals, buffer, codes⟩,
      fun k c hc => ((units k).context c hc).1, ⟨groups, fun k c hc => ((units k).context c hc).2⟩,
      ⟨fun q => (sqs q).indices, cqs⟩⟩

/-! ### Changes that soundness does not speak of -/

/-- Two states that agree on every piece that soundness speaks of. -/
structure SoundFrame (s t : State) : Prop where
  setup : t.hlu.setupBuf = s.hlu.setupBuf
  qm : t.qm = s.qm
  fus : t.fus = s.fus
  ls : t.ls = s.ls
  cts : t.cts = s.cts
  tu : t.tu = s.tu

theorem PiecesSound.of_soundFrame {s t : State} (p : PiecesSound s) (f : SoundFrame s t) : PiecesSound t where
  setup := f.setup ▸ p.setup
  sqs := by unfold State.sq; rw [f.qm]; exact p.sqs
  cqs := by unfold State.cq; rw [f.qm]; exact p.cqs
  units := by unfold UnitsSound State.fu; rw [f.fus]; exact p.units
  layouts := f.ls ▸ p.layouts
  codes := f.cts ▸ p.codes
  groups := by unfold State.group; rw [f.tu]; exact p.groups

theorem askRead_soundFrame (who part addr len place) (s : State) : SoundFrame s (askRead who part addr len place s) := by
  unfold askRead
  split <;> exact ⟨rfl, rfl, rfl, rfl, rfl, rfl⟩

theorem trackWrite_soundFrame (o n) (s : State) : SoundFrame s (trackWrite o n s) := by
  unfold trackWrite
  split <;> exact ⟨rfl, rfl, rfl, rfl, rfl, rfl⟩

theorem handWrite_soundFrame (w) (s : State) : SoundFrame s (handWrite w s) := by
  unfold handWrite
  split
  · exact ⟨rfl, rfl, rfl, rfl, rfl, rfl⟩
  · obtain ⟨setup, qm, fus, ls, cts, tu⟩ := trackWrite_soundFrame w.owner s.hlu.writeSerial _
    refine ⟨setup.trans ?_, qm, fus, ls, cts, tu⟩
    dsimp only
    split <;> rfl

theorem admitWaiting_soundFrame (s : State) : SoundFrame s (admitWaiting s).2 := by
  have h (n : Nat) : SoundFrame s (s.choose n).2 := by
    unfold State.choose
    split <;> exact ⟨rfl, rfl, rfl, rfl, rfl, rfl⟩
  unfold admitWaiting
  dsimp only
  split
  · exact ⟨(h _).setup, (h _).qm, (h _).fus, (h _).ls, (h _).cts, (h _).tu⟩
  · exact h _

/-! ### The halt -/

theorem Fu.onHalt_sound {x : Fu} (h : UnitSound x) : UnitSound x.onHalt := by
  unfold Fu.onHalt
  split
  · exact h.noContext rfl rfl rfl
  · exact h.noContext rfl rfl rfl
  · exact h.noContext rfl rfl rfl
  · exact h

theorem PiecesSound.enterHalted {s : State} (p : PiecesSound s) : PiecesSound (enterHalted s) where
  setup := p.setup
  sqs := p.sqs
  cqs q := by rw [enterHalted_cq]; exact p.cqs q
  units k := by rw [enterHalted_fu]; exact Fu.onHalt_sound (p.units k)
  layouts := p.layouts
  codes := p.codes
  groups := p.groups

/-! ### Moves and resets -/

/-- One case per elementary move: a move of a piece brings the proof that it keeps the piece sound, and every other piece
stands as it was. -/
theorem Move.keeps_pieces {s t : State} (m : Move s t) (p : PiecesSound s) : PiecesSound t := by
  have same : ∀ {u : State}, SoundFrame s u → PiecesSound u := p.of_soundFrame
  cases m with
  | job j f => exact same ⟨rfl, rfl, rfl, rfl, rfl, rfl⟩
  | unit k f h =>
    refine ⟨p.setup, p.sqs, p.cqs, fun i => ?_, p.layouts, p.codes, p.groups⟩
    rw [State.fu_modFu]
    split
    · exact h (p.units k)
    · exact p.units i
  | sq q f h =>
    refine ⟨p.setup, fun i => ?_, p.cqs, p.units, p.layouts, p.codes, p.groups⟩
    rw [State.sq_modSq]
    split
    · exact h (p.sqs q)
    · exact p.sqs i
  | cq q f h =>
    refine ⟨p.setup, p.sqs, fun i => ?_, p.units, p.layouts, p.codes, p.groups⟩
    rw [State.cq_modCq]
    split
    · exact h (p.cqs q)
    · exact p.cqs i
  | group g v h =>
    refine ⟨p.setup, p.sqs, p.cqs, p.units, p.layouts, p.codes, fun i => ?_⟩
    rw [State.group_setGroup]
    split
    · exact h p.units (p.groups g)
    · exact p.groups i
  | layout | strike =>
    have pools := p.layouts
    exact ⟨p.setup, p.sqs, p.cqs, p.units, ⟨pools.directives, pools.literals, pools.buffer⟩, p.codes, p.groups⟩
  | ls x h => exact ⟨p.setup, p.sqs, p.cqs, p.units, h p.layouts, p.codes, p.groups⟩
  | table i f => exact ⟨p.setup, p.sqs, p.cqs, p.units, p.layouts, p.codes, p.groups⟩
  | cts x h => exact ⟨p.setup, p.sqs, p.cqs, p.units, p.layouts, h p.codes, p.groups⟩
  | setup e r a b he hb => exact ⟨hb p.setup, p.sqs, p.cqs, p.units, p.layouts, p.codes, p.groups⟩
  | setupData b hb => exact ⟨hb p.setup, p.sqs, p.cqs, p.units, p.layouts, p.codes, p.groups⟩
  | configure a b l n base ha hb ht => exact ⟨p.setup, ha, hb, p.units, p.layouts, p.codes, p.groups⟩
  | posting e i => exact ⟨p.setup, p.sqs, p.cqs, p.units, p.layouts, p.codes, p.groups⟩
  | granted u n => exact ⟨p.setup, p.sqs, p.cqs, p.units, p.layouts, p.codes, p.groups⟩
  | halt f => exact (same (u := { s with hlu := { s.hlu with fault := f } }) ⟨rfl, rfl, rfl, rfl, rfl, rfl⟩).enterHalted
  | ask who part addr len place => exact same (askRead_soundFrame ..)
  | hand w => exact same (handWrite_soundFrame ..)
  | leave e rest ops h =>
    have left : PiecesSound { s with hlu := { s.hlu with writeQueue := rest, out := ops } } :=
      same ⟨rfl, rfl, rfl, rfl, rfl, rfl⟩
    exact left.of_soundFrame (admitWaiting_soundFrame _)
  | chain | settle | freeTag | protocol | engine | drop | dropRest | takes | sch | choice | issueRead | issuePart =>
    exact same ⟨rfl, rfl, rfl, rfl, rfl, rfl⟩

theorem sq_reset_sound (q : SqNo) : SqSound (State.reset.sq q) := by
  have h : State.reset.sq q = {} := by simp [State.sq, State.reset]
  rw [h]
  exact ⟨fun hc => (Bool.false_ne_true hc).elim, rfl⟩

theorem cq_reset_inRange (q : CqNo) : (State.reset.cq q).indicesInRange := by
  have h : State.reset.cq q = {} := by simp [State.cq, State.reset]
  rw [h]
  exact fun hc => (Bool.false_ne_true hc).elim

theorem units_reset_sound : UnitsSound State.reset := by
  intro k
  have h : State.reset.fu k = {} := by simp [State.fu, State.reset]
  rw [h]
  exact ⟨⟨rfl, rfl⟩, fun c hc => nomatch hc⟩

theorem group_reset_sound (g : GroupNo) : GroupSound (State.reset.group g) := by
  have h : State.reset.group g = zeroGroup := by simp [State.group, State.reset, zeroGroup]
  rw [h]
  exact zeroGroup_sound

/-- A RESET gives staged extents back and empties the buffer: the pools keep their bytes (R6, R24). -/
theorem LsSound.afterReset {x : Ls} (h : LsSound x) : LsSound x.afterReset := by
  rw [Ls.afterReset_eq]
  exact ⟨h.directives, h.literals, rfl⟩

theorem Replaces.keeps_pieces {i : Instr} {s t : State} (r : Replaces i s t) (p : PiecesSound s) : PiecesSound t := by
  cases r with
  | reset =>
    exact ⟨rfl, sq_reset_sound, cq_reset_inRange, units_reset_sound, p.layouts.afterReset, rfl, p.groups⟩
  | clear =>
    have cleared : LsSound (clearCommand s).ls := ⟨p.layouts.directives, p.layouts.literals, rfl⟩
    exact ⟨rfl, sq_reset_sound, cq_reset_inRange, units_reset_sound, cleared, rfl, group_reset_sound⟩
  | powerOn =>
    exact ⟨rfl, sq_reset_sound, cq_reset_inRange, units_reset_sound, ⟨rfl, rfl, rfl⟩, rfl, group_reset_sound⟩
  | registers => exact p.of_soundFrame ⟨rfl, rfl, rfl, rfl, rfl, rfl⟩

theorem exec_keeps_pieces {i : Instr} {s t : State} (e : exec i s = .next t) (p : PiecesSound s) : PiecesSound t := by
  rcases exec_reaches e with moves | replaces
  · exact moves.keep (fun _ _ => Move.keeps_pieces) p
  · exact replaces.keeps_pieces p

/-- Settles O54: the command at the front is a chain of elementary moves or a reset, and each of them keeps the pieces. -/
theorem soundPartStaysSound : Obligations.SoundPartStaysSound := by
  intro s t hstep
  rw [soundPart_iff_pieces, soundPart_iff_pieces]
  intro p
  unfold step at hstep
  split at hstep
  · cases hstep
    exact p
  · exact exec_keeps_pieces hstep (p.of_soundFrame ⟨rfl, rfl, rfl, rfl, rfl, rfl⟩)

end Sys2Proof.Machine
end

section
/-! The directives (R36 to R42, R45, R46): one rule for a directive that raises no fault, one for a directive that raises
some, and the facts about each meaning that they need. -/

namespace Sys2Proof.Machine

/-! ### One directive -/

section
variable {s : State} {k : FuNo} {u : Upset} {c : Context} {d : Directive} {e : Effect}
  {m : State → Fu → Context → Directive → Option DirectiveEnd}

/-- The part after a due directive has had its effect on its unit. -/
def afterDirective (s : State) (u : Upset) (k : FuNo) (c : Context) (e : Effect) : State :=
  (s.strike u).withUnit k (c.complete e) (writeBytes (s.fu k).stgWindow c.dstCursor e.out)

theorem runDirective_plain (h : DirectiveDue (s.strike u) k c d)
    (hm : m (s.strike u) (s.fu k) c d = some (.done e)) (hsrc : c.srcCursor + e.reach ≤ 4096)
    (hdst : c.dstCursor + e.out.length ≤ 4096) (hfaults : e.faults = []) :
    runDirective k u m s = .next (afterDirective s u k c e) := by
  rw [runDirective_due h hm, completeDirective_plain hsrc hdst hfaults]
  rfl

/-- A directive that raises faults reports them, and the first of them in the stop mask ends the job (R52, R107). -/
theorem runDirective_faulting (h : DirectiveDue (s.strike u) k c d)
    (hm : m (s.strike u) (s.fu k) c d = some (.done e)) (hsrc : c.srcCursor + e.reach ≤ 4096)
    (hdst : c.dstCursor + e.out.length ≤ 4096) (hfaults : e.faults ≠ []) (hengine : s.hlu.engine ≠ .halted)
    (hslot : c.slot ∉ (s.strike u).jt.badParity) :
    let t := (afterDirective s u k c e).modJob c.slot fun x => x.reports e.faults c.recordIndex c.directiveIndex
    (stoppingKind c.req.stopMask e.faults = none → runDirective k u m s = .next t)
    ∧ ∀ f, stoppingKind c.req.stopMask e.faults = some f →
        runDirective k u m s = .next (quiesce (releaseJob k .fieldStop (.field f) none t)) := by
  have reported : reportFaults c e.faults c.directiveIndex (afterDirective s u k c e) =
      (afterDirective s u k c e).modJob c.slot fun x => x.reports e.faults c.recordIndex c.directiveIndex :=
    reportFaults_good (s := afterDirective s u k c e) hengine hslot _ _ hfaults
  refine ⟨fun hgoes => ?_, fun f hstops => ?_⟩
  · rw [runDirective_due h hm, completeDirective_inside hsrc hdst]
    simp only [hgoes]
    exact congrArg Host.Outcome.next reported
  · rw [runDirective_due h hm, completeDirective_inside hsrc hdst]
    simp only [hstops]
    exact congrArg (fun t => Host.Outcome.next (quiesce (releaseJob k .fieldStop (.field f) none t))) reported

/-- A directive whose effect has one fault: the stop mask decides. -/
theorem runDirective_one_fault {f : FieldFault} (h : DirectiveDue (s.strike u) k c d)
    (hm : m (s.strike u) (s.fu k) c d = some (.done e)) (hsrc : c.srcCursor + e.reach ≤ 4096)
    (hdst : c.dstCursor + e.out.length ≤ 4096) (hfaults : e.faults = [f]) (hengine : s.hlu.engine ≠ .halted)
    (hslot : c.slot ∉ (s.strike u).jt.badParity) :
    let t := (afterDirective s u k c e).modJob c.slot fun x => x.report f c.recordIndex c.directiveIndex
    (faultSet c.req.stopMask f = false → runDirective k u m s = .next t)
    ∧ (faultSet c.req.stopMask f = true →
        runDirective k u m s = .next (quiesce (releaseJob k .fieldStop (.field f) none t))) := by
  have run := runDirective_faulting h hm hsrc hdst (by simp [hfaults]) hengine hslot
  rw [hfaults] at run
  exact ⟨fun hmask => run.1 (by simp [stoppingKind, hmask]), fun hmask => run.2 f (by simp [stoppingKind, hmask])⟩

end

section
variable (s : State) (u : Upset) (k : FuNo) (c : Context)

/-- What a directive leaves that takes bytes, stages bytes, or does both. -/
theorem afterDirective_stages {out : List Byte} {m : Nat} (hlen : out.length = m) (reach n : Nat)
    (faults : List FieldFault) :
    afterDirective s u k c { reach := reach, advance := n, out := out, faults := faults } =
      (s.strike u).withUnit k
        (Context.advance { c with srcCursor := c.srcCursor + n, dstCursor := c.dstCursor + m, phase := .boundary })
        (writeBytes (s.fu k).stgWindow c.dstCursor out) := by
  subst hlen
  rfl

end

/-! ### COPY, SKIP, FILL and PAD_TO (R36, R38, R40, R41) -/

@[simp] theorem sourceBytes_length (x : Fu) (c : Context) (n : Nat) : (sourceBytes x c n).length = n :=
  readBytes_length _ _ _

@[simp] theorem translated_length (look : Lookup) (bs : List Byte) : (translated look bs).length = bs.length :=
  List.length_map _

/-- Settles O31: COPY raises no fault, and its bytes are as many as its operand. -/
theorem copyStagesTranslatedBytes : Obligations.CopyStagesTranslatedBytes := by
  intro k c n u s hdue hsrc hdst out
  have hlen : (translated (s.lookup c.table) (sourceBytes (s.fu k) c n)).length = n := by simp
  have hin : c.dstCursor + (translated (s.lookup c.table) (sourceBytes (s.fu k) c n)).length ≤ 4096 := by rwa [hlen]
  have run := runDirective_plain (m := copyMeaning) hdue rfl hsrc hin rfl
  exact run.trans (congrArg _ (afterDirective_stages s u k c hlen n n []))

/-- Settles O32: the three meanings raise no fault and take no source byte; what PAD_TO stages is as long as the way to its
column. -/
theorem skipFillAndPadToExamineNoByte : Obligations.SkipFillAndPadToExamineNoByte := by
  intro k c b n u s hsrc hdst
  refine ⟨fun hdue hin => ?skip, fun hdue hin => ?fill, fun hdue hcol => ⟨fun hlt => ?pad, fun hle => ?reached⟩⟩
  case skip =>
    exact runDirective_plain (m := skipMeaning) hdue rfl hin hdst rfl
  case fill =>
    have hlen : (List.replicate n b).length = n := List.length_replicate
    have run := runDirective_plain (m := fillMeaning) hdue rfl hsrc (by rw [hlen]; exact hin) rfl
    exact run.trans (congrArg _ (afterDirective_stages s u k c hlen 0 0 []))
  case pad =>
    have hlen : (List.replicate (n - c.dstCursor) b).length = n - c.dstCursor := List.length_replicate
    have hcolumn : c.dstCursor + (n - c.dstCursor) = n := Nat.add_sub_of_le hlt.le
    have run := runDirective_plain (m := padToMeaning) hdue rfl hsrc (by rw [hlen, hcolumn]; exact hcol) rfl
    have after := afterDirective_stages s u k c hlen 0 0 []
    rw [hcolumn] at after
    exact run.trans (congrArg _ after)
  case reached =>
    have hnone : List.replicate (n - c.dstCursor) b = [] := by rw [Nat.sub_eq_zero_of_le hle]; rfl
    have hmeaning : padToMeaning (s.strike u) (s.fu k) c (.padTo b n) = some (.done {}) := by rw [padToMeaning, hnone]
    exact runDirective_plain hdue hmeaning hsrc hdst rfl

/-! ### COPY_UNTIL (R37) -/

theorem beforeDelimiter_of_first {look : Lookup} {bs : List Byte} {m : Nat} {b : Byte} (hb : bs[m]? = some b)
    (hdelim : (look b).has .delim = true) (hbefore : ∀ i a, i < m → bs[i]? = some a → (look a).has .delim = false) :
    beforeDelimiter look bs = bs.take m := by
  obtain ⟨hm, rfl⟩ := List.getElem?_eq_some_iff.mp hb
  have first : bs.findIdx (fun a => !!(look a).has .delim) = m := by
    rw [List.findIdx_eq hm]
    refine ⟨by simpa using hdelim, fun i hi => ?_⟩
    simpa using hbefore i bs[i] hi (List.getElem?_eq_getElem _)
  rw [beforeDelimiter, List.takeWhile_eq_take_findIdx_not, first]

theorem beforeDelimiter_of_none {look : Lookup} {bs : List Byte} (h : ∀ a ∈ bs, (look a).has .delim = false) :
    beforeDelimiter look bs = bs := by
  rw [beforeDelimiter, List.takeWhile_eq_self_iff]
  intro a ha
  rw [h a ha, Bool.not_false]

theorem copyUntilMeaning_eq {s : State} {x : Fu} {c : Context} {n : Nat} {kept : List Byte}
    (h : beforeDelimiter (s.lookup c.table) (sourceBytes x c n) = kept) :
    copyUntilMeaning s x c (.copyUntil n) = some (.done
      (if kept.length < n then
        { reach := n, advance := kept.length + 1, out := translated (s.lookup c.table) kept }
       else { reach := n, advance := n, out := translated (s.lookup c.table) kept, faults := [.delim] })) := by
  subst h
  rfl

/-- Settles O33: what COPY_UNTIL takes is either the bytes before the first delimiter or all of them. -/
theorem copyUntilStopsAtTheDelimiter : Obligations.CopyUntilStopsAtTheDelimiter := by
  intro k c n u s hdue hsrc hdst entry src staged
  have hsrcLen : src.length = n := readBytes_length _ _ _
  refine ⟨fun m b hb hdelim hbefore => ?found, fun hnone hengine hslot => ?notFound⟩
  case found =>
    have hm : m < n := hsrcLen ▸ (List.getElem?_eq_some_iff.mp hb).1
    have hkept : beforeDelimiter entry src = src.take m := beforeDelimiter_of_first hb hdelim hbefore
    have hlen : (translated entry (src.take m)).length = m := by simp [hsrcLen, hm.le]
    have hmeaning : copyUntilMeaning (s.strike u) (s.fu k) c (.copyUntil n) =
        some (.done { reach := n, advance := m + 1, out := translated entry (src.take m) }) := by
      have short : (src.take m).length = m := by simp [hsrcLen, hm.le]
      rw [copyUntilMeaning_eq (s := s.strike u) hkept, short, if_pos hm]
      rfl
    have run := runDirective_plain hdue hmeaning hsrc (by rw [hlen]; omega) rfl
    exact run.trans (congrArg _ (afterDirective_stages s u k c hlen n (m + 1) []))
  case notFound =>
    have hkept : beforeDelimiter entry src = src := beforeDelimiter_of_none hnone
    have hlen : (translated entry src).length = n := by simp [hsrcLen]
    have hmeaning : copyUntilMeaning (s.strike u) (s.fu k) c (.copyUntil n) =
        some (.done { reach := n, advance := n, out := translated entry src, faults := [.delim] }) := by
      rw [copyUntilMeaning_eq (s := s.strike u) hkept, hsrcLen, if_neg (Nat.lt_irrefl n)]
      rfl
    have run := runDirective_one_fault hdue hmeaning hsrc (by rw [hlen]; exact hdst) rfl hengine hslot
    have all : src.take n = src := List.take_of_length_le hsrcLen.le
    rw [afterDirective_stages s u k c hlen n n [.delim]] at run
    simp only [staged, all]
    exact run

/-! ### LITERAL and CHECK (R39, R42) -/

/-- Settles O34: the condition decides whether the literal bytes are read at all. -/
theorem literalStagesWhenItsConditionIsMet : Obligations.LiteralStagesWhenItsConditionIsMet := by
  intro k c cond off len start u s hdue hsrc hdst hstart hin met
  refine ⟨fun hunmet => ?unmet, fun hmet hgood => ?met⟩
  case unmet =>
    have hmeaning : literalMeaning (s.strike u) (s.fu k) c (.literal cond off len) = some (.done {}) := by
      simp only [literalMeaning, if_neg (mt (cond.met_iff c.lastState).mp hunmet)]
    exact runDirective_plain hdue hmeaning hsrc ((Nat.le_add_right _ _).trans hdst) rfl
  case met =>
    have hbytes : ¬ LiteralsBad (s.strike u) start off len := by
      rintro ⟨a, ha, hle, hlt⟩
      rcases hgood a ha with h | h <;> omega
    have hmeaning : literalMeaning (s.strike u) (s.fu k) c (.literal cond off len) =
        some (.done { out := readBytes s.ls.litPool (start + off) len }) := by
      simp only [literalMeaning, if_pos ((cond.met_iff c.lastState).mpr hmet),
        (readLiteral_inside hstart hin).2 hbytes]
      rfl
    have hlen : (readBytes s.ls.litPool (start + off) len).length = len := readBytes_length _ _ _
    have run := runDirective_plain hdue hmeaning hsrc (by rw [hlen]; exact hdst) rfl
    exact run.trans (congrArg _ (afterDirective_stages s u k c hlen 0 0 []))

theorem passesCheck_iff (look : Lookup) (classes b : Byte) :
    passesCheck look classes b = true ↔ (look b).classes &&& classes ≠ 0 := by
  simp [passesCheck]

/-- Settles O35: CHECK either passes every byte or raises CLASS once. -/
theorem checkRaisesOneClassFault : Obligations.CheckRaisesOneClassFault := by
  intro k c classes n u s hdue hsrc hdst src passes t faulted
  have hpass (b : Byte) : passesCheck (s.lookup c.table) classes b = true ↔ passes b := passesCheck_iff _ _ b
  have hmeaning {fs : List FieldFault}
      (h : (if src.all (passesCheck (s.lookup c.table) classes) then [] else [.cls]) = fs) :
      checkMeaning (s.strike u) (s.fu k) c (.check classes n) = some (.done { reach := n, faults := fs }) := h ▸ rfl
  refine ⟨fun hall => ?pass, fun hsome hengine hslot => ?fail⟩
  case pass =>
    have hok : src.all (passesCheck (s.lookup c.table) classes) = true :=
      List.all_eq_true.mpr fun b hb => (hpass b).mpr (hall b hb)
    exact runDirective_plain hdue (hmeaning (if_pos hok)) hsrc hdst rfl
  case fail =>
    have hnot : ¬ src.all (passesCheck (s.lookup c.table) classes) = true := by
      obtain ⟨b, hb, hfails⟩ := hsome
      exact fun h => hfails ((hpass b).mp (List.all_eq_true.mp h b hb))
    exact runDirective_one_fault hdue (hmeaning (if_neg hnot)) hsrc hdst rfl hengine hslot

/-! ### ADD_TOTAL (R45) -/

theorem addPair_fst (acc : AccNo) (v : Int) (b : List (AccNo × Int)) :
    (addPair acc v b).map Prod.fst =
      if acc ∈ b.map Prod.fst then b.map Prod.fst else b.map Prod.fst ++ [acc] := by
  induction b with
  | nil => rfl
  | cons p b ih =>
    obtain ⟨a, w⟩ := p
    rw [addPair]
    by_cases ha : a = acc
    · simp [ha]
    · have hne : ¬ acc = a := fun h => ha h.symm
      simp only [if_neg ha, List.map_cons, ih, List.mem_cons, hne, false_or]
      split <;> rfl

theorem lookup_cons_pair (a x : AccNo) (w : Int) (b : List (AccNo × Int)) :
    ((x, w) :: b).lookup a = if a = x then some w else b.lookup a := by
  by_cases h : a = x
  · simp [h]
  · have hne : (a == x) = false := by simpa using h
    rw [List.lookup_cons, hne, if_neg h]

theorem addPair_lookup (acc a : AccNo) (v : Int) (b : List (AccNo × Int)) :
    (addPair acc v b).lookup a = if a = acc then some ((b.lookup acc).getD 0 + v) else b.lookup a := by
  induction b with
  | nil => simp [addPair, lookup_cons_pair]
  | cons p b ih =>
    obtain ⟨x, w⟩ := p
    rw [addPair]
    by_cases hx : x = acc
    · subst hx
      simp only [if_true, lookup_cons_pair, Option.getD_some]
      split <;> rfl
    · simp only [if_neg hx, lookup_cons_pair, ih, if_neg (Ne.symm hx)]
      split
      · next ha => rw [if_neg (ha ▸ hx)]
      · rfl

/-- Settles O37: what ADD_TOTAL does to the batch is `addPair`. -/
theorem addTotalExtendsTheBatch : Obligations.AddTotalExtendsTheBatch := by
  intro k c acc u s hdue hsrc hdst
  refine ⟨fun hnone => ?none, fun v hstate hvalue => ⟨addPair acc v c.batch, ?run, addPair_fst acc v c.batch, ?_, ?_⟩⟩
  case none =>
    have hmeaning : addTotalMeaning (s.strike u) (s.fu k) c (.addTotal acc) = some (.done {}) := by
      simp only [addTotalMeaning, hnone]
    exact runDirective_plain hdue hmeaning hsrc hdst rfl
  case run =>
    have hmeaning : addTotalMeaning (s.strike u) (s.fu k) c (.addTotal acc) =
        some (.done { batch := some (addPair acc v c.batch) }) := by
      simp only [addTotalMeaning, hvalue]
    exact runDirective_plain hdue hmeaning hsrc hdst rfl
  · rw [addPair_lookup, if_pos rfl]
  · exact fun a ha => by rw [addPair_lookup, if_neg ha]

/-! ### REPEAT (R46) -/

/-- A REPEAT that parses has a count and a span of at least 1 (R9). -/
theorem repeatGroup_parse_pos {bs : List Byte} {count span : Nat}
    (h : Directive.parse bs = some (.repeatGroup count span)) : 1 ≤ count ∧ 1 ≤ span := by
  unfold Directive.parse at h
  dsimp only at h
  split at h
  case h_10 =>
    simp only [Option.ite_none_right_eq_some, Bool.and_eq_true, inRange, decide_eq_true_eq, Option.some.injEq,
      Directive.repeatGroup.injEq] at h
    obtain ⟨⟨⟨⟨hcount, _⟩, hspan, _⟩, _⟩, rfl, rfl⟩ := h
    exact ⟨hcount, hspan⟩
  all_goals simp at h

/-- The place in a group of `n` after one more of its directives. -/
theorem succ_mod_div {i n : Nat} (hn : 0 < n) :
    (i % n + 1 < n → (i + 1) % n = i % n + 1 ∧ (i + 1) / n = i / n)
      ∧ (i % n + 1 = n → (i + 1) % n = 0 ∧ (i + 1) / n = i / n + 1) := by
  have hdiv := Nat.mod_add_div i n
  refine ⟨fun h => ?_, fun h => ?_⟩
  · have e : i + 1 = i % n + 1 + n * (i / n) := by omega
    rw [e, Nat.add_mul_mod_self_left, Nat.add_mul_div_left _ _ hn, Nat.mod_eq_of_lt h, Nat.div_eq_of_lt h]
    exact ⟨rfl, Nat.zero_add _⟩
  · have e : i + 1 = n * (i / n + 1) := by rw [Nat.mul_succ]; omega
    rw [e, Nat.mul_mod_right, Nat.mul_div_cancel_left _ hn]
    exact ⟨rfl, rfl⟩

/-- The context `c` after `i` completions in a group of `span` directives behind the index `r`, of which `count` rounds are
to run. -/
def Context.inGroup (c : Context) (r span count i : Nat) : Context :=
  { c with directiveIndex := r + 1 + i % span, rep := some ⟨r + 1, r + span, count - i / span⟩ }

section
variable (c : Context) (r : Nat) {span count i : Nat}

theorem Context.advance_inGroup (hi : i + 1 < count * span) :
    (c.inGroup r span count i).advance = c.inGroup r span count (i + 1) := by
  have hspan : 0 < span := Nat.pos_of_ne_zero (by rintro rfl; simp at hi)
  obtain ⟨within, wraps⟩ := succ_mod_div (i := i) hspan
  unfold inGroup
  rcases Nat.lt_or_eq_of_le (Nat.mod_lt i hspan) with hlt | heq
  · obtain ⟨hmod, hdiv⟩ := within hlt
    have hnotLast : ¬ r + 1 + i % span = r + span := by omega
    simp only [advance, hnotLast, hmod, hdiv, if_false]
    rfl
  · obtain ⟨hmod, hdiv⟩ := wraps heq
    have hround : (i + 1) / span < count := Nat.div_lt_of_lt_mul (by rwa [Nat.mul_comm])
    have hlast : r + 1 + i % span = r + span := by omega
    have hmore : 1 < count - i / span := by omega
    simp only [advance, hlast, hmore, hmod, hdiv, if_true, Nat.add_zero, Nat.sub_sub]

theorem Context.advance_inGroup_last (hi : i + 1 = count * span) :
    (c.inGroup r span count i).advance = { c with directiveIndex := r + span + 1, rep := none } := by
  have hspan : 0 < span := Nat.pos_of_ne_zero (by rintro rfl; simp at hi)
  obtain ⟨within, wraps⟩ := succ_mod_div (i := i) hspan
  have hend : (i + 1) % span = 0 := by rw [hi, Nat.mul_mod_left]
  have heq : i % span + 1 = span := by
    rcases Nat.lt_or_eq_of_le (Nat.mod_lt i hspan) with hlt | heq
    · have := (within hlt).1
      omega
    · exact heq
  have hround : (i + 1) / span = count := by rw [hi, Nat.mul_div_cancel _ hspan]
  have hlast : r + 1 + i % span = r + span := by omega
  have hdone : ¬ 1 < count - i / span := by
    have := (wraps heq).2
    omega
  unfold inGroup
  simp only [advance, hlast, hdone, if_true, if_false]

theorem Context.iterate_advance_inGroup (hi : i < count * span) :
    Context.advance^[i] (c.inGroup r span count 0) = c.inGroup r span count i := by
  induction i with
  | zero => rfl
  | succ i ih => rw [Function.iterate_succ_apply', ih (Nat.lt_of_succ_lt hi), advance_inGroup c r hi]

end

/-- Settles O38: the place in the group after `i` completions is `i` modulo the span, and the rounds left are the count less
`i` divided by it. -/
theorem repeatRunsItsGroupCountTimes : Obligations.RepeatRunsItsGroupCountTimes := by
  intro k c count span u s hdue hsrc hdst r start
  obtain ⟨hcount, hspan⟩ := repeatGroup_parse_pos hdue.decoded
  have hstart : start = start.inGroup r span count 0 := by simp [Context.inGroup, start]
  refine ⟨?run, fun i hi => ?during, ?after⟩
  case run =>
    have run := runDirective_plain (m := repeatMeaning) hdue rfl hsrc hdst rfl
    have hfirst : c.complete { rep := some ⟨c.directiveIndex + 1, c.directiveIndex + span, count⟩ } = start := by
      have hnotLast : ¬ c.directiveIndex = c.directiveIndex + span := by omega
      simp only [Context.complete, Context.advance, Option.orElse, hnotLast, if_false]
      rfl
    rw [afterDirective, hfirst] at run
    exact run
  case during =>
    rw [hstart, Context.iterate_advance_inGroup _ _ hi]
    exact ⟨rfl, rfl⟩
  case after =>
    obtain ⟨i, hi⟩ : ∃ i, i + 1 = count * span := ⟨_, Nat.sub_add_cancel (Nat.mul_pos hcount hspan)⟩
    rw [← hi, Function.iterate_succ_apply']
    conv_lhs => rw [hstart]
    rw [Context.iterate_advance_inGroup _ _ (by omega), Context.advance_inGroup_last _ _ hi]

end Sys2Proof.Machine
end

section
/-! NUMBER (R43, R44, R57 to R59, R74): what a conversion comes out as, and the directive over it. -/

namespace Sys2Proof.Machine

/-! ### Lengths (R57, R74, R82 to R84) -/

theorem packNibbles_length (ns : List Nat) : (packNibbles ns).length = ns.length / 2 := by
  induction ns using packNibbles.induct with
  | case1 hi lo rest ih => simp only [packNibbles, List.length_cons, ih]; omega
  | case2 ns h =>
    match ns, h with
    | [], _ => rfl
    | [x], _ => simp [packNibbles]
    | x :: y :: rest, h => exact absurd rfl (h x y rest)

@[simp] theorem leBytes_length (n v : Nat) : (leBytes n v).length = n := by
  induction n generalizing v with
  | zero => rfl
  | succ n ih => rw [leBytes, List.length_cons, ih]

@[simp] theorem decimalDigits_length (n m : Nat) : (decimalDigits n m).length = n := by simp [decimalDigits]

theorem encodePacked_length (signed : Bool) (n : Nat) (v : Value) : (encodePacked signed n v).length = n := by
  rw [encodePacked, packNibbles_length, List.length_append, decimalDigits_length, List.length_singleton]
  omega

theorem encodeBinary_length {signed big : Bool} {n : Nat} {v : Value} {out : List Byte}
    (h : encodeBinary signed big n v = some out) : out.length = n := by
  unfold encodeBinary at h
  rw [Option.ite_none_right_eq_some] at h
  obtain ⟨_, h⟩ := h
  cases h
  split <;> simp

theorem encodeDestination_length {p : Picture} {v : Value} {out : List Byte} (h : encodeDestination p v = some out) :
    out.length = p.fieldBytes := by
  unfold encodeDestination at h
  unfold Picture.fieldBytes
  split at h
  · next hf =>
    cases h
    rw [hf]
    exact encodePacked_length _ _ _
  · next hf =>
    cases h
    rw [hf, encodeZoned]
    split <;> simp_all
  · next hf =>
    rw [hf]
    exact encodeBinary_length h

theorem render_length {p : Picture} {look : Lookup} {lit : Nat → Byte} {v : Value} {out : List Byte}
    (h : render p look lit v = .ok out) : out.length = p.width := by
  unfold render at h
  split at h
  · cases h
    exact List.length_replicate
  · split at h
    · cases h
    · split at h
      · cases h
      · cases h
        rw [List.length_append, List.length_replicate]
        omega

/-! ### Faults of the steps (R59) -/

theorem decodePacked_error {signed : Bool} {bs : List Byte} {f : FieldFault} (h : decodePacked signed bs = .error f) :
    f.isValueKind = true := by
  unfold decodePacked at h
  dsimp only at h
  split at h
  · split at h <;> cases h
    rfl
  · cases h
    rfl

theorem decodeZoned_error {look : Lookup} {pos : ZonedSign} {n : Nat} {bs : List Byte} {f : FieldFault}
    (h : decodeZoned look pos n bs = .error f) : f.isValueKind = true := by
  cases pos with
  | none =>
    simp only [decodeZoned] at h
    split at h <;> cases h
    rfl
  | trailOver | leadOver | trailSep | leadSep =>
    simp only [decodeZoned] at h
    split at h
    · cases h
      rfl
    · split at h <;> cases h
      rfl

theorem decodeSource_error {p : Picture} {look : Lookup} {bs : List Byte} {f : FieldFault}
    (h : decodeSource p look bs = .error f) : f.isValueKind = true := by
  unfold decodeSource at h
  split at h
  · exact decodePacked_error h
  · exact decodeZoned_error h
  · cases h

theorem render_error {p : Picture} {look : Lookup} {lit : Nat → Byte} {v : Value} {f : FieldFault}
    (h : render p look lit v = .error f) : f.isValueKind = true := by
  unfold render at h
  split at h
  · cases h
  · split at h
    · cases h
      rfl
    · split at h <;> cases h
      rfl

theorem scanByte_error {p : Picture} {look : Lookup} {n i : Nat} {b : Byte} {sc : Scan} {f : FieldFault}
    (h : scanByte p look n i b sc = .error f) : f.isValueKind = true := by
  unfold scanByte at h
  dsimp only at h
  split_ifs at h <;> cases h <;> rfl

theorem scanBody_error {p : Picture} {look : Lookup} {n i : Nat} {bs : List Byte} {sc : Scan} {f : FieldFault}
    (h : scanBody p look n i bs sc = .error f) : f.isValueKind = true := by
  induction bs generalizing i sc with
  | nil => cases h
  | cons b bs ih =>
    rw [scanBody] at h
    split at h
    · exact ih h
    · next hb =>
      cases h
      exact scanByte_error hb

/-! ### Magnitudes (R58, R66, R80) -/

/-- Every digit value of a code table is a decimal digit (R91). -/
def Lookup.decimal (look : Lookup) : Prop := ∀ b d, (look b).digit = some d → d ≤ 9

theorem digitCount_le_iff (n i : Nat) : digitCount n ≤ i ↔ n < 10 ^ i := Nat.digits_length_le_iff (by decide) n

@[simp] theorem Value.natAbs_toInt (v : Value) : v.toInt.natAbs = v.mag := by
  unfold toInt
  split <;> simp

theorem digitsValue_lt {ds : List Nat} (h : ∀ d ∈ ds, d ≤ 9) : digitsValue ds < 10 ^ ds.length := by
  have key : ∀ (l : List Nat) (acc : Nat), (∀ d ∈ l, d ≤ 9) →
      l.foldl (fun acc d => 10 * acc + d) acc < (acc + 1) * 10 ^ l.length := by
    intro l
    induction l with
    | nil => intro acc _; simp
    | cons d l ih =>
      intro acc hl
      have hd := hl d (by simp)
      calc l.foldl (fun acc d => 10 * acc + d) (10 * acc + d)
          < (10 * acc + d + 1) * 10 ^ l.length := ih _ fun x hx => hl x (by simp [hx])
        _ ≤ (acc + 1) * 10 * 10 ^ l.length := Nat.mul_le_mul_right _ (by omega)
        _ = (acc + 1) * 10 ^ (l.length + 1) := by rw [Nat.pow_succ']; ring
  simpa [digitsValue] using key ds 0 h

/-- Every digit gathered by a scan is a decimal digit. -/
def Scan.decimal (sc : Scan) : Prop := (∀ d ∈ sc.ints, d ≤ 9) ∧ ∀ d ∈ sc.fracs, d ≤ 9

/-- A scanned byte adds its digit to the integer or to the fraction digits, or adds none (R76 to R79). -/
theorem scanByte_digits {p : Picture} {look : Lookup} {n i : Nat} {b : Byte} {sc sc' : Scan}
    (h : scanByte p look n i b sc = .ok sc') :
    let d := (look b).digit.getD 0
    (sc'.ints = sc.ints ∨ sc'.ints = sc.ints ++ [d]) ∧ (sc'.fracs = sc.fracs ∨ sc'.fracs = sc.fracs ++ [d]) := by
  unfold scanByte at h
  dsimp only at h
  split_ifs at h <;> cases h
  all_goals grind

theorem scanByte_decimal {p : Picture} {look : Lookup} {n i : Nat} {b : Byte} {sc sc' : Scan} (hlook : look.decimal)
    (hsc : sc.decimal) (h : scanByte p look n i b sc = .ok sc') : sc'.decimal := by
  have hdigit : (look b).digit.getD 0 ≤ 9 := by
    cases hd : (look b).digit with
    | none => exact Nat.zero_le _
    | some d => exact hlook b d hd
  have joined {l l' : List Nat} (hl : ∀ d ∈ l, d ≤ 9) (h : l' = l ∨ l' = l ++ [(look b).digit.getD 0]) :
      ∀ d ∈ l', d ≤ 9 := by
    rcases h with rfl | rfl
    · exact hl
    · simpa [or_imp, forall_and] using ⟨hl, hdigit⟩
  obtain ⟨hints, hfracs⟩ := scanByte_digits h
  exact ⟨joined hsc.1 hints, joined hsc.2 hfracs⟩

theorem scanBody_decimal {p : Picture} {look : Lookup} {n i : Nat} {bs : List Byte} {sc sc' : Scan}
    (hlook : look.decimal) (hsc : sc.decimal) (h : scanBody p look n i bs sc = .ok sc') : sc'.decimal := by
  induction bs generalizing i sc with
  | nil =>
    cases h
    exact hsc
  | cons b bs ih =>
    rw [scanBody] at h
    split at h
    · next hb => exact ih (scanByte_decimal hlook hsc hb) h
    · cases h

theorem divideDigits_decimal {p : Picture} {sc : Scan} (h : sc.decimal) : ∀ d ∈ (divideDigits p sc).2, d ≤ 9 := by
  unfold divideDigits
  split
  · exact h.2
  · dsimp only
    split
    · intro d hd
      rcases List.mem_append.mp hd with hd | hd
      · rw [List.eq_of_mem_replicate hd]
        exact Nat.zero_le _
      · exact h.1 d hd
    · exact fun d hd => h.1 d (List.mem_of_mem_drop hd)

/-- A scaled number whose integer part has at most `i` digits has at most `i + f` of them (R66, R80). -/
theorem lt_pow_add_of_div_lt {m i f : Nat} (h : m / 10 ^ f < 10 ^ i) : m < 10 ^ (i + f) := by
  rw [Nat.pow_add]
  exact (Nat.div_lt_iff_lt_mul (Nat.pow_pos (by decide))).mp h

theorem formValue_error {p : Picture} {neg : Bool} {ints fracs : List Nat} {f : FieldFault}
    (h : (formValue p neg ints fracs).2 = .error f) : f = .size := by
  unfold formValue at h
  dsimp only at h
  split at h <;> cases h
  rfl

theorem formValue_mag_lt {p : Picture} {neg : Bool} {ints fracs : List Nat} {v : Value} (hfracs : ∀ d ∈ fracs, d ≤ 9)
    (h : (formValue p neg ints fracs).2 = .ok v) : v.mag < 10 ^ (p.intDigits + p.fracDigits) := by
  unfold formValue at h
  dsimp only at h
  split at h
  · cases h
  · next hsize =>
    cases h
    have hint : digitsValue ints < 10 ^ p.intDigits := (digitCount_le_iff _ _).mp (Nat.le_of_not_lt hsize)
    have hlen : (fracs.take p.fracDigits).length ≤ p.fracDigits := List.length_take_le _ _
    have hkept : digitsValue (fracs.take p.fracDigits) < 10 ^ (fracs.take p.fracDigits).length :=
      digitsValue_lt fun d hd => hfracs d (List.mem_of_mem_take hd)
    have hfrac : digitsValue (fracs.take p.fracDigits) * 10 ^ (p.fracDigits - (fracs.take p.fracDigits).length)
        < 10 ^ p.fracDigits := by
      calc _ < 10 ^ (fracs.take p.fracDigits).length * 10 ^ (p.fracDigits - (fracs.take p.fracDigits).length) :=
            Nat.mul_lt_mul_of_pos_right hkept (Nat.pow_pos (by decide))
        _ = 10 ^ p.fracDigits := by rw [← Nat.pow_add, Nat.add_sub_of_le hlen]
    refine lt_pow_add_of_div_lt ?_
    change (digitsValue ints * 10 ^ p.fracDigits + _) / 10 ^ p.fracDigits < _
    rw [Nat.mul_comm, Nat.mul_add_div (Nat.pow_pos (by decide)), Nat.div_eq_of_lt hfrac]
    exact hint

/-! ### One field or one value fault -/

/-- A conversion gives a field of `size` bytes, its value being one of `values`, and no fault but TRUNC, or it raises one
value kind, with a TRUNC before it or not, and gives none (R59, R74). -/
inductive OneOutcome (size : Nat) (values : Int → Prop) : Conversion → Prop
  | field {v out} (trunc marker) (hlen : out.length = size) (hv : values v) :
      OneOutcome size values ⟨withTrunc trunc [], some (v, out), marker⟩
  | fault {f : FieldFault} (trunc marker) (hf : f.isValueKind = true) :
      OneOutcome size values ⟨withTrunc trunc [f], none, marker⟩

/-- The values of at most I + F digits; how many digits a value has is known for a table of decimal digits only. -/
def Picture.fits (p : Picture) (look : Lookup) (v : Int) : Prop :=
  look.decimal → v.natAbs < 10 ^ (p.intDigits + p.fracDigits)

theorem convertOutward_oneOutcome (p : Picture) (look : Lookup) (lit : Nat → Byte) (bs : List Byte) :
    OneOutcome p.width (p.fits look) (convertOutward p look lit bs) := by
  unfold convertOutward
  split
  · next h => exact .fault false none (decodeSource_error h)
  · dsimp only
    split
    · exact .fault _ _ rfl
    · next hsize =>
      split
      · exact .fault _ _ rfl
      · split
        · next h => exact .fault _ _ (render_error h)
        · next h =>
          refine .field _ _ (render_length h) fun _ => ?_
          rw [Value.natAbs_toInt]
          exact lt_pow_add_of_div_lt ((digitCount_le_iff _ _).mp (Nat.le_of_not_lt hsize))

theorem convertInward_oneOutcome (p : Picture) (look : Lookup) (bs : List Byte) :
    OneOutcome p.fieldBytes (p.fits look) (convertInward p look bs) := by
  unfold convertInward
  dsimp only
  split
  · next h => exact .fault false none (scanBody_error h)
  · next sc hscan =>
    split
    · next h => exact .fault _ _ (by rw [formValue_error h]; rfl)
    · next v h =>
      split
      · exact .fault _ _ rfl
      · split
        · exact .fault _ _ rfl
        · next hout =>
          refine .field _ _ (encodeDestination_length hout) fun hlook => ?_
          have hsc : sc.decimal := scanBody_decimal hlook ⟨by simp, by simp⟩ hscan
          rw [Value.natAbs_toInt]
          exact formValue_mag_lt (divideDigits_decimal hsc) h

theorem convert_oneOutcome (dir : Direction) (p : Picture) (look : Lookup) (lit : Nat → Byte) (bs : List Byte) :
    OneOutcome (p.outputSize dir) (p.fits look) (convert dir p look lit bs) := by
  cases dir with
  | outward => exact convertOutward_oneOutcome p look lit bs
  | inward => exact convertInward_oneOutcome p look bs

theorem FieldFault.isValueKind_iff (f : FieldFault) :
    f.isValueKind = true ↔ f = .digit ∨ f = .sign ∨ f = .size ∨ f = .unsigned := by
  cases f <;> simp [isValueKind]

theorem withTrunc_cases (trunc : Bool) (fs : List FieldFault) :
    withTrunc trunc fs = fs ∨ withTrunc trunc fs = .trunc :: fs := by
  cases trunc
  · exact .inl rfl
  · exact .inr rfl

/-- Settles O42: both directions come out as a field or as one value kind. -/
theorem conversionsGiveOneFieldOrOneValueFault : Obligations.ConversionsGiveOneFieldOrOneValueFault := by
  intro dir p look lit bs hlook r
  have outcome : OneOutcome (p.outputSize dir) (p.fits look) r := convert_oneOutcome dir p look lit bs
  clear_value r
  cases outcome with
  | field trunc marker hlen hv =>
    refine ⟨fun v out h => ?_, fun h => (nomatch h)⟩
    cases h
    exact ⟨hlen, hv hlook, withTrunc_cases trunc []⟩
  | fault trunc marker hf =>
    exact ⟨fun v out h => (nomatch h), fun _ => ⟨_, (FieldFault.isValueKind_iff _).mp hf, withTrunc_cases trunc _⟩⟩

/-! ### The directive (R43, R44, R107, R109) -/

theorem numberEffect_length {c : Context} {p : Picture} {r : Conversion} {values : Int → Prop}
    (h : OneOutcome (p.outputSize c.image.direction) values r) :
    (numberEffect c p r).out.length = p.outputSize c.image.direction := by
  cases h with
  | field trunc marker hlen hv => exact hlen
  | fault trunc marker hf => exact List.length_replicate

theorem numberConversion_eq {s : State} {x : Fu} {c : Context} {start : Nat} (h : c.image.literalStart = some start)
    (p : Picture) :
    numberConversion s x c p = convert c.image.direction p (s.lookup c.table) (fun o => readByte s.ls.litPool (start + o))
      (readBytes x.srcWindow c.srcCursor (p.sourceSize c.image.direction)) := by
  rw [numberConversion, h]
  rfl

/-- A NUMBER whose picture record and pair marker have good parity takes the effect of its conversion (R32, R59). -/
theorem numberMeaning_done {s : State} {x : Fu} {c : Context} {p : Picture} {start off : Nat}
    (hstart : c.image.literalStart = some start) (hin : start + off + 24 ≤ 32768) (hgood : s.ls.litBad = [])
    (hparse : Picture.parse (readBytes s.ls.litPool (start + off) 24) = some p)
    (hmarker : ∀ o, (numberConversion s x c p).marker = some o → start + o + 2 ≤ 32768) :
    numberMeaning s x c (.number off) = some (.done (numberEffect c p (numberConversion s x c p))) := by
  have good (o n : Nat) : ¬ LiteralsBad s start o n := by simp [LiteralsBad, hgood]
  have hwith : numberWith s x c p = .done (numberEffect c p (numberConversion s x c p)) := by
    unfold numberWith
    dsimp only
    cases hm : (numberConversion s x c p).marker with
    | none => rfl
    | some o => rw [Option.map_some, (readLiteral_inside hstart (hmarker o hm)).2 (good o 2)]
  simp only [numberMeaning, Config.pictureBytes, (readLiteral_inside hstart hin).2 (good off 24), hparse, hwith]

/-- The context after a NUMBER (R43, R44). -/
theorem complete_numberEffect {c : Context} {p : Picture} {r : Conversion} {values : Int → Prop}
    (h : OneOutcome (p.outputSize c.image.direction) values r) :
    c.complete (numberEffect c p r) = Context.advance { c with
      srcCursor := c.srcCursor + p.sourceSize c.image.direction
      dstCursor := c.dstCursor + p.outputSize c.image.direction
      lastState := match r.result with
        | some (v, _) => if v < 0 then .negative else if v = 0 then .zero else .positive
        | none => .none
      lastValue := r.result.map Prod.fst, phase := .boundary } := by
  unfold Context.complete
  rw [numberEffect_length h]
  cases h <;> rfl

/-- Settles O36: the conversion comes out as a field or as one value kind, each as long as the output size. -/
theorem numberConvertsOneField : Obligations.NumberConvertsOneField := by
  intro k c off start p u s hdue hstart hin hgood hparse dir r out hmarker hsrc hdst t
  have hr : numberConversion (s.strike u) (s.fu k) c p = r := numberConversion_eq hstart p
  have outcome : OneOutcome (p.outputSize dir) (p.fits (s.lookup c.table)) r := convert_oneOutcome ..
  have hmeaning : numberMeaning (s.strike u) (s.fu k) c (.number off) = some (.done (numberEffect c p r)) := by
    have h := numberMeaning_done (s := s.strike u) (x := s.fu k) hstart hin hgood hparse (by rw [hr]; exact hmarker)
    rwa [hr] at h
  have hout : c.dstCursor + (numberEffect c p r).out.length ≤ 4096 := by
    rw [numberEffect_length outcome]
    exact hdst
  have ht : afterDirective s u k c (numberEffect c p r) = t := by
    rw [afterDirective, complete_numberEffect outcome]
    rfl
  refine ⟨fun hnone => ?plain, fun hsome hengine hslot => ?faulting⟩
  case plain =>
    rw [← ht]
    exact runDirective_plain hdue hmeaning hsrc hout hnone
  case faulting =>
    have run := runDirective_faulting hdue hmeaning hsrc hout hsome hengine hslot
    rw [ht] at run
    exact ⟨fun f hf => run.2 f hf, fun hgoes => run.1 hgoes⟩

end Sys2Proof.Machine
end

section
/-! Records (R27, R29, R30, R47 to R51, R103, R111, R150, R157): the arrival of a source record, the end of a record, the
hand-off, and the boundary before the next record. -/

namespace Sys2Proof.Machine

/-! ### A source record arrives (R29 to R31) -/

/-- An answer to a wanted link read goes to the requester's window, and the requester is told of the last one (R212). -/
theorem linkReadAnswer_wanted {tag : ReadTag} {f : InFlight} {data : List Byte} {s : State} (u : Upset)
    (h : s.tag tag = some f) (hlive : f.read.live = true) (hlen : data.length = f.read.len) :
    exec (.linkReadAnswer tag f.stamp data u) s =
      .next (afterData f.read.requester (placeData f.read data ((s.strike u).setTag tag none))) := by
  have hs : (s.strike u).tag tag = some f := h
  simp [exec, execLinkReadAnswer, hs, hlen, hlive]

theorem afterData_last {who : Requester} {s : State} (h : readOutstanding who s = false) :
    afterData who s = quiesce (readDone who s) := by
  rw [afterData, h, if_neg Bool.false_ne_true]

/-- A record kind's data begins its record (R30). -/
theorem unitReadDone_record {s : State} {k : FuNo} {c : Context} (h : (s.fu k).ctx = some c)
    (hkind : c.kind = .format ∨ c.kind = .parse) :
    unitReadDone k s = s.modFu k fun x => { x with ctx := some c.startRecord } := by
  rw [← State.modCtx_of_some h Context.startRecord]
  unfold unitReadDone
  rw [h]
  rcases hkind with hkind | hkind <;> simp only [hkind]

/-- Settles O17: the last answer places its data and tells the unit, which starts its record. -/
theorem sourceRecordArrivesAtItsStartValues : Obligations.SourceRecordArrivesAtItsStartValues := by
  intro tag f k c data u s htag hlive hwho hlen hctx hkind hlast t
  have hplaced : placeData f.read data ((s.strike u).setTag tag none) =
      ((s.strike u).setTag tag none).modFu k fun x =>
        { x with srcWindow := writeBytes x.srcWindow f.read.place data } := by
    rw [placeData, hwho]
  have hdone : unitReadDone k (placeData f.read data ((s.strike u).setTag tag none)) = t := by
    rw [hplaced, unitReadDone_record (c := c) (by rw [State.fu_modFu_self]; exact hctx) hkind, State.modFu_modFu]
    rfl
  have run : exec (.linkReadAnswer tag f.stamp data u) s = .next (quiesce t) := by
    have hout : readOutstanding (.unit k) (placeData f.read data ((s.strike u).setTag tag none)) = false := by
      rw [hplaced]
      exact hlast
    rw [linkReadAnswer_wanted u htag hlive hlen, hwho, afterData_last hout, readDone, hdone]
  exact ⟨run, fun hsettled => by rw [run, quiesce_settled hsettled]⟩

/-! ### Counts (R27, R50) -/

theorem recordCycle_of_kind {k : ReqKind} (h : k = .format ∨ k = .parse) : k.recordCycle = true := by
  rcases h with rfl | rfl <;> rfl

/-- A record handed raises records done by 1 and bytes written by its length. -/
theorem Job.handed_record (x : Job) {k : ReqKind} (h : k = .format ∨ k = .parse) (n : Nat) :
    x.handed k n = { x with recordsDone := x.recordsDone + 1, bytesWritten := x.bytesWritten + n } := by
  rw [handed, recordCycle_of_kind h, if_pos rfl]

/-! ### The hand-off (R47, R50, R51, R214) -/

section
variable {s : State} {k : FuNo} {c : Context}

/-- With no output there is nothing to write. -/
theorem handOutput_empty (h : (s.fu k).ctx = some c) (hslot : c.slot ∉ s.jt.badParity) (hlen : c.dstCursor = 0)
    (next : AfterHand) : handOutput k next s = handedOff k next s := by
  unfold handOutput
  rw [h]
  simp only [readSlots_good hslot, hlen, if_true]

/-- With room in the write queue the output joins it at once. -/
theorem handOutput_room (h : (s.fu k).ctx = some c) (hslot : c.slot ∉ s.jt.badParity) (hlen : 0 < c.dstCursor)
    (room : s.hlu.writeQueue.length < 64) (first : s.hlu.waiting = []) (next : AfterHand) :
    handOutput k next s =
      handedOff k next
        (handWrite (outputWrite k c (s.job c.slot) (readBytes (s.fu k).stgWindow 0 c.dstCursor)) s) := by
  have hroom : queueHasRoom s = true := by simp [queueHasRoom, Config.writeQueueSize, room, first]
  unfold handOutput
  rw [h]
  simp only [readSlots_good hslot, hlen.ne', hroom, Bool.or_true, if_true, if_false]

/-- The part after the hand-off of a job's last record: its counts have risen, and the unit stands at the final boundary
(R50, R51). -/
def lastHanded (k : FuNo) (c : Context) (s : State) : State :=
  (s.modJob c.slot fun x =>
      { x with recordsDone := x.recordsDone + 1, bytesWritten := x.bytesWritten + c.dstCursor }).modFu k fun x =>
    { x with ctx := some { c with phase := .finalBoundary } }

theorem afterHandOff_last (h : (s.fu k).ctx = some c) (hkind : c.kind = .format ∨ c.kind = .parse)
    (hlast : c.req.recordCount ≤ c.recordIndex + 1) (hengine : s.hlu.engine ≠ .halted) :
    afterHandOff k .onward s = s.modFu k fun x => { x with ctx := some { c with phase := .finalBoundary } } := by
  rw [← State.modCtx_of_some h fun c => { c with phase := .finalBoundary }]
  unfold afterHandOff
  rw [h]
  simp [recordCycle_of_kind hkind, Nat.not_lt.mpr hlast, State.halted_eq_false hengine]

theorem handedOff_last (h : (s.fu k).ctx = some c) (hkind : c.kind = .format ∨ c.kind = .parse)
    (hlast : c.req.recordCount ≤ c.recordIndex + 1) (hengine : s.hlu.engine ≠ .halted)
    (hslot : c.slot ∉ s.jt.badParity) :
    handedOff k .onward s = lastHanded k c s := by
  have counted : countHandOff c s = s.modJob c.slot fun x =>
      { x with recordsDone := x.recordsDone + 1, bytesWritten := x.bytesWritten + c.dstCursor } := by
    rw [countHandOff_of_not_halted hengine]
    exact State.modJob_congr (Job.handed_record _ hkind _)
  unfold handedOff
  rw [h]
  simp only [readSlots_good hslot]
  rw [counted, afterHandOff_last (s := State.modJob ..) h hkind hlast hengine]
  rfl

end

/-- The one write of a record's output: the whole staged record, at the job's bytes written (R27, R47, R50). -/
def recordWrite (s : State) (k : FuNo) (c : Context) : HandedWrite :=
  { serial := s.hlu.writeSerial, writer := .unit k
    owner := .job c.slot (s.job c.slot).takeOrder c.recordIndex (s.job c.slot).bytesWritten
    addr := hostAddr c.req.dstAddr (s.job c.slot).bytesWritten
    data := readBytes (s.fu k).stgWindow 0 c.dstCursor, vector := none, issued := 0 }

/-- The Host Link Unit after the hand-off of a record: untouched for an empty one, with one write more otherwise, of which
settle tracking learns (R47, R214, R216). -/
def hluAfterRecord (s : State) (k : FuNo) (c : Context) : Hlu :=
  if c.dstCursor = 0 then s.hlu
  else
    { s.hlu with
      writeSerial := s.hlu.writeSerial + 1, writeQueue := s.hlu.writeQueue ++ [recordWrite s k c]
      settle := modifyAt s.hlu.settle c.slot fun t => { t with handed := true, lastWrite := some s.hlu.writeSerial } }

theorem handOutput_last {s : State} {k : FuNo} {c : Context} (h : (s.fu k).ctx = some c)
    (hkind : c.kind = .format ∨ c.kind = .parse) (hlast : c.req.recordCount ≤ c.recordIndex + 1)
    (hengine : s.hlu.engine ≠ .halted) (hslot : c.slot ∉ s.jt.badParity) (room : s.hlu.writeQueue.length < 64)
    (first : s.hlu.waiting = []) :
    handOutput k .onward s = lastHanded k c { s with hlu := hluAfterRecord s k c } := by
  rcases Nat.eq_zero_or_pos c.dstCursor with hzero | hpos
  · rw [handOutput_empty h hslot hzero, handedOff_last h hkind hlast hengine hslot, hluAfterRecord, if_pos hzero]
  · rw [handOutput_room h hslot hpos room first, handWrite_of_room hengine room first, hluAfterRecord, if_neg hpos.ne']
    exact handedOff_last (s := State.modSettle _ c.slot _) h hkind hlast hengine hslot

/-- Settles O29: but for the Host Link Unit the hand-off changes the job's counts and the unit's phase only. -/
theorem handOffWritesOneWholeRecord : Obligations.HandOffWritesOneWholeRecord := by
  intro k c s hctx hkind hlast hengine hslot room first x t
  have ht : t = lastHanded k c { s with hlu := hluAfterRecord s k c } :=
    handOutput_last hctx hkind hlast hengine hslot room first
  rw [ht]
  refine ⟨?job, fun j hj => ?jobs, ?unit, fun i hi => ?units, fun hzero => ?empty, fun hpos => ?write,
    rfl, rfl, rfl, rfl, rfl⟩
  case job => exact State.job_modJob_self ..
  case jobs => exact (State.job_modJob ..).trans (if_neg hj)
  case unit => exact State.fu_modFu_self ..
  case units => exact (State.fu_modFu ..).trans (if_neg hi)
  case empty => exact if_pos hzero
  case write =>
    have hlu : (lastHanded k c { s with hlu := hluAfterRecord s k c }).hlu = _ := if_neg hpos.ne'
    rw [State.settle, hlu]
    refine ⟨rfl, ?_⟩
    rw [modifyAt_get_self]
    exact ⟨rfl, rfl⟩

/-! ### The end of a record (R47 to R49) -/

section
variable {s : State} {k : FuNo} {c : Context}

/-- Staging bytes moves the destination cursor behind them (R34). -/
theorem stageBytes_eq (h : (s.fu k).ctx = some c) (bs : List Byte) :
    stageBytes k bs s =
      s.withUnit k { c with dstCursor := c.dstCursor + bs.length } (writeBytes (s.fu k).stgWindow c.dstCursor bs) := by
  unfold stageBytes
  rw [h]
  dsimp only
  rw [State.modCtx, State.modFu_modFu]
  exact State.modFu_congr (by simp [h])

@[simp] theorem State.fu_withUnit_self (s : State) (k : FuNo) (c : Context) (stg : Cells) :
    (s.withUnit k c stg).fu k = { s.fu k with ctx := some c, stgWindow := stg } := State.fu_modFu_self ..

/-- The fit check, and the batch or the hand-off (R48, R49). -/
theorem settleRecord_eq (h : (s.fu k).ctx = some c) :
    settleRecord k s =
      if remainingCapacity c (s.job c.slot) < c.dstCursor then releaseJob k .destFull .none none s
      else if c.batch.isEmpty then handOutput k .onward s
      else s.modCtx k fun c => { c with phase := .batchSubmitted } := by
  unfold settleRecord
  rw [h]

/-- At the boundary after the last directive the terminator is staged and the record is settled (R47, R149). -/
theorem directiveBoundary_ends_record (u : Upset) (h : (s.fu k).ctx = some c) (hphase : c.phase = .boundary)
    (hdone : c.image.directiveCount ≤ c.directiveIndex) (hengine : s.hlu.engine ≠ .halted)
    (hslot : c.slot ∉ (s.strike u).jt.badParity) (habort : (s.job c.slot).abortPending = false)
    (hdamage : (s.layout c.layout).damaged = false) (hin : c.dstCursor + c.image.terminator.length ≤ 4096) :
    exec (.directiveBoundary k u) s = .next (quiesce (settleRecord k (stageBytes k c.image.terminator (s.strike u)))) := by
  have hctx : ((s.strike u).fu k).ctx = some c := h
  have hhalted : (s.strike u).halted = false := State.halted_eq_false hengine
  have hwindow : ¬ Config.windowSize < c.dstCursor + c.image.terminator.length := Nat.not_lt.mpr hin
  change execDirectiveBoundary k u s = _
  unfold execDirectiveBoundary
  dsimp only
  rw [hctx]
  simp [hphase, hhalted, readSlots_good hslot, actAtBoundary, habort, hdamage, Nat.not_lt.mpr hdone, endOfRecord, hwindow]

end

/-- Settles O27: the record is settled with its terminator staged, and the three cases of R48 and R49 are the branches of
that. -/
theorem endOfRecordMeasuresAndSubmits : Obligations.EndOfRecordMeasuresAndSubmits := by
  intro k c u s hctx hphase hdone hengine hslot habort hdamage hin len ended window staged room
  have hstaged : stageBytes k c.image.terminator (s.strike u) = staged := stageBytes_eq (s := s.strike u) hctx _
  have hended : (staged.fu k).ctx = some ended := by rw [State.fu_withUnit_self]
  have run := directiveBoundary_ends_record u hctx hphase hdone hengine hslot habort hdamage hin
  have hroom : remainingCapacity ended (staged.job ended.slot) = room := rfl
  rw [hstaged, settleRecord_eq hended, hroom] at run
  refine ⟨fun hfull => ?full, fun hfits hbatch => ?batch, fun hfits hbatch => ?plain⟩
  case full =>
    rwa [if_pos hfull] at run
  case batch =>
    have hsome : ¬ ended.batch.isEmpty = true := by simpa [ended] using hbatch
    have submitted : staged.modCtx k (fun c => { c with phase := .batchSubmitted }) =
        (s.strike u).withUnit k { ended with phase := .batchSubmitted } window := by
      rw [State.modCtx_of_some hended]
      exact State.modFu_modFu ..
    rwa [if_neg (Nat.not_lt.mpr hfits), if_neg hsome, submitted] at run
  case plain =>
    have hnone : ended.batch.isEmpty = true := by simpa [ended] using hbatch
    rwa [if_neg (Nat.not_lt.mpr hfits), if_pos hnone] at run

/-! ### A batch is answered (R49, R103, R111) -/

/-- The unit takes the answer: the hand-off for an applied batch, the report first for a refused one (R49). -/
theorem batchAnswer_taken {s : State} {k : FuNo} {c : Context} {applied : Bool} (u : Upset) (h : (s.fu k).ctx = some c)
    (hphase : c.phase = .batchAnswered applied) :
    exec (.batchAnswer k u) s = .next (quiesce
      (if applied then handOutput k .onward (s.strike u) else totalRefused k c (s.strike u))) := by
  have hctx : ((s.strike u).fu k).ctx = some c := h
  change execBatchAnswer k u s = _
  unfold execBatchAnswer
  dsimp only
  rw [hctx]
  cases applied <;> simp [hphase]

/-- Settles O41: the report of a refused batch comes before the stop mask decides; a halted engine takes no report and no
release. -/
theorem batchAnswerWritesOrStops : Obligations.BatchAnswerWritesOrStops := by
  intro k c u s hctx s'
  have refused (h : c.phase = .batchAnswered false) :
      exec (.batchAnswer k u) s = .next (quiesce (totalRefused k c s')) := batchAnswer_taken u hctx h
  refine ⟨fun h => batchAnswer_taken u hctx h, fun h hengine hslot => ?refused, fun h hengine hmask => ?halted⟩
  case refused =>
    intro t
    have reported : reportFaults c [.total] c.image.directiveCount s' = t :=
      reportFaults_good (s := s') hengine hslot _ _ (by simp)
    rw [refused h, totalRefused, reported]
    exact ⟨fun hmask => by rw [if_pos hmask], fun hmask => by rw [hmask, if_neg Bool.false_ne_true]⟩
  case halted =>
    have hhalted : (stopUnit k s').hlu.engine = .halted := hengine
    have stopped : releaseJob k .fieldStop (.field .total) none s' = stopUnit k s' :=
      releaseJob_of_halted (s := s') hctx hengine ..
    rw [refused h, totalRefused, reportFaults_of_halted (s := s') hengine, if_pos hmask, stopped,
      quiesce_of_halted hhalted]
    rfl

/-! ### The record boundary (R29, R150, R157) -/

section
variable {s : State} {k : FuNo} {c : Context}

theorem recordBoundary_halted (h : (s.fu k).ctx = some c) (hengine : s.hlu.engine = .halted) :
    recordBoundary k s = stopUnit k s := by
  unfold recordBoundary
  rw [h]
  simp only [(State.halted_iff s).mpr hengine, if_true]

theorem mustSuspend_iff (s : State) (k : FuNo) :
    mustSuspend s k = true ↔ (s.fu k).suspendRequested = true ∨ s.hlu.engine = .pausing := by
  simp [mustSuspend]

/-- The unit gives up its job, which joins the ready order as SUSPENDED (R157). -/
theorem recordBoundary_suspends (h : (s.fu k).ctx = some c) (hengine : s.hlu.engine ≠ .halted)
    (hsuspend : mustSuspend s k = true) (hslot : c.slot ∉ s.jt.badParity) (habort : (s.job c.slot).abortPending = false) :
    recordBoundary k s = joinReady c.slot true ((s.modFu k Fu.toIdle).modJob c.slot fun x =>
      { x with state := .suspended, suspension := some c.recordIndex }) := by
  unfold recordBoundary
  rw [h]
  simp only [State.halted_eq_false hengine, hsuspend, if_true, Bool.false_eq_true, if_false]
  unfold suspendJob
  rw [h]
  simp only [readSlots_good hslot]
  rw [State.job_modJob_self]
  simp [habort]

/-- The unit asks for the next source record (R29). -/
theorem recordBoundary_reads_on (h : (s.fu k).ctx = some c) (hengine : s.hlu.engine ≠ .halted)
    (hsuspend : ¬ mustSuspend s k = true) :
    recordBoundary k s =
      askRead (.unit k) 0 (hostAddr c.req.srcAddr (c.recordIndex * c.image.srcLen)) c.image.srcLen 0
        (s.modFu k fun x => { x with ctx := some { c with phase := .readWait } }) := by
  unfold recordBoundary
  rw [h]
  simp only [State.halted_eq_false hengine, hsuspend, Bool.false_eq_true, if_false]
  unfold beginRecord
  rw [h]
  dsimp only
  rw [State.modCtx_of_some h]

end

/-- Settles O30: the three rows of R150. -/
theorem recordBoundarySuspendsOrReadsOn : Obligations.RecordBoundarySuspendsOrReadsOn := by
  intro k c s hctx t
  refine ⟨recordBoundary_halted hctx, fun hengine hsuspend hslot habort => ?suspends,
    fun hengine hrequest hpausing => ?reads⟩
  case suspends =>
    have ht : t = _ := recordBoundary_suspends hctx hengine ((mustSuspend_iff s k).mpr hsuspend) hslot habort
    rw [ht]
    refine ⟨?_, ?_, ?_, rfl⟩
    · exact State.fu_modFu_self ..
    · exact State.job_modJob_self ..
    · rw [joinReady, State.job_modJob_self]
      rfl
  case reads =>
    have hgoes : ¬ mustSuspend s k = true := by simp [mustSuspend_iff, hrequest, hpausing]
    have ht : t = _ := recordBoundary_reads_on hctx hengine hgoes
    rw [ht, askRead_of_not_halted (s := State.modFu ..) hengine]
    exact ⟨State.fu_modFu_self .., rfl, rfl, rfl⟩

end Sys2Proof.Machine
end

section
/-! Numeric fields read back (R58, R61, R64, R82, R84): decoding a PACKED or BINARY field after encoding it, and the range
outside which a BINARY destination raises SIZE. -/

namespace Sys2Proof.Machine

/-! ### Signs (R58) -/

/-- A value whose zero has sign plus is the one that its sign and magnitude form. -/
theorem Value.make_self {v : Value} (h : v.neg = true → v.mag ≠ 0) : Value.make v.neg v.mag = v := by
  obtain ⟨neg, mag⟩ := v
  cases neg with
  | false => rfl
  | true => simpa [make] using h rfl

theorem packedSign_of_neg {signed neg : Bool} (h : neg = true → signed = true) :
    packedSign signed (if signed then (if neg then 0xD else 0xC) else 0xF) = some neg := by
  cases signed with
  | true => cases neg <;> rfl
  | false =>
    have plus : neg = false := by simpa using h
    rw [plus]
    rfl

/-! ### Decimal digits -/

theorem decimalDigits_succ (n m : Nat) : decimalDigits (n + 1) m = decimalDigits n (m / 10) ++ [m % 10] := by
  have shift (i : Nat) : m / 10 ^ (i + 1) = m / 10 / 10 ^ i := by rw [Nat.pow_succ', Nat.div_div_eq_div_mul]
  simp [decimalDigits, List.range_succ_eq_map, List.map_reverse, Function.comp_def, shift]

theorem digitsValue_concat (ds : List Nat) (d : Nat) : digitsValue (ds ++ [d]) = 10 * digitsValue ds + d :=
  List.foldl_concat ..

theorem digitsValue_decimalDigits {n m : Nat} (h : m < 10 ^ n) : digitsValue (decimalDigits n m) = m := by
  induction n generalizing m with
  | zero =>
    have zero : m = 0 := by simpa using h
    rw [zero]
    rfl
  | succ n ih =>
    have quotient : m / 10 < 10 ^ n := by
      rw [Nat.pow_succ'] at h
      omega
    rw [decimalDigits_succ, digitsValue_concat, ih quotient, Nat.div_add_mod]

theorem le_nine_of_mem_decimalDigits {n m d : Nat} (h : d ∈ decimalDigits n m) : d ≤ 9 := by
  obtain ⟨i, _, rfl⟩ := List.mem_map.mp h
  omega

/-! ### PACKED fields (R61, R82) -/

@[simp] theorem nibbles_cons (b : Byte) (bs : List Byte) :
    nibbles (b :: bs) = b.toNat / 16 :: b.toNat % 16 :: nibbles bs := rfl

theorem nibbles_packNibbles {ns : List Nat} (heven : ns.length % 2 = 0) (h : ∀ d ∈ ns, d < 16) :
    nibbles (packNibbles ns) = ns := by
  induction ns using packNibbles.induct with
  | case1 hi lo rest ih =>
    obtain ⟨hhi, hlo, hrest⟩ : hi < 16 ∧ lo < 16 ∧ ∀ d ∈ rest, d < 16 := by simpa using h
    have even : rest.length % 2 = 0 := by
      simp only [List.length_cons] at heven
      omega
    have byte : (BitVec.ofNat 8 (16 * hi + lo)).toNat = 16 * hi + lo := by
      rw [BitVec.toNat_ofNat]
      omega
    have high : (16 * hi + lo) / 16 = hi := by omega
    have low : (16 * hi + lo) % 16 = lo := by omega
    rw [packNibbles, nibbles_cons, byte, high, low, ih even hrest]
  | case2 ns hshort =>
    match ns, hshort with
    | [], _ => rfl
    | [x], _ => simp at heven
    | x :: y :: rest, hshort => exact absurd rfl (hshort x y rest)

/-- The half-bytes of a PACKED destination are its digits and its sign (R82). -/
theorem nibbles_encodePacked (signed : Bool) {n : Nat} (hn : 1 ≤ n) (v : Value) :
    nibbles (encodePacked signed n v)
      = decimalDigits (2 * n - 1) v.mag ++ [if signed then (if v.neg then 0xD else 0xC) else 0xF] := by
  refine nibbles_packNibbles ?even fun d hd => ?halfByte
  case even =>
    rw [List.length_append, decimalDigits_length, List.length_singleton]
    omega
  case halfByte =>
    rcases List.mem_append.mp hd with hd | hd
    · have := le_nine_of_mem_decimalDigits hd
      omega
    · rw [List.mem_singleton.mp hd]
      split_ifs <;> decide

theorem decodePacked_encodePacked {signed : Bool} {n : Nat} {v : Value} (hn : 1 ≤ n)
    (hzero : v.neg = true → v.mag ≠ 0) (hsigned : v.neg = true → signed = true) (hmag : v.mag < 10 ^ (2 * n - 1)) :
    decodePacked signed (encodePacked signed n v) = .ok v := by
  have digits : (decimalDigits (2 * n - 1) v.mag).all (· ≤ 9) = true :=
    List.all_eq_true.mpr fun d hd => decide_eq_true (le_nine_of_mem_decimalDigits hd)
  have len : (decimalDigits (2 * n - 1) v.mag).length = 2 * n - 1 := decimalDigits_length ..
  unfold decodePacked
  dsimp only
  rw [encodePacked_length, nibbles_encodePacked signed hn, List.take_left' len, List.getD_append_right _ _ _ _ len.le, len,
    Nat.sub_self, List.getD_cons_zero, packedSign_of_neg hsigned, if_pos digits, digitsValue_decimalDigits hmag]
  exact congrArg _ (Value.make_self hzero)

/-! ### BINARY fields (R64, R84) -/

theorem leNat_leBytes {n m : Nat} (h : m < 2 ^ (8 * n)) : leNat (leBytes n m) = m := by
  induction n generalizing m with
  | zero =>
    have zero : m = 0 := by simpa using h
    rw [zero]
    rfl
  | succ n ih =>
    have quotient : m / 256 < 2 ^ (8 * n) := by
      rw [Nat.mul_succ, Nat.pow_add] at h
      omega
    rw [leBytes, leNat, ih quotient, BitVec.toNat_ofNat]
    omega

/-- The whole number of a binary field, two's complement where the value is negative (R84). -/
def Value.binaryRaw (n : Nat) (v : Value) : Nat := if v.neg then 2 ^ (8 * n) - v.mag else v.mag

/-- The bytes of a binary field in its byte order (R84). -/
def binaryField (big : Bool) (n raw : Nat) : List Byte := if big then (leBytes n raw).reverse else leBytes n raw

/-- A value lies in the range of a binary field: sign and magnitude form (R84). -/
def Value.InBinaryRange (signed : Bool) (n : Nat) (v : Value) : Prop :=
  if signed then (if v.neg then v.mag ≤ 2 ^ (8 * n - 1) else v.mag < 2 ^ (8 * n - 1)) else v.mag < 2 ^ (8 * n)

theorem encodeBinary_eq_some_iff {signed big : Bool} {n : Nat} {v : Value} {out : List Byte} :
    encodeBinary signed big n v = some out ↔ v.InBinaryRange signed n ∧ binaryField big n (v.binaryRaw n) = out := by
  unfold encodeBinary
  rw [Option.ite_none_right_eq_some, Option.some_inj]
  rfl

theorem encodeBinary_eq_none_iff {signed big : Bool} {n : Nat} {v : Value} :
    encodeBinary signed big n v = none ↔ ¬ v.InBinaryRange signed n := by
  simp [Option.eq_none_iff_forall_ne_some, encodeBinary_eq_some_iff]

/-- The range in terms of the whole number that the value stands for (R84). -/
theorem Value.inBinaryRange_iff {signed : Bool} {v : Value} (hsigned : v.neg = true → signed = true) (n : Nat) :
    v.InBinaryRange signed n ↔
      if signed then (-(2 ^ (8 * n - 1) : Int) ≤ v.toInt ∧ v.toInt < (2 ^ (8 * n - 1) : Int))
      else v.toInt < (2 ^ (8 * n) : Int) := by
  have half : ((2 ^ (8 * n - 1) : Nat) : Int) = 2 ^ (8 * n - 1) := by norm_cast
  have full : ((2 ^ (8 * n) : Nat) : Int) = 2 ^ (8 * n) := by norm_cast
  have positive : 0 < 2 ^ (8 * n - 1) := Nat.two_pow_pos _
  rw [← half, ← full]
  unfold InBinaryRange toInt
  cases signed with
  | true =>
    cases v.neg <;> simp only [if_true, Bool.false_eq_true, if_false] <;> omega
  | false =>
    have plus : v.neg = false := by simpa using hsigned
    simp only [plus, Bool.false_eq_true, if_false]
    omega

theorem two_pow_field {n : Nat} (hn : 1 ≤ n) : 2 ^ (8 * n) = 2 * 2 ^ (8 * n - 1) := by
  rw [← Nat.pow_succ']
  congr 1
  omega

/-- The field of a negative value lies in the upper half and gives the magnitude back (R64, R84). -/
theorem Value.InBinaryRange.raw_of_neg {n : Nat} {v : Value} (h : v.InBinaryRange true n) (hn : 1 ≤ n)
    (hneg : v.neg = true) (hmag : v.mag ≠ 0) :
    v.binaryRaw n < 2 ^ (8 * n) ∧ 2 ^ (8 * n - 1) ≤ v.binaryRaw n ∧ 2 ^ (8 * n) - v.binaryRaw n = v.mag := by
  have bound : v.mag ≤ 2 ^ (8 * n - 1) := by simpa [InBinaryRange, hneg] using h
  rw [binaryRaw, if_pos hneg, two_pow_field hn]
  omega

/-- The field of any other value is its magnitude, in the lower half where the field is signed (R64, R84). -/
theorem Value.InBinaryRange.mag_of_plus {signed : Bool} {n : Nat} {v : Value} (h : v.InBinaryRange signed n) (hn : 1 ≤ n)
    (hplus : v.neg = false) : v.mag < 2 ^ (8 * n) ∧ (signed = true → v.mag < 2 ^ (8 * n - 1)) := by
  cases signed with
  | true =>
    have bound : v.mag < 2 ^ (8 * n - 1) := by simpa [InBinaryRange, hplus] using h
    have field := two_pow_field hn
    exact ⟨by omega, fun _ => bound⟩
  | false => exact ⟨h, fun h => nomatch h⟩

theorem decodeBinary_binaryField {signed big : Bool} {n raw : Nat} (h : raw < 2 ^ (8 * n)) :
    decodeBinary signed big (binaryField big n raw) =
      if signed && 2 ^ (8 * n - 1) ≤ raw then Value.make true (2 ^ (8 * n) - raw) else Value.make false raw := by
  cases big <;> simp [decodeBinary, binaryField, beNat, leNat_leBytes h]

theorem decodeBinary_encodeBinary {signed big : Bool} {n : Nat} {v : Value} {out : List Byte} (hn : 1 ≤ n)
    (hzero : v.neg = true → v.mag ≠ 0) (hsigned : v.neg = true → signed = true)
    (h : encodeBinary signed big n v = some out) : decodeBinary signed big out = v := by
  obtain ⟨hrange, rfl⟩ := encodeBinary_eq_some_iff.mp h
  cases hneg : v.neg with
  | true =>
    rw [hsigned hneg] at hrange ⊢
    obtain ⟨hfits, hupper, hmag⟩ := hrange.raw_of_neg hn hneg (hzero hneg)
    rw [decodeBinary_binaryField hfits, if_pos (by simpa using hupper), hmag, ← hneg]
    exact Value.make_self hzero
  | false =>
    obtain ⟨hfits, hlower⟩ := hrange.mag_of_plus hn hneg
    have raw : v.binaryRaw n = v.mag := by simp [Value.binaryRaw, hneg]
    rw [raw, decodeBinary_binaryField hfits, if_neg (by simpa using hlower), ← hneg]
    exact Value.make_self hzero

/-- Settles O43: a packed field through its half-bytes, a binary field through the whole number in it. -/
theorem packedAndBinaryFieldsReadBack : Obligations.PackedAndBinaryFieldsReadBack := by
  intro signed big n v hn hneg
  have hzero (h : v.neg = true) := (hneg h).1
  have hsigned (h : v.neg = true) := (hneg h).2
  refine ⟨fun hmag => ⟨encodePacked_length .., decodePacked_encodePacked hn hzero hsigned hmag⟩,
    fun out h => ⟨encodeBinary_length h, decodeBinary_encodeBinary hn hzero hsigned h⟩, ?range⟩
  case range =>
    rw [encodeBinary_eq_none_iff, Value.inBinaryRange_iff hsigned]
    split
    · rw [not_and_or, not_le, not_lt]
    · exact not_lt

end Sys2Proof.Machine
end

section
/-! TRANSLATE and COMPARE on bytes (R96, R100). -/

namespace Sys2Proof.Machine

/-! ### TRANSLATE (R96) -/

section
variable (look : Lookup) (flag : Bool)

theorem translateBytes_cons_stop {b : Byte} (h : (look b).has .stop = true) (bs : List Byte) :
    translateBytes look flag (b :: bs) = (if flag then [(look b).target] else [], true) := by
  rw [translateBytes, if_pos h]

theorem translateBytes_cons_onward {b : Byte} (h : (look b).has .stop = false) (bs : List Byte) :
    translateBytes look flag (b :: bs) =
      ((look b).target :: (translateBytes look flag bs).1, (translateBytes look flag bs).2) := by
  rw [translateBytes, if_neg (by simp [h])]

/-- Without a STOP byte every byte is translated. -/
theorem translateBytes_of_no_stop {a : List Byte} (h : ∀ x ∈ a, (look x).has .stop = false) :
    translateBytes look flag a = (a.map fun x => (look x).target, false) := by
  induction a with
  | nil => rfl
  | cons b bs ih =>
    rw [translateBytes_cons_onward look flag (h b List.mem_cons_self), ih fun x hx => h x (List.mem_cons_of_mem _ hx)]
    rfl

/-- The first STOP byte ends the bytes translated. -/
theorem translateBytes_of_first_stop {a : List Byte} {m : Nat} {x : Byte} (hx : a[m]? = some x)
    (hstop : (look x).has .stop = true) (hfirst : ∀ i y, i < m → a[i]? = some y → (look y).has .stop = false) :
    translateBytes look flag a =
      ((a.take m).map (fun y => (look y).target) ++ (if flag then [(look x).target] else []), true) := by
  induction a generalizing m with
  | nil => simp at hx
  | cons b bs ih =>
    cases m with
    | zero =>
      obtain rfl : b = x := by simpa using hx
      rw [translateBytes_cons_stop look flag hstop]
      rfl
    | succ m =>
      have hb : (look b).has .stop = false := hfirst 0 b m.succ_pos rfl
      have hrest := ih (m := m) (by simpa using hx) fun i y hi hy => hfirst (i + 1) y (by omega) (by simpa using hy)
      rw [translateBytes_cons_onward look flag hb, hrest]
      rfl

end

/-! ### COMPARE (R100) -/

theorem comparedByte_eq (look : Lookup) (pad : Byte) (w : List Byte) (i : Nat) :
    comparedByte look pad w i = if h : i < w.length then (look w[i]).target else pad := by
  unfold comparedByte
  split
  · next b h =>
    obtain ⟨hi, rfl⟩ := List.getElem?_eq_some_iff.mp h
    rw [dif_pos hi]
  · next h => rw [dif_neg (by simpa using h)]

theorem compareChunk_eq_none_iff (look : Lookup) (pad : Byte) (a b : List Byte) (n : Nat) :
    compareChunk look pad a b n = none ↔ ∀ i, i < n → comparedByte look pad a i = comparedByte look pad b i := by
  simp [compareChunk]

/-- The offset answered is the first at which the compared bytes differ. -/
theorem compareChunk_eq_some_iff {look : Lookup} {pad : Byte} {a b : List Byte} {n i : Nat} {r : CompareResult} :
    compareChunk look pad a b n = some (i, r) ↔
      i < n ∧ (∀ m, m < i → comparedByte look pad a m = comparedByte look pad b m)
        ∧ comparedByte look pad a i ≠ comparedByte look pad b i
        ∧ r = if (comparedByte look pad a i).toNat < (comparedByte look pad b i).toNat then .less else .greater := by
  unfold compareChunk
  rw [Option.map_eq_some_iff]
  constructor
  · rintro ⟨m, hfind, hm⟩
    obtain ⟨rfl, rfl⟩ := Prod.mk.inj hm
    obtain ⟨hdiff, hn, hsame⟩ := List.find?_range_eq_some.mp hfind
    exact ⟨List.mem_range.mp hn, by simpa using hsame, by simpa using hdiff, rfl⟩
  · rintro ⟨hn, hsame, hdiff, rfl⟩
    exact ⟨i, List.find?_range_eq_some.mpr ⟨by simpa using hdiff, List.mem_range.mpr hn, by simpa using hsame⟩, rfl⟩

/-- Settles O53: induction over the bytes up to the first STOP byte, and the search for the first offset that differs. -/
theorem translateStopsAndCompareOrders : Obligations.TranslateStopsAndCompareOrders := by
  intro look flag pad a b n out
  refine ⟨translateBytes_of_no_stop look flag, fun m x => translateBytes_of_first_stop look flag, ?_⟩
  simp only [← comparedByte_eq]
  refine ⟨compareChunk_eq_none_iff .., fun i r h => ?_⟩
  obtain ⟨hn, hsame, hdiff, rfl⟩ := compareChunk_eq_some_iff.mp h
  have horder : (comparedByte look pad a i).toNat ≠ (comparedByte look pad b i).toNat :=
    fun e => hdiff (BitVec.eq_of_toNat_eq e)
  refine ⟨hn, hsame, hdiff, ?_⟩
  by_cases hless : (comparedByte look pad a i).toNat < (comparedByte look pad b i).toNat
  · simp [hless, hless.le]
  · have hgreater : (comparedByte look pad b i).toNat < (comparedByte look pad a i).toNat := by omega
    simp [hless, hgreater]

end Sys2Proof.Machine
end

section
/-! The image of a code table load (R90 to R92): refused, installed, or too late for a table that is held. -/

namespace Sys2Proof.Machine

theorem length_of_checkCodes {img : List Byte} {es : List CodeEntry} (h : checkCodes img = .ok es) : es.length = 256 := by
  unfold checkCodes at h
  dsimp only at h
  split at h
  · nomatch h
  · obtain rfl := Except.ok.inj h
    simp

theorem readDone_codesLoad {j : SlotNo} {rest : List SlotNo} {s : State} (hqueue : s.cts.queue = j :: rest)
    (hj : j ∉ s.jt.badParity) : readDone .codesLoad s = settleCodesLoad j s := by
  rw [readDone, codesImageRead, hqueue, withHead_cons hj]

section
variable {j : SlotNo} {s : State}

theorem settleCodesLoad_bad {d : Detail} {v : Nat} (h : checkCodes (readBytes s.cts.buffer 0 1024) = .error (d, v)) :
    settleCodesLoad j s = endCodesLoad j .badImage d (BitVec.ofNat 8 v) s := by
  simp only [settleCodesLoad, Config.codesImageBytes, h]

theorem settleCodesLoad_unheld {es : List CodeEntry} (h : checkCodes (readBytes s.cts.buffer 0 1024) = .ok es)
    (hcount : (s.table (s.job j).req.tableNo).refCount = 0) :
    settleCodesLoad j s = endCodesLoad j .success .none 0
      (s.modTable (s.job j).req.tableNo fun x => { x with ready := true, entries := es }) := by
  simp only [settleCodesLoad, Config.codesImageBytes, h, if_pos hcount]

theorem settleCodesLoad_held {es : List CodeEntry} (h : checkCodes (readBytes s.cts.buffer 0 1024) = .ok es)
    (hcount : (s.table (s.job j).req.tableNo).refCount ≠ 0) :
    settleCodesLoad j s = endCodesLoad j .codesBusy .none 0 s := by
  simp only [settleCodesLoad, Config.codesImageBytes, h, if_neg hcount]

/-- However the load ends, it ends from a state that differs from the one before in its own table at most. -/
theorem settleCodesLoad_ends (j : SlotNo) (s : State) :
    ∃ st d arg f, settleCodesLoad j s = endCodesLoad j st d arg (s.modTable (s.job j).req.tableNo f) := by
  have same : s.modTable (s.job j).req.tableNo id = s := by
    simp only [State.modTable, modifyAt_same _ _ id rfl]
  cases h : checkCodes (readBytes s.cts.buffer 0 1024) with
  | error f => exact ⟨_, _, _, id, by rw [settleCodesLoad_bad h, same]⟩
  | ok es =>
    by_cases hcount : (s.table (s.job j).req.tableNo).refCount = 0
    · exact ⟨_, _, _, _, settleCodesLoad_unheld h hcount⟩
    · exact ⟨_, _, _, id, by rw [settleCodesLoad_held h hcount, same]⟩

end

/-- Settles O52: every outcome ends the load, which releases the buffer, the head of the queue and the service job; the
outcomes differ in what they end from. -/
theorem codeTableImageIsInstalledOrRefused : Obligations.CodeTableImageIsInstalledOrRefused := by
  intro j rest s hqueue hj i x t
  have ht : t = settleCodesLoad j s := readDone_codesLoad hqueue hj
  obtain ⟨st, d, arg, f, hend⟩ := settleCodesLoad_ends j s
  have hcts := (congrArg State.cts (ht.trans hend)).trans (endCodesLoad_cts ..)
  refine ⟨?_, ?_, fun k hk => ?others, fun d v h => ?bad, fun es h =>
    ⟨length_of_checkCodes h, fun hcount => ?installed, fun hcount => ?busy⟩⟩
  · rw [hcts]
    exact congrArg List.tail hqueue
  · rw [hcts]
  case others =>
    rw [ht, hend, endCodesLoad_table, State.job_modTable, if_neg hk, State.table_modTable, if_neg hk]
  case bad =>
    obtain ⟨state, hjob⟩ := endCodesLoad_job j .badImage d (BitVec.ofNat 8 v) hj
    rw [ht, settleCodesLoad_bad h, endCodesLoad_table, if_pos rfl, hjob]
    exact ⟨rfl, rfl, rfl, rfl⟩
  case installed =>
    obtain ⟨state, hjob⟩ := endCodesLoad_job j .success .none 0
      (s := s.modTable i fun x => { x with ready := true, entries := es }) hj
    rw [ht, settleCodesLoad_unheld h hcount, endCodesLoad_table, State.job_modTable, if_pos rfl,
      State.table_modTable_self, hjob]
    exact ⟨rfl, rfl⟩
  case busy =>
    obtain ⟨state, hjob⟩ := endCodesLoad_job j .codesBusy .none 0 hj
    rw [ht, settleCodesLoad_held h hcount, endCodesLoad_table, if_pos rfl, hjob]
    exact ⟨rfl, rfl⟩

end Sys2Proof.Machine
end

section
/-! Releasing a job (R88, R102, R130, R136, R153, R156): what the end of another job's service, which a last layout release
can bring about, leaves of the unit and of the job, and the job released. -/

namespace Sys2Proof.Machine

/-! ### Taking a settle outcome (R136) -/

/-- Only the Job Table and the Queue Manager differ, and no slot but `j` in the Job Table. -/
structure PostingFrame (j : SlotNo) (s t : State) : Prop where
  hlu : t.hlu = s.hlu
  fus : t.fus = s.fus
  sch : t.sch = s.sch
  tu : t.tu = s.tu
  job : ∀ i, i ≠ j → t.job i = s.job i

theorem enterPosting_frame (j : SlotNo) (s : State) : PostingFrame j s (enterPosting j s) := by
  have hjob : ∀ i, i ≠ j → (s.modJob j fun y => { y with state := .posting }).job i = s.job i :=
    fun i hi => by rw [State.job_modJob, if_neg hi]
  unfold enterPosting
  dsimp only
  split <;> exact ⟨rfl, rfl, rfl, rfl, hjob⟩

theorem settleIfUnwritten_frame (j : SlotNo) (s : State) : PostingFrame j s (settleIfUnwritten j s) := by
  unfold settleIfUnwritten
  split
  · exact ⟨rfl, rfl, rfl, rfl, fun _ _ => rfl⟩
  · exact enterPosting_frame j s

theorem drainUnbound_frame (j : SlotNo) (s : State) : PostingFrame j s (drainUnbound j s) := by
  obtain ⟨hlu, fus, sch, tu, job⟩ :=
    settleIfUnwritten_frame j (s.modJob j fun x => { x with state := .draining, refs := .none })
  exact ⟨hlu, fus, sch, tu, fun i hi => by rw [drainUnbound, job i hi, State.job_modJob, if_neg hi]⟩

/-- While the part is not HALTED a job goes to POSTING just if it has handed no write (R136). -/
theorem settleIfUnwritten_state {s : State} (e : s.hlu.engine ≠ .halted) (j : SlotNo) :
    ((settleIfUnwritten j s).job j).state = if (s.settle j).handed then (s.job j).state else .posting := by
  unfold settleIfUnwritten
  rw [State.halted_eq_false e, Bool.or_false]
  split
  · rfl
  · rw [enterPosting_job]

/-! ### What another job's service end leaves (R132, R219) -/

/-- The idle unit `k` and the job `j` after a service of another job has ended: a parity error in that job's slot halts the
engine, which completes the hand-offs that wait for room and so can raise the counts of `j` if another unit holds it. -/
structure LeftAlone (k : FuNo) (j : SlotNo) (s t : State) : Prop where
  unit : t.fu k = s.fu k
  job : ∃ n m, t.job j = { s.job j with recordsDone := n, bytesWritten := m }
  counts : (s.jt.badParity = [] ∨ ∀ i y, (s.fu i).ctx = some y → y.slot ≠ j) → t.job j = s.job j
  sch : t.sch = s.sch
  tu : t.tu = s.tu
  calm : s.jt.badParity = [] → t.hlu = s.hlu ∧ t.fus = s.fus

theorem LeftAlone.refl (k : FuNo) (j : SlotNo) (s : State) : LeftAlone k j s s :=
  ⟨rfl, ⟨_, _, rfl⟩, fun _ => rfl, rfl, rfl, fun _ => ⟨rfl, rfl⟩⟩

/-- A change of the Layout Store before the service ends is none of the unit or the job. -/
theorem LeftAlone.of_store {k : FuNo} {j : SlotNo} {s t : State} {ls : Ls} (h : LeftAlone k j { s with ls := ls } t) :
    LeftAlone k j s t :=
  ⟨h.unit, h.job, h.counts, h.sch, h.tu, h.calm⟩

theorem Fu.onHalt_of_no_context {x : Fu} (h : x.ctx = none) : x.onHalt = x := by
  simp [Fu.onHalt, h]

theorem Fu.ctx_of_handing {x : Fu} {c : Context} (h : x.handing = some c) : x.ctx = some c := by
  obtain ⟨y, hy, hphase⟩ := Option.bind_eq_some_iff.mp h
  split at hphase <;> simp_all

section
variable {k : FuNo} {j : SlotNo}

/-- A parity error halts the part around an idle unit. -/
theorem fatalFault_leftAlone {s : State} (hidle : (s.fu k).ctx = none) (hbad : s.jt.badParity ≠ []) (f : FaultRecord) :
    LeftAlone k j s (fatalFault f s) := by
  unfold fatalFault
  split
  · refine ⟨?_, ⟨_, _, (enterHalted_job ..).trans (State.jobOnHalt_counts ..)⟩, fun h => ?_, rfl, rfl,
      fun h => absurd h hbad⟩
    · rw [enterHalted_fu]
      exact Fu.onHalt_of_no_context hidle
    · rw [enterHalted_job]
      exact State.jobOnHalt_keeps fun i c hc => h.resolve_left hbad i c (Fu.ctx_of_handing hc)
  · exact .refl k j s

theorem serviceEnd_leftAlone {s : State} {i : SlotNo} (hi : i ≠ j) (hidle : (s.fu k).ctx = none)
    (st : Status) (d : Detail) (arg version : Byte) : LeftAlone k j s (serviceEnd i st d arg version s) := by
  by_cases h : i ∈ s.jt.badParity
  · rw [serviceEnd_bad i st d arg version h]
    exact fatalFault_leftAlone hidle (List.ne_nil_of_mem h) _
  · rw [serviceEnd_good i st d arg version h]
    obtain ⟨hlu, fus, sch, tu, job⟩ := drainUnbound_frame i (s.modJob i fun x => x.endService st d arg version)
    have hjob : (drainUnbound i (s.modJob i fun x => x.endService st d arg version)).job j = s.job j := by
      rw [job j hi.symm, State.job_modJob, if_neg hi.symm]
    exact ⟨by rw [State.fu, fus]; rfl, ⟨_, _, hjob⟩, fun _ => hjob, sch, tu, fun _ => ⟨hlu, fus⟩⟩

theorem serviceSuccess_leftAlone {s : State} {who : Option SlotNo} (hwho : who ≠ some j) (hidle : (s.fu k).ctx = none)
    (version : Byte) : LeftAlone k j s (serviceSuccess who version s) := by
  cases who with
  | none => exact .refl k j s
  | some i => exact serviceEnd_leftAlone (fun e => hwho (congrArg some e)) hidle ..

/-! ### Releasing a layout reference (R20, R21) -/

theorem installImage_store (l : LayoutNo) (im : LayoutImage) (s : State) :
    ∃ ls, installImage l im s = { s with ls := ls } := by
  unfold installImage
  dsimp only
  split <;> exact ⟨_, rfl⟩

theorem lowerCount_service (l : LayoutNo) (s : State) : ((lowerCount l s).layout l).service = (s.layout l).service := by
  rw [lowerCount_layout_self]

theorem releaseLayout_leftAlone {s : State} {l : LayoutNo} (hservice : (s.layout l).service ≠ some j)
    (hidle : (s.fu k).ctx = none) : LeftAlone k j s (releaseLayout l s) := by
  have hlow : LeftAlone k j s (lowerCount l s) := .of_store (.refl k j _)
  rw [← lowerCount_service] at hservice
  rw [releaseLayout_eq]
  dsimp only
  split
  · exact hlow
  · split
    · next im _ _ =>
      obtain ⟨ls, e⟩ := installImage_store l im (lowerCount l s)
      rw [e]
      exact .of_store (serviceSuccess_leftAlone (s := { s with ls := ls }) hservice hidle _)
    · exact .of_store (serviceSuccess_leftAlone (s := emptyLayout l (lowerCount l s)) hservice hidle _)
    · exact hlow

@[simp] theorem serviceSuccess_cts (who : Option SlotNo) (version : Byte) (s : State) :
    (serviceSuccess who version s).cts = s.cts := by
  cases who with
  | none => rfl
  | some i => exact serviceEnd_cts ..

@[simp] theorem releaseLayout_cts (l : LayoutNo) (s : State) : (releaseLayout l s).cts = s.cts := by
  rw [releaseLayout_eq]
  dsimp only
  split
  · rfl
  · split
    · next im _ _ =>
      obtain ⟨ls, e⟩ := installImage_store l im (lowerCount l s)
      rw [serviceSuccess_cts, e]
      rfl
    · exact serviceSuccess_cts ..
    · rfl

/-- What a layout release leaves of the Layout Store depends on the store alone. -/
theorem releaseLayout_ls_congr {s t : State} (h : s.ls = t.ls) (l : LayoutNo) :
    (releaseLayout l s).ls = (releaseLayout l t).ls := by
  have hlow : (lowerCount l s).ls = (lowerCount l t).ls := by simp only [lowerCount, State.modLayout, h]
  have hinstall (im : LayoutImage) :
      (installImage l im (lowerCount l s)).ls = (installImage l im (lowerCount l t)).ls := by
    simp only [installImage, State.layout_congr hlow, hlow]
    split <;> simp [State.modLayout, hlow]
  have hempty : (emptyLayout l (lowerCount l s)).ls = (emptyLayout l (lowerCount l t)).ls := by
    simp [emptyLayout, State.layout_congr hlow, State.modLayout, hlow]
  rw [releaseLayout_eq, releaseLayout_eq]
  dsimp only
  rw [State.layout_congr hlow]
  split
  · exact hlow
  · split
    · rw [serviceSuccess_ls, serviceSuccess_ls, hinstall]
    · rw [serviceSuccess_ls, serviceSuccess_ls, hempty]
    · exact hlow

end

/-! ### Releasing what a job holds (R88, R136) -/

/-- The layout slot on which a job holds a reference. -/
def Job.heldLayout (x : Job) : Option LayoutNo :=
  if x.refs = .layout ∨ x.refs = .both then x.boundLayout.map Prod.fst else none

/-- The code table on which a job holds a reference. -/
def Job.heldTable (x : Job) : Option TableNo := if x.refs = .codes ∨ x.refs = .both then x.boundCodes else none

theorem Job.heldLayout_of_bound {x : Job} {l : LayoutNo} {v : Byte} (h : x.refs = .layout ∨ x.refs = .both)
    (hbound : x.boundLayout = some (l, v)) : x.heldLayout = some l := by
  rw [heldLayout, if_pos h, hbound]
  rfl

theorem Job.heldLayout_eq_none {x : Job} (h : ¬ (x.refs = .layout ∨ x.refs = .both) ∨ x.boundLayout = none) :
    x.heldLayout = none := by
  rcases h with h | h
  · rw [heldLayout, if_neg h]
  · rw [heldLayout, h, Option.map_none, ite_self]

theorem Job.heldTable_eq_some_iff {x : Job} {i : TableNo} :
    x.heldTable = some i ↔ (x.refs = .codes ∨ x.refs = .both) ∧ x.boundCodes = some i := by
  rw [heldTable, Option.ite_none_right_eq_some]

/-- Release the layout slot, if there is one. -/
def releaseHeldLayout (l : Option LayoutNo) (s : State) : State := l.elim s (releaseLayout · s)

@[simp] theorem releaseHeldLayout_cts (l : Option LayoutNo) (s : State) : (releaseHeldLayout l s).cts = s.cts := by
  cases l with
  | none => rfl
  | some l => exact releaseLayout_cts l s

theorem releaseHeldLayout_ls_congr {s t : State} (h : s.ls = t.ls) (l : Option LayoutNo) :
    (releaseHeldLayout l s).ls = (releaseHeldLayout l t).ls := by
  cases l with
  | none => exact h
  | some l => exact releaseLayout_ls_congr h l

/-- The layout slot is released first, then the code table. -/
theorem releaseRefs_eq (x : Job) (s : State) :
    releaseRefs x s =
      x.heldTable.elim (releaseHeldLayout x.heldLayout s) (releaseTable · (releaseHeldLayout x.heldLayout s)) := by
  unfold releaseRefs Job.heldLayout Job.heldTable releaseHeldLayout
  cases x.refs <;> cases x.boundLayout <;> cases x.boundCodes <;> rfl

/-- Releasing a code table changes the Code Table Store only. -/
theorem releaseRefs_ls (x : Job) (s : State) : (releaseRefs x s).ls = (releaseHeldLayout x.heldLayout s).ls := by
  rw [releaseRefs_eq]
  cases x.heldTable <;> rfl

theorem releaseRefs_table (x : Job) (s : State) (i : TableNo) :
    (releaseRefs x s).table i =
      if x.heldTable = some i then { s.table i with refCount := (s.table i).refCount - 1 } else s.table i := by
  have htable (i : TableNo) : (releaseHeldLayout x.heldLayout s).table i = s.table i := by
    rw [State.table, State.table, releaseHeldLayout_cts]
  rw [releaseRefs_eq]
  cases x.heldTable with
  | none => exact htable i
  | some n =>
    simp only [Option.elim, releaseTable, State.table_modTable, htable, Option.some.injEq]
    by_cases h : i = n
    · rw [if_pos h, if_pos h.symm, h]
    · rw [if_neg h, if_neg (Ne.symm h)]

theorem releaseRefs_loadQueue (x : Job) (s : State) : (releaseRefs x s).cts.queue = s.cts.queue := by
  rw [releaseRefs_eq]
  have hqueue : (releaseHeldLayout x.heldLayout s).cts.queue = s.cts.queue := by rw [releaseHeldLayout_cts]
  cases x.heldTable <;> exact hqueue

theorem releaseRefs_leftAlone {k : FuNo} {j : SlotNo} {s : State} (hservice : ∀ l, (s.layout l).service ≠ some j)
    (hidle : (s.fu k).ctx = none) (x : Job) : LeftAlone k j s (releaseRefs x s) := by
  have hlayout : LeftAlone k j s (releaseHeldLayout x.heldLayout s) := by
    cases x.heldLayout with
    | none => exact .refl k j s
    | some l => exact releaseLayout_leftAlone (hservice l) hidle
  rw [releaseRefs_eq]
  cases x.heldTable with
  | none => exact hlayout
  | some i => exact ⟨hlayout.unit, hlayout.job, hlayout.counts, hlayout.sch, hlayout.tu, hlayout.calm⟩

/-! ### The job released (R102, R130, R153, R156) -/

/-- The part after the unit `k` has given up its job, whose references are still to be released. -/
def givenUp (k : FuNo) (j : SlotNo) (st : Status) (d : Detail) (cmp : CompareEnd) (s : State) : State :=
  (s.modFu k Fu.toIdle).modJob j fun x => { x.release st d cmp with state := .draining, refs := .none }

section
variable {k : FuNo} {j : SlotNo} {st : Status} {d : Detail} {cmp : CompareEnd} {s : State}

theorem givenUp_fu_self : (givenUp k j st d cmp s).fu k = (s.fu k).toIdle := State.fu_modFu_self ..

theorem givenUp_fu_other {i : FuNo} (hi : i ≠ k) : (givenUp k j st d cmp s).fu i = s.fu i :=
  (State.fu_modFu ..).trans (if_neg hi)

theorem givenUp_job :
    (givenUp k j st d cmp s).job j = { (s.job j).release st d cmp with state := .draining, refs := .none } :=
  State.job_modJob_self ..

/-- No other unit holds the job once `k` has given it up, if none held it before. -/
theorem givenUp_unheld (h : ∀ i y, i ≠ k → (s.fu i).ctx = some y → y.slot ≠ j) (i : FuNo) (y : Context)
    (hy : ((givenUp k j st d cmp s).fu i).ctx = some y) : y.slot ≠ j := by
  by_cases hi : i = k
  · rw [hi, givenUp_fu_self] at hy
    nomatch hy
  · rw [givenUp_fu_other hi] at hy
    exact h i y hi hy

/-- The references are released without an effect on the unit and the job that held them. -/
theorem givenUp_leftAlone (hservice : ∀ l, (s.layout l).service ≠ some j) (x : Job) :
    LeftAlone k j (givenUp k j st d cmp s) (releaseRefs x (givenUp k j st d cmp s)) :=
  releaseRefs_leftAlone (s := givenUp k j st d cmp s) hservice (by rw [givenUp_fu_self]; rfl) x

end

section
variable {k : FuNo} {c : Context} {st : Status} {d : Detail} {cmp : CompareEnd} {s : State}

theorem releaseJob_eq (h : (s.fu k).ctx = some c) (e : s.hlu.engine ≠ .halted) (p : c.slot ∉ s.jt.badParity) :
    releaseJob k st d cmp s =
      settleIfUnwritten c.slot (releaseRefs (s.job c.slot) (givenUp k c.slot st d cmp s)) := by
  rw [releaseJob_good h e p]
  unfold enterDraining
  rw [State.modJob_modJob, State.job_modJob_self]
  rfl

theorem releaseJob_ls (h : (s.fu k).ctx = some c) (e : s.hlu.engine ≠ .halted) (p : c.slot ∉ s.jt.badParity) :
    (releaseJob k st d cmp s).ls = (releaseHeldLayout (s.job c.slot).heldLayout s).ls := by
  rw [releaseJob_eq h e p, settleIfUnwritten_ls, releaseRefs_ls]
  exact releaseHeldLayout_ls_congr (s := givenUp k c.slot st d cmp s) (t := s) rfl _

theorem releaseJob_table (h : (s.fu k).ctx = some c) (e : s.hlu.engine ≠ .halted) (p : c.slot ∉ s.jt.badParity)
    (i : TableNo) :
    (releaseJob k st d cmp s).table i = if (s.job c.slot).heldTable = some i
      then { s.table i with refCount := (s.table i).refCount - 1 } else s.table i := by
  rw [State.table, releaseJob_eq h e p, settleIfUnwritten_cts]
  exact releaseRefs_table (s.job c.slot) (givenUp k c.slot st d cmp s) i

theorem releaseJob_loadQueue (h : (s.fu k).ctx = some c) (e : s.hlu.engine ≠ .halted) (p : c.slot ∉ s.jt.badParity) :
    (releaseJob k st d cmp s).cts.queue = s.cts.queue := by
  rw [releaseJob_eq h e p, settleIfUnwritten_cts]
  exact releaseRefs_loadQueue (s.job c.slot) (givenUp k c.slot st d cmp s)

end

/-- Settles O28: the unit gives up its job, the references are released, which leaves the unit and the job alone, and the
settle outcome is asked for. -/
theorem releaseDecidesTheJobsStatus : Obligations.ReleaseDecidesTheJobsStatus := by
  intro k c st d cmp s hctx hengine hgood hservice x t y holdsLayout holdsCodes
  let r := releaseRefs x (givenUp k c.slot st d cmp s)
  have ht : t = settleIfUnwritten c.slot r := releaseJob_eq hctx hengine hgood
  have left : LeftAlone k c.slot (givenUp k c.slot st d cmp s) r := givenUp_leftAlone hservice x
  have frame : PostingFrame c.slot r t := ht ▸ settleIfUnwritten_frame c.slot r
  have hfu (i : FuNo) : t.fu i = r.fu i := by rw [State.fu, State.fu, frame.fus]
  obtain ⟨n, m, hleft⟩ := left.job
  obtain ⟨state, hy⟩ : ∃ state, y = { r.job c.slot with state := state } := by
    rw [show y = (settleIfUnwritten c.slot r).job c.slot from congrArg (State.job · c.slot) ht]
    exact settleIfUnwritten_job c.slot r
  have hjob : y = { x.release st d cmp with state := state, refs := .none, recordsDone := n, bytesWritten := m } := by
    rw [hy, hleft, givenUp_job]
  refine ⟨?unit, ?status, ?detail, ?refs, ?aborted, ?offset, ?result, fun hcause => ?counts, ?faults, ?anyFault, ?first,
    fun l v hholds hbound => ?layout, fun hnone => ?noLayout, fun i hholds hbound => ?table, fun i hnone => ?noTable,
    frame.tu.trans left.tu, releaseJob_loadQueue hctx hengine hgood, frame.sch.trans left.sch, fun hcalm => ?calm⟩
  case unit => rw [hfu, left.unit, givenUp_fu_self]; rfl
  case counts =>
    have hkept := left.counts (hcause.imp_right givenUp_unheld)
    rw [hy, hkept, givenUp_job]
    exact ⟨rfl, rfl⟩
  case layout => rw [releaseJob_ls hctx hengine hgood, Job.heldLayout_of_bound hholds hbound]; rfl
  case noLayout => rw [releaseJob_ls hctx hengine hgood, Job.heldLayout_eq_none hnone]; rfl
  case table =>
    exact (releaseJob_table hctx hengine hgood i).trans (if_pos (Job.heldTable_eq_some_iff.mpr ⟨hholds, hbound⟩))
  case noTable =>
    refine (releaseJob_table hctx hengine hgood i).trans (if_neg fun hheld => ?_)
    obtain ⟨hholds, hbound⟩ := Job.heldTable_eq_some_iff.mp hheld
    exact hnone.elim (· hholds) (· hbound)
  case calm =>
    obtain ⟨hlu, hfus⟩ := left.calm hcalm
    have hrunning : r.hlu.engine ≠ .halted := hlu ▸ hengine
    refine ⟨?_, frame.hlu.trans hlu, fun i hi => ?_⟩
    · have hstate : (r.job c.slot).state = .draining := by rw [hleft, givenUp_job]
      have hhanded : r.settle c.slot = s.settle c.slot := by rw [State.settle, hlu]; rfl
      have h := settleIfUnwritten_state hrunning c.slot
      rwa [hstate, hhanded, ← ht] at h
    · rw [hfu, State.fu, hfus]
      exact givenUp_fu_other hi
  all_goals simp only [hjob, Job.release, Job.decide]

end Sys2Proof.Machine
end

section
/-! Fault reports (R103 to R105): the set of fault kinds a slot keeps, the first-fault record after one report and after the
reports of one point, and the slot held for a take. -/

namespace Sys2Proof.Machine

/-! ### Sets of fault kinds (R222) -/

theorem FieldFault.bit_lt (f : FieldFault) : f.bit < 8 := by cases f <;> decide

theorem FieldFault.bit_inj {f g : FieldFault} : f.bit = g.bit ↔ f = g := by
  refine ⟨fun h => ?_, congrArg FieldFault.bit⟩
  revert h
  cases f <;> cases g <;> decide

@[simp] theorem faultSet_zero (f : FieldFault) : faultSet 0 f = false := BitVec.getLsbD_zero

theorem faultSet_addFault (mask : Byte) (f g : FieldFault) :
    faultSet (addFault mask f) g = (faultSet mask g || decide (f = g)) := by
  have hbit : (BitVec.ofNat 8 (2 ^ f.bit)).getLsbD g.bit = decide (f = g) := by
    rw [BitVec.getLsbD_ofNat, Nat.testBit_two_pow, decide_eq_true g.bit_lt, Bool.true_and]
    exact decide_eq_decide.mpr FieldFault.bit_inj
  rw [faultSet, addFault, BitVec.getLsbD_or, hbit, faultSet]

theorem faultSet_addFault_self (mask : Byte) (f : FieldFault) : faultSet (addFault mask f) f = true := by
  rw [faultSet_addFault, decide_eq_true rfl, Bool.or_true]

theorem faultSet_addFault_other (mask : Byte) {f g : FieldFault} (h : g ≠ f) :
    faultSet (addFault mask f) g = faultSet mask g := by
  rw [faultSet_addFault, decide_eq_false h.symm, Bool.or_false]

/-! ### Reports (R104, R105) -/

section
variable (x : Job) (f : FieldFault) (record directive : Nat)

/-- Only the flags and the first-fault record of the slot change. -/
theorem Job.report_frame :
    x.report f record directive = { x with
      faults := (x.report f record directive).faults
      anyFault := true
      first := (x.report f record directive).first } := rfl

@[simp] theorem Job.report_anyFault : (x.report f record directive).anyFault = true := rfl

theorem Job.report_first : (x.report f record directive).first = x.first.or (some ⟨record, directive, f⟩) := by
  unfold Job.report
  cases x.first <;> rfl

/-- The first-fault record after the reports of one point names the first of them in raise order, unless it was present
before (R103, R105). -/
theorem Job.reports_first (fs : List FieldFault) :
    (x.reports fs record directive).first = x.first.or (fs.head?.map (⟨record, directive, ·⟩)) := by
  induction fs generalizing x with
  | nil => exact Option.or_none.symm
  | cons f fs ih =>
    change ((x.report f record directive).reports fs record directive).first = _
    rw [ih, report_first, Option.or_assoc, Option.some_or]
    rfl

end

/-! ### The slot held for a take (R117) -/

@[simp] theorem holdSlot_job_self (j : SlotNo) (q : SqNo) (s : State) :
    (holdSlot j q s).job j = { state := .fetched, sq := q } := State.job_modJob_self ..

/-- Settles O44: the flags by the bits of the fault set, the first-fault record by the raise order, and both by the slot's
start values. -/
theorem faultReportsKeepTheFirstFault : Obligations.FaultReportsKeepTheFirstFault := by
  refine ⟨fun x f record directive => ⟨x.report_frame f record directive, faultSet_addFault_self x.faults f,
    fun g hg => faultSet_addFault_other x.faults hg, fun hnone => ?absent, fun hsome => ?present, ?any,
    fun hnone => ?truncFirst⟩, fun j q s => ?held⟩
  case absent => rw [Job.report_first, hnone, Option.none_or]
  case present =>
    obtain ⟨y, hy⟩ := Option.ne_none_iff_exists'.mp hsome
    rw [Job.report_first, hy, Option.some_or]
  case any => rw [Job.report_first, Option.isSome_or, Option.isSome_some, Bool.or_true, Job.report_anyFault]
  case truncFirst => rw [Job.reports_first, hnone, Option.none_or]; rfl
  case held =>
    rw [holdSlot_job_self]
    exact ⟨rfl, rfl, faultSet_zero⟩

end Sys2Proof.Machine
end

section
/-! Slots found and read together (R140), and PAUSE over the slots (R209). -/

namespace Sys2Proof.Machine

/-! ### Scans of the Job Table -/

section
variable (s : State) (p : SlotNo → Job → Bool)

theorem State.findSlot_isSome_iff : (s.findSlot p).isSome = true ↔ ∃ j, p j (s.job j) = true := by
  simp [State.findSlot]

theorem State.mem_slotsWhere (j : SlotNo) : j ∈ s.slotsWhere p ↔ p j (s.job j) = true := by
  simp [State.slotsWhere]

end

/-! ### A fatal fault by engine state (R218) -/

theorem State.live_of_ne {s : State} (hoff : s.hlu.engine ≠ .off) (hsetup : s.hlu.engine ≠ .setup)
    (hhalted : s.hlu.engine ≠ .halted) : s.live = true := by
  rw [State.live_iff]
  cases e : s.hlu.engine with
  | off => exact absurd e hoff
  | setup => exact absurd e hsetup
  | halted => exact absurd e hhalted
  | running | pausing | paused => simp

theorem fatalFault_of_live {s : State} (h : s.live = true) (f : FaultRecord) :
    fatalFault f s = enterHalted { s with hlu := { s.hlu with fault := f } } := if_pos h

theorem fatalFault_of_not_live {s : State} (h : s.live = false) (f : FaultRecord) : fatalFault f s = s := by
  rw [fatalFault, h]
  rfl

/-! ### Slots read together (R140) -/

section
variable {s : State} {js : List SlotNo} (f : State → State)

theorem withSlots_all_good (h : ∀ j ∈ js, j ∉ s.jt.badParity) : withSlots js f s = f s := by
  obtain ⟨-, hread⟩ | ⟨j, hj, hbad, -⟩ := readSlots_cases js s
  · rw [withSlots, hread]
  · exact absurd hbad (h j hj)

/-- One of the slots that fail is the fault; which of them is a free choice. -/
theorem withSlots_some_bad (h : ∃ j ∈ js, j ∈ s.jt.badParity) :
    ∃ j ∈ js, j ∈ s.jt.badParity
      ∧ ∃ m, withSlots js f s = fatalFault { code := .slotParity, slot := j } { s with choices := m } := by
  obtain ⟨hgood, -⟩ | ⟨j, hj, hbad, m, hread⟩ := readSlots_cases js s
  · obtain ⟨j, hj, hbad⟩ := h
    exact absurd hbad (hgood j hj)
  · exact ⟨j, hj, hbad, m, by rw [withSlots, hread]⟩

end

/-! ### PAUSE (R209) -/

theorem quiet_iff (s : State) : quiet s = true ↔ ∀ j, (s.job j).state ≠ .running ∧ (s.job j).state ≠ .draining := by
  rw [quiet, ← Option.not_isSome, Bool.not_eq_true', ← Bool.not_eq_true, State.findSlot_isSome_iff]
  simp [not_or]

section
variable {s : State}

theorem exec_pause_running (h : s.hlu.engine = .running) :
    exec .pause s = .next ((pausedRule (s.setEngine .pausing)).getD (s.setEngine .pausing)) :=
  congrArg Host.Outcome.next (if_neg (not_not_intro h))

theorem pausedRule_of_not_quiet (h : quiet s = false) : pausedRule s = none := by
  rw [pausedRule, h, Bool.and_false]
  rfl

theorem pausedRule_of_quiet (hengine : s.hlu.engine = .pausing) (h : quiet s = true) :
    pausedRule s = some (withSlots (s.slotsWhere fun _ x => x.state != .free) (·.setEngine .paused) s) := by
  rw [pausedRule, h, hengine]
  rfl

end

/-- Settles O5: by whether a slot is RUNNING or DRAINING, and then by whether every slot that the report reads is good. -/
theorem pauseReachesPausingOrPaused : Obligations.PauseReachesPausingOrPaused := by
  intro s hrunning
  have hread : ∀ j, j ∈ (s.setEngine .pausing).slotsWhere (fun _ x => x.state != .free) ↔ (s.job j).state ≠ .free :=
    fun j => (State.mem_slotsWhere ..).trans bne_iff_ne
  rw [exec_pause_running hrunning]
  refine ⟨fun ⟨j, hj⟩ => ?busy, fun hquiet => ?idle⟩
  case busy =>
    have hnot : quiet (s.setEngine .pausing) = false :=
      Bool.eq_false_iff.mpr fun h => hj.elim ((quiet_iff _).mp h j).1 ((quiet_iff _).mp h j).2
    rw [pausedRule_of_not_quiet hnot]
    rfl
  case idle =>
    rw [pausedRule_of_quiet (s := s.setEngine .pausing) rfl ((quiet_iff _).mpr hquiet), Option.getD_some]
    refine ⟨fun hgood => ?_, fun ⟨j, hheld, hbad⟩ => ?_⟩
    · rw [withSlots_all_good (s := s.setEngine .pausing) _ fun j hj => hgood j ((hread j).mp hj)]
      rfl
    · obtain ⟨i, -, -, m, hfault⟩ :=
        withSlots_some_bad (s := s.setEngine .pausing) (·.setEngine .paused) ⟨j, (hread j).mpr hheld, hbad⟩
      rw [hfault, fatalFault_of_live rfl]
      exact ⟨_, rfl, rfl, rfl⟩

end Sys2Proof.Machine
end

section
/-! Refused writes of a job (R215): which of two stays, and when settle tracking takes a report. -/

namespace Sys2Proof.Machine

/-! ### The earlier of two refused writes -/

theorem earlierWrite_iff (a b : Nat × Nat) : earlierWrite a b = true ↔ a.1 < b.1 ∨ a.1 = b.1 ∧ a.2 < b.2 := by
  simp [earlierWrite]

theorem Settle.recordRefused_of_none {t : Settle} (h : t.refused = none) (w : Nat × Nat) :
    t.recordRefused w = { t with refused := some w } := by
  rw [recordRefused, h]

theorem Settle.recordRefused_of_some {t : Settle} {v : Nat × Nat} (h : t.refused = some v) (w : Nat × Nat) :
    t.recordRefused w = { t with refused := if w.1 < v.1 ∨ w.1 = v.1 ∧ w.2 < v.2 then some w else some v } := by
  rw [recordRefused, h]
  simp only [earlierWrite_iff]

/-! ### A report whose owner names a job slot -/

section
variable {j : SlotNo} {s : State} (order record offset : Nat)

theorem jobWriteRefused_ignored (h : s.hlu.engine = .off ∨ s.hlu.engine = .setup ∨ (s.job j).state = .free) :
    jobWriteRefused j order record offset s = s := by
  unfold jobWriteRefused
  split
  case h_1 | h_2 => rfl
  case h_3 e | h_4 e | h_5 e | h_6 e => exact if_pos (by simpa [e] using h)

theorem jobWriteRefused_reads (hoff : s.hlu.engine ≠ .off) (hsetup : s.hlu.engine ≠ .setup)
    (hheld : (s.job j).state ≠ .free) :
    jobWriteRefused j order record offset s = withSlots [j]
      (fun s => if (s.job j).state = .fetched ∨ (s.job j).takeOrder ≠ order then s
        else s.modSettle j fun t => t.recordRefused (record, offset)) s := by
  unfold jobWriteRefused
  split
  case h_1 e => exact absurd e hoff
  case h_2 e => exact absurd e hsetup
  all_goals exact if_neg hheld

end

/-- Settles O24: a report is ignored, or reads the slot, whose parity and job then decide. -/
theorem refusedJobWritesAreKeptEarliest : Obligations.RefusedJobWritesAreKeptEarliest := by
  intro j order record offset u s
  have hreport : exec (.writeFaultReport (.job j order record offset) u) s
      = .next (jobWriteRefused j order record offset (s.strike u)) := rfl
  dsimp only
  rw [hreport]
  refine ⟨fun h => congrArg Host.Outcome.next (jobWriteRefused_ignored order record offset h),
    fun hoff hsetup hheld => ?_⟩
  rw [jobWriteRefused_reads (s := s.strike u) order record offset hoff hsetup hheld]
  refine ⟨fun hbad => ?bad, fun hgood => ?good⟩
  case bad =>
    rw [withSlots_bad hbad]
    by_cases hhalted : s.hlu.engine = .halted
    · rw [if_pos hhalted, fatalFault_of_not_live (by simp [State.live, hhalted])]
    · rw [if_neg hhalted, fatalFault_of_live (s := s.strike u) (State.live_of_ne hoff hsetup hhalted)]
      rfl
  case good =>
    rw [withSlots_good hgood]
    refine ⟨fun hother => congrArg Host.Outcome.next (if_pos hother), fun hstate horder => ?_⟩
    rw [if_neg (show ¬ (((s.strike u).job j).state = .fetched ∨ ((s.strike u).job j).takeOrder ≠ order) from
      not_or.mpr ⟨hstate, not_not_intro horder⟩)]
    refine congrArg (fun f => Host.Outcome.next ((s.strike u).modSettle j f)) (funext fun t => ?_)
    cases hrefused : t.refused with
    | none => exact Settle.recordRefused_of_none hrefused _
    | some v => exact Settle.recordRefused_of_some hrefused _

end Sys2Proof.Machine
end

section
/-! The take step (R117 to R123): the slot after steps 1 to 3, and the slot and its SQ's chain after the chain step. -/

namespace Sys2Proof.Machine

/-- An update that leaves the slot as it is changes nothing. -/
theorem State.modJob_same {s : State} {j : SlotNo} {f : Job → Job} (h : f (s.job j) = s.job j) : s.modJob j f = s :=
  congrArg (fun v => { s with jt := { s.jt with slots := v } }) (modifyAt_same _ _ _ h)

/-! ### Steps 1 to 3 (R118 to R120) -/

theorem tagTaken_iff (s : State) (j : SlotNo) (q : SqNo) (tag : BitVec 16) :
    tagTaken s j q tag = true ↔ ∃ k, k ≠ j ∧ (s.job k).state ≠ .free ∧ (s.job k).sq = q
      ∧ (s.job k).tagCarried = true ∧ (s.job k).req.tag = tag := by
  simp [tagTaken, State.findSlot_isSome_iff, and_assoc]

/-- A slot that takes a request; `dup` says that another job of the SQ carries its tag. -/
def Job.takeRequest (x : Job) (r : Request) (cls : QueueClass) (order : Nat) (dup : Bool) : Job :=
  { x with req := r, cls := cls, takeOrder := order, tagCarried := !dup }

/-- A slot after the tag check and the field checks of its request. -/
def Job.screen (x : Job) (r : Request) (dup : Bool) : Job :=
  if dup then x.decide .duplicateTag .none
  else
    match r.fieldFault with
    | some d => x.decide .badRequest d
    | none => x

/-- Steps 1 to 3 change the slot and count its take order, and nothing else. -/
theorem storeRequest_eq (j : SlotNo) (r : Request) (s : State) :
    storeRequest j r s = (({ s with jt := { s.jt with nextTake := s.jt.nextTake + 1 } }).modJob j fun x =>
        x.takeRequest r (s.sq (s.job j).sq).cls s.jt.nextTake (tagTaken s j (s.job j).sq r.tag)).modJob j fun x =>
      x.screen r (tagTaken s j (s.job j).sq r.tag) := by
  unfold storeRequest Job.screen
  dsimp only
  cases tagTaken s j (s.job j).sq r.tag with
  | true => rfl
  | false =>
    cases r.fieldFault with
    | some d => rfl
    | none => exact (State.modJob_same rfl).symm

section
variable (x : Job) (r : Request)

/-- The checks of a request decide a status at most. -/
theorem Job.screen_frame (dup : Bool) :
    x.screen r dup = { x with status := (x.screen r dup).status, detail := (x.screen r dup).detail } := by
  unfold screen
  split
  · rfl
  · split <;> rfl

@[simp] theorem Job.screen_req (dup : Bool) : (x.screen r dup).req = x.req := by rw [screen_frame]

@[simp] theorem Job.screen_cls (dup : Bool) : (x.screen r dup).cls = x.cls := by rw [screen_frame]

@[simp] theorem Job.screen_takeOrder (dup : Bool) : (x.screen r dup).takeOrder = x.takeOrder := by rw [screen_frame]

@[simp] theorem Job.screen_tagCarried (dup : Bool) : (x.screen r dup).tagCarried = x.tagCarried := by rw [screen_frame]

theorem Job.screen_badRequest {d : Detail} (h : r.fieldFault = some d) :
    x.screen r false = x.decide .badRequest d := by
  simp [screen, h]

theorem Job.screen_sound (h : r.fieldFault = none) : x.screen r false = x := by
  simp [screen, h]

end

/-! ### The chain step (R123) -/

/-- A slot after the chain step, by the state in which it finds the chain of its SQ. -/
def Job.joinChain (x : Job) : ChainState → Job
  | .none => x
  | .isOpen p => { x with pred := some p }
  | .brokenPending => if x.status.isNone then x.decide .chainBroken .none else x

/-- A chain after the job `j` is placed; `more` says that the request has CHAIN set. -/
def ChainState.placing (j : SlotNo) (more : Bool) : ChainState → ChainState
  | .none | .isOpen _ => if more then .isOpen j else .none
  | .brokenPending => if more then .brokenPending else .none

/-- The chain step changes the slot and the chain of its SQ, and nothing else. -/
theorem chainStep_eq (j : SlotNo) (s : State) :
    chainStep j s = (s.modJob j fun x => x.joinChain (s.chain (s.job j).sq)).setChain (s.job j).sq
      ((s.chain (s.job j).sq).placing j (s.job j).req.chain) := by
  unfold chainStep
  dsimp only
  split
  · next h => rw [h, State.modJob_same rfl]; rfl
  · next p h => rw [h]; rfl
  · next h =>
    rw [h]
    congr 1
    cases hstatus : (s.job j).status.isNone with
    | true => exact State.modJob_congr (by simp [Job.joinChain, hstatus])
    | false => exact (State.modJob_same (by simp [Job.joinChain, hstatus])).symm

section
variable (j : SlotNo) (s : State)

theorem chainStep_job_self : (chainStep j s).job j = (s.job j).joinChain (s.chain (s.job j).sq) := by
  rw [chainStep_eq, State.job_setChain, State.job_modJob_self]

theorem chainStep_job_other {k : SlotNo} (h : k ≠ j) : (chainStep j s).job k = s.job k := by
  rw [chainStep_eq, State.job_setChain, State.job_modJob, if_neg h]

theorem chainStep_chain_self :
    (chainStep j s).chain (s.job j).sq = (s.chain (s.job j).sq).placing j (s.job j).req.chain := by
  rw [chainStep_eq, State.chain_setChain_self]

theorem chainStep_chain_other {q : SqNo} (h : q ≠ (s.job j).sq) : (chainStep j s).chain q = s.chain q := by
  rw [chainStep_eq, State.chain_setChain, if_neg h, State.chain_modJob]

end

theorem leaveTake_of_pred {j : SlotNo} {s : State} {p : SlotNo} (h : (s.job j).pred = some p) :
    leaveTake j s = s.modJob j fun y => { y with state := .waitChain } :=
  if_pos (Option.isSome_of_eq_some h)

/-- Settles O45: steps 1 to 3 by whether the tag is taken and a field fails, the chain step by the state of the chain. -/
theorem takeStepDecidesAndPlacesTheJob : Obligations.TakeStepDecidesAndPlacesTheJob := by
  refine ⟨fun j r s hnone => ?store, fun j s => ?place⟩
  case store =>
    dsimp only
    rw [← tagTaken_iff, storeRequest_eq, State.job_modJob_self, State.job_modJob_self]
    refine ⟨Job.screen_req .., Job.screen_cls .., Job.screen_takeOrder .., rfl, fun htaken => ?taken,
      fun hfree => ?free, fun k hk => ?others, rfl, rfl⟩
    case taken =>
      rw [htaken]
      exact ⟨rfl, rfl, rfl⟩
    case free =>
      rw [Bool.not_eq_true] at hfree
      rw [hfree]
      refine ⟨Job.screen_tagCarried .., fun d hd => ?_, fun hd => ?_⟩
      · rw [Job.screen_badRequest _ _ hd]
        exact ⟨rfl, rfl⟩
      · rw [Job.screen_sound _ _ hd]
        exact hnone
    case others =>
      rw [State.job_modJob, if_neg hk, State.job_modJob, if_neg hk]
      rfl
  case place =>
    dsimp only
    rw [chainStep_chain_self, chainStep_job_self]
    refine ⟨fun h => ?_, fun p h => ?_, fun h => ?_, fun q => chainStep_chain_other j s, fun k => chainStep_job_other j s⟩
    · rw [h]
      exact ⟨rfl, rfl⟩
    · have hpred : ((chainStep j s).job j).pred = some p := by rw [chainStep_job_self, h]; rfl
      rw [h, leaveTake_of_pred hpred, State.job_modJob_self]
      exact ⟨rfl, rfl, rfl⟩
    · rw [h]
      exact ⟨rfl, fun hs => if_pos (by simp [hs]), fun hs => if_neg (by simp [hs])⟩

end Sys2Proof.Machine
end

section
/-! The ready order (R145): only the Scheduler's own moves touch it, and each of them keeps it sorted. -/

namespace Sys2Proof.Machine

/-! ### What leaves the Scheduler alone -/

@[simp] theorem askRead_sch (who part addr len place) (s : State) : (askRead who part addr len place s).sch = s.sch := by
  unfold askRead
  split <;> rfl

@[simp] theorem trackWrite_sch (owner serial) (s : State) : (trackWrite owner serial s).sch = s.sch := by
  unfold trackWrite
  split <;> rfl

@[simp] theorem handWrite_sch (w) (s : State) : (handWrite w s).sch = s.sch := by
  unfold handWrite
  split
  · rfl
  · exact trackWrite_sch ..

@[simp] theorem State.choose_sch (s : State) (n : Nat) : (s.choose n).2.sch = s.sch := by
  unfold State.choose
  split <;> rfl

@[simp] theorem admitWaiting_sch (s : State) : (admitWaiting s).2.sch = s.sch := by
  unfold admitWaiting
  dsimp only
  split <;> exact State.choose_sch ..

/-! ### Moves and resets -/

theorem ReadyOrdered.of_sch {s t : State} (p : ReadyOrdered s) (h : t.sch = s.sch) : ReadyOrdered t := by
  unfold ReadyOrdered
  rw [h]
  exact p

theorem readyOrdered_of_empty {s : State} (h : s.sch.ready = []) : ReadyOrdered s := by
  unfold ReadyOrdered
  rw [h]
  exact .nil

/-- The Scheduler's own move brings the proof that it keeps the order sorted, and every other move leaves the Scheduler
alone. -/
theorem Move.keeps_readyOrdered {s t : State} (m : Move s t) (p : ReadyOrdered s) : ReadyOrdered t := by
  cases m with
  | sch x h => exact h p
  | ask who part addr len place => exact p.of_sch (askRead_sch ..)
  | hand w => exact p.of_sch (handWrite_sch ..)
  | leave e rest ops h => exact p.of_sch (admitWaiting_sch _)
  | halt f => exact p.of_sch (enterHalted_sch _)
  | job | unit | sq | cq | chain | layout | table | group | settle | freeTag | protocol | engine | strike | drop | dropRest
    | setup | setupData | configure | posting | granted | takes | ls | cts | choice | issueRead | issuePart => exact p

/-- A reset empties the ready order (R162), and a write of the setup address leaves it alone. -/
theorem Replaces.keeps_readyOrdered {i : Instr} {s t : State} (r : Replaces i s t) (p : ReadyOrdered s) :
    ReadyOrdered t := by
  cases r with
  | reset | clear | powerOn => exact readyOrdered_of_empty rfl
  | registers => exact p

theorem exec_keeps_readyOrdered {i : Instr} {s t : State} (e : exec i s = .next t) (p : ReadyOrdered s) :
    ReadyOrdered t := by
  rcases exec_reaches e with moves | replaces
  · exact moves.keep (fun _ _ => Move.keeps_readyOrdered) p
  · exact replaces.keeps_readyOrdered p

/-- Settles O55: the command at the front is a chain of elementary moves or a reset, and each of them keeps the ready order
sorted. -/
theorem readyOrderStaysSorted : Obligations.ReadyOrderStaysSorted := by
  intro s t hstep p
  unfold step at hstep
  split at hstep
  · cases hstep
    exact p
  · exact exec_keeps_readyOrdered hstep (p.of_sch rfl)

end Sys2Proof.Machine
end

section
/-! A refused write of the Queue Manager or of setup (R161, R215, R218, R219): the halt leaves nothing to read or write, and
what it does to each unit and each job slot. -/

namespace Sys2Proof.Machine

/-! ### Nothing is left to read or write (R200, R219) -/

@[simp] theorem enterHalted_tag (s : State) (t : ReadTag) :
    (enterHalted s).tag t = (s.tag t).map fun f => { f with read := f.read.unwanted } := mapAll_get _ _ _

theorem enterHalted_quiet (s : State) : HaltQuiet (enterHalted s) where
  reads := rfl
  writes := rfl
  waiting := rfl
  tags t f hf := by
    rw [enterHalted_tag, Option.map_eq_some_iff] at hf
    obtain ⟨g, -, rfl⟩ := hf
    rfl
  timers q := by rw [enterHalted_cq]

/-! ### Units (R161) -/

section
variable {x : Fu} {c : Context}

/-- A unit that waits on a source or chunk read, on the pool reads of a directive or for room in the write queue. -/
def Phase.stopsAtHalt (p : Phase) : Prop := p = .readWait ∨ p = .directive ∨ ∃ n, p = .writeWait n

theorem Fu.onHalt_stops (h : x.ctx = some c) (hphase : c.phase.stopsAtHalt) : x.onHalt = x.toStopped := by
  unfold onHalt
  rw [h]
  obtain hphase | hphase | ⟨n, hphase⟩ := hphase <;> simp only [Option.map_some, hphase] <;> rfl

theorem Fu.onHalt_goes_on (h : x.ctx = some c) (hphase : ¬ c.phase.stopsAtHalt) : x.onHalt = x := by
  unfold onHalt
  rw [h, Option.map_some]
  split
  case h_1 e => exact absurd (.inl (Option.some.inj e)) hphase
  case h_2 e => exact absurd (.inr (.inl (Option.some.inj e))) hphase
  case h_3 n e => exact absurd (.inr (.inr ⟨n, Option.some.inj e⟩)) hphase
  case h_4 => rfl

theorem Fu.handing_eq_some_iff : x.handing = some c ↔ x.ctx = some c ∧ ∃ n, c.phase = .writeWait n := by
  unfold handing
  rw [Option.bind_eq_some_iff]
  constructor
  · rintro ⟨d, hd, hc⟩
    split at hc
    · next n hphase =>
      cases hc
      exact ⟨hd, n, hphase⟩
    all_goals cases hc
  · rintro ⟨h, n, hphase⟩
    exact ⟨c, h, by simp only [hphase]⟩

end

/-! ### Job slots (R28, R140) -/

/-- What a list of distinct places yields when one of them yields something and no other does. -/
theorem filterMap_eq_singleton {α β : Type} {f : α → Option β} {l : List α} {x : α} {y : β} (hnodup : l.Nodup)
    (hx : x ∈ l) (hy : f x = some y) (hothers : ∀ z, z ≠ x → f z = none) : l.filterMap f = [y] := by
  obtain ⟨before, after, rfl⟩ := List.append_of_mem hx
  obtain ⟨hafter, hbefore⟩ : x ∉ after ∧ x ∉ before := by
    rw [List.nodup_middle, List.nodup_cons, List.mem_append, not_or] at hnodup
    exact hnodup.1.symm
  have none_of (zs : List α) (h : x ∉ zs) : zs.filterMap f = [] :=
    List.filterMap_eq_nil_iff.mpr fun z hz => hothers z (ne_of_mem_of_not_mem hz h)
  rw [List.filterMap_append, List.filterMap_cons_some hy, none_of before hbefore, none_of after hafter, List.nil_append]

theorem State.fus_toList (s : State) : s.fus.toList = (List.finRange 4).map s.fu := by
  apply List.ext_getElem
  · simp
  · intro i h h'
    simp [State.fu]

/-- The slot of a job that one unit alone waits to hand takes that hand-off. -/
theorem State.jobOnHalt_one_handing {s : State} {k : FuNo} {c : Context} (h : (s.fu k).handing = some c)
    (hgood : c.slot ∉ s.jt.badParity) (halone : ∀ i d, i ≠ k → (s.fu i).handing = some d → d.slot ≠ c.slot) :
    s.jobOnHalt c.slot = (s.job c.slot).handedInHalt c.kind c.dstCursor := by
  unfold jobOnHalt
  rw [fus_toList, List.filterMap_map, List.filter_filterMap,
    filterMap_eq_singleton (x := k) (y := c) (List.nodup_finRange 4) (List.mem_finRange k)]
  · rfl
  · simp [h, hgood]
  · intro i hi
    rw [Function.comp_apply, Option.filter_eq_none_iff]
    intro d hd
    simp [halone i d hi hd]

/-- The counts that a hand-off completed in HALTED leaves, whichever way the free value stands (R27, R140). -/
theorem Job.handedInHalt_eq (x : Job) (k : ReqKind) (n : Nat) :
    x.handedInHalt k n =
      if Config.haltedCountsRise then
        { x with
          recordsDone := x.recordsDone + (if k = .format ∨ k = .parse then 1 else 0), bytesWritten := x.bytesWritten + n }
      else x := by
  unfold handedInHalt handed
  cases k <;> rfl

/-! ### The report -/

/-- Settles O23: a report of the four owners is a fatal fault, which halts a live engine and is ignored in the others. -/
theorem refusedQueueWritesHaltTheEngine : Obligations.RefusedQueueWritesHaltTheEngine := by
  intro c q u s live halts
  have hlive : live ↔ (s.strike u).live = true := (State.live_iff (s.strike u)).symm
  have halting (o : Owner) (r : FaultRecord)
      (hreport : exec (.writeFaultReport o u) s = .next (fatalFault r (s.strike u))) (h : live) : halts o r := by
    let struck : State := { s.strike u with hlu := { (s.strike u).hlu with fault := r } }
    refine ⟨enterHalted struck, ?_, rfl, rfl, enterHalted_quiet _, rfl, rfl, rfl, rfl, rfl, rfl, rfl, enterHalted_cq struck, rfl,
      rfl, rfl, fun k => ⟨fun x hx => ⟨fun hphase => ?stops, fun hread hdirective hwrite => ?goesOn,
        fun hphase hgood halone => ?handed⟩, fun hidle => ?idle, fun j hj => ?kept⟩⟩
    · rw [hreport, fatalFault_of_live (hlive.mp h)]
    case stops => exact (enterHalted_fu ..).trans (Fu.onHalt_stops (x := s.fu k) hx hphase)
    case goesOn =>
      refine (enterHalted_fu ..).trans (Fu.onHalt_goes_on (x := s.fu k) hx ?_)
      rintro (h | h | ⟨n, h⟩)
      exacts [hread h, hdirective h, hwrite n h]
    case handed =>
      rw [enterHalted_job, State.jobOnHalt_one_handing (s := struck) (Fu.handing_eq_some_iff.mpr ⟨hx, hphase⟩) hgood,
        Job.handedInHalt_eq]
      · rfl
      · intro i d hi hd
        obtain ⟨hctx, n, hwait⟩ := Fu.handing_eq_some_iff.mp hd
        exact halone i d n hi hctx hwait
    case idle => exact (enterHalted_fu ..).trans (Fu.onHalt_of_no_context (x := s.fu k) hidle)
    case kept =>
      rw [enterHalted_job]
      refine State.jobOnHalt_keeps (s := struck) fun i d hd => ?_
      obtain ⟨hctx, n, hwait⟩ := Fu.handing_eq_some_iff.mp hd
      exact hj i d n hctx hwait
  refine ⟨fun h => ⟨halting _ _ rfl h, halting _ _ rfl h, halting _ _ rfl h, halting _ _ rfl h⟩, fun h o ho => ?_, rfl⟩
  have ignored (r : FaultRecord) : fatalFault r (s.strike u) = s.strike u :=
    fatalFault_of_not_live (Bool.eq_false_iff.mpr (mt hlive.mpr h)) r
  fin_cases ho <;> exact congrArg Host.Outcome.next (ignored _)

end Sys2Proof.Machine
end

section
/-! The directive boundary (R31, R149): one equation per row of R149. -/

namespace Sys2Proof.Machine

section
variable {s : State} {k : FuNo} {c : Context}

/-! ### What a boundary reads before its rows (R140, R161) -/

section
variable (h : (s.fu k).ctx = some c) (hphase : c.phase = .boundary ∨ c.phase = .finalBoundary) (u : Upset)
include h hphase

/-- The phase is one that makes the event due. -/
theorem directiveBoundary_due : ((s.strike u).fu k).ctx = some c ∧ ¬ (c.phase ≠ .boundary ∧ c.phase ≠ .finalBoundary) :=
  ⟨h, fun hneither => hphase.elim hneither.1 hneither.2⟩

theorem directiveBoundary_halted (hengine : s.hlu.engine = .halted) :
    exec (.directiveBoundary k u) s = .next (stopUnit k (s.strike u)) := by
  obtain ⟨hctx, hdue⟩ := directiveBoundary_due h hphase u
  have hhalted : (s.strike u).halted = true := (State.halted_iff s).mpr hengine
  simp only [exec, execDirectiveBoundary, hctx, if_neg hdue, if_pos hhalted]

theorem directiveBoundary_bad (hengine : s.hlu.engine ≠ .halted) (hbad : c.slot ∈ (s.strike u).jt.badParity) :
    exec (.directiveBoundary k u) s =
      .next (stopUnit k (fatalFault { code := .slotParity, slot := c.slot } (s.strike u))) := by
  obtain ⟨hctx, hdue⟩ := directiveBoundary_due h hphase u
  have hhalted : ¬ (s.strike u).halted = true := mt (State.halted_iff s).mp hengine
  simp only [exec, execDirectiveBoundary, hctx, if_neg hdue, if_neg hhalted, readSlots_bad hbad]

theorem directiveBoundary_good (hengine : s.hlu.engine ≠ .halted) (hgood : c.slot ∉ (s.strike u).jt.badParity) :
    exec (.directiveBoundary k u) s = actAtBoundary k c (s.strike u) := by
  obtain ⟨hctx, hdue⟩ := directiveBoundary_due h hphase u
  have hhalted : ¬ (s.strike u).halted = true := mt (State.halted_iff s).mp hengine
  simp only [exec, execDirectiveBoundary, hctx, if_neg hdue, if_neg hhalted, readSlots_good hgood]

end

/-! ### The rows (R149) -/

theorem actAtBoundary_aborts (h : (s.job c.slot).abortPending = true) :
    actAtBoundary k c s = .next (quiesce (releaseJob k .aborted .none none s)) := if_pos h

theorem actAtBoundary_damaged (habort : (s.job c.slot).abortPending = false) (h : (s.layout c.layout).damaged = true) :
    actAtBoundary k c s = .next (quiesce (releaseJob k .engineFault .damaged none s)) := by
  simp only [actAtBoundary, habort, h, Bool.false_eq_true, if_false, if_true]

theorem actAtBoundary_final (habort : (s.job c.slot).abortPending = false) (hdamage : (s.layout c.layout).damaged = false)
    (h : c.phase = .finalBoundary) :
    actAtBoundary k c s = .next (quiesce (releaseJob k .success .none none s)) := by
  simp only [actAtBoundary, habort, hdamage, h, Bool.false_eq_true, if_false, if_true]

theorem actAtBoundary_goes_on (hctx : (s.fu k).ctx = some c) (habort : (s.job c.slot).abortPending = false)
    (hdamage : (s.layout c.layout).damaged = false) (hphase : c.phase = .boundary)
    (h : c.directiveIndex < c.image.directiveCount) :
    actAtBoundary k c s = .next (s.withUnit k { c with phase := .directive } (s.fu k).stgWindow) := by
  have hnext : s.modCtx k (fun c => { c with phase := .directive }) =
      s.withUnit k { c with phase := .directive } (s.fu k).stgWindow := by
    rw [State.modCtx_of_some hctx]
    exact State.modFu_congr rfl
  simp only [actAtBoundary, habort, hdamage, hphase, h, hnext, Bool.false_eq_true, reduceCtorEq, if_false, if_true]

end

/-- Settles O26: a halted engine first, the parity of the job's slot next, and then the rows of R149 in their order. -/
theorem directiveBoundaryAppliesFirstRow : Obligations.DirectiveBoundaryAppliesFirstRow := by
  intro k c u s hctx hphase s' stopped
  refine ⟨directiveBoundary_halted hctx hphase u, fun hlive hbad => ?bad, fun hengine hgood => ?rows⟩
  case bad =>
    have hengine : s.hlu.engine ≠ .halted := by rcases hlive with h | h | h <;> simp [h]
    rw [directiveBoundary_bad hctx hphase u hengine hbad,
      fatalFault_of_live (s := s.strike u) ((State.live_iff s).mpr hlive)]
    rfl
  case rows =>
    rw [directiveBoundary_good hctx hphase u hengine hgood]
    exact ⟨actAtBoundary_aborts (s := s'), fun habort => ⟨actAtBoundary_damaged (s := s') habort, fun hdamage =>
      ⟨actAtBoundary_final (s := s') habort hdamage, actAtBoundary_goes_on (s := s') hctx habort hdamage⟩⟩⟩

end Sys2Proof.Machine
end

section
/-! Dispatch (R147, R148): when it takes place, and the unit it starts. -/

namespace Sys2Proof.Machine

/-! ### The lowest-numbered IDLE unit -/

theorem idleUnit_eq_find (s : State) : idleUnit s = Fin.find? fun k => (s.fu k).state == .idle := by
  rw [idleUnit, State.unitsWhere, List.head?_filter, Fin.find?_eq_find?_finRange]

theorem idleUnit_eq_some_iff {s : State} {k : FuNo} :
    idleUnit s = some k ↔ (s.fu k).state = .idle ∧ ∀ i, i < k → (s.fu i).state ≠ .idle := by
  simp [idleUnit_eq_find]

theorem idleUnit_ne_none_iff {s : State} : idleUnit s ≠ none ↔ ∃ k, (s.fu k).state = .idle := by
  simp [idleUnit_eq_find]

/-! ### When a dispatch takes place (R147) -/

theorem dispatchRule_ne_none_iff (s : State) :
    dispatchRule s ≠ none ↔ s.hlu.engine = .running ∧ (∃ k, (s.fu k).state = .idle) ∧ s.sch.ready ≠ [] := by
  rw [← idleUnit_ne_none_iff]
  unfold dispatchRule
  split
  case h_1 hengine hunit hready => simp [hengine, hunit, hready]
  case h_2 hnone =>
    simp only [ne_eq, not_true_eq_false, false_iff, not_and]
    intro hengine hunit hready
    obtain ⟨k, hk⟩ := Option.ne_none_iff_exists'.mp hunit
    obtain ⟨e, rest, he⟩ := List.exists_cons_of_ne_nil hready
    exact hnone k e rest hengine hk he

theorem dispatchRule_eq_some {s : State} {k : FuNo} {e : ReadyEntry} {rest : List ReadyEntry}
    (hengine : s.hlu.engine = .running) (hunit : idleUnit s = some k) (hready : s.sch.ready = e :: rest) :
    dispatchRule s = some (dispatchTo k e s) := by
  unfold dispatchRule
  rw [hengine, hunit, hready]

/-! ### The job that the unit begins (R148) -/

/-- The part once the head of the ready order has been given to the unit `k`, before the unit begins the job. -/
def dispatched (k : FuNo) (j : SlotNo) (rest : List ReadyEntry) (s : State) : State :=
  (({ s with sch := { ready := rest, nextStamp := s.sch.nextStamp + 1 } }).modJob j fun x =>
      { x with state := .running, suspension := none }).modFu k fun x =>
    { x with state := .busy, ctx := some (startContext s j), suspendRequested := false }

theorem dispatchTo_eq {s : State} {k : FuNo} {e : ReadyEntry} {rest : List ReadyEntry} (hready : s.sch.ready = e :: rest)
    (hgood : e.slot ∉ s.jt.badParity) : dispatchTo k e s = beginJob k (dispatched k e.slot rest s) := by
  rw [dispatchTo, withSlots_good hgood, hready]
  rfl

/-- The context that a FORMAT or PARSE begins with: its record is the one held in the suspension, or record 0. -/
theorem startContext_record {s : State} {j : SlotNo} (h : (s.job j).req.kind = some .format ∨ (s.job j).req.kind = some .parse) :
    some (startContext s j).kind = (s.job j).req.kind
      ∧ ((startContext s j).kind = .format ∨ (startContext s j).kind = .parse)
      ∧ (startContext s j).recordIndex = (s.job j).suspension.getD 0
      ∧ (startContext s j).image = (s.layout (startContext s j).layout).image := by
  rcases h with h | h <;> simp [startContext, h, ReqKind.recordCycle]

section
variable {s : State} {k : FuNo} {c : Context}

/-- A FORMAT or PARSE whose layout is undamaged asks for the source record that its context names (R29, R148). -/
theorem beginJob_record (h : (s.fu k).ctx = some c) (hkind : c.kind = .format ∨ c.kind = .parse)
    (hdamage : (s.layout c.layout).damaged = false) (hengine : s.hlu.engine ≠ .halted) :
    beginJob k s =
      let t := s.modFu k fun x => { x with ctx := some { c with phase := .readWait } }
      let asked := linkReads (.unit k) 0 (hostAddr c.req.srcAddr (c.recordIndex * c.image.srcLen)) c.image.srcLen 0
      { t with hlu := { t.hlu with readQueue := t.hlu.readQueue ++ asked } } := by
  have begins : beginJob k s = beginRecord k s := by
    unfold beginJob
    rw [h]
    simp only [recordCycle_of_kind hkind, hdamage, Bool.false_eq_true, if_true, if_false]
  rw [begins]
  unfold beginRecord
  rw [h]
  dsimp only
  rw [State.modCtx_of_some h, askRead_of_not_halted (s := State.modFu ..) hengine]

end

/-- Settles O49: the rule's three conditions, and of the dispatch itself what it writes before the unit begins and the read
that the unit begins with. -/
theorem dispatchGivesHeadToLowestIdleUnit : Obligations.DispatchGivesHeadToLowestIdleUnit := by
  intro s
  refine ⟨dispatchRule_ne_none_iff s, ?_⟩
  intro k e rest hengine hready hidle hlowest hgood x l at0 hkind hdamage
  let c := startContext s e.slot
  obtain ⟨hsame, hcycle, hrecord, himage⟩ :
      some c.kind = x.req.kind ∧ (c.kind = .format ∨ c.kind = .parse) ∧ c.recordIndex = at0 ∧ c.image = (s.layout l).image :=
    startContext_record hkind
  have hctx : ((dispatched k e.slot rest s).fu k).ctx = some c := congrArg Fu.ctx (State.fu_modFu_self ..)
  have hlayout : ((dispatched k e.slot rest s).layout c.layout).damaged = false := hdamage
  have hrunning : (dispatched k e.slot rest s).hlu.engine ≠ .halted := by
    rw [show (dispatched k e.slot rest s).hlu.engine = .running from hengine]
    decide
  have begins := beginJob_record hctx hcycle hlayout hrunning
  refine ⟨_, c, (dispatchRule_eq_some hengine (idleUnit_eq_some_iff.mpr ⟨hidle, hlowest⟩) hready).trans
    (congrArg some ((dispatchTo_eq hready hgood).trans begins)), rfl, ?job, ?unit, rfl, hsame, rfl, hrecord, himage, rfl,
    rfl, rfl, ?queue, fun i hi => ?others⟩
  case job => exact State.job_modJob_self ..
  case unit =>
    refine (State.fu_modFu_self ..).trans ?_
    rw [dispatched, State.fu_modFu_self]
    rfl
  case queue =>
    rw [← hrecord, ← himage]
    rfl
  case others => exact (State.fu_modFu ..).trans ((if_neg hi).trans ((State.fu_modFu ..).trans (if_neg hi)))

end Sys2Proof.Machine
end

section
/-! Record batches (R163, R165, R166): what a group holds after a batch, when a batch is applied, and the command. -/

namespace Sys2Proof.Machine

section
variable {g : Vector Accumulator 16} {b : List (AccNo × Int)} {a : AccNo} {v : Int}

/-! ### A group after a batch (R163, R165) -/

theorem applyBatch_cons (g : Vector Accumulator 16) (p : AccNo × Int) (b : List (AccNo × Int)) :
    applyBatch g (p :: b) = applyBatch (modifyAt g p.1 fun x => x.add p.2) b := rfl

theorem applyBatch_get_of_not_mem (h : a ∉ b.map Prod.fst) : (applyBatch g b)[a] = g[a] := by
  induction b generalizing g with
  | nil => rfl
  | cons p b ih =>
    obtain ⟨hne, hrest⟩ : a ≠ p.1 ∧ a ∉ b.map Prod.fst := by simpa only [List.map_cons, List.mem_cons, not_or] using h
    rw [applyBatch_cons, ih hrest, modifyAt_get, if_neg hne]

theorem applyBatch_get_of_mem (hb : (b.map Prod.fst).Nodup) (h : (a, v) ∈ b) : (applyBatch g b)[a] = g[a].add v := by
  induction b generalizing g with
  | nil => cases h
  | cons p b ih =>
    obtain ⟨hfresh, hrest⟩ : p.1 ∉ b.map Prod.fst ∧ (b.map Prod.fst).Nodup := List.nodup_cons.mp hb
    rw [applyBatch_cons]
    rcases List.mem_cons.mp h with rfl | hlater
    · rw [applyBatch_get_of_not_mem hfresh, modifyAt_get_self]
    · have hne : a ≠ p.1 := by
        rintro rfl
        exact hfresh (List.mem_map.mpr ⟨_, hlater, rfl⟩)
      rw [ih hrest hlater, modifyAt_get, if_neg hne]

/-! ### Whether a batch is applied (R165) -/

theorem sumFits_iff {v : Int} : sumFits v = true ↔ v.natAbs ≤ 10 ^ 31 - 1 := decide_eq_true_iff

theorem sumFits_all_iff : (b.all fun p => sumFits (pairSum g p)) = true
    ↔ ∀ p ∈ b, (g[p.1].value + p.2).natAbs ≤ 10 ^ 31 - 1 := by
  simp only [List.all_eq_true, sumFits_iff, pairSum]

theorem takeBatch_of_fits (h : ∀ p ∈ b, (g[p.1].value + p.2).natAbs ≤ 10 ^ 31 - 1) :
    takeBatch g b = (applyBatch g b, true) := if_pos (sumFits_all_iff.mpr h)

theorem takeBatch_of_not_fits (h : ¬ ∀ p ∈ b, (g[p.1].value + p.2).natAbs ≤ 10 ^ 31 - 1) :
    takeBatch g b = (g, false) := if_neg (mt sumFits_all_iff.mp h)

end

/-! ### The command (R165, R166) -/

/-- The Totals Unit takes a submitted batch whole and answers the unit (R166). -/
theorem recordBatch_taken {s : State} {k : FuNo} {c : Context} {g : GroupNo} (hctx : (s.fu k).ctx = some c)
    (hphase : c.phase = .batchSubmitted) (hgroup : c.req.group? = some g) :
    exec (.recordBatch k) s = .next ((s.setGroup g (takeBatch (s.group g) c.batch).1).modFu k fun x =>
      { x with ctx := some { c with phase := .batchAnswered (takeBatch (s.group g) c.batch).2 } }) := by
  rw [← State.modCtx_of_some (s := s.setGroup ..) hctx fun c => { c with phase := .batchAnswered _ }]
  change execRecordBatch k s = _
  unfold execRecordBatch
  simp only [hctx, hphase, hgroup]

/-- Settles O40: whether every sum fits decides between the applied batch and the group as it stood. -/
theorem recordBatchAppliesWholeOrNot : Obligations.RecordBatchAppliesWholeOrNot := by
  intro k c g s hctx hphase hgroup hdistinct fits
  refine ⟨_, recordBatch_taken hctx hphase hgroup, fun hfits => ?applied, fun hfits => ?refused, fun h hne => ?groups,
    fun i hne => ?units, rfl, rfl, rfl, rfl, rfl, rfl⟩
  case applied =>
    rw [takeBatch_of_fits hfits, State.group_modFu, State.group_setGroup_self]
    exact ⟨fun a v hpair => applyBatch_get_of_mem hdistinct hpair, fun a hunnamed => applyBatch_get_of_not_mem hunnamed,
      State.fu_modFu_self ..⟩
  case refused =>
    rw [takeBatch_of_not_fits hfits, State.group_modFu, State.group_setGroup_self]
    exact ⟨rfl, State.fu_modFu_self ..⟩
  case groups => rw [State.group_modFu, State.group_setGroup, if_neg hne]
  case units => rw [State.fu_modFu, if_neg hne, State.fu_setGroup]

end Sys2Proof.Machine
end

section
/-! The HALTED engine (R200, R213, R219, R221): every elementary move and every reset keeps it quiet and keeps every link
read in flight behind the number of the next issue, and with them every step. -/

namespace Sys2Proof.Machine

/-! ### What leaves the engine and the link reads in flight alone -/

/-- Two states with the same engine state, the same link reads in flight and the same number of issues. -/
structure FlightFrame (s t : State) : Prop where
  engine : t.hlu.engine = s.hlu.engine
  tags : t.hlu.tags = s.hlu.tags
  readStamp : t.readStamp = s.readStamp

theorem askRead_flightFrame (who part addr len place) (s : State) : FlightFrame s (askRead who part addr len place s) := by
  unfold askRead
  split <;> exact ⟨rfl, rfl, rfl⟩

theorem trackWrite_flightFrame (owner serial) (s : State) : FlightFrame s (trackWrite owner serial s) := by
  unfold trackWrite
  split <;> exact ⟨rfl, rfl, rfl⟩

theorem handWrite_flightFrame (w) (s : State) : FlightFrame s (handWrite w s) := by
  unfold handWrite
  split
  · exact ⟨rfl, rfl, rfl⟩
  · obtain ⟨engine, tags, readStamp⟩ := trackWrite_flightFrame w.owner s.hlu.writeSerial _
    refine ⟨engine.trans ?_, tags.trans ?_, readStamp⟩ <;> (dsimp only; split <;> rfl)

theorem State.choose_flightFrame (s : State) (n : Nat) : FlightFrame s (s.choose n).2 := by
  unfold State.choose
  split <;> exact ⟨rfl, rfl, rfl⟩

theorem admitWaiting_flightFrame (s : State) : FlightFrame s (admitWaiting s).2 := by
  have chosen (n : Nat) := s.choose_flightFrame n
  unfold admitWaiting
  dsimp only
  split
  · exact ⟨(chosen _).engine, (chosen _).tags, (chosen _).readStamp⟩
  · exact chosen _

/-- The head of the write queue leaves it, and a waiting write may join. -/
theorem admitAfterLeave_flightFrame (s : State) (rest ops) :
    FlightFrame s (admitWaiting { s with hlu := { s.hlu with writeQueue := rest, out := ops } }).2 := by
  obtain ⟨engine, tags, readStamp⟩ := admitWaiting_flightFrame
    { s with hlu := { s.hlu with writeQueue := rest, out := ops } }
  exact ⟨engine, tags, readStamp⟩

/-! ### Quiet in HALTED (R200, R219) -/

/-- A state whose engine, queues, link reads in flight and CQs stand as they were. -/
structure QuietFrame (s t : State) : Prop where
  engine : t.hlu.engine = s.hlu.engine
  reads : t.hlu.readQueue = s.hlu.readQueue
  writes : t.hlu.writeQueue = s.hlu.writeQueue
  waiting : t.hlu.waiting = s.hlu.waiting
  tags : t.hlu.tags = s.hlu.tags
  cqs : t.qm.cqs = s.qm.cqs

theorem HaltedIsQuiet.of_quietFrame {s t : State} (p : HaltedIsQuiet s) (f : QuietFrame s t) : HaltedIsQuiet t := by
  intro halted
  obtain ⟨reads, writes, waiting, tags, timers⟩ := p (f.engine ▸ halted)
  exact ⟨f.reads.trans reads, f.writes.trans writes, f.waiting.trans waiting,
    by unfold DeadTags State.tag; rw [f.tags]; exact tags, by unfold State.cq; rw [f.cqs]; exact timers⟩

theorem haltedIsQuiet_of_not_halted {s : State} (h : s.hlu.engine ≠ .halted) : HaltedIsQuiet s :=
  fun halted => absurd halted h

/-- A read dropped in a state where nobody wants a read in flight leaves none that is wanted. -/
theorem DeadTags.dropReads {s : State} (h : DeadTags s) (who part) : DeadTags (dropReads who part s) := by
  intro i f hf
  rw [tag_dropReads, Option.map_eq_some_iff] at hf
  obtain ⟨g, hg, rfl⟩ := hf
  split
  · rfl
  · exact h i g hg

theorem DeadTags.freeTag {s : State} (h : DeadTags s) (t) : DeadTags (s.setTag t none) := by
  intro i f hf
  rw [State.tag_setTag] at hf
  split at hf
  · cases hf
  · exact h i f hf

/-- In a quiet HALTED engine nothing stands in the two queues to be issued, and nothing joins them. -/
theorem Move.keeps_haltedIsQuiet {s t : State} (m : Move s t) (p : HaltedIsQuiet s) : HaltedIsQuiet t := by
  cases m with
  | cq q f h ht =>
    intro halted
    obtain ⟨reads, writes, waiting, tags, timers⟩ := p halted
    refine ⟨reads, writes, waiting, tags, fun i => ?_⟩
    rw [State.cq_modCq]
    split
    · exact ht (s.halted_iff.mpr halted) (timers q)
    · exact timers i
  | configure a b l n base ha hb ht =>
    intro halted
    obtain ⟨reads, writes, waiting, tags, -⟩ := p halted
    exact ⟨reads, writes, waiting, tags, ht⟩
  | freeTag i =>
    intro halted
    obtain ⟨reads, writes, waiting, tags, timers⟩ := p halted
    exact ⟨reads, writes, waiting, tags.freeTag i, timers⟩
  | drop who part =>
    intro halted
    obtain ⟨reads, writes, waiting, tags, timers⟩ := p halted
    exact ⟨by rw [dropReads_readQueue, reads]; rfl, writes, waiting, tags.dropReads who part, timers⟩
  | dropRest f =>
    intro halted
    obtain ⟨reads, writes, waiting, tags, timers⟩ := p halted
    refine ⟨?_, writes, waiting, tags, timers⟩
    simp only [Machine.dropRest, reads, List.dropWhile_nil, ite_self]
  | ask who part addr len place =>
    intro halted
    have before : s.hlu.engine = .halted := (askRead_flightFrame ..).engine ▸ halted
    rw [askRead_of_halted before]
    exact p before
  | hand w =>
    intro halted
    have before : s.hlu.engine = .halted := (handWrite_flightFrame ..).engine ▸ halted
    rw [handWrite_of_halted before]
    exact p before
  | issueRead i r rest h => exact fun halted => absurd (h.symm.trans (p halted).reads) (List.cons_ne_nil _ _)
  | issuePart e e' rest ops h => exact fun halted => absurd (h.symm.trans (p halted).writes) (List.cons_ne_nil _ _)
  | leave e rest ops h =>
    intro halted
    have before : s.hlu.engine = .halted := (admitAfterLeave_flightFrame ..).engine ▸ halted
    exact absurd (h.symm.trans (p before).writes) (List.cons_ne_nil _ _)
  | engine e he => exact haltedIsQuiet_of_not_halted he
  | setup e r a b he => exact haltedIsQuiet_of_not_halted he
  | halt f => exact fun _ => enterHalted_quiet _
  | job | unit | sq | chain | layout | table | group | settle | protocol | strike | setupData | posting | granted | takes
    | sch | ls | cts | choice => exact p.of_quietFrame ⟨rfl, rfl, rfl, rfl, rfl, rfl⟩

/-- A reset leaves HALTED (R203), and a write of the setup address touches nothing that is quiet. -/
theorem Replaces.keeps_haltedIsQuiet {i : Instr} {s t : State} (r : Replaces i s t) (p : HaltedIsQuiet s) :
    HaltedIsQuiet t := by
  cases r with
  | reset | clear | powerOn => exact haltedIsQuiet_of_not_halted EngineState.noConfusion
  | registers => exact p.of_quietFrame ⟨rfl, rfl, rfl, rfl, rfl, rfl⟩

/-! ### Numbers of the issues (R213, R221, log 10) -/

/-- What stands in flight stood there before, under the same number. -/
theorem StampsPast.of_older {s t : State} (p : StampsPast s) (hstamp : t.readStamp = s.readStamp)
    (hold : ∀ i f, t.tag i = some f → ∃ g, s.tag i = some g ∧ g.stamp = f.stamp) : StampsPast t := by
  intro i f hf
  obtain ⟨g, hg, hsame⟩ := hold i f hf
  rw [hstamp, ← hsame]
  exact p i g hg

theorem StampsPast.of_flightFrame {s t : State} (p : StampsPast s) (h : FlightFrame s t) : StampsPast t :=
  p.of_older h.readStamp fun i f hf => ⟨f, by rwa [State.tag, ← h.tags], rfl⟩

theorem stampsPast_of_no_flight {s : State} (h : s.hlu.tags = Vector.replicate 32 none) : StampsPast s := by
  intro i f hf
  simp [State.tag, h] at hf

/-- Only the issue of a link read puts one in flight: it takes the next number, and the number after it is the next. -/
theorem Move.keeps_stampsPast {s t : State} (m : Move s t) (p : StampsPast s) : StampsPast t := by
  cases m with
  | issueRead i r rest h =>
    intro j f hf
    change (s.setTag i (some ⟨r, s.readStamp⟩)).tag j = some f at hf
    change f.stamp < s.readStamp + 1
    rw [State.tag_setTag] at hf
    split at hf
    · cases hf
      exact Nat.lt_succ_self _
    · exact Nat.lt_succ_of_lt (p j f hf)
  | freeTag i =>
    refine p.of_older rfl fun j f hf => ?_
    rw [State.tag_setTag] at hf
    split at hf
    · cases hf
    · exact ⟨f, hf, rfl⟩
  | drop who part =>
    refine p.of_older rfl fun j f hf => ?_
    rw [tag_dropReads, Option.map_eq_some_iff] at hf
    obtain ⟨g, hg, rfl⟩ := hf
    exact ⟨g, hg, by split <;> rfl⟩
  | halt f =>
    refine p.of_older rfl fun j f hf => ?_
    rw [enterHalted_tag, Option.map_eq_some_iff] at hf
    obtain ⟨g, hg, rfl⟩ := hf
    exact ⟨g, hg, rfl⟩
  | ask who part addr len place => exact p.of_flightFrame (askRead_flightFrame ..)
  | hand w => exact p.of_flightFrame (handWrite_flightFrame ..)
  | leave e rest ops h => exact p.of_flightFrame (admitAfterLeave_flightFrame ..)
  | job | unit | sq | cq | chain | layout | table | group | settle | protocol | engine | strike | dropRest | setup
    | setupData | configure | posting | granted | takes | sch | ls | cts | choice | issuePart => exact p

/-- A reset takes every link read out of flight (R204, R220). -/
theorem Replaces.keeps_stampsPast {i : Instr} {s t : State} (r : Replaces i s t) (p : StampsPast s) : StampsPast t := by
  cases r with
  | reset | clear | powerOn => exact stampsPast_of_no_flight rfl
  | registers => exact p

/-! ### Every step -/

theorem exec_keeps_haltedIsQuiet {i : Instr} {s t : State} (e : exec i s = .next t) (p : HaltedIsQuiet s) :
    HaltedIsQuiet t := by
  rcases exec_reaches e with moves | replaces
  · exact moves.keep (fun _ _ => Move.keeps_haltedIsQuiet) p
  · exact replaces.keeps_haltedIsQuiet p

theorem exec_keeps_stampsPast {i : Instr} {s t : State} (e : exec i s = .next t) (p : StampsPast s) : StampsPast t := by
  rcases exec_reaches e with moves | replaces
  · exact moves.keep (fun _ _ => Move.keeps_stampsPast) p
  · exact replaces.keeps_stampsPast p

/-- Settles O57: the command at the front is a chain of elementary moves or a reset, and each of them keeps the HALTED engine
quiet and the numbers of the link reads in flight behind the next. -/
theorem haltedEngineStaysQuiet : Obligations.HaltedEngineStaysQuiet := by
  intro s t hstep
  unfold step at hstep
  split at hstep
  · cases hstep
    exact ⟨id, id⟩
  · exact ⟨fun p => exec_keeps_haltedIsQuiet hstep (p.of_quietFrame ⟨rfl, rfl, rfl, rfl, rfl, rfl⟩),
      fun p => exec_keeps_stampsPast hstep p⟩

end Sys2Proof.Machine
end

section
/-! POST and RETIRE (R177, R178, R189, R190, R194, R195) and the fault of a request read (R186): the index checks, and the
break of a queue. -/

namespace Sys2Proof.Machine

/-! ### The break of an SQ (R189, R190) -/

/-- An SQ that is not BROKEN breaks: its queue event takes the reserve set aside for it and joins the posting queue. -/
theorem breakSq_of_unbroken {s : State} {q : SqNo} (h : (s.sq q).broken = false) (cause : Detail) :
    breakSq q cause s =
      joinPosting ⟨none, { event := true, sq := q, detail := cause, notify := Config.eventNotify }⟩
        ((s.modSq q fun y => { y with broken := true, eventUsed := true }).modCq (s.sq q).boundCq fun y =>
          { y with eventReserves := y.eventReserves - 1, reservations := y.reservations + 1 }) := by
  unfold breakSq
  rw [if_neg (by simp [h])]
  simp only [State.sq_modSq_self]
  rfl

theorem breakSq_of_broken {s : State} {q : SqNo} (h : (s.sq q).broken = true) (cause : Detail) : breakSq q cause s = s :=
  if_pos h

/-! ### Writes that no queue takes (R177, R194, R202) -/

section
variable {w : Word} {s : State}

theorem wordReserved_iff : wordReserved w = true ↔ w &&& 0xF800FFF8#32 ≠ 0 := bne_iff_ne

theorem wordReserved_eq_false (h : w &&& 0xF800FFF8#32 = 0) : wordReserved w = false :=
  Bool.eq_false_iff.mpr (mt wordReserved_iff.mp (not_not_intro h))

theorem reservedWrite_of_live (h : s.live = true) : reservedWrite s = s.setProtocol := if_pos h

theorem reservedWrite_of_not_live (h : s.live = false) : reservedWrite s = s := by
  rw [reservedWrite, h]
  rfl

theorem unconfiguredWrite_of_not_live (h : s.live = false) (configured : Bool) : unconfiguredWrite configured s = s := by
  rw [unconfiguredWrite, h]
  rfl

theorem unconfiguredWrite_of_unconfigured (h : s.live = true) : unconfiguredWrite false s = s.setProtocol := by
  rw [unconfiguredWrite, h]
  rfl

theorem unconfiguredWrite_of_configured : unconfiguredWrite true s = s := by
  rw [unconfiguredWrite, Bool.not_true, Bool.and_false]
  rfl

end

/-! ### POST (R177, R178) -/

/-- The index check of R178 refuses what is no index and what lies more than a ring beyond the fetch point. -/
theorem Sq.tailOk_iff (x : Sq) (n : Nat) :
    x.tailOk n = true ↔
      ¬ (2 * x.size ≤ n
        ∨ x.size < (n + 2 * x.size - if x.fetchInFlight then (x.head + 1) % (2 * x.size) else x.head) % (2 * x.size)) := by
  rw [tailOk, Bool.and_eq_true, decide_eq_true_iff, decide_eq_true_iff, not_or, not_le, not_lt]
  rfl

section
variable {w : Word} {s : State}

theorem postWrite_of_not_live (h : s.live = false) : postWrite w s = s := by
  have untaken : postTaken (wordQueue w) s = false := by rw [postTaken, h]; rfl
  rw [postWrite, reservedWrite_of_not_live h, untaken, unconfiguredWrite_of_not_live h]
  simp only [ite_self, Bool.false_eq_true, if_false]

theorem postWrite_of_reserved (h : s.live = true) (hw : w &&& 0xF800FFF8#32 ≠ 0) : postWrite w s = s.setProtocol := by
  rw [postWrite, if_pos (wordReserved_iff.mpr hw), reservedWrite_of_live h]

theorem postWrite_of_unconfigured (h : s.live = true) (hw : w &&& 0xF800FFF8#32 = 0)
    (hq : (s.sq (wordQueue w)).configured = false) : postWrite w s = s.setProtocol := by
  have untaken : postTaken (wordQueue w) s = false := by rw [postTaken, hq, Bool.and_false]; rfl
  rw [postWrite, wordReserved_eq_false hw, untaken, hq, unconfiguredWrite_of_unconfigured h]
  rfl

theorem postWrite_of_broken (hw : w &&& 0xF800FFF8#32 = 0) (hq : (s.sq (wordQueue w)).configured = true)
    (hbroken : (s.sq (wordQueue w)).broken = true) : postWrite w s = s := by
  have untaken : postTaken (wordQueue w) s = false := by rw [postTaken, hbroken, Bool.not_true, Bool.and_false]
  rw [postWrite, wordReserved_eq_false hw, untaken, hq, unconfiguredWrite_of_configured]
  rfl

/-- A write that its SQ takes goes to the index check, and the fetch arbiter examines its candidates after it. -/
theorem postWrite_of_taken (h : s.live = true) (hw : w &&& 0xF800FFF8#32 = 0)
    (hq : (s.sq (wordQueue w)).configured = true) (hbroken : (s.sq (wordQueue w)).broken = false) :
    postWrite w s = quiesce (postTail (wordQueue w) (wordIndex w) s) := by
  have taken : postTaken (wordQueue w) s = true := by rw [postTaken, h, hq, hbroken]; rfl
  rw [postWrite, wordReserved_eq_false hw, taken]
  rfl

end

/-- Settles O9: by who takes the write, and then by the index check. -/
theorem postMovesTailOrBreaksQueue : Obligations.PostMovesTailOrBreaksQueue := by
  intro w s q x n from' bad flagged isLive
  have hlive : isLive ↔ s.live = true := (State.live_iff s).symm
  have hcheck : x.tailOk n = true ↔ ¬ bad := x.tailOk_iff n
  have told {t : State} (h : postWrite w s = t) : exec (.post w) s = .next t := congrArg Host.Outcome.next h
  refine ⟨fun h => told (postWrite_of_not_live (Bool.eq_false_iff.mpr (mt hlive.mpr h))),
    fun h hw => told (postWrite_of_reserved (hlive.mp h) hw),
    fun h hw => ⟨fun hq => told (postWrite_of_unconfigured (hlive.mp h) hw hq),
      fun hq hbroken => told (postWrite_of_broken hw hq hbroken), fun hq hbroken => ?taken⟩⟩
  have taken := told (postWrite_of_taken (hlive.mp h) hw hq hbroken)
  refine ⟨fun hgood => ?moves, fun hbad => ?breaks⟩
  case moves => rwa [postTail, if_pos (hcheck.mpr hgood)] at taken
  case breaks => rwa [postTail, if_neg (fun hok => hcheck.mp hok hbad), breakSq_of_unbroken hbroken] at taken

/-! ### RETIRE (R194, R195) -/

/-- The index check of R195 refuses what is no index and what passes the tail. -/
theorem Cq.consumerOk_iff (x : Cq) (c : Nat) :
    x.consumerOk c = true ↔
      ¬ (2 * x.size ≤ c ∨ (x.tail + 2 * x.size - x.retireIndex) % (2 * x.size)
        < (c + 2 * x.size - x.retireIndex) % (2 * x.size)) := by
  rw [consumerOk, Bool.and_eq_true, decide_eq_true_iff, decide_eq_true_iff, not_or, not_le, not_lt]
  rfl

section
variable {w : Word} {s : State}

theorem retireWrite_of_not_live (h : s.live = false) : retireWrite w s = s := by
  have untaken : retireTaken (wordQueue w) s = false := by rw [retireTaken, h]; rfl
  rw [retireWrite, reservedWrite_of_not_live h, untaken, unconfiguredWrite_of_not_live h]
  simp only [ite_self, Bool.false_eq_true, if_false]

theorem retireWrite_of_reserved (h : s.live = true) (hw : w &&& 0xF800FFF8#32 ≠ 0) : retireWrite w s = s.setProtocol := by
  rw [retireWrite, if_pos (wordReserved_iff.mpr hw), reservedWrite_of_live h]

theorem retireWrite_of_unconfigured (h : s.live = true) (hq : (s.cq (wordQueue w)).configured = false) :
    retireWrite w s = s.setProtocol := by
  have untaken : retireTaken (wordQueue w) s = false := by rw [retireTaken, hq, Bool.and_false]
  rw [retireWrite, reservedWrite_of_live h, untaken, hq, unconfiguredWrite_of_unconfigured h]
  simp only [ite_self, Bool.false_eq_true, if_false]

/-- A write that its CQ examines is accepted by the index check or sets PROTOCOL. -/
theorem retireWrite_of_taken (h : s.live = true) (hw : w &&& 0xF800FFF8#32 = 0)
    (hq : (s.cq (wordQueue w)).configured = true) :
    retireWrite w s = if (s.cq (wordQueue w)).consumerOk (wordIndex w) then quiesce (retireTo (wordQueue w) (wordIndex w) s)
      else s.setProtocol := by
  have taken : retireTaken (wordQueue w) s = true := by rw [retireTaken, h, hq]; rfl
  rw [retireWrite, wordReserved_eq_false hw, taken]
  rfl

end

/-- Settles O10: by who examines the write, and then by the index check. -/
theorem retireHandsEntriesBack : Obligations.RetireHandsEntriesBack := by
  intro w s q x c count bad flagged isLive
  have hlive : isLive ↔ s.live = true := (State.live_iff s).symm
  have hcheck : x.consumerOk c = true ↔ ¬ bad := x.consumerOk_iff c
  have told {t : State} (h : retireWrite w s = t) : exec (.retire w) s = .next t := congrArg Host.Outcome.next h
  refine ⟨fun h => told (retireWrite_of_not_live (Bool.eq_false_iff.mpr (mt hlive.mpr h))), fun h hrefused => told ?_,
    fun h hw hq hgood => told ?_⟩
  · by_cases hw : w &&& 0xF800FFF8#32 = 0
    · cases hq : x.configured with
      | false => exact retireWrite_of_unconfigured (hlive.mp h) hq
      | true =>
        have hbad : bad := (hrefused.resolve_left (not_not_intro hw)).resolve_left (by simp [hq])
        rw [retireWrite_of_taken (hlive.mp h) hw hq, if_neg (fun hok => hcheck.mp hok hbad)]
        rfl
    · exact retireWrite_of_reserved (hlive.mp h) hw
  · rw [retireWrite_of_taken (hlive.mp h) hw hq, if_pos (hcheck.mpr hgood)]
    rfl

/-! ### The fault of a request read (R186) -/

/-- A scan of the Job Table finds the one slot that has the property. -/
theorem State.findSlot_eq_some_of_unique {s : State} {p : SlotNo → Job → Bool} {j : SlotNo}
    (h : ∀ i, p i (s.job i) = true ↔ i = j) : s.findSlot p = some j := by
  obtain ⟨i, hi⟩ := Option.isSome_iff_exists.mp ((s.findSlot_isSome_iff p).mpr ⟨j, (h j).mpr rfl⟩)
  have found : p i (s.job i) = true := List.find?_some (p := fun k => p k (s.job k)) hi
  rw [hi, (h i).mp found]

theorem fetchedSlot_eq_some {s : State} {q : SqNo} {j : SlotNo}
    (h : ∀ i, (s.job i).state = .fetched ∧ (s.job i).sq = q ↔ i = j) : fetchedSlot s q = some j :=
  State.findSlot_eq_some_of_unique fun i => by rw [Bool.and_eq_true, beq_iff_eq, beq_iff_eq, h]

/-- With a slot held for the fetch, the reservation is given back and the slot is FREE again before the SQ breaks. -/
theorem fetchFaulted_of_held {s : State} {q : SqNo} {j : SlotNo} (h : fetchedSlot s q = some j) :
    fetchFaulted q s = breakSq q .fetchFault
      (((s.modCq (s.sq q).boundCq fun x => { x with reservations := x.reservations - 1 }).modJob j fun _ => {}).modSq q
        fun x => { x with outstanding := x.outstanding - 1, fetchInFlight := false, fetchBuf := [] }) := by
  have held : fetchedSlot (s.modCq (s.sq q).boundCq fun x => { x with reservations := x.reservations - 1 }) q = some j := h
  simp only [fetchFaulted, held]

/-- Settles O19: both events come down to one fault of the request read, and the SQ breaks once. -/
theorem fetchFaultBreaksTheQueue : Obligations.FetchFaultBreaksTheQueue := by
  intro tag f q j u s htag hlive hwho hheld b d t broken ended
  have hslot : fetchedSlot d q = some j := fetchedSlot_eq_some hheld
  have faulted : readFault (.fetch q) d = ended := by
    have hsq : t.sq q = { s.sq q with outstanding := (s.sq q).outstanding - 1, fetchInFlight := false, fetchBuf := [] } :=
      State.sq_modSq_self ..
    have same : (t.sq q).broken = (s.sq q).broken := by rw [hsq]
    have bound : (t.sq q).boundCq = b := by rw [hsq]
    rw [readFault, fetchFaulted_of_held hslot]
    change breakSq q .fetchFault t = if (s.sq q).broken then t else broken
    cases hbroken : (s.sq q).broken with
    | true => exact breakSq_of_broken (same.trans hbroken) _
    | false => rw [breakSq_of_unbroken (same.trans hbroken), bound]; rfl
  have told := linkReadFault_answers u htag hlive
  rw [hwho] at told
  rwa [← faulted]

end Sys2Proof.Machine
end

section
/-! The fetch arbiter (R180, R182 to R184): whom it grants, and what the grant sets aside. -/

namespace Sys2Proof.Machine

/-! ### The rotation (R183) -/

/-- Where the rotation of a class begins: after its last granted SQ, or at SQ 0. -/
def rotationStart (last : Option SqNo) : SqNo :=
  match last with
  | none => 0
  | some q => q + 1

theorem rotation_eq (last : Option SqNo) : rotation last = (List.finRange 8).map (rotationStart last + ·) := by
  cases last with
  | none => simp [rotation, rotationStart]
  | some q => rfl

theorem mem_rotation (last : Option SqNo) (q : SqNo) : q ∈ rotation last := by
  rw [rotation_eq, List.mem_map]
  exact ⟨q - rotationStart last, List.mem_finRange _, add_sub_cancel _ _⟩

/-- The first of the rotation with a property stands at the least distance from its start. -/
theorem find_rotation_first {last : Option SqNo} {p : SqNo → Bool} {q : SqNo} (h : (rotation last).find? p = some q)
    {r : SqNo} (hr : p r = true) : q - rotationStart last ≤ r - rotationStart last := by
  rw [rotation_eq, List.find?_map, Option.map_eq_some_iff] at h
  obtain ⟨i, hi, rfl⟩ := h
  obtain ⟨-, n, hn, hni, hbefore⟩ := List.find?_eq_some_iff_getElem.mp hi
  rw [List.getElem_finRange] at hni
  rw [add_sub_cancel_left, ← not_lt]
  intro hlt
  have hmiss := hbefore (r - rotationStart last).val (by rw [← hni] at hlt; exact hlt)
  simp [hr] at hmiss

section
variable {s : State} {cls : QueueClass} {last : Option SqNo}

theorem firstCandidate_eq_none_iff :
    firstCandidate s cls last = none ↔ ∀ p, (s.sq p).cls = cls → candidate s p = false := by
  simp [firstCandidate, mem_rotation]

/-- The first candidate of a class: of its class, a candidate, and the nearest after the last granted SQ. -/
theorem firstCandidate_eq_some {q : SqNo} (h : firstCandidate s cls last = some q) :
    (s.sq q).cls = cls ∧ candidate s q = true
      ∧ ∀ p, (s.sq p).cls = cls → candidate s p = true → q - rotationStart last ≤ p - rotationStart last := by
  have found := List.find?_some h
  rw [Bool.and_eq_true, beq_iff_eq] at found
  refine ⟨found.1, found.2, fun p hcls hp => find_rotation_first h ?_⟩
  rw [Bool.and_eq_true, beq_iff_eq]
  exact ⟨hcls, hp⟩

/-! ### The choice (R183) -/

theorem arbiterChoice_eq_none_iff : arbiterChoice s = none ↔ ∀ p, candidate s p = false := by
  unfold arbiterChoice
  constructor
  · intro h p
    split at h
    · cases h
    · next hurgent =>
      cases hcls : (s.sq p).cls with
      | urgent => exact firstCandidate_eq_none_iff.mp hurgent p hcls
      | normal => exact firstCandidate_eq_none_iff.mp h p hcls
  · intro h
    rw [firstCandidate_eq_none_iff.mpr fun p _ => h p]
    exact firstCandidate_eq_none_iff.mpr fun p _ => h p

/-- The SQ chosen is the first candidate of its class, and a NORMAL one is chosen only when no URGENT one is a candidate. -/
theorem arbiterChoice_eq_some {q : SqNo} (h : arbiterChoice s = some q) :
    (firstCandidate s .urgent s.qm.lastUrgent = some q)
      ∨ (firstCandidate s .urgent s.qm.lastUrgent = none ∧ firstCandidate s .normal s.qm.lastNormal = some q) := by
  unfold arbiterChoice at h
  split at h
  · next hurgent => exact .inl (hurgent.trans h)
  · next hurgent => exact .inr ⟨hurgent, h⟩

end

/-! ### The grant (R117, R180, R184) -/

theorem candidate_running {s : State} {q : SqNo} (h : candidate s q = true) : s.hlu.engine = .running := by
  simp only [candidate, Bool.and_eq_true, beq_iff_eq] at h
  tauto

theorem candidate_has_free_entry {s : State} {q : SqNo} (h : candidate s q = true) :
    (s.cq (s.sq q).boundCq).committed < (s.cq (s.sq q).boundCq).size := by
  simp only [candidate, Bool.and_eq_true, decide_eq_true_eq] at h
  exact Nat.lt_of_sub_pos h.2

section
variable (q : SqNo) (j : SlotNo) (s : State)

@[simp] theorem noteGrant_hlu : (noteGrant q s).hlu = s.hlu := by unfold noteGrant; split <;> rfl
@[simp] theorem noteGrant_sq (i : SqNo) : (noteGrant q s).sq i = s.sq i := by unfold noteGrant; split <;> rfl
@[simp] theorem noteGrant_cq (i : CqNo) : (noteGrant q s).cq i = s.cq i := by unfold noteGrant; split <;> rfl

/-- The grant short of its read: the class remembers it, an entry is set aside, and the slot is held. -/
def grantHeld : State :=
  (holdSlot j q ((noteGrant q s).modCq (s.sq q).boundCq fun c => { c with reservations := c.reservations + 1 })).modSq q
    fun y => { y with outstanding := y.outstanding + 1, fetchInFlight := true }

theorem grantTake_eq (h : s.hlu.engine = .running) :
    grantTake q j s = { grantHeld q j s with hlu := { (grantHeld q j s).hlu with
      readQueue := (grantHeld q j s).hlu.readQueue
        ++ linkReads (.fetch q) 0 ((s.sq q).entryAddr (s.sq q).head) 64 0 } } := by
  have notHalted : (grantHeld q j s).hlu.engine ≠ .halted := by
    change (noteGrant q s).hlu.engine ≠ .halted
    rw [noteGrant_hlu, h]
    exact EngineState.noConfusion
  exact askRead_of_not_halted notHalted ..

theorem grantHeld_sq :
    (grantHeld q j s).sq q = { s.sq q with outstanding := (s.sq q).outstanding + 1, fetchInFlight := true } := by
  refine (State.sq_modSq_self ..).trans ?_
  change ({ (noteGrant q s).sq q with
    outstanding := ((noteGrant q s).sq q).outstanding + 1, fetchInFlight := true } : Sq) = _
  rw [noteGrant_sq]

theorem grantHeld_cq : (grantHeld q j s).cq (s.sq q).boundCq =
    { s.cq (s.sq q).boundCq with reservations := (s.cq (s.sq q).boundCq).reservations + 1 } := by
  refine (State.cq_modCq_self ..).trans ?_
  rw [noteGrant_cq]

theorem grantHeld_job : (grantHeld q j s).job j = { state := .fetched, sq := q } := holdSlot_job_self ..

theorem grantHeld_readQueue : (grantHeld q j s).hlu.readQueue = s.hlu.readQueue := by
  change (noteGrant q s).hlu.readQueue = s.hlu.readQueue
  rw [noteGrant_hlu]

end

/-- Settles O46: the choice by the two classes and the rotation of each, the grant by what it sets aside. -/
theorem arbiterGrantsUrgentFirstWithinCredit : Obligations.ArbiterGrantsUrgentFirstWithinCredit := by
  intro s q j
  refine ⟨arbiterChoice_eq_none_iff, fun hchoice => ?_⟩
  obtain ⟨last, hlast, hfirst, hurgent⟩ : ∃ last,
      last = (if (s.sq q).cls = .urgent then s.qm.lastUrgent else s.qm.lastNormal)
        ∧ firstCandidate s (s.sq q).cls last = some q
        ∧ ((s.sq q).cls = .normal → ∀ p, (s.sq p).cls = .urgent → candidate s p = false) := by
    rcases arbiterChoice_eq_some hchoice with h | ⟨hnone, h⟩
    · have hcls := (firstCandidate_eq_some h).1
      rw [hcls]
      exact ⟨_, rfl, h, QueueClass.noConfusion⟩
    · have hcls := (firstCandidate_eq_some h).1
      rw [hcls]
      exact ⟨_, rfl, h, fun _ => firstCandidate_eq_none_iff.mp hnone⟩
  obtain ⟨-, hcandidate, hnearest⟩ := firstCandidate_eq_some hfirst
  refine ⟨hcandidate, hurgent, fun p hcls hp => ?_, ?_⟩
  · rw [← hlast]
    have near := hnearest p hcls hp
    cases last with
    | none => simpa [rotationStart] using near
    | some l => exact near
  · intro x t
    have ht : t = _ := grantTake_eq q j s (candidate_running hcandidate)
    have hcq : t.cq x.boundCq = { s.cq x.boundCq with reservations := (s.cq x.boundCq).reservations + 1 } := by
      rw [ht]
      exact grantHeld_cq q j s
    refine ⟨?_, hcq, ?_, ?_, ?_⟩
    · rw [ht]
      exact grantHeld_sq q j s
    · have credit : (s.cq x.boundCq).committed < (s.cq x.boundCq).size := candidate_has_free_entry hcandidate
      rw [hcq]
      simp only [Cq.committed] at credit ⊢
      omega
    · rw [ht]
      exact grantHeld_job q j s
    · rw [ht]
      exact congrArg (· ++ _) (grantHeld_readQueue q j s)

end Sys2Proof.Machine
end

section
/-! Posting and coalescing (R191 to R193, R196 to R199): the two writes of a posting, and the message of a CQ. -/

namespace Sys2Proof.Machine

/-! ### Writes of the Queue Manager (R214) -/

/-- A write that joins the write queue, under the next serial number. -/
def State.withWrite (s : State) (w : WriteAsk) : State :=
  { s with hlu := { s.hlu with
      writeSerial := s.hlu.writeSerial + 1
      writeQueue := s.hlu.writeQueue ++
        [{ serial := s.hlu.writeSerial, writer := w.writer, owner := w.owner, addr := w.addr, data := w.data
           vector := w.vector, issued := 0 }] } }

section
variable {s : State} {w : WriteAsk}

theorem trackWrite_of_no_job {owner : Owner} (h : ∀ j t r o, owner ≠ .job j t r o) (serial : Nat) :
    trackWrite owner serial s = s := by
  unfold trackWrite
  split
  · exact absurd rfl (h _ _ _ _)
  all_goals rfl

/-- With room, a write that no job owns joins the write queue and does nothing else: settle tracking learns of jobs' writes
only (R216). -/
theorem handWrite_of_no_job (h : s.hlu.engine ≠ .halted) (room : s.hlu.writeQueue.length < 64)
    (first : s.hlu.waiting = []) (howner : ∀ j t r o, w.owner ≠ .job j t r o) : handWrite w s = s.withWrite w :=
  (handWrite_of_room h room first w).trans (trackWrite_of_no_job howner _)

@[simp] theorem handWrite_cq (w) (s : State) (c : CqNo) : (handWrite w s).cq c = s.cq c := by
  rw [State.cq, (handWrite_soundFrame w s).qm, State.cq]

theorem trackWrite_modCq (owner serial) (s : State) (c : CqNo) (f : Cq → Cq) :
    trackWrite owner serial (s.modCq c f) = (trackWrite owner serial s).modCq c f := by
  unfold trackWrite
  split <;> rfl

/-- A write is handed alike before and after a change of a CQ. -/
theorem handWrite_modCq (w) (s : State) (c : CqNo) (f : Cq → Cq) :
    handWrite w (s.modCq c f) = (handWrite w s).modCq c f := by
  unfold handWrite
  rw [State.halted_modCq]
  split
  · rfl
  · dsimp only
    rw [← trackWrite_modCq]
    rfl

end

/-! ### Posting (R192, R193, R224) -/

theorem CompletionRecord.encode_length (r : CompletionRecord) (head : Nat) : (r.encode head).length = 32 := by
  simp only [encode, List.length_append, leBytes_length, List.length_cons, List.length_nil]

/-- A CQ after a posting: a reservation has become a posted entry, and the tail stands one further (R192). -/
def Cq.posted (x : Cq) : Cq :=
  { x with
    reservations := x.reservations - 1, postedUnretired := x.postedUnretired + 1, tail := (x.tail + 1) % (2 * x.size) }

/-- The write of a record at the entry of the tail of its CQ. -/
def postingAsk (e : PostEntry) (s : State) : WriteAsk :=
  let q := s.sq e.record.sq
  let x := s.cq q.boundCq
  { writer := .queueManager, owner := .completion q.boundCq, addr := x.entryAddr x.tail, data := e.record.encode q.head }

/-- The write of the tail field of a CQ. -/
def tailAsk (c : CqNo) (s : State) : WriteAsk where
  writer := .queueManager
  owner := .progressTail c
  addr := hostAddr s.qm.progressBase (0x20 + 4 * c.val)
  data := leBytes 4 (s.cq c).tail

/-- With room for both writes a posting hands the record, moves its CQ on, and hands the tail field. -/
theorem beginPosting_of_room (e : PostEntry) {s : State} (h : s.hlu.engine ≠ .halted) (room : s.hlu.writeQueue.length < 63)
    (first : s.hlu.waiting = []) :
    let c := (s.sq e.record.sq).boundCq
    let t := (s.withWrite (postingAsk e s)).modCq c Cq.posted
    let u := t.withWrite (tailAsk c t)
    beginPosting e s = { u with qm := { u.qm with inPosting := some (s.hlu.writeSerial, s.hlu.writeSerial + 1) } } := by
  intro c t u
  have record : handWrite (postingAsk e s) s = s.withWrite (postingAsk e s) :=
    handWrite_of_no_job h (by omega) first fun _ _ _ _ => Owner.noConfusion
  have tail : handWrite (tailAsk c t) t = u := by
    refine handWrite_of_no_job h ?_ first fun _ _ _ _ => Owner.noConfusion
    change (s.hlu.writeQueue ++ [_]).length < 64
    rw [List.length_append, List.length_singleton]
    omega
  have moved : (handWrite (postingAsk e s) s).modCq c Cq.posted = t := by rw [record]
  have serial : t.hlu.writeSerial = s.hlu.writeSerial + 1 := rfl
  rw [← tail, ← serial, ← moved]
  rfl

/-- Settles O47: both writes join the write queue, and the CQ stands as the posting leaves it. -/
theorem postingHandsTheRecordBeforeItsTail : Obligations.PostingHandsTheRecordBeforeItsTail := by
  intro e s hengine room first q x tail n t
  have ht : t = _ := beginPosting_of_room e hengine room first
  have hcq (c : CqNo) : t.cq c = if c = q.boundCq then x.posted else s.cq c := by
    rw [ht]
    exact State.cq_modCq (s.withWrite (postingAsk e s)) ..
  refine ⟨?writes, e.record.encode_length q.head, (hcq _).trans (if_pos rfl), fun c hc => (hcq c).trans (if_neg hc), ?_⟩
  case writes =>
    have htail : (((s.withWrite (postingAsk e s)).modCq q.boundCq Cq.posted).cq q.boundCq).tail = tail := by
      rw [State.cq_modCq_self]
      rfl
    rw [ht, ← htail]
    exact List.append_assoc ..
  rw [ht]
  exact ⟨fun _ => rfl, rfl, rfl, rfl, rfl, rfl, rfl, rfl, rfl⟩

/-! ### Messages (R198, R217) -/

/-- The message of a CQ. -/
def messageAsk (c : CqNo) (s : State) : WriteAsk where
  writer := .queueManager
  owner := .message c
  vector := some (s.cq c).vector

/-- A message is handed, and nothing is unsignalled any more. -/
theorem sendMessage_eq (c : CqNo) (s : State) :
    sendMessage c s = handWrite (messageAsk c s) (s.modCq c fun x => { x with unsignalled := 0, holdTimer := none }) :=
  (handWrite_modCq ..).symm

theorem sendMessage_cq (c : CqNo) (s : State) :
    (sendMessage c s).cq c = { s.cq c with unsignalled := 0, holdTimer := none } := by
  rw [sendMessage_eq, handWrite_cq, State.cq_modCq_self]

theorem sendMessage_writeQueue {c : CqNo} {s : State} (h : s.hlu.engine ≠ .halted) (room : s.hlu.writeQueue.length < 64)
    (first : s.hlu.waiting = []) :
    (sendMessage c s).hlu.writeQueue = s.hlu.writeQueue ++
      [{ serial := s.hlu.writeSerial, writer := .queueManager, owner := .message c, addr := 0, data := []
         vector := some (s.cq c).vector, issued := 0 }] := by
  rw [sendMessage_eq, handWrite_of_no_job (s := s.modCq ..) h room first fun _ _ _ _ => Owner.noConfusion]
  rfl

/-! ### Coalescing (R196, R197) -/

section
variable {c : CqNo} {r : CompletionRecord} {s : State}

theorem coalesce_of_no_interrupts (h : (s.cq c).interruptEnable = false) : coalesce c r s = s := by
  rw [coalesce, h]
  exact if_pos (Bool.or_true _)

/-- With interrupts a posting is counted, and the threshold, NOTIFY and a queue event each send the message. -/
theorem coalesce_of_interrupts (hengine : s.hlu.engine ≠ .halted) (h : (s.cq c).interruptEnable = true) :
    coalesce c r s =
      if (s.cq c).threshold ≤ (s.cq c).unsignalled + 1 ∨ r.notify = true ∨ r.event = true
      then sendMessage c (s.modCq c Cq.countPosting) else s.modCq c Cq.countPosting := by
  rw [coalesce, State.halted_eq_false hengine, h]
  simp only [Bool.not_true, Bool.or_false, Bool.false_eq_true, if_false, State.cq_modCq_self, Cq.countPosting,
    Bool.or_eq_true, decide_eq_true_eq, or_assoc]

end

/-- Settles O48: by whether the CQ has interrupts, and by whether the posting is due a message. -/
theorem coalescingCountsOrSendsOneMessage : Obligations.CoalescingCountsOrSendsOneMessage := by
  intro c r s hengine x t due
  refine ⟨coalesce_of_no_interrupts, fun hinterrupts hdue => ?counted, fun hinterrupts hdue => ?sent⟩
  all_goals
    have ht : t = _ := coalesce_of_interrupts hengine hinterrupts
  case counted =>
    rw [ht, if_neg hdue]
    refine State.modCq_congr ?_
    simp only [Cq.countPosting, Bool.and_eq_true, decide_eq_true_eq, bne_iff_ne]
    rfl
  case sent =>
    rw [if_pos hdue] at ht
    rw [ht, sendMessage_cq, State.cq_modCq_self]
    refine ⟨rfl, fun room first => ?_⟩
    refine (sendMessage_writeQueue (s := s.modCq c Cq.countPosting) hengine room first).trans ?_
    rw [State.cq_modCq_self]
    rfl

/-! ### Hold timers (R199) -/

section
variable {c : CqNo} {s : State}

theorem exec_holdTimerExpiry_stopped (h : (s.cq c).holdTimer = none) :
    exec (.holdTimerExpiry c) s = .refused .eventNotDue := by
  change execHoldTimerExpiry c s = _
  rw [execHoldTimerExpiry, h]

theorem exec_holdTimerExpiry_running (h : (s.cq c).holdTimer ≠ none) :
    exec (.holdTimerExpiry c) s = .next (if 0 < (s.cq c).unsignalled
      then sendMessage c (s.modCq c fun x => { x with holdTimer := none })
      else s.modCq c fun x => { x with holdTimer := none }) := by
  obtain ⟨n, hn⟩ := Option.ne_none_iff_exists'.mp h
  change execHoldTimerExpiry c s = _
  simp only [execHoldTimerExpiry, hn, State.cq_modCq_self]

end

/-- Settles O25: by whether the timer runs, and by whether postings are unsignalled. -/
theorem holdTimerExpirySendsOneMessage : Obligations.HoldTimerExpirySendsOneMessage := by
  intro c s
  refine ⟨exec_holdTimerExpiry_stopped, fun hruns => ⟨fun hnone => ?_, fun hsome => ?_⟩⟩
  all_goals rw [exec_holdTimerExpiry_running hruns]
  · rw [if_neg (by omega)]
  · rw [if_pos hsome, sendMessage_eq, State.modCq_modCq, messageAsk, State.cq_modCq_self]

end Sys2Proof.Machine
end

section
/-! The write queue (R214, R219): what handing a write, issuing the head and admitting a waiting write do, and the bound of
the queue. -/

namespace Sys2Proof.Machine

/-! ### Handing a write -/

theorem trackWrite_eq (owner : Owner) (serial : Nat) (s : State) :
    ∃ settle, trackWrite owner serial s = { s with hlu := { s.hlu with settle := settle } } := by
  cases owner with
  | job j order record offset => exact ⟨_, rfl⟩
  | completion | progressHead | progressTail | progressBlock | message => exact ⟨s.hlu.settle, rfl⟩

/-- What a write that is handed does: it is discarded in HALTED, joins the write queue, or waits while the queue has no
room (R214, R219); settle tracking may learn of it (R216). -/
theorem handWrite_cases (w : WriteAsk) (s : State) :
    handWrite w s = s
      ∨ (∃ e n settle, queueHasRoom s = true ∧ handWrite w s =
          { s with hlu := { s.hlu with
              writeSerial := n, writeQueue := s.hlu.writeQueue ++ [e], settle := settle } })
      ∨ ∃ e n settle, queueHasRoom s = false ∧ handWrite w s =
          { s with hlu := { s.hlu with writeSerial := n, waiting := s.hlu.waiting ++ [e], settle := settle } } := by
  unfold handWrite
  split
  · exact .inl rfl
  · right
    dsimp only
    obtain ⟨settle, tracked⟩ := trackWrite_eq w.owner s.hlu.writeSerial _
    rw [tracked]
    cases room : queueHasRoom s with
    | true => exact .inl ⟨_, _, settle, rfl, rfl⟩
    | false => exact .inr ⟨_, _, settle, rfl, rfl⟩

/-! ### Admitting a waiting write -/

/-- The waiting write that is taken out for a writer is the first that it handed. -/
theorem takeWaiting_first {writer : Writer} {l : List HandedWrite} (h : writer ∈ l.map HandedWrite.writer) :
    ∃ w before after, l = before ++ w :: after ∧ w.writer = writer ∧ (∀ x ∈ before, x.writer ≠ writer)
      ∧ takeWaiting writer l = some (w, before ++ after) := by
  induction l with
  | nil => cases h
  | cons x l ih =>
    unfold takeWaiting
    by_cases hx : x.writer = writer
    · exact ⟨x, [], l, rfl, hx, fun _ hy => absurd hy List.not_mem_nil, if_pos hx⟩
    · rw [List.map_cons, List.mem_cons] at h
      obtain ⟨w, before, after, hsplit, hw, hfirst, htake⟩ := ih (h.resolve_left (Ne.symm hx))
      refine ⟨w, x :: before, after, by rw [hsplit]; rfl, hw, List.forall_mem_cons.mpr ⟨hx, hfirst⟩, ?_⟩
      rw [if_neg hx, htake]
      rfl

theorem admitWaiting_of_none {s : State} (h : s.hlu.waiting = []) : admitWaiting s = (none, s) := by
  simp [admitWaiting, h]

/-- One of the waiting writes is admitted, the first that its writer handed. -/
theorem admitWaiting_of_some {s : State} (h : s.hlu.waiting ≠ []) :
    ∃ w before after n, s.hlu.waiting = before ++ w :: after ∧ (∀ x ∈ before, x.writer ≠ w.writer)
      ∧ admitWaiting s = (some w,
        { s with
          hlu := { s.hlu with writeQueue := s.hlu.writeQueue ++ [w], waiting := before ++ after }
          choices := n }) := by
  have some_writer : 0 < ((s.hlu.waiting.map HandedWrite.writer).eraseDups).length := by
    obtain ⟨x, l, hl⟩ := List.exists_cons_of_ne_nil h
    rw [hl, List.map_cons, List.eraseDups_cons]
    exact Nat.succ_pos _
  obtain ⟨hlt, n, hchosen⟩ := s.choose_spec some_writer
  have hmem : ((s.hlu.waiting.map HandedWrite.writer).eraseDups)[(s.choose _).1] ∈ s.hlu.waiting.map HandedWrite.writer :=
    List.mem_eraseDups.mp (List.getElem_mem hlt)
  obtain ⟨w, before, after, hsplit, hw, hfirst, htake⟩ := takeWaiting_first hmem
  refine ⟨w, before, after, n, hsplit, hw ▸ hfirst, ?_⟩
  unfold admitWaiting
  simp only [hchosen, List.getElem?_eq_getElem hlt, Option.bind_some, htake]

/-! ### WRITE_ISSUE (R214, R219) -/

section
variable {s : State} {e : HandedWrite} {rest : List HandedWrite} {limit : Option Nat}

theorem exec_writeIssue_empty (h : s.hlu.writeQueue = []) (limit : Option Nat) (u : Upset) :
    exec (.writeIssue limit u) s = .refused .eventNotDue := by
  change execWriteIssue limit u s = _
  rw [execWriteIssue, State.strike_hlu, h]

theorem exec_writeIssue_part (h : s.hlu.writeQueue = e :: rest) {n : Nat} (hn : n < (e.linkOps.drop e.issued).length)
    (u : Upset) :
    exec (.writeIssue (some n) u) s = .next
      { s.strike u with hlu := { s.hlu with
          writeQueue := { e with issued := e.issued + n } :: rest, out := (e.linkOps.drop e.issued).take n } } := by
  change execWriteIssue (some n) u s = _
  rw [execWriteIssue, State.strike_hlu, h]
  exact if_pos hn

theorem exec_writeIssue_rest (h : s.hlu.writeQueue = e :: rest)
    (hlimit : ∀ n, limit = some n → (e.linkOps.drop e.issued).length ≤ n) (u : Upset) :
    exec (.writeIssue limit u) s = .next (writeLeaves (e.linkOps.drop e.issued) rest (s.strike u)) := by
  change execWriteIssue limit u s = _
  rw [execWriteIssue, State.strike_hlu, h]
  refine if_neg (Nat.not_lt.mpr ?_)
  cases limit with
  | none => exact Nat.le_refl _
  | some n => exact hlimit n rfl

end

/-- Settles O21: nothing to issue, part of the head, or all that remains of it, which nobody waits to replace. -/
theorem writeIssueTakesQueueHead : Obligations.WriteIssueTakesQueueHead := by
  intro limit u s
  refine ⟨fun hempty => exec_writeIssue_empty hempty limit u, fun e rest hqueue => ⟨?part, fun hall hnone => ?all⟩⟩
  case part =>
    rintro n rfl hn
    exact exec_writeIssue_part hqueue hn u
  case all =>
    have hadmit := admitWaiting_of_none
      (s := { s.strike u with hlu := { s.hlu with writeQueue := rest, out := e.linkOps.drop e.issued } }) hnone
    rw [exec_writeIssue_rest hqueue hall]
    exact congrArg (fun p => Host.Outcome.next (quiesce (writeJoined p.1 p.2))) hadmit

/-- Settles O22: the head leaves whole, and the choice among the writers names the write that joins. -/
theorem leavingWriteAdmitsOneWaiter : Obligations.LeavingWriteAdmitsOneWaiter := by
  intro u s e rest hqueue hwaits
  let ops := e.linkOps.drop e.issued
  obtain ⟨w, before, after, n, hsplit, hfirst, hadmit⟩ := admitWaiting_of_some
    (s := { s.strike u with hlu := { s.hlu with writeQueue := rest, out := ops } }) hwaits
  refine ⟨w, before, after, n, hsplit, hfirst, ?_⟩
  rw [exec_writeIssue_rest hqueue (limit := none) nofun]
  exact congrArg (fun p => Host.Outcome.next (quiesce (writeJoined p.1 p.2))) hadmit

/-! ### The bound of the write queue (R214) -/

theorem queueHasRoom_iff (s : State) :
    queueHasRoom s = true ↔ s.hlu.writeQueue.length < Config.writeQueueSize ∧ s.hlu.waiting = [] := by
  simp [queueHasRoom]

theorem WriteQueueBounded.handWrite {s : State} (p : WriteQueueBounded s) (w : WriteAsk) :
    WriteQueueBounded (handWrite w s) := by
  obtain ⟨bound, full⟩ := p
  obtain same | ⟨e, n, settle, room, joined⟩ | ⟨e, n, settle, noRoom, waits⟩ := handWrite_cases w s
  · rw [same]
    exact ⟨bound, full⟩
  · obtain ⟨hlt, hnone⟩ := (queueHasRoom_iff s).mp room
    rw [joined]
    refine ⟨?_, fun hwaits => absurd hnone hwaits⟩
    rw [List.length_append]
    exact hlt
  · rw [waits]
    refine ⟨bound, fun _ => ?_⟩
    by_cases hnone : s.hlu.waiting = []
    · have := mt (queueHasRoom_iff s).mpr (Bool.eq_false_iff.mp noRoom)
      exact Nat.le_antisymm bound (Nat.not_lt.mp fun hlt => this ⟨hlt, hnone⟩)
    · exact full hnone

/-- A write leaves, and a waiting one takes its place: only with nobody waiting does the queue shrink. -/
theorem WriteQueueBounded.leave {s : State} (p : WriteQueueBounded s) {e : HandedWrite} {rest : List HandedWrite}
    (h : s.hlu.writeQueue = e :: rest) (ops : List LinkOp) :
    WriteQueueBounded (admitWaiting { s with hlu := { s.hlu with writeQueue := rest, out := ops } }).2 := by
  obtain ⟨bound, full⟩ := p
  rw [h, List.length_cons] at bound full
  by_cases hnone : s.hlu.waiting = []
  · rw [admitWaiting_of_none (s := { s with hlu := { s.hlu with writeQueue := rest, out := ops } }) hnone]
    exact ⟨Nat.le_of_succ_le bound, fun hwaits => absurd hnone hwaits⟩
  · obtain ⟨w, before, after, n, -, -, hadmit⟩ := admitWaiting_of_some
      (s := { s with hlu := { s.hlu with writeQueue := rest, out := ops } }) hnone
    have length : (rest ++ [w]).length = Config.writeQueueSize := by
      rw [List.length_append]
      exact full hnone
    rw [hadmit]
    exact ⟨length.le, fun _ => length⟩

theorem writeQueueBounded_of_empty {s : State} (hwrites : s.hlu.writeQueue = []) (hwaits : s.hlu.waiting = []) :
    WriteQueueBounded s := by
  unfold WriteQueueBounded
  rw [hwrites, hwaits]
  exact ⟨Nat.zero_le _, fun h => absurd rfl h⟩

theorem WriteQueueBounded.of_queues {s t : State} (p : WriteQueueBounded s)
    (hwrites : t.hlu.writeQueue.length = s.hlu.writeQueue.length) (hwaits : t.hlu.waiting = s.hlu.waiting) :
    WriteQueueBounded t := by
  unfold WriteQueueBounded
  rw [hwrites, hwaits]
  exact p

/-- Only a hand, a leaving write and a halt change what stands in the two queues. -/
theorem Move.keeps_writeQueueBounded {s t : State} (m : Move s t) (p : WriteQueueBounded s) : WriteQueueBounded t := by
  cases m with
  | hand w => exact p.handWrite w
  | leave e rest ops h => exact p.leave h ops
  | issuePart e e' rest ops h => exact p.of_queues (by rw [h]; rfl) rfl
  | halt f => exact writeQueueBounded_of_empty rfl rfl
  | ask who part addr len place =>
    unfold askRead
    split <;> exact p
  | job | unit | sq | cq | chain | layout | table | group | settle | freeTag | protocol | engine | strike | drop | dropRest
    | setup | setupData | configure | posting | granted | takes | sch | ls | cts | choice | issueRead => exact p

/-- A reset empties both queues (R204, R220). -/
theorem Replaces.keeps_writeQueueBounded {i : Instr} {s t : State} (r : Replaces i s t) (p : WriteQueueBounded s) :
    WriteQueueBounded t := by
  cases r with
  | reset | clear | powerOn => exact writeQueueBounded_of_empty rfl rfl
  | registers => exact p

theorem exec_keeps_writeQueueBounded {i : Instr} {s t : State} (e : exec i s = .next t) (p : WriteQueueBounded s) :
    WriteQueueBounded t := by
  rcases exec_reaches e with moves | replaces
  · exact moves.keep (fun _ _ => Move.keeps_writeQueueBounded) p
  · exact replaces.keeps_writeQueueBounded p

/-- Settles O56: the command at the front is a chain of elementary moves or a reset, and each of them keeps the bound. -/
theorem writeQueueStaysBounded : Obligations.WriteQueueStaysBounded := by
  intro s t hstep p
  unfold step at hstep
  split at hstep
  · cases hstep
    exact p
  · exact exec_keeps_writeQueueBounded hstep (p.of_queues rfl rfl)

end Sys2Proof.Machine
end

section
/-! SETUP_LO and SETUP_HI (R202, R204, R220): no elementary move writes them. -/

namespace Sys2Proof.Machine

/-- Two states with the same SETUP_LO and SETUP_HI. -/
structure SetupFrame (s t : State) : Prop where
  lo : t.hlu.setupLo = s.hlu.setupLo
  hi : t.hlu.setupHi = s.hlu.setupHi

theorem SetupFrame.trans {s t u : State} (h : SetupFrame s t) (h' : SetupFrame t u) : SetupFrame s u :=
  ⟨h'.lo.trans h.lo, h'.hi.trans h.hi⟩

theorem handWrite_setupFrame (w : WriteAsk) (s : State) : SetupFrame s (handWrite w s) := by
  obtain same | ⟨e, n, settle, -, joined⟩ | ⟨e, n, settle, -, waits⟩ := handWrite_cases w s
  · rw [same]
    exact ⟨rfl, rfl⟩
  · rw [joined]
    exact ⟨rfl, rfl⟩
  · rw [waits]
    exact ⟨rfl, rfl⟩

theorem admitWaiting_setupFrame (s : State) : SetupFrame s (admitWaiting s).2 := by
  by_cases hnone : s.hlu.waiting = []
  · rw [admitWaiting_of_none hnone]
    exact ⟨rfl, rfl⟩
  · obtain ⟨w, before, after, n, -, -, hadmit⟩ := admitWaiting_of_some hnone
    rw [hadmit]
    exact ⟨rfl, rfl⟩

theorem Move.setupFrame {s t : State} (m : Move s t) : SetupFrame s t := by
  cases m with
  | hand w => exact handWrite_setupFrame w s
  | leave e rest ops h =>
    have left := admitWaiting_setupFrame { s with hlu := { s.hlu with writeQueue := rest, out := ops } }
    exact ⟨left.lo, left.hi⟩
  | ask who part addr len place =>
    unfold askRead
    split <;> exact ⟨rfl, rfl⟩
  | job | unit | sq | cq | chain | layout | table | group | settle | freeTag | protocol | engine | strike | drop | dropRest
    | setup | setupData | configure | posting | granted | takes | sch | ls | cts | choice | halt | issueRead | issuePart =>
    exact ⟨rfl, rfl⟩

/-- Settles O60: no elementary move writes the two registers, RESET and CLEAR keep them, and what else replaces the state is
a command that the statement leaves out. -/
theorem setupAddressChangesByRegisterWritesOnly : Obligations.SetupAddressChangesByRegisterWritesOnly := by
  intro i s t hexec hlinkReset hpowerOn hregister
  obtain moves | replaces := exec_reaches hexec
  · obtain ⟨lo, hi⟩ : SetupFrame s t := moves.keep (fun _ _ m p => p.trans m.setupFrame) ⟨rfl, rfl⟩
    exact ⟨lo, hi⟩
  · cases replaces with
    | reset | clear => exact ⟨rfl, rfl⟩
    | powerOn h => exact absurd h (not_or.mpr ⟨hlinkReset, hpowerOn⟩)
    | registers lo hi h =>
      obtain ⟨offset, width, v, rfl⟩ := h
      exact absurd rfl (hregister offset width v)

end Sys2Proof.Machine
end

section
/-! Leaving HALTED (R203, R218, R219): in HALTED every operation that an event comes down to keeps the engine state and
FAULT, and only the resets leave it. -/

namespace Sys2Proof.Machine

/-- The engine is HALTED, with `f` in FAULT. -/
structure HaltedWith (f : FaultRecord) (s : State) : Prop where
  engine : s.hlu.engine = .halted
  fault : s.hlu.fault = f

/-- An answer whose next state, if it has one, is HALTED with `f` in FAULT. -/
inductive StaysHalted (f : FaultRecord) : Answer → Prop
  | next {t : State} (h : HaltedWith f t) : StaysHalted f (.next t)
  | fault (r) : StaysHalted f (.fault r)
  | refused (r) : StaysHalted f (.refused r)

theorem StaysHalted.of_next {f : FaultRecord} {t : State} : StaysHalted f (.next t) → HaltedWith f t
  | .next h => h

section
variable {f : FaultRecord} {s : State}

theorem HaltedWith.not_live (p : HaltedWith f s) : s.live = false := by
  rw [State.live, p.engine]

theorem HaltedWith.halted (p : HaltedWith f s) : s.halted = true := s.halted_iff.mpr p.engine

/-! ### Operations of the part -/

theorem HaltedWith.quiesce (p : HaltedWith f s) : HaltedWith f (quiesce s) := by
  rw [quiesce_of_halted p.engine]
  exact p

/-- FAULT keeps the first fatal fault taken (R218). -/
theorem HaltedWith.fatalFault (p : HaltedWith f s) (g : FaultRecord) : HaltedWith f (fatalFault g s) := by
  rw [fatalFault_of_not_live p.not_live]
  exact p

theorem HaltedWith.of_readSlots {t : State} {js : List SlotNo} {good : Bool} (p : HaltedWith f s)
    (h : readSlots js s = (good, t)) : HaltedWith f t := by
  obtain ⟨-, hread⟩ | ⟨j, -, -, m, hread⟩ := readSlots_cases js s
  · cases h.symm.trans hread
    exact p
  · cases h.symm.trans hread
    exact HaltedWith.fatalFault (s := { s with choices := m }) ⟨p.engine, p.fault⟩ _

theorem HaltedWith.withSlots (p : HaltedWith f s) (js) {g : State → State} (hg : ∀ t, HaltedWith f t → HaltedWith f (g t)) :
    HaltedWith f (withSlots js g s) := by
  unfold Machine.withSlots
  split
  · next hread => exact hg _ (p.of_readSlots hread)
  · next hread => exact p.of_readSlots hread

/-! ### Formatting units (R161) -/

theorem HaltedWith.stopUnit (p : HaltedWith f s) (k) : HaltedWith f (stopUnit k s) := ⟨p.engine, p.fault⟩

theorem HaltedWith.releaseJob (p : HaltedWith f s) (k st d cmp) : HaltedWith f (releaseJob k st d cmp s) := by
  cases hctx : (s.fu k).ctx with
  | none =>
    unfold Machine.releaseJob
    rw [hctx]
    exact p
  | some c =>
    rw [releaseJob_of_halted hctx p.engine]
    exact p.stopUnit k

theorem HaltedWith.reportFaults (p : HaltedWith f s) (c fs n) : HaltedWith f (reportFaults c fs n s) := by
  rw [reportFaults_of_halted p.engine]
  exact p

theorem HaltedWith.recordBoundary (p : HaltedWith f s) (k) : HaltedWith f (recordBoundary k s) := by
  unfold Machine.recordBoundary
  split
  · exact p
  · rw [if_pos p.halted]
    exact p.stopUnit k

theorem HaltedWith.chunkBoundary (p : HaltedWith f s) (k) : HaltedWith f (chunkBoundary k s) := by
  unfold Machine.chunkBoundary
  split
  · exact p
  · rw [if_pos p.halted]
    exact p.stopUnit k

theorem HaltedWith.afterHandOff (p : HaltedWith f s) (k next) : HaltedWith f (afterHandOff k next s) := by
  unfold Machine.afterHandOff
  split
  · exact p
  · split
    · exact p.releaseJob k ..
    · split
      · exact p.chunkBoundary k
      · split
        · exact HaltedWith.recordBoundary (s := s.modCtx ..) ⟨p.engine, p.fault⟩ k
        · rw [if_pos p.halted]
          exact p.stopUnit k

theorem HaltedWith.handedOff (p : HaltedWith f s) (k next) : HaltedWith f (handedOff k next s) := by
  unfold Machine.handedOff
  split
  · exact p
  · next c _ =>
    split
    · next hread => exact (p.of_readSlots hread).stopUnit k
    · next t hread =>
      have counted : HaltedWith f t := p.of_readSlots hread
      exact HaltedWith.afterHandOff (s := countHandOff c t) ⟨counted.engine, counted.fault⟩ k next

theorem HaltedWith.handOutput (p : HaltedWith f s) (k next) : HaltedWith f (handOutput k next s) := by
  unfold Machine.handOutput
  split
  · exact p
  · split
    · next hread => exact (p.of_readSlots hread).stopUnit k
    · next t hread =>
      have handed : HaltedWith f t := p.of_readSlots hread
      dsimp only
      rw [handWrite_of_halted handed.engine, handed.halted, Bool.true_or, if_pos rfl, ite_self]
      exact handed.handedOff k next

theorem HaltedWith.parityError (p : HaltedWith f s) (k) : HaltedWith f (parityError k s) := by
  unfold Machine.parityError
  split
  · exact p
  · rw [if_pos p.halted]
    exact p.releaseJob k ..

/-! ### Directives, boundaries and batches -/

theorem HaltedWith.completeDirective (p : HaltedWith f s) (k c e) : StaysHalted f (completeDirective k c e s) := by
  unfold Machine.completeDirective
  split
  · exact .fault _
  · have reported := HaltedWith.reportFaults (f := f)
      (s := s.modFu k fun x =>
        { x with ctx := some (c.complete e), stgWindow := writeBytes x.stgWindow c.dstCursor e.out })
      ⟨p.engine, p.fault⟩ c e.faults c.directiveIndex
    dsimp only
    split
    · exact .next (reported.releaseJob k ..).quiesce
    · exact .next reported

theorem HaltedWith.strike (p : HaltedWith f s) (u) : HaltedWith f (s.strike u) := ⟨p.engine, p.fault⟩

theorem HaltedWith.runDirective (p : HaltedWith f s) (k u m) : StaysHalted f (runDirective k u m s) := by
  have struck := p.strike u
  unfold Machine.runDirective
  dsimp only
  split
  · exact .refused _
  · split
    · exact .refused _
    · split
      · exact .fault _
      · split
        · exact .refused _
        · split
          · exact .next (struck.parityError k).quiesce
          · split
            · exact struck.completeDirective k ..
            · exact .next (struck.parityError k).quiesce
            · exact .fault _

/-- At a boundary in HALTED the unit stops (R149, R161). -/
theorem HaltedWith.execDirectiveBoundary (p : HaltedWith f s) (k u) : StaysHalted f (execDirectiveBoundary k u s) := by
  have struck := p.strike u
  unfold Machine.execDirectiveBoundary
  dsimp only
  split
  · exact .refused _
  · split
    · exact .refused _
    · rw [if_pos struck.halted]
      exact .next (struck.stopUnit k)

theorem HaltedWith.execRecordBatch (p : HaltedWith f s) (k) : StaysHalted f (execRecordBatch k s) := by
  unfold Machine.execRecordBatch
  split
  · exact .refused _
  · split
    · exact .next ⟨p.engine, p.fault⟩
    · exact .refused _

theorem HaltedWith.totalRefused (p : HaltedWith f s) (k c) : HaltedWith f (totalRefused k c s) := by
  unfold Machine.totalRefused
  rw [reportFaults_of_halted p.engine]
  dsimp only
  split
  · exact p.releaseJob k ..
  · exact p.handOutput k _

theorem HaltedWith.execBatchAnswer (p : HaltedWith f s) (k u) : StaysHalted f (execBatchAnswer k u s) := by
  have struck := p.strike u
  unfold Machine.execBatchAnswer
  dsimp only
  split
  · exact .refused _
  · split
    · exact .next (struck.handOutput k _).quiesce
    · exact .next (struck.totalRefused k _).quiesce
    · exact .refused _

/-! ### Link events -/

theorem HaltedWith.setProtocol (p : HaltedWith f s) : HaltedWith f s.setProtocol := ⟨p.engine, p.fault⟩

theorem HaltedWith.setTag (p : HaltedWith f s) (t x) : HaltedWith f (s.setTag t x) := ⟨p.engine, p.fault⟩

/-- Nobody wants the data of a link read in flight (R219). -/
theorem HaltedWith.execLinkReadAnswer (p : HaltedWith f s) (dead : DeadTags s) (t n data u) :
    StaysHalted f (execLinkReadAnswer t n data u s) := by
  have struck := p.strike u
  unfold Machine.execLinkReadAnswer
  dsimp only
  split
  · exact .next struck
  · next g hg =>
    split
    · exact .next struck
    · split
      · exact .refused _
      · rw [dead t g hg, if_neg Bool.false_ne_true]
        exact .next (struck.setTag t none)

theorem HaltedWith.linkReadFaults (p : HaltedWith f s) {g : InFlight} (dead : g.read.live = false) (t) :
    HaltedWith f (linkReadFaults t g s) := by
  unfold Machine.linkReadFaults
  rw [dead]
  exact ⟨p.engine, p.fault⟩

theorem HaltedWith.execLinkReadError (p : HaltedWith f s) (dead : DeadTags s) (t n u) :
    StaysHalted f (execLinkReadError t n u s) := by
  have struck := p.strike u
  unfold Machine.execLinkReadError
  dsimp only
  split
  · exact .next struck
  · next g hg =>
    split
    · exact .next struck
    · exact .next (struck.linkReadFaults (dead t g hg) t)

theorem HaltedWith.execLinkReadTimeout (p : HaltedWith f s) (dead : DeadTags s) (t n u) :
    StaysHalted f (execLinkReadTimeout t n u s) := by
  have struck := p.strike u
  unfold Machine.execLinkReadTimeout
  dsimp only
  split
  · exact .refused _
  · next g hg =>
    split
    · exact .refused _
    · exact .next (struck.linkReadFaults (dead t g hg) t)

theorem HaltedWith.jobWriteRefused (p : HaltedWith f s) (j order record offset) :
    HaltedWith f (jobWriteRefused j order record offset s) := by
  unfold Machine.jobWriteRefused
  rw [p.engine]
  dsimp only
  split
  · exact p
  · refine p.withSlots _ fun t ht => ?_
    split
    · exact ht
    · exact ⟨ht.engine, ht.fault⟩

theorem HaltedWith.execWriteFaultReport (p : HaltedWith f s) (owner u) :
    StaysHalted f (execWriteFaultReport owner u s) := by
  have struck := p.strike u
  cases owner with
  | job j order record offset => exact .next (struck.jobWriteRefused ..)
  | completion | progressHead | progressTail | progressBlock => exact .next (struck.fatalFault _)
  | message => exact .next struck

/-! ### Register writes (R177, R194, R202, R203) -/

theorem HaltedWith.startCommand (p : HaltedWith f s) : HaltedWith f (startCommand s) := by
  rw [Machine.startCommand, p.engine]
  exact p.setProtocol

theorem HaltedWith.pauseCommand (p : HaltedWith f s) : HaltedWith f (pauseCommand s) := by
  rw [Machine.pauseCommand, p.engine]
  exact p.setProtocol

theorem HaltedWith.resumeCommand (p : HaltedWith f s) : HaltedWith f (resumeCommand s) := by
  rw [Machine.resumeCommand, p.engine]
  exact p.setProtocol

/-- Of the words written to CTRL only the codes of RESET, CLEAR and ACK_PROTOCOL have an effect but PROTOCOL (R203). -/
theorem HaltedWith.ctrlWrite (p : HaltedWith f s) {w : Word} (hreset : w.toNat ≠ 4) (hclear : w.toNat ≠ 5) :
    HaltedWith f (ctrlWrite w s) := by
  unfold Machine.ctrlWrite
  split
  · exact p.startCommand
  · exact p.pauseCommand
  · exact p.resumeCommand
  · next h => exact absurd h hreset
  · next h => exact absurd h hclear
  · exact ⟨p.engine, p.fault⟩
  · exact p.setProtocol

theorem HaltedWith.postWrite (p : HaltedWith f s) (w) : HaltedWith f (postWrite w s) := by
  rw [postWrite_of_not_live p.not_live]
  exact p

theorem HaltedWith.retireWrite (p : HaltedWith f s) (w) : HaltedWith f (retireWrite w s) := by
  rw [retireWrite_of_not_live p.not_live]
  exact p

/-- A well-formed register write is none to CTRL. -/
theorem HaltedWith.execRegisterWrite (p : HaltedWith f s) {offset width} (hctrl : commandOffset offset width = false) (v) :
    StaysHalted f (execRegisterWrite offset width v s) := by
  cases width with
  | byte | half => exact .next p
  | word =>
    refine .next ?_
    unfold wordWrite
    split
    · next h =>
      have zero : offset = 0 := BitVec.eq_of_toNat_eq h
      rw [zero] at hctrl
      exact absurd hctrl (by decide)
    · exact ⟨p.engine, p.fault⟩
    · exact ⟨p.engine, p.fault⟩
    · exact p.postWrite v
    · exact p.retireWrite v
    · exact p

end

/-! ### Every command -/

/-- In a quiet HALTED engine nothing stands in a queue to be issued, no timer runs and nobody waits for a read, so that no
command but a reset has more to do than to stop a unit. -/
theorem exec_stays_halted {i : Instr} {s : State} {f : FaultRecord} (hwf : i.wf = true) (quiet : HaltQuiet s)
    (p : HaltedWith f s) (hreset : i ≠ .reset) (hclear : i ≠ .clear) (hlinkReset : i ≠ .linkReset)
    (hpowerOn : i ≠ .powerOn) : StaysHalted f (exec i s) := by
  obtain ⟨reads, writes, -, dead, timers⟩ := quiet
  cases i with
  | reset => exact absurd rfl hreset
  | clear => exact absurd rfl hclear
  | linkReset => exact absurd rfl hlinkReset
  | powerOn => exact absurd rfl hpowerOn
  | start => exact .next p.startCommand
  | pause => exact .next p.pauseCommand
  | resume => exact .next p.resumeCommand
  | ackProtocol => exact .next ⟨p.engine, p.fault⟩
  | ctrlInvalidCommand w =>
    have hcodes : ¬ ((w = 4#32 ∨ w = 5#32) ∨ w = 6#32) := by simpa [Instr.wf] using hwf
    refine .next (p.ctrlWrite ?_ ?_)
    · exact fun h => hcodes (.inl (.inl (BitVec.eq_of_toNat_eq h)))
    · exact fun h => hcodes (.inl (.inr (BitVec.eq_of_toNat_eq h)))
  | post w => exact .next (p.postWrite w)
  | retire w => exact .next (p.retireWrite w)
  | registerWrite offset width v => exact p.execRegisterWrite ((Bool.not_eq_true' _).mp hwf) v
  | linkReadIssue t =>
    change StaysHalted f (execLinkReadIssue t s)
    rw [execLinkReadIssue, reads]
    exact .refused _
  | linkReadAnswer t n data u => exact p.execLinkReadAnswer dead ..
  | linkReadError t n u => exact p.execLinkReadError dead ..
  | linkReadTimeout t n u => exact p.execLinkReadTimeout dead ..
  | writeIssue limit u =>
    change StaysHalted f (execWriteIssue limit u s)
    rw [execWriteIssue, State.strike_hlu, writes]
    exact .refused _
  | writeFaultReport owner u => exact p.execWriteFaultReport ..
  | holdTimerExpiry c =>
    rw [exec_holdTimerExpiry_stopped (timers c)]
    exact .refused _
  | directiveBoundary k u => exact p.execDirectiveBoundary k u
  | copy k u | copyUntil k u | skip k u | literal k u | fill k u | padTo k u | check k u | number k u | addTotal k u
    | repeatGroup k u => exact p.runDirective ..
  | recordBatch k => exact p.execRecordBatch k
  | batchAnswer k u => exact p.execBatchAnswer k u

theorem exec_reset_engine {i : Instr} {s t : State} (h : i = .reset ∨ i = .clear ∨ i = .linkReset ∨ i = .powerOn)
    (hexec : exec i s = .next t) : t.hlu.engine = .off ∧ t.hlu.fault = {} := by
  obtain rfl | rfl | rfl | rfl := h <;> (cases hexec; exact ⟨rfl, rfl⟩)

/-- Settles O59: the four resets by what they leave, every other command by what it finds in HALTED. -/
theorem haltedIsLeftByResetsOnly : Obligations.HaltedIsLeftByResetsOnly := by
  intro i s t hwf hquiet hengine hexec
  refine ⟨fun hreset => exec_reset_engine hreset hexec, fun hreset hclear hlinkReset hpowerOn => ?_⟩
  have stays := exec_stays_halted hwf (hquiet hengine) ⟨hengine, rfl⟩ hreset hclear hlinkReset hpowerOn
  rw [hexec] at stays
  exact ⟨stays.of_next.engine, stays.of_next.fault⟩

end Sys2Proof.Machine
end

section
/-! The register window and engine control (R202, R203, R205, R210, R211): START, RESUME, misplaced CTRL writes, register
writes and register reads. -/

namespace Sys2Proof.Machine

/-! ### CTRL commands (R203, R205, R210, R211) -/

section
variable {s : State} {w : Word}

theorem startCommand_misplaced (h : s.hlu.engine ≠ .off) : startCommand s = s.setProtocol := if_pos h

theorem startCommand_unaligned (h : s.hlu.engine = .off) (ha : (setupAddr s).toNat % 64 ≠ 0) :
    startCommand s = setupFailed .badAlign (latchSetup s) := by
  rw [startCommand, if_neg (not_not.mpr h), if_pos ha]

theorem startCommand_aligned (h : s.hlu.engine = .off) (ha : (setupAddr s).toNat % 64 = 0) :
    startCommand s = askRead .setup 0 (setupAddr s) 512 0 (latchSetup s) := by
  rw [startCommand, if_neg (not_not.mpr h), if_neg (not_not.mpr ha)]

theorem pauseCommand_misplaced (h : s.hlu.engine ≠ .running) : pauseCommand s = s.setProtocol := if_pos h

theorem resumeCommand_due (h : s.hlu.engine = .pausing ∨ s.hlu.engine = .paused) :
    resumeCommand s = quiesce (s.setEngine .running) := by
  unfold resumeCommand
  obtain h | h := h <;> rw [h]

theorem resumeCommand_misplaced (hpausing : s.hlu.engine ≠ .pausing) (hpaused : s.hlu.engine ≠ .paused) :
    resumeCommand s = s.setProtocol := by
  unfold resumeCommand
  split
  · next h => exact absurd h hpausing
  · next h => exact absurd h hpaused
  all_goals rfl

/-- A word that is none of the six codes sets PROTOCOL (R203, R211). -/
theorem ctrlWrite_of_no_code (h : w.toNat = 0 ∨ 7 ≤ w.toNat) : ctrlWrite w s = s.setProtocol := by
  unfold ctrlWrite
  split
  · omega
  · omega
  · omega
  · omega
  · omega
  · omega
  · rfl

end

/-- Settles O3: by the alignment of the address that the two registers give. -/
theorem startLatchesSetupAddress : Obligations.StartLatchesSetupAddress := by
  intro s hoff a
  refine ⟨fun ha => ?unaligned, fun ha => ?aligned⟩
  case unaligned => exact congrArg Host.Outcome.next (startCommand_unaligned hoff ha)
  case aligned =>
    have asked := askRead_of_not_halted (s := latchSetup s) EngineState.noConfusion .setup 0 a 512 0
    exact congrArg Host.Outcome.next ((startCommand_aligned hoff ha).trans asked)

/-- Settles O4: each write by its command in a state that R203 marks P. -/
theorem misplacedControlSetsProtocol : Obligations.MisplacedControlSetsProtocol := fun _ =>
  ⟨fun h => congrArg Host.Outcome.next (startCommand_misplaced h),
    fun h => congrArg Host.Outcome.next (pauseCommand_misplaced h),
    fun hpausing hpaused => congrArg Host.Outcome.next (resumeCommand_misplaced hpausing hpaused),
    fun _ h => congrArg Host.Outcome.next (ctrlWrite_of_no_code h), rfl⟩

/-- Settles O6: the engine is RUNNING, and a settled part stays as it is. -/
theorem resumeMakesEngineRunning : Obligations.ResumeMakesEngineRunning := by
  intro s hdue t
  have run : exec .resume s = .next (quiesce t) := congrArg Host.Outcome.next (resumeCommand_due hdue)
  exact ⟨run, fun hsettled => by rw [run, quiesce_settled hsettled]⟩

/-! ### Register writes (R202) -/

/-- A full-width write where no writable register stands is ignored (R202). -/
theorem wordWrite_of_no_register {offset : BitVec 12} (hctrl : offset ≠ 0x00) (hlo : offset ≠ 0x08) (hhi : offset ≠ 0x0C)
    (hpost : offset ≠ 0x10) (hretire : offset ≠ 0x14) (v : Word) (s : State) : wordWrite offset.toNat v s = s := by
  unfold wordWrite
  split
  · next h => exact absurd (BitVec.eq_of_toNat_eq h) hctrl
  · next h => exact absurd (BitVec.eq_of_toNat_eq h) hlo
  · next h => exact absurd (BitVec.eq_of_toNat_eq h) hhi
  · next h => exact absurd (BitVec.eq_of_toNat_eq h) hpost
  · next h => exact absurd (BitVec.eq_of_toNat_eq h) hretire
  · rfl

/-- Settles O11: narrow writes, then the offsets, then the codes of CTRL. -/
theorem registerWriteReachesItsRegister : Obligations.RegisterWriteReachesItsRegister := by
  intro offset v s
  refine ⟨rfl, rfl, rfl, rfl, fun hctrl hlo hhi hpost hretire => ?other, rfl, rfl, rfl, rfl, rfl, rfl, rfl, rfl,
    fun h => ?noCode⟩
  case other => exact congrArg Host.Outcome.next (wordWrite_of_no_register hctrl hlo hhi hpost hretire v s)
  case noCode => exact congrArg Host.Outcome.next (ctrlWrite_of_no_code h)

/-! ### Fields of a register (R202) -/

/-- A field of the register that a number gives. -/
theorem extractLsb'_ofNat (n start len : Nat) :
    ((BitVec.ofNat 32 n).extractLsb' start len).toNat = n % 2 ^ 32 / 2 ^ start % 2 ^ len := by
  rw [BitVec.extractLsb'_toNat, BitVec.toNat_ofNat, Nat.shiftRight_eq_div_pow]

theorem EngineState.code_le (e : EngineState) : e.code ≤ 5 := by cases e <;> decide

theorem SetupResult.code_le (r : SetupResult) : r.code ≤ 7 := by cases r <;> decide

theorem FatalCode.code_le (c : FatalCode) : c.code ≤ 3 := by cases c <;> decide

theorem QueueType.code_le (q : QueueType) : q.code ≤ 3 := by cases q <;> decide

theorem State.busyUnits_le (s : State) : s.busyUnits ≤ 4 :=
  (List.length_filter_le ..).trans (List.length_finRange).le

theorem State.slotsInUse_le (s : State) : s.slotsInUse ≤ 32 :=
  (List.length_filter_le ..).trans (List.length_finRange).le

/-- The fields of STAT. -/
theorem statWord_fields (s : State) :
    let w := statWord s
    (w.extractLsb' 0 4).toNat = s.hlu.engine.code ∧ (w.extractLsb' 4 4).toNat = s.hlu.setupResult.code
      ∧ w.getLsbD 8 = s.hlu.protocol ∧ (w.extractLsb' 9 3).toNat = s.busyUnits
      ∧ (w.extractLsb' 16 6).toNat = s.slotsInUse
      ∧ (w.extractLsb' 12 4).toNat = 0 ∧ (w.extractLsb' 22 10).toNat = 0 := by
  have engine := s.hlu.engine.code_le
  have result := s.hlu.setupResult.code_le
  have busy := s.busyUnits_le
  have used := s.slotsInUse_le
  intro w
  simp only [w, statWord, extractLsb'_ofNat, BitVec.getLsbD_ofNat, Nat.testBit_eq_decide_div_mod_eq]
  cases s.hlu.protocol <;>
    (simp only [Bool.false_eq_true, if_true, if_false, decide_eq_true_eq, decide_eq_false_iff_not, Bool.and_eq_true,
      Bool.and_eq_false_iff]; omega)

/-- The fields of FAULT. -/
theorem faultWord_fields (f : FaultRecord) :
    let w := faultWord f
    (w.extractLsb' 0 4).toNat = f.code.code ∧ (w.extractLsb' 4 2).toNat = f.queueType.code
      ∧ (w.extractLsb' 8 3).toNat = f.queue.val ∧ (w.extractLsb' 16 5).toNat = f.slot.val
      ∧ (w.extractLsb' 6 2).toNat = 0 ∧ (w.extractLsb' 11 5).toNat = 0 ∧ (w.extractLsb' 21 11).toNat = 0 := by
  have code := f.code.code_le
  have queueType := f.queueType.code_le
  have queue := f.queue.isLt
  have slot := f.slot.isLt
  intro w
  simp only [w, faultWord, extractLsb'_ofNat]
  omega

/-! ### Register reads (R202) -/

section
variable (s : State) (offset : BitVec 12)

theorem readRegister_word (h : offset.toNat % 4 = 0) : readRegister s offset .word = registerAt s offset.toNat := by
  simp only [readRegister, widthBytes, h]
  exact BitVec.and_allOnes

/-- A read within one aligned word answers the addressed bytes of that word. -/
theorem readRegister_within {width : AccessWidth} (h : offset.toNat % 4 + widthBytes width ≤ 4) :
    readRegister s offset width =
      (readRegister s (BitVec.ofNat 12 (offset.toNat - offset.toNat % 4)) .word >>> (8 * (offset.toNat % 4)))
        &&& BitVec.ofNat 32 (2 ^ (8 * widthBytes width) - 1) := by
  have aligned : (BitVec.ofNat 12 (offset.toNat - offset.toNat % 4)).toNat = offset.toNat - offset.toNat % 4 := by
    rw [BitVec.toNat_ofNat]
    omega
  rw [readRegister_word s _ (by rw [aligned]; omega), aligned]
  exact if_pos h

theorem registerAt_of_no_register (hstat : offset ≠ 0x04) (hlo : offset ≠ 0x08) (hhi : offset ≠ 0x0C)
    (hfault : offset ≠ 0x18) : registerAt s offset.toNat = 0 := by
  unfold registerAt
  split
  · next h => exact absurd (BitVec.eq_of_toNat_eq h) hstat
  · next h => exact absurd (BitVec.eq_of_toNat_eq h) hlo
  · next h => exact absurd (BitVec.eq_of_toNat_eq h) hhi
  · next h => exact absurd (BitVec.eq_of_toNat_eq h) hfault
  · rfl

end

/-- Settles O12: the four registers at their offsets, and every other read by the aligned word it lies in. -/
theorem registersReadTheirFields : Obligations.RegistersReadTheirFields := by
  intro offset s w
  have stat : w = statWord s := readRegister_word s 0x04 rfl
  refine ⟨stat ▸ statWord_fields s, ?fault, readRegister_word s 0x08 rfl, readRegister_word s 0x0C rfl,
    fun haligned hstat hlo hhi hfault => ?none, fun heven => ?half, ?byte⟩
  case fault =>
    intro v
    have fault : v = faultWord s.hlu.fault := readRegister_word s 0x18 rfl
    exact fault ▸ faultWord_fields s.hlu.fault
  case none => rw [readRegister_word s offset haligned, registerAt_of_no_register s offset hstat hlo hhi hfault]
  case half => exact readRegister_within s offset (width := .half) (by rw [widthBytes]; omega)
  case byte => exact readRegister_within s offset (width := .byte) (by rw [widthBytes]; omega)

end Sys2Proof.Machine
end

section
/-! The part after power-on (R220) meets every invariant (R145, R163, R214, R219). -/

namespace Sys2Proof.Machine

theorem piecesSound_reset : PiecesSound State.reset :=
  ⟨rfl, sq_reset_sound, cq_reset_inRange, units_reset_sound, ⟨rfl, rfl, rfl⟩, rfl, group_reset_sound⟩

/-- Settles O58: every piece is sound, the queues and tags are empty, and the engine is OFF. -/
theorem powerOnStateMeetsTheInvariants : Obligations.PowerOnStateMeetsTheInvariants :=
  ⟨(soundPart_iff_pieces _).mpr piecesSound_reset, readyOrdered_of_empty rfl, writeQueueBounded_of_empty rfl rfl,
    haltedIsQuiet_of_not_halted EngineState.noConfusion, stampsPast_of_no_flight rfl⟩

end Sys2Proof.Machine
end

section
/-! Link reads (R205 to R208, R212, R213, R219, R221): how a read is divided, the issue of a link read, and the answers that
reach a requester and those that reach nobody. -/

namespace Sys2Proof.Machine

/-! ### The division of a read (R212) -/

/-- How many of `len` bytes from `a` lie before the link read number `i`. -/
def bytesBefore (a : HostAddr) (len i : Nat) : Nat := min len (512 * i - a.toNat % 512)

/-- The number of link reads of `len` bytes from `a`, of which there is at least one. -/
def pieceCount (a : HostAddr) (len : Nat) : Nat := (a.toNat % 512 + len + 511) / 512

section
variable (a : HostAddr) {len : Nat}

/-- The link read number `i`, from where the ones before it end to where the ones up to it end. -/
theorem linkPieces_eq (h : 0 < len) :
    linkPieces a len = (List.range (pieceCount a len)).map fun i =>
      (bytesBefore a len i, bytesBefore a len (i + 1) - bytesBefore a len i) := by
  unfold linkPieces
  simp only [Config.linkSpan, if_neg h.ne']
  refine List.map_congr_left fun i hi => ?_
  have hi := List.mem_range.mp hi
  have start : 512 * i - a.toNat % 512 ≤ len := by
    omega
  rw [bytesBefore, bytesBefore, Nat.min_eq_right start]

theorem bytesBefore_mono (i : Nat) : bytesBefore a len i ≤ bytesBefore a len (i + 1) := by
  unfold bytesBefore
  omega

theorem bytesBefore_zero : bytesBefore a len 0 = 0 := by
  unfold bytesBefore
  omega

theorem bytesBefore_pieceCount : bytesBefore a len (pieceCount a len) = len := by
  unfold bytesBefore pieceCount
  omega

theorem sum_pieces (n : Nat) :
    ((List.range n).map fun i => bytesBefore a len (i + 1) - bytesBefore a len i).sum = bytesBefore a len n := by
  induction n with
  | zero => exact (bytesBefore_zero a).symm
  | succ n ih =>
    rw [List.range_succ, List.map_append, List.sum_append, ih, List.map_singleton, List.sum_singleton]
    exact Nat.add_sub_cancel' (bytesBefore_mono a n)

/-- A link read has a byte, and lies inside one block of 512. -/
theorem piece_inside {i : Nat} (h : i < pieceCount a len) (hlen : 0 < len) :
    let start := bytesBefore a len i
    let n := bytesBefore a len (i + 1) - start
    0 < n ∧ (a.toNat + start) / 512 = (a.toNat + start + n - 1) / 512 := by
  unfold pieceCount at h
  unfold bytesBefore
  dsimp only
  omega

end

theorem linkPieces_zero (a : HostAddr) : linkPieces a 0 = [(0, 0)] := rfl

/-- A link read by its number. -/
theorem linkPieces_get {a : HostAddr} {len i : Nat} {p : Nat × Nat} (hlen : 0 < len) (h : (linkPieces a len)[i]? = some p) :
    i < pieceCount a len ∧ p = (bytesBefore a len i, bytesBefore a len (i + 1) - bytesBefore a len i) := by
  rw [linkPieces_eq a hlen, List.getElem?_map, Option.map_eq_some_iff] at h
  obtain ⟨j, hj, rfl⟩ := h
  obtain ⟨hi, rfl⟩ := List.getElem?_eq_some_iff.mp hj
  rw [List.getElem_range]
  exact ⟨by rwa [List.length_range] at hi, rfl⟩

theorem linkPieces_sizes (a : HostAddr) {len : Nat} (hlen : 0 < len) :
    (linkPieces a len).map Prod.snd = (List.range (pieceCount a len)).map fun i =>
      bytesBefore a len (i + 1) - bytesBefore a len i := by
  rw [linkPieces_eq a hlen, List.map_map]
  rfl

/-- Settles O14: each link read goes from where the ones before it end to where it ends itself, and the last end is the
length. -/
theorem linkReadsCoverTheRead : Obligations.LinkReadsCoverTheRead := by
  intro a len ps
  obtain rfl | hlen := Nat.eq_zero_or_pos len
  · have hps : ps = [(0, 0)] := linkPieces_zero a
    rw [hps]
    refine ⟨rfl, fun i p hp => ?_, fun p hp => .inl ?_, fun h => absurd h (Nat.lt_irrefl 0), fun _ => rfl, nofun⟩
    · obtain ⟨hi, rfl⟩ := List.getElem?_eq_some_iff.mp hp
      obtain rfl : i = 0 := Nat.lt_one_iff.mp hi
      rfl
    · rw [List.mem_singleton.mp hp]
  · have inside (p) (hp : p ∈ ps) : 0 < p.2 ∧ (a.toNat + p.1) / 512 = (a.toNat + p.1 + p.2 - 1) / 512 := by
      obtain ⟨i, hi⟩ := List.mem_iff_getElem?.mp hp
      obtain ⟨hcount, rfl⟩ := linkPieces_get hlen hi
      exact piece_inside a hcount hlen
    refine ⟨?sum, fun i p hp => ?place, fun p hp => .inr (inside p hp).2, fun _ p hp => (inside p hp).1,
      fun h => absurd h hlen.ne', fun ha hblock => ?block⟩
    case sum => rw [linkPieces_sizes a hlen, sum_pieces, bytesBefore_pieceCount]
    case place =>
      obtain ⟨hcount, rfl⟩ := linkPieces_get hlen hp
      rw [List.map_take, linkPieces_sizes a hlen, ← List.map_take, List.take_range, Nat.min_eq_left hcount.le, sum_pieces]
    case block =>
      have one : pieceCount a len = 1 := by
        unfold pieceCount
        omega
      have whole : bytesBefore a len 1 = 512 := by
        unfold bytesBefore
        omega
      have hps : ps = _ := linkPieces_eq a hlen
      rw [hps, one, List.range_one, List.map_singleton, whole, bytesBefore_zero]

/-! ### LINK_READ_ISSUE (R212) -/

/-- The part after the link read at the head of the read queue has been issued under a tag. -/
def issued (tag : ReadTag) (r : LinkRead) (rest : List LinkRead) (s : State) : State :=
  { s with
    hlu := { s.hlu with
      readQueue := rest, tags := (s.setTag tag (some ⟨r, s.readStamp⟩)).hlu.tags, out := [.read tag r.addr r.len] }
    readStamp := s.readStamp + 1 }

/-- Settles O13: by the head of the read queue, and then by what the tag carries. -/
theorem linkReadIssueTakesQueueHead : Obligations.LinkReadIssueTakesQueueHead := by
  intro tag s
  refine ⟨fun hempty => ?empty, fun r rest hqueue => ⟨fun htaken => ?taken, fun hfree => ?issued⟩⟩
  case empty =>
    change execLinkReadIssue tag s = _
    rw [execLinkReadIssue, hempty]
  case taken =>
    obtain ⟨f, hf⟩ := Option.ne_none_iff_exists'.mp htaken
    change execLinkReadIssue tag s = _
    rw [execLinkReadIssue, hqueue, hf]
  case issued =>
    have run : execLinkReadIssue tag s = .next (issued tag r rest s) := by
      rw [execLinkReadIssue, hqueue, hfree]
      rfl
    exact ⟨issued tag r rest s, run, rfl, State.tag_setTag_self s tag (some ⟨r, s.readStamp⟩),
      fun other hother => (State.tag_setTag s tag other (some ⟨r, s.readStamp⟩)).trans (if_neg hother)⟩

/-! ### Answers that reach nobody (R213, R219, R221) -/

section
variable {tag : ReadTag} {n : Nat} {s : State} (data : List Byte) (u : Upset)

/-- No link read issued as number `n` is in flight under the tag. -/
theorem linkRead_stale (h : ∀ f, s.tag tag = some f → f.stamp ≠ n) :
    exec (.linkReadAnswer tag n data u) s = .next (s.strike u) ∧ exec (.linkReadError tag n u) s = .next (s.strike u)
      ∧ exec (.linkReadTimeout tag n u) s = .refused .eventNotDue := by
  change execLinkReadAnswer tag n data u s = _ ∧ execLinkReadError tag n u s = _ ∧ execLinkReadTimeout tag n u s = _
  simp only [execLinkReadAnswer, execLinkReadError, execLinkReadTimeout, State.tag_strike]
  cases hf : s.tag tag with
  | none => exact ⟨rfl, rfl, rfl⟩
  | some f =>
    have stale := h f hf
    exact ⟨if_pos stale, if_pos stale, if_pos stale⟩

variable {f : InFlight} (h : s.tag tag = some f)
include h

theorem linkReadAnswer_of_length (hlen : data.length ≠ f.read.len) :
    exec (.linkReadAnswer tag f.stamp data u) s = .refused .answerLength := by
  change execLinkReadAnswer tag f.stamp data u s = _
  simp only [execLinkReadAnswer, State.tag_strike, h]
  rw [if_neg (not_not.mpr rfl), if_pos hlen]

theorem linkReadAnswer_unwanted (hdead : f.read.live = false) (hlen : data.length = f.read.len) :
    exec (.linkReadAnswer tag f.stamp data u) s = .next ((s.strike u).setTag tag none) := by
  change execLinkReadAnswer tag f.stamp data u s = _
  simp only [execLinkReadAnswer, State.tag_strike, h, hdead]
  rw [if_neg (not_not.mpr rfl), if_neg (not_not.mpr hlen), if_neg Bool.false_ne_true]

/-- A fault of a link read that nobody wants takes what is queued of its read off the queue (R213). -/
theorem linkReadFault_unwanted (hdead : f.read.live = false) :
    let t := dropRest f ((s.strike u).setTag tag none)
    exec (.linkReadError tag f.stamp u) s = .next t ∧ exec (.linkReadTimeout tag f.stamp u) s = .next t := by
  change execLinkReadError tag f.stamp u s = _ ∧ execLinkReadTimeout tag f.stamp u s = _
  simp only [execLinkReadError, execLinkReadTimeout, State.tag_strike, h, linkReadFaults, hdead]
  exact ⟨if_neg (not_not.mpr rfl), if_neg (not_not.mpr rfl)⟩

end

theorem LinkRead.behind_iff (r f : LinkRead) :
    r.behind f = true ↔ r.requester = f.requester ∧ r.part = f.part ∧ f.place < r.place := by
  simp [LinkRead.behind, and_assoc]

/-- The head of the read queue is what is left of the read of `f`, as the statement of log 17 puts it. -/
theorem restQueued_iff (f : InFlight) (s : State) :
    restQueued f s = true ↔ ∃ r, s.hlu.readQueue.head? = some r ∧ r.behind f.read = true
      ∧ r.place = f.read.place + f.read.len + 512 * (s.readStamp - (f.stamp + 1)) := by
  simp [restQueued, Option.any_eq_true, Config.linkSpan]

/-- With link reads of its own read at the head of the queue, those are taken off it and no others. -/
theorem dropRest_of_rest {f : InFlight} {s : State} {mine others : List LinkRead} (hrest : restQueued f s = true)
    (hqueue : s.hlu.readQueue = mine ++ others) (hmine : ∀ r ∈ mine, r.behind f.read = true)
    (hothers : ∀ r, others.head? = some r → r.behind f.read ≠ true) :
    dropRest f s = { s with hlu := { s.hlu with readQueue := others } } := by
  have kept : others.dropWhile (LinkRead.behind · f.read) = others := by
    cases others with
    | nil => rfl
    | cons r others => exact List.dropWhile_cons_of_neg (hothers r rfl)
  rw [dropRest, if_pos hrest, hqueue, List.dropWhile_append_of_pos hmine, kept]

theorem dropRest_of_no_rest {f : InFlight} {s : State} (hrest : ¬ restQueued f s = true) : dropRest f s = s := by
  rw [dropRest, if_neg hrest]

/-- Settles O15: no link read of that number, one that nobody wants, and an answer of another length. -/
theorem staleAndUnwantedAnswersReachNobody : Obligations.StaleAndUnwantedAnswersReachNobody := by
  intro tag n data u s
  refine ⟨fun hstale => linkRead_stale data u hstale, ?unwanted, ?length⟩
  case length =>
    rintro f hf rfl hlen
    exact linkReadAnswer_of_length data u hf hlen
  case unwanted =>
    rintro f hf rfl hdead
    refine ⟨linkReadAnswer_unwanted data u hf hdead, fun r mine others hqueue hplace hmine hothers => ?rest,
      fun hhead => ?nothing⟩
    case rest =>
      have behind (x) (hx : x ∈ r :: mine) : x.behind f.read = true := (x.behind_iff f.read).mpr (hmine x hx)
      have hrest : restQueued f ((s.strike u).setTag tag none) = true :=
        (restQueued_iff f _).mpr ⟨r, congrArg List.head? hqueue, behind r List.mem_cons_self, hplace⟩
      have drops := dropRest_of_rest hrest hqueue behind fun x hx =>
        mt (x.behind_iff f.read).mp (hothers x hx)
      exact drops ▸ linkReadFault_unwanted u hf hdead
    case nothing =>
      have hrest : ¬ restQueued f ((s.strike u).setTag tag none) = true := by
        rw [restQueued_iff]
        rintro ⟨r, hr, hbehind, hplace⟩
        exact hhead r hr ⟨(r.behind_iff f.read).mp hbehind, hplace⟩
      exact dropRest_of_no_rest hrest ▸ linkReadFault_unwanted u hf hdead

/-! ### Answers that reach their requester (R212) -/

theorem afterData_waits {who : Requester} {s : State} (h : readOutstanding who s = true) : afterData who s = s := if_pos h

/-- Settles O16: a wanted answer is placed, and the requester is told of the last one. -/
theorem answersPlaceDataUntilTheLast : Obligations.AnswersPlaceDataUntilTheLast := by
  intro tag f data u s htag hlive hlen placed
  rw [linkReadAnswer_wanted u htag hlive hlen]
  exact ⟨fun hwaits => congrArg _ (afterData_waits hwaits), fun hlast => congrArg _ (afterData_last hlast)⟩

end Sys2Proof.Machine
end

section
/-! The end of setup (R205 to R208): what the last answer of the configuration block's read makes of the part. -/

namespace Sys2Proof.Machine

/-- The parts that a write handed to the queue leaves alone when no job owns it: all but the queue, the writes that wait and
the number of the next write (R214, R216). -/
theorem handWrite_frame_of_no_job {w : WriteAsk} (howner : ∀ j t r o, w.owner ≠ .job j t r o) (s : State) :
    ∃ writes waits n, handWrite w s =
      { s with hlu := { s.hlu with writeQueue := writes, waiting := waits, writeSerial := n } } := by
  unfold handWrite
  split
  · exact ⟨_, _, _, rfl⟩
  · dsimp only
    rw [trackWrite_of_no_job howner]
    split <;> exact ⟨_, _, _, rfl⟩

section
variable (bs : List Byte) (s : State)

theorem setupArrived_failed (h : setupCheck (readBytes s.hlu.setupBuf 0 512) ≠ .success) :
    setupArrived s = setupFailed (setupCheck (readBytes s.hlu.setupBuf 0 512)) s := by
  unfold setupArrived
  dsimp only
  split
  · next hsuccess => exact absurd hsuccess h
  · rfl

theorem setupArrived_succeeded (h : setupCheck (readBytes s.hlu.setupBuf 0 512) = .success) :
    setupArrived s = setupSucceeded (readBytes s.hlu.setupBuf 0 512) s := by
  unfold setupArrived
  dsimp only
  rw [h]

/-- The part once a configuration block has passed every check, before the progress block is zeroed (R207). -/
def configured : State :=
  { s with
    hlu := { s.hlu with engine := .running, setupResult := .success, latched := none, setupBuf := [] }
    qm := { s.qm with
      sqs := mapAll (sqDescriptor bs) (allIndices 8), cqs := mapAll (cqDescriptor bs) (allIndices 8)
      lastUrgent := none, lastNormal := none, progressBase := BitVec.ofNat 64 (progressField bs) } }

/-- The zeroing write of the progress block (R207). -/
def zeroingAsk : WriteAsk where
  writer := .linkUnit
  owner := .progressBlock
  addr := BitVec.ofNat 64 (progressField bs)
  data := List.replicate 64 0

theorem setupSucceeded_eq : setupSucceeded bs s = handWrite (zeroingAsk bs) (configured bs s) := rfl

theorem configured_sq (q : SqNo) : (configured bs s).sq q = sqDescriptor bs q :=
  (mapAll_get ..).trans (by rw [allIndices_get])

theorem configured_cq (c : CqNo) : (configured bs s).cq c = cqDescriptor bs c :=
  (mapAll_get ..).trans (by rw [allIndices_get])

theorem zeroingAsk_no_job (j : SlotNo) (t r o : Nat) : (zeroingAsk bs).owner ≠ .job j t r o := Owner.noConfusion

/-- What a setup that succeeds adds to the configured part stands in the queues of writes. -/
theorem setupSucceeded_frame : ∃ writes waits n, setupSucceeded bs s =
    { configured bs s with
      hlu := { (configured bs s).hlu with writeQueue := writes, waiting := waits, writeSerial := n } } :=
  handWrite_frame_of_no_job (zeroingAsk_no_job bs) _

theorem setupSucceeded_writeQueue (hwrites : s.hlu.writeQueue = []) (hwaits : s.hlu.waiting = []) :
    (setupSucceeded bs s).hlu.writeQueue =
      [{ serial := s.hlu.writeSerial, writer := .linkUnit, owner := .progressBlock
         addr := BitVec.ofNat 64 (progressField bs), data := List.replicate 64 0, vector := none, issued := 0 }] := by
  have room : (configured bs s).hlu.writeQueue.length < 64 := by
    change s.hlu.writeQueue.length < 64
    rw [hwrites]
    exact Nat.zero_lt_succ _
  rw [setupSucceeded_eq, handWrite_of_no_job EngineState.noConfusion room hwaits (zeroingAsk_no_job bs)]
  exact congrArg (· ++ _) hwrites

end

/-- Settles O20: the last answer tells setup, whose checks decide; the zeroing write adds to the write queue only. -/
theorem configurationBlockEndsSetup : Obligations.ConfigurationBlockEndsSetup := by
  intro tag f data u s htag hlive hwho hlen hlast _ freed bs
  let placed : State :=
    { freed with hlu := { freed.hlu with setupBuf := writeBytes s.hlu.setupBuf f.read.place data } }
  have hplaced : placeData f.read data freed = placed := by
    rw [placeData, hwho]
    rfl
  have told : exec (.linkReadAnswer tag f.stamp data u) s = .next (quiesce (setupArrived placed)) := by
    rw [linkReadAnswer_wanted u htag hlive hlen, hplaced, hwho]
    exact congrArg _ (afterData_last hlast)
  refine ⟨fun hbad => ?failed, fun hgood => ⟨setupSucceeded bs placed, ?run, ?filled⟩⟩
  case failed =>
    rw [told, setupArrived_failed placed hbad, quiesce_setupFailed]
    rfl
  case run => rw [told, setupArrived_succeeded placed hgood]
  case filled =>
    have zeroing := setupSucceeded_writeQueue bs placed
    obtain ⟨writes, waits, n, frame⟩ := setupSucceeded_frame bs placed
    rw [frame] at zeroing ⊢
    exact ⟨configured_sq bs placed, configured_cq bs placed, rfl, rfl, rfl, rfl, rfl, rfl, rfl, zeroing,
      rfl, rfl, rfl, rfl, rfl, rfl⟩

end Sys2Proof.Machine
end

section
/-! The queue of waiting commands (log 1): a step takes its front command, and the command leaves the rest as it stands. -/

namespace Sys2Proof.Machine

/-! ### Taking the front command -/

theorem step_cons (c : Instr) (rest : List Instr) (s : State) :
    step { s with pending := c :: rest } = exec c { s with pending := rest } := rfl

theorem step_idle {s : State} (h : s.pending = []) : step s = .next s := by
  rw [step, h]

/-- Settles O1: the two cases of `step`, by the front of the queue. -/
theorem stepTakesFrontCommand : Obligations.StepTakesFrontCommand :=
  ⟨step_cons, fun _ => step_idle⟩

/-! ### What a command leaves of the queue -/

theorem askRead_pending (who part addr len place) (s : State) :
    (askRead who part addr len place s).pending = s.pending := by
  unfold askRead
  split <;> rfl

theorem handWrite_pending (w : WriteAsk) (s : State) : (handWrite w s).pending = s.pending := by
  obtain same | ⟨e, n, settle, -, joined⟩ | ⟨e, n, settle, -, waits⟩ := handWrite_cases w s
  · rw [same]
  · rw [joined]
  · rw [waits]

theorem admitWaiting_pending (s : State) : (admitWaiting s).2.pending = s.pending := by
  by_cases hnone : s.hlu.waiting = []
  · rw [admitWaiting_of_none hnone]
  · obtain ⟨w, before, after, n, -, -, hadmit⟩ := admitWaiting_of_some hnone
    rw [hadmit]

/-- An elementary move changes a block of the part or a counter of the model, and the queue is neither. -/
theorem Move.pending_eq {s t : State} (m : Move s t) : t.pending = s.pending := by
  cases m with
  | ask who part addr len place => exact askRead_pending who part addr len place s
  | hand w => exact handWrite_pending w s
  | leave e rest ops h => exact admitWaiting_pending _
  | job | unit | sq | cq | chain | layout | table | group | settle | freeTag | protocol | engine | strike | drop | dropRest
    | setup | setupData | configure | posting | granted | takes | sch | ls | cts | choice | halt | issueRead | issuePart => rfl

theorem Moves.pending_eq {s t : State} (h : Moves s t) : t.pending = s.pending :=
  h.keep (P := fun u => u.pending = s.pending) (fun _ _ m kept => m.pending_eq.trans kept) rfl

/-- The four resets and the writes to the setup address registers name every field that they replace, and the queue is none
of them. -/
theorem Replaces.pending_eq {i : Instr} {s t : State} (r : Replaces i s t) : t.pending = s.pending := by
  cases r with
  | reset | clear | powerOn | registers => rfl

/-- Settles O2: a command is a chain of elementary moves, or replaces the part's state in one go. -/
theorem commandsLeaveQueueAlone : Obligations.CommandsLeaveQueueAlone := by
  intro i s t hexec
  obtain moves | replaces := exec_reaches hexec
  · exact moves.pending_eq
  · exact replaces.pending_eq

end Sys2Proof.Machine
end
